-- ==== Sys2Proof/Word.lean ====
section
/-! DEFINITION. The number types of the SC-86: what the link carries as bytes, what the reference numbers. -/

namespace Sys2Proof

/-- A byte on the control link or in the retained store. -/
abbrev Byte := BitVec 8

/-- A 16-bit identifier: network id, stream id, service number. -/
abbrev Half := BitVec 16

/-- A survey-clock reading: seconds since the last restart, 32 bits. -/
abbrev Time := BitVec 32

/-- A receive lane, 0 to 7. -/
abbrev Lane := Fin 8

/-- A feed, A to F, as 0 to 5. -/
abbrev Feed := Fin 6

/-- A cell by its position in the order A-0 to A-95, B-0, ... F-95 (R146). Lower positions have the
lower feed letter first and then the lower index, which is the order of every tie in the reference. -/
abbrev CellRef := Fin 576

/-- A service slot, 0 to 511. -/
abbrev SlotNo := Fin 512

/-- The twelve condition flags, bit n the n-th condition of Table 10.1. -/
abbrev Flags12 := BitVec 12

end Sys2Proof
end

