-- ==== Sys2Proof/Syntax.lean ====
section
/-! DEFINITION. The commands of the SC-86: one constructor per row of spec/opcode_table.json, with the
operands each carries. A request row carries the frame that brings it; the row itself fixes the kind byte. -/

namespace Sys2Proof

/-- The bytes of a request frame that its kind does not fix: address, tag and payload (Table 11.6). The
length field is the payload's length. -/
structure Req where
  addr    : Byte
  tag     : Byte
  payload : List Byte
  deriving DecidableEq, Repr

/-- The kind of a service (R71). -/
inductive Kind where
  | tv
  | radio
  | data
  deriving DecidableEq, Repr

/-- One service entry of a roster section (R71). The characters of a name are its bytes. -/
structure Entry where
  service   : Half
  kind      : Kind
  name      : List Byte
  scrambled : Bool
  deriving DecidableEq, Repr

/-- One roster section as the demodulator delivers it (Table 5.1). -/
structure Section where
  net     : Half
  stream  : Half
  version : Fin 32
  number  : Fin 16
  last    : Fin 16
  entries : List Entry
  deriving DecidableEq, Repr

/-- The cause of a front-end fault (R38). -/
inductive LaneFaultCause where
  | synthesiser
  | converter
  deriving DecidableEq, Repr

/-- How the bytes of a foreign frame end (R164). -/
inductive FrameEnd where
  | whole                             -- followed to its end by its length field
  | badLength (length : Byte)         -- the length field is above 240
  | stopped (received : List Byte)    -- the bytes after the address stop for more than 5 ms
  deriving DecidableEq, Repr

/-- What the store memory took otherwise than it was given in a page write: offset and the byte it holds. -/
abbrev Flaws := List (Fin 256 × Byte)

/-- What a restart finds outside the controller: the straps it samples (R163, R165) and, when a page write
is under way, how many bytes the write had placed and how the memory holds them (R181). -/
structure RestartIn where
  straps : BitVec 5
  speed  : Bool
  placed : Nat
  flaws  : Flaws
  deriving DecidableEq, Repr

/-- The commands, in the order of spec/opcode_table.json. -/
inductive Instr where
  | identify (f : Req)
  | restart (f : Req)
  | restartReplySent (r : RestartIn)
  | setAcceptSet (f : Req)
  | setLinkMode (f : Req)
  | readLinkLog (f : Req)
  | clearLinkFault (f : Req)
  | readConditions (f : Req)
  | setNoticeMask (f : Req)
  | setFeed (f : Req)
  | readFeed (f : Req)
  | setProfile (f : Req)
  | readProfiles (f : Req)
  | openRasterPage (f : Req)
  | putCells (f : Req)
  | writeRasterPage (f : Req)
  | closeRasterPage (f : Req)
  | readCell (f : Req)
  | setAdmission (f : Req)
  | readAdmission (f : Req)
  | parkLane (f : Req)
  | unparkLane (f : Req)
  | setLaneOptions (f : Req)
  | setTimers (f : Req)
  | readTimers (f : Req)
  | readLane (f : Req)
  | startSurvey (f : Req)
  | haltSurvey (f : Req)
  | setSurveyMode (f : Req)
  | continueSurvey (f : Req)
  | clearSurvey (f : Req)
  | readSurvey (f : Req)
  | setWatchPolicy (f : Req)
  | readWatchPolicy (f : Req)
  | spotMeasure (f : Req)
  | renewHold (f : Req)
  | releaseHold (f : Req)
  | readSpotResults (f : Req)
  | listServices (f : Req)
  | readService (f : Req)
  | forgetService (f : Req)
  | setRankingPolicy (f : Req)
  | readRankingPolicy (f : Req)
  | pinSource (f : Req)
  | unpin (f : Req)
  | takeAdvice (f : Req)
  | saveSnapshot (f : Req)
  | eraseStore (f : Req)
  | readStoreStatus (f : Req)
  | unknownKind (kind : Byte) (f : Req)
  | replyKindDiscarded (kind : Byte) (f : Req)
  | broadcastDiscarded (kind : Byte) (f : Req)
  | foreignFrame (kind : Byte) (f : Req) (ending : FrameEnd)
  | checkFault (kind : Byte) (check : Byte) (f : Req)
  | framingLengthFault (addr : Byte) (length : Byte)
  | framingGapTimeout (addr : Byte) (received : List Byte)
  | addressWaitTimeout
  | quietSilenceEnd
  | overrun
  | grant
  | watchDue (c : CellRef)
  | lockArrival (l : Lane)
  | lockTimerExpiry (l : Lane)
  | probeWindowExpiry (l : Lane) (errors : Nat)
  | frontEndReading (l : Lane) (mer : Int) (level : Int) (load : Fin 1001) (blocks : Nat)
  | measureTimerExpiry (l : Lane)
  | lockLoss (l : Lane)
  | rosterSection (l : Lane) (sec : Section)
  | gapTimerExpiry (l : Lane)
  | dwellLimitExpiry (l : Lane)
  | frontEndFault (l : Lane) (cause : LaneFaultCause)
  | holdRefreshExpiry (l : Lane)
  | holdExpiry (l : Lane)
  | forgetCheck
  | pageEraseComplete
  | pageWriteComplete (flaws : Flaws)
  | powerOn (r : RestartIn)
  | restartLine (r : RestartIn)
  | startUpEnd
  | replySent
  deriving DecidableEq, Repr

end Sys2Proof
end

