-- ==== Sys2Proof/Decode.lean ====
section
/-! DEFINITION. The words of the opcode table. Every row of spec/opcode_table.json has an empty "fields"
list and no "fixed" bits: the table spells no command by the bits of a word, so no word decodes. The
commands of the link travel in frames, whose layout Machine/Link.lean models. -/

namespace Sys2Proof

/-- The command that a word spells by the table's bits: the table gives no row any bits. -/
def decodeTableWord (_nbits _w : Nat) : Option Instr := none

end Sys2Proof
end

