-- ==== Sys2Proof/Config.lean ====
section
/-! DEFINITION. What one SC-86 fixes and the reference does not say: uninterpreted constants. Nothing in
Lean can evaluate them, so a claim holds whatever they are. A drawn value takes the state's draw counter,
so that two draws may differ. -/

namespace Sys2Proof.Config

/-- The format word that a written header carries (R177). A `Fin 65535`, so never 0xFFFF, which is how an
erased word reads. Log 7. -/
opaque formatWord : Fin 65535

/-- The length in bytes, less one, of the content of the image captured at the given draw (R176: internal
to the controller). At most 163 pages of 256 bytes. Log 7. -/
opaque imageLength : Nat → Fin 41728

/-- The bytes of the content of the image captured at the given draw, by offset (R176). Log 7. -/
opaque imageByte : Nat → Nat → Byte

/-- The mean MER that a lane forms from no reading at all (R28 says at least five arrive). Log 11. -/
opaque emptyMer : Nat → Fin 401

/-- The mean level, less 20, that a lane forms from no reading at all. Log 11. -/
opaque emptyLevel : Nat → Fin 91

/-- The mean correction load that a lane forms from no reading at all. Log 11. -/
opaque emptyLoad : Nat → Fin 1001

/-- The address straps that the restart at the given draw samples (R165, R174: a unit may be restrapped while
running). Log 5. -/
opaque foundStraps : Nat → BitVec 5

/-- The speed strap that the restart at the given draw samples (R163). Log 5. -/
opaque foundSpeed : Nat → Bool

/-- How many bytes a page write under way had placed when the restart at the given draw came (R181). Log 5. -/
opaque foundPlaced : Nat → Fin 257

/-- How the memory holds the bytes so placed, where it differs from what was written (R181). Log 5. -/
opaque foundFlaws : Nat → List (Fin 256 × Byte)

end Sys2Proof.Config
end

