-- ==== Sys2Proof/Machine/State.lean ====
section
/-! DEFINITION. Everything the SC-86 holds, as plain data, and its value right after a restart. Blocks of
the machine are structures of their own, so that an operation's type says which blocks it can change. -/

namespace Sys2Proof.Machine

/-- The block has no fault that stops it: link faults, lane faults and store failures are state (R168, R38,
R179). The type has no constructor. -/
inductive Fault where
  deriving DecidableEq, Repr

/-- A command that has no meaning. Raised by nothing in this model: every arm of `exec` has a meaning. Safe. -/
inductive Refusal where
  /-- Raised by an arm of `exec` whose command is not modelled; safe: the machine stops. -/
  | notModelled (mnemonic : String)
  deriving DecidableEq, Repr

/-! ## Settings (R176 part 1) -/

/-- A frequency range of a feed in kHz (R1). -/
structure Window where
  base  : Nat
  limit : Nat
  deriving DecidableEq, Repr

/-- A feed record (R1). -/
structure FeedRec where
  enable   : Bool
  priority : Nat
  w1       : Window
  w2       : Window
  deriving DecidableEq, Repr

/-- The shared stage timer settings (Table 2.3). -/
structure TimerSet where
  lock     : Nat
  gap      : Nat
  dwell    : Nat
  interval : Nat
  deriving DecidableEq, Repr

/-- The watch policy (R144). -/
structure WatchPolicy where
  chosenInterval : Nat
  watchInterval  : Nat
  share          : Nat
  holdLimit      : Nat
  deriving DecidableEq, Repr

/-- The ranking policy (R109). -/
structure Policy where
  margin  : Nat
  confirm : Nat
  lost    : Nat
  forget  : Nat
  lvmin   : Nat
  lvmax   : Nat
  deriving DecidableEq, Repr

/-- A range of network ids (R81). -/
structure NetRange where
  first : Half
  last  : Half
  deriving DecidableEq, Repr

/-- The admission settings (R81). -/
structure Admission where
  r1    : NetRange
  r2    : NetRange
  r3    : NetRange
  r4    : NetRange
  tv    : Bool
  radio : Bool
  data  : Bool
  deriving DecidableEq, Repr

/-- The settings that requests and start-up change and the survey only reads. -/
structure Settings where
  feeds     : Vector FeedRec 6
  profiles  : Vector Nat 8
  timers    : TimerSet
  watch     : WatchPolicy
  policy    : Policy
  admission : Admission
  deriving DecidableEq, Repr

/-! ## The cell table -/

/-- A cell definition (R10). -/
structure CellDef where
  freq      : Nat
  bandwidth : Nat
  profile   : Nat
  deriving DecidableEq, Repr

/-- The reception states (Table 1.3). -/
inductive CellState where
  | vacant
  | barred
  | unseen
  | empty
  | lit
  | part
  | dark
  | lost
  deriving DecidableEq, Repr

/-- The visit outcomes (Table 2.5). -/
inductive VisitOutcome where
  | lit
  | part
  | unstable
  | cut
  | dark
  | faded
  | fault
  | abandoned
  deriving DecidableEq, Repr

/-- The stored roster values of a cell (R87). -/
structure RosterTag where
  net     : Half
  stream  : Half
  version : Fin 32
  deriving DecidableEq, Repr

/-- A cell record (Table 1.2). `lastOutcome` none is NONE. -/
structure Cell where
  defn        : CellDef
  state       : CellState
  q           : Option Nat
  lastScore   : Option Nat
  fails       : Nat
  lastOutcome : Option VisitOutcome
  lastTime    : Time
  roster      : Option RosterTag
  margin      : Option Nat
  due         : Option Time
  refused     : Nat
  engaged     : Option Lane
  deriving DecidableEq, Repr

/-- The raster staging buffer (R11). `staged` holds positions 0 to pointer - 1; the pointer is its length. -/
structure Staging where
  page   : Option (Feed × Fin 6)
  staged : List CellDef
  deriving DecidableEq, Repr

/-! ## The lanes -/

/-- The lane states (Table 2.2). -/
inductive LaneState where
  | parked
  | idle
  | tuning
  | trimming
  | measuring
  | reading
  | held
  | faulted
  deriving DecidableEq, Repr

/-- The visit classes (R25). -/
inductive VisitClass where
  | sweep
  | watch
  | spot
  deriving DecidableEq, Repr

/-- The spot terms of a visit (Table 2.1). -/
structure SpotTerms where
  trim   : Bool
  hold   : Nat
  ticket : Byte
  deriving DecidableEq, Repr

/-- The settings a lane latches at its grant (Table 2.1): periods in ms, the gap period none when disabled. -/
structure Latched where
  lock     : Nat
  gap      : Option Nat
  dwell    : Nat
  interval : Nat
  deriving DecidableEq, Repr

/-- Trim reach (R41). -/
inductive Reach where
  | narrow
  | wide
  deriving DecidableEq, Repr

/-- Trim step, 1 or 2 (R41). -/
inductive TrimStep where
  | one
  | two
  deriving DecidableEq, Repr

/-- A lane's trim options (R41). -/
structure Options where
  reach : Reach
  step  : TrimStep
  limit : Byte
  deriving DecidableEq, Repr

/-- The phases of a trim sweep (R44). -/
inductive TrimPhase where
  | idle
  | centre
  | upward
  | downward
  deriving DecidableEq, Repr

/-- A trim unit (R44). `upEnd` is the model's own: it marks that the upward run reached its last position (R48). -/
structure TrimUnit where
  phase  : TrimPhase
  opts   : Option Options
  offset : Option Int
  count  : Nat
  high   : Option Int
  low    : Option Int
  upEnd  : Bool
  deriving DecidableEq, Repr

/-- What a finished sweep hands the lane (R51). -/
inductive TrimResult where
  | edges (low high centre : Int) (margin : Nat)
  | centreFailed
  deriving DecidableEq, Repr

/-- The readings gathered so far: their number, the sums of the clamped values, the block count (R28). -/
structure Gathered where
  n      : Nat
  mer    : Nat
  level  : Nat
  load   : Nat
  blocks : Nat
  deriving DecidableEq, Repr

/-- A complete measurement (R28). -/
structure Measurement where
  level  : Nat
  mer    : Nat
  load   : Nat
  blocks : Nat
  deriving DecidableEq, Repr

/-- The identity of a roster edition (R71). -/
structure SectionId where
  net     : Half
  stream  : Half
  version : Fin 32
  last    : Fin 16
  deriving DecidableEq, Repr

/-- A roster collector (R73). `held` is ordered by section number. -/
structure Collector where
  collecting : Bool
  ident      : Option SectionId
  held       : List (Fin 16 × List Entry)
  changes    : Nat
  gap        : Option Nat
  deriving DecidableEq, Repr

/-- The roster summary of a measurement record (R80). -/
structure Summary where
  net       : Half
  stream    : Half
  version   : Fin 32
  held      : Nat
  expected  : Nat
  unchanged : Bool
  deriving DecidableEq, Repr

/-- The hold field of a measurement record (R34). -/
inductive HoldNote where
  | none
  | taken
  | refused
  deriving DecidableEq, Repr

/-- A measurement record (Table 2.6). -/
structure Record where
  lane    : Lane
  cell    : CellRef
  cls     : VisitClass
  outcome : VisitOutcome
  start   : Time
  stop    : Time
  lock    : Bool
  meas    : Option Measurement
  trim    : Option TrimResult
  score   : Option Nat
  roster  : Option Summary
  hold    : HoldNote
  deriving DecidableEq, Repr

/-- The live reading of a hold (R151). -/
structure LiveReading where
  lock   : Bool
  level  : Option Nat
  mer    : Option Nat
  load   : Option Nat
  blocks : Nat
  deriving DecidableEq, Repr

/-- A lane record (Table 2.1) with the lane's timers (running with a period, or stopped), what it has noted
of the visit in flight, its trim unit and its roster collector. `lockNow` and `lockHeld` are the front end's
lock during a hold and whether it held since the refresh timer last started (R151). -/
structure LaneRec where
  state        : LaneState
  cell         : Option CellRef
  cls          : Option VisitClass
  terms        : Option SpotTerms
  start        : Option Time
  latched      : Option Latched
  offset       : Int
  options      : Options
  pendingOpts  : Option Options
  record       : Option Record
  holdExpiry   : Option Time
  live         : Option LiveReading
  fault        : Option (LaneFaultCause × Time)
  lockTimer    : Option Nat
  dwellTimer   : Option Nat
  measureTimer : Option Nat
  refreshTimer : Option Nat
  lockNoted    : Bool
  trimResult   : Option TrimResult
  meas         : Option Measurement
  gathered     : Gathered
  lockNow      : Bool
  lockHeld     : Bool
  trim         : TrimUnit
  collector    : Collector
  deriving DecidableEq, Repr

/-! ## The service directory and the advice queue -/

/-- The states of a service slot (Table 6.2). -/
inductive SlotState where
  | free
  | provisional
  | live
  | orphan
  | retiring
  deriving DecidableEq, Repr

/-- A service key (R71). -/
structure Key where
  net     : Half
  service : Half
  deriving DecidableEq, Repr

/-- The reasons of a change of chosen source (Table 8.2). -/
inductive Reason where
  | newService
  | failover
  | improvement
  | pinApplied
  | pinRestored
  | noSource
  | serviceGone
  deriving DecidableEq, Repr

/-- The advice states (R126). -/
inductive AdviceState where
  | none
  | queued
  | owed
  deriving DecidableEq, Repr

/-- A service slot record (Table 6.1). Its sightings are the pool's entries that name it. A sighting of a
slot is named by its cell, since a slot has at most one sighting on a cell (R91). -/
structure Slot where
  state       : SlotState
  key         : Option Key
  kind        : Option Kind
  name        : List Byte
  scrambled   : Bool
  chosen      : Option CellRef
  reason      : Option Reason
  reported    : Option CellRef
  pin         : Option CellRef
  suspended   : Bool
  challenger  : Option (CellRef × Nat)
  advice      : AdviceState
  orphanSince : Option Time
  created     : Time
  deriving DecidableEq, Repr

/-- A sighting (Table 6.3). -/
structure Sighting where
  slot      : SlotNo
  cell      : CellRef
  stream    : Half
  scrambled : Bool
  version   : Option (Fin 32)
  created   : Time
  confirmed : Time
  deriving DecidableEq, Repr

/-- An advice record (Table 8.1). -/
structure Advice where
  slot   : SlotNo
  key    : Option Key
  origin : Option CellRef
  target : Option CellRef
  reason : Option Reason
  q      : Option Nat
  deriving DecidableEq, Repr

/-- The service table, the sighting pool, the advice queue (oldest first) and the recall grace flag. -/
structure Dir where
  slots : Vector Slot 512
  pool  : List Sighting
  queue : List Advice
  grace : Bool
  deriving DecidableEq, Repr

/-! ## The survey engine -/

/-- The survey states (Table 9.1). -/
inductive SurveyState where
  | stopped
  | running
  | paused
  | draining
  deriving DecidableEq, Repr

/-- A spot entry (R142). -/
structure SpotEntry where
  ticket : Byte
  cell   : CellRef
  trim   : Bool
  hold   : Nat
  deriving DecidableEq, Repr

/-- A spot result (R154). -/
structure SpotResult where
  ticket  : Byte
  cell    : CellRef
  trim    : Bool
  hold    : Nat
  outcome : VisitOutcome
  time    : Time
  record  : Option Record
  deriving DecidableEq, Repr

/-- The survey engine (R137, R142, R146, R154). `stepped` has bit n for lane n; `spots` is oldest first,
`results` newest first. -/
structure Survey where
  state      : SurveyState
  stepMode   : Bool
  autoResume : Bool
  stepped    : BitVec 8
  passes     : Half
  share      : Nat
  ticket     : Byte
  cursor     : CellRef
  spots      : List SpotEntry
  results    : List SpotResult
  deriving DecidableEq, Repr

/-! ## Conditions and the attention output -/

/-- The condition set, the notice mask and the attention output (R157 to R161). `startUp`: start-up is in
progress, during which the output stays released (R161). -/
structure Notice where
  conds     : Flags12
  mask      : Flags12
  startUp   : Bool
  attention : Bool
  deriving DecidableEq, Repr

/-- The part of the machine that the survey works on: no link, store, setting or staging in it. -/
structure Plant where
  cells  : Vector Cell 576
  lanes  : Vector LaneRec 8
  dir    : Dir
  survey : Survey
  notice : Notice
  deriving DecidableEq, Repr

/-! ## The control link -/

/-- The receiver states (R164). A frame reaches the model whole, so FRAME is held only by a receiver that
stays with an answered frame. -/
inductive Receiver where
  | deaf
  | hunt
  | frame
  | quiet
  deriving DecidableEq, Repr

/-- Link modes (R170). -/
inductive LinkMode where
  | strict
  | lenient
  deriving DecidableEq, Repr

/-- Causes of a link fault (R168). -/
inductive LinkFaultCause where
  | check
  | framing
  | overrun
  deriving DecidableEq, Repr

/-- A link fault record (R169). -/
structure LinkFault where
  cause  : LinkFaultCause
  addr   : Byte
  length : Option Byte
  kind   : Option Byte
  tag    : Option Byte
  time   : Time
  deriving DecidableEq, Repr

/-- Reply statuses (Table 11.1). -/
inductive Status where
  | ok
  | busy
  | badValue
  | wrongState
  | full
  | unknown
  | halted
  deriving DecidableEq, Repr

/-- A frame of the link, less its sync and check bytes, which follow from it (Table 11.6). -/
structure Frame where
  addr    : Byte
  kind    : Byte
  tag     : Byte
  payload : List Byte
  deriving DecidableEq, Repr

/-- An answered request and its reply, from the end of the request's check byte to the end of the reply. -/
structure Answering where
  request : Frame
  reply   : Frame
  deriving DecidableEq, Repr

/-- The control link. `restartOwed`: the reply being given is the one to an executed Restart request, and the restart
follows it (R174; log 5). -/
structure Link where
  rx          : Receiver
  speed       : Bool
  strap       : BitVec 5
  added       : List Byte
  mode        : LinkMode
  log         : Option LinkFault
  answering   : Option Answering
  driver      : Bool
  restartOwed : Bool
  deriving DecidableEq, Repr

/-! ## The retained store -/

/-- Store status (R177). -/
inductive StoreStatus where
  | blank
  | valid
  | saving
  deriving DecidableEq, Repr

/-- Where an accepted save stands (R179): which page is being erased or written, and whether again. -/
inductive SaveStage where
  | eraseHeader
  | erasePage (k : Fin 256) (again : Bool)
  | writePage (k : Fin 256) (again : Bool)
  | writeHeader (again : Bool)
  | eraseHeaderAgain
  | eraseAfterFail
  deriving DecidableEq, Repr

/-- The page writer (R177). -/
inductive Writer where
  | idle
  | saving (stage : SaveStage)
  | erasing
  deriving DecidableEq, Repr

/-- A saved service (R176 part 3). -/
structure SavedService where
  key      : Option Key
  kind     : Option Kind
  name     : List Byte
  reported : Option CellRef
  pin      : Option CellRef
  deriving DecidableEq, Repr

/-- A saved sighting (R176 part 4): the position of its service among the saved services. -/
structure SavedSighting where
  service : Nat
  cell    : CellRef
  stream  : Half
  deriving DecidableEq, Repr

/-- The image (R176). -/
structure Image where
  settings   : Settings
  options    : Vector Options 8
  stepMode   : Bool
  autoResume : Bool
  mode       : LinkMode
  added      : List Byte
  mask       : Flags12
  raster     : Vector CellDef 576
  services   : List SavedService
  sightings  : List SavedSighting
  deriving DecidableEq, Repr

/-- The capture buffer (R178): the image and its bytes, a whole number of pages. -/
structure Capture where
  image : Image
  bytes : List Byte
  deriving DecidableEq, Repr

/-- The retained store. `mem` is the 64 KiB memory as a list of cells with rising addresses and no entry
0xFF. `image` is the model's own: the image that the bytes of pages 1 to N spell (log 8). -/
structure Store where
  mem        : List Host.Cell
  image      : Image
  status     : StoreStatus
  writer     : Writer
  verified   : Nat
  saveCount  : Half
  capture    : Option Capture
  failNoted  : Bool
  deriving DecidableEq, Repr

/-- The whole machine. `draws` is the model's own: how many free values were drawn (log 11). `pending` is
the queue of waiting commands, first in, first out. -/
structure State where
  settings : Settings
  plant    : Plant
  staging  : Staging
  link     : Link
  store    : Store
  clock    : Time
  draws    : Nat
  pending  : List Instr
  deriving DecidableEq, Repr

/-! ## Restart values -/

/-- Restart value of a feed record (R1). -/
def FeedRec.atRestart : FeedRec := { enable := true, priority := 4, w1 := ⟨0, 0⟩, w2 := ⟨0, 0⟩ }

/-- Restart values of the settings (R1, R8, R22, R144, R109, R81). -/
def Settings.atRestart : Settings :=
  { feeds := Vector.replicate 6 FeedRec.atRestart
    profiles := #v[150, 180, 200, 220, 250, 280, 300, 330]
    timers := { lock := 8, gap := 10, dwell := 13, interval := 200 }
    watch := { chosenInterval := 20, watchInterval := 120, share := 3, holdLimit := 2 }
    policy := { margin := 40, confirm := 2, lost := 3, forget := 60, lvmin := 45, lvmax := 85 }
    admission :=
      { r1 := ⟨0, 0⟩, r2 := ⟨0, 0⟩, r3 := ⟨0, 0⟩, r4 := ⟨0, 0⟩, tv := true, radio := true, data := false } }

/-- The vacant definition (R10). -/
def CellDef.vacant : CellDef := { freq := 0, bandwidth := 8, profile := 0 }

/-- Restart value of a cell record (Table 1.2). -/
def Cell.atRestart : Cell :=
  { defn := CellDef.vacant, state := .vacant, q := none, lastScore := none, fails := 0, lastOutcome := none
    lastTime := 0, roster := none, margin := none, due := none, refused := 0, engaged := none }

/-- Restart value of a lane's options (Table 2.1). -/
def Options.atRestart : Options := { reach := .narrow, step := .one, limit := 4 }

/-- An idle trim unit (R44), at restart and on every return to IDLE. The rule gives its offset, count and edges; that
the copied options are then absent and the reached-end mark no is DESIGN CHOICE, log 31. -/
def TrimUnit.idle : TrimUnit :=
  { phase := .idle, opts := none, offset := none, count := 0, high := none, low := none, upEnd := false }

/-- No reading gathered. -/
def Gathered.empty : Gathered := { n := 0, mer := 0, level := 0, load := 0, blocks := 0 }

/-- An idle roster collector (R73). -/
def Collector.idle : Collector :=
  { collecting := false, ident := none, held := [], changes := 0, gap := none }

/-- Restart value of a lane record (Table 2.1). -/
def LaneRec.atRestart : LaneRec :=
  { state := .idle, cell := none, cls := none, terms := none, start := none, latched := none, offset := 0
    options := Options.atRestart, pendingOpts := none, record := none, holdExpiry := none, live := none
    fault := none, lockTimer := none, dwellTimer := none, measureTimer := none, refreshTimer := none
    lockNoted := false, trimResult := none, meas := none, gathered := Gathered.empty, lockNow := false
    lockHeld := false, trim := TrimUnit.idle, collector := Collector.idle }

/-- A FREE slot (Table 6.1). -/
def Slot.empty : Slot :=
  { state := .free, key := none, kind := none, name := [], scrambled := false, chosen := none, reason := none
    reported := none, pin := none, suspended := false, challenger := none, advice := .none
    orphanSince := none, created := 0 }

/-- Restart value of the directory (R88, R90, R126, R119). -/
def Dir.atRestart : Dir :=
  { slots := Vector.replicate 512 Slot.empty, pool := [], queue := [], grace := true }

/-- Restart value of the survey engine (R137, R142, R146, R154). -/
def Survey.atRestart : Survey :=
  { state := .stopped, stepMode := false, autoResume := true, stepped := 0, passes := 0, share := 0
    ticket := 0, cursor := 0, spots := [], results := [] }

/-- Restart value of the condition set, the notice mask and the attention output (R157, R159, R161). The
mask unmasks ADVICE_READY (bit 0), LANE_FAULT (5), LINK_FAULT (8) and STORE_FAIL (10). -/
def Notice.atRestart : Notice := { conds := 0, mask := 0x521#12, startUp := true, attention := false }

/-- Restart value of the survey's part of the machine. -/
def Plant.atRestart : Plant :=
  { cells := Vector.replicate 576 Cell.atRestart, lanes := Vector.replicate 8 LaneRec.atRestart
    dir := Dir.atRestart, survey := Survey.atRestart, notice := Notice.atRestart }

/-- Restart value of the staging buffer (R11). -/
def Staging.atRestart : Staging := { page := none, staged := [] }

/-- Restart value of the link for the sampled straps (R163 to R165, R169, R170). -/
def Link.atRestart (straps : BitVec 5) (speed : Bool) : Link :=
  { rx := .deaf, speed := speed, strap := straps, added := [], mode := .strict, log := none
    answering := none, driver := false, restartOwed := false }

/-- An image of the restart values: the placeholder of `Store.image` before the first save (log 8). -/
def Image.atRestart : Image :=
  { settings := Settings.atRestart, options := Vector.replicate 8 Options.atRestart, stepMode := false
    autoResume := true, mode := .strict, added := [], mask := Notice.atRestart.mask
    raster := Vector.replicate 576 CellDef.vacant, services := [], sightings := [] }

/-- The store block of a machine with the given memory, before its header is read (R183 step 1). -/
def Store.atRestart (mem : List Host.Cell) (image : Image) : Store :=
  { mem := mem, image := image, status := .blank, writer := .idle, verified := 0, saveCount := 0
    capture := none, failNoted := false }

/-- The machine right after a restart with a blank store: start-up is in progress (R183 steps 1 to 3). The
strap values (31: all straps open, internally pulled up; speed strap 0) are DESIGN CHOICE, log 6; the erased
store memory is DESIGN CHOICE, log 7. -/
def State.reset : State :=
  { settings := Settings.atRestart, plant := Plant.atRestart, staging := Staging.atRestart
    link := Link.atRestart 31 false, store := Store.atRestart [] Image.atRestart, clock := 0, draws := 0
    pending := [] }

end Sys2Proof.Machine
end

