-- ==== Sys2Proof/Machine/Flags.lean ====
section
/-! DEFINITION. The condition set, the notice mask and the attention output (chapter 10). Every change of the
set or of the mask goes through `Notice.judge`, which puts the output where R160 and R161 say. -/

namespace Sys2Proof.Machine

/-- The twelve conditions, in the order of Table 10.1, which is the order of their bits (section 11.11). -/
inductive Condition where
  | adviceReady
  | sweepDone
  | spotDone
  | holdExpired
  | stepHalt
  | laneFault
  | directoryFull
  | sightingDropped
  | linkFault
  | storeDone
  | storeFail
  | startDone
  deriving DecidableEq, Repr

/-- The flag of a condition: bit n for the n-th condition of Table 10.1 (section 11.11). -/
def Condition.bit : Condition → Flags12
  | .adviceReady => 0x001#12
  | .sweepDone => 0x002#12
  | .spotDone => 0x004#12
  | .holdExpired => 0x008#12
  | .stepHalt => 0x010#12
  | .laneFault => 0x020#12
  | .directoryFull => 0x040#12
  | .sightingDropped => 0x080#12
  | .linkFault => 0x100#12
  | .storeDone => 0x200#12
  | .storeFail => 0x400#12
  | .startDone => 0x800#12

/-- Where the attention output must stand: driven exactly while some condition is both set and unmasked
(R160), and released through start-up (R161). -/
def Notice.due (n : Notice) : Bool := !n.startUp && n.conds &&& n.mask != 0

/-- Puts the attention output where it must stand. -/
def Notice.judge (n : Notice) : Notice := { n with attention := n.due }

/-- Sets the conditions of the given flags (R157); setting a condition that is set leaves it set. -/
def Notice.raise (n : Notice) (m : Flags12) : Notice := Notice.judge { n with conds := n.conds ||| m }

/-- Clears every condition that is set (R158). -/
def Notice.clear (n : Notice) : Notice := Notice.judge { n with conds := 0 }

/-- Replaces the whole mask (R159). -/
def Notice.setMask (n : Notice) (m : Flags12) : Notice := Notice.judge { n with mask := m }

/-- The end of start-up: the given conditions are set and the line is judged (R161). -/
def Notice.endStartUp (n : Notice) (m : Flags12) : Notice :=
  Notice.judge { n with startUp := false, conds := n.conds ||| m }

/-- Sets conditions in the survey's part of the machine. -/
def Plant.raise (p : Plant) (m : Flags12) : Plant := { p with notice := p.notice.raise m }

/-- Sets conditions. -/
def State.raise (s : State) (m : Flags12) : State := { s with plant := s.plant.raise m }

/-- A lane's bit in a lane mask (section 11.11). -/
def laneBit (l : Lane) : BitVec 8 := 1#8 <<< l.val

end Sys2Proof.Machine
end

