-- ==== Sys2Proof/Machine/Ops.lean ====
section
/-! DEFINITION. The shared operations: reading and writing the fixed tables, choosing the best of a list, and
the byte memory of the retained store. -/

namespace Sys2Proof.Machine

/-- The outcome of a command. -/
abbrev Result := Host.Outcome State Fault Refusal

/-! ## Tables of fixed size -/

/-- The entry of a table. -/
def look {α : Type} {n : Nat} (v : Vector α n) (i : Fin n) : α := v[i.val]

/-- A table with one entry replaced. -/
def put {α : Type} {n : Nat} (v : Vector α n) (i : Fin n) (a : α) : Vector α n := v.set i.val a

/-- The table whose entries a rule gives. -/
def table {α : Type} {n : Nat} (f : Fin n → α) : Vector α n := Vector.ofFn f

/-- How many entries of a table pass a test. -/
def countIn {α : Type} {n : Nat} (v : Vector α n) (p : α → Bool) : Nat := v.toList.countP p

/-- The survey's part of the machine with one cell record replaced. -/
def Plant.setCell (p : Plant) (c : CellRef) (x : Cell) : Plant := { p with cells := put p.cells c x }

/-- The survey's part of the machine with one lane record replaced. -/
def Plant.setLane (p : Plant) (l : Lane) (x : LaneRec) : Plant := { p with lanes := put p.lanes l x }

/-- The directory with one slot record replaced. -/
def Dir.setSlot (d : Dir) (n : SlotNo) (x : Slot) : Dir := { d with slots := put d.slots n x }

/-- The element of a list that no other one betters; of equals, the earliest. -/
def best {α : Type} (better : α → α → Bool) : List α → Option α
  | [] => none
  | x :: xs =>
    match best better xs with
    | none => some x
    | some y => if better y x then some y else some x

/-- Addition that stops at a limit. -/
def satAdd (limit a b : Nat) : Nat := min limit (a + b)

/-! ## Cells and positions (Conventions, R146) -/

/-- The feed of a cell. -/
def feedOf (c : CellRef) : Feed := ⟨c.val / 96, by have := c.isLt; omega⟩

/-- The index of a cell within its feed, 0 to 95. -/
def indexOf (c : CellRef) : Fin 96 := ⟨c.val % 96, by omega⟩

/-- The cell of a feed and an index. -/
def cellAt (f : Feed) (i : Fin 96) : CellRef := ⟨f.val * 96 + i.val, by have := f.isLt; have := i.isLt; omega⟩

/-- The 96 cells of a feed, in order. -/
def feedCells (f : Feed) : List CellRef := (List.finRange 96).map (cellAt f)

/-! ## The store memory (R175) -/

/-- What an unlisted byte reads as: an erased byte (R175). -/
def erasedByte : Byte := 0xFF#8

/-- The canonical form: addresses rise strictly and no entry equals what an unlisted address reads as. -/
def Memory.wf : List Host.Cell → Bool
  | [] => true
  | [(_, v)] => v != erasedByte
  | (a, v) :: (b, w) :: rest => v != erasedByte && decide (a < b) && Memory.wf ((b, w) :: rest)

/-- Reads one byte. -/
def Memory.read (m : List Host.Cell) (a : Nat) : Byte :=
  match m with
  | [] => erasedByte
  | (b, v) :: rest => if a = b then v else Memory.read rest a

/-- Writes one byte, keeping the canonical form. -/
def Memory.write (m : List Host.Cell) (a : Nat) (v : Byte) : List Host.Cell :=
  match m with
  | [] => if v = erasedByte then [] else [(a, v)]
  | (b, w) :: rest =>
    if a < b then (if v = erasedByte then (b, w) :: rest else (a, v) :: (b, w) :: rest)
    else if a = b then (if v = erasedByte then rest else (a, v) :: rest)
    else (b, w) :: Memory.write rest a v

/-- The first address of a page of 256 bytes (R175). -/
def pageBase (k : Fin 256) : Nat := 256 * k.val

/-- Erases one page: each of its bytes reads 0xFF (R175). -/
def Memory.erasePage (m : List Host.Cell) (k : Fin 256) : List Host.Cell :=
  m.filter (fun e => !(pageBase k ≤ e.1 && e.1 < pageBase k + 256))

/-- Writes a run of bytes from an address upward. -/
def Memory.writeRun (m : List Host.Cell) (a : Nat) : List Byte → List Host.Cell
  | [] => m
  | v :: vs => Memory.writeRun (Memory.write m a v) (a + 1) vs

/-- Reads a run of bytes from an address upward. -/
def Memory.readRun (m : List Host.Cell) (a n : Nat) : List Byte :=
  (List.range n).map (fun i => Memory.read m (a + i))

/-- What a page holds when it was given `bytes` and took the flawed offsets otherwise. -/
def takenBytes (bytes : List Byte) (flaws : Flaws) : List Byte :=
  flaws.foldl (fun bs f => bs.set f.1.val f.2) bytes

/-- Writes one page of up to 256 bytes. -/
def Memory.writePage (m : List Host.Cell) (k : Fin 256) (bytes : List Byte) : List Host.Cell :=
  Memory.writeRun m (pageBase k) (bytes.take 256)

/-- Reads one page back (R179). -/
def Memory.readPage (m : List Host.Cell) (k : Fin 256) : List Byte := Memory.readRun m (pageBase k) 256

/-- The sum of bytes modulo 65536 (R177). -/
def byteSum (bs : List Byte) : Half := bs.foldl (fun a b => a + b.setWidth 16) 0

end Sys2Proof.Machine
end

