-- ==== Sys2Proof/Machine/Cells.lean ====
section
/-! DEFINITION. How cells are judged: admission (R2), the visit score (R57 to R60), and the cell's part of a
visit end (R54, R61 to R66). -/

namespace Sys2Proof.Machine

/-! ## Admission (R2) -/

/-- A window is enabled when its base or its limit is non-zero (R2). -/
def Window.enabled (w : Window) : Bool := w.base != 0 || w.limit != 0

/-- An enabled window admits f when base ≤ f ≤ limit (R2). -/
def Window.admits (w : Window) (f : Nat) : Bool := w.enabled && decide (w.base ≤ f) && decide (f ≤ w.limit)

/-- Whether a cell with this definition is admitted under this feed record (R2). -/
def FeedRec.admits (r : FeedRec) (d : CellDef) : Bool :=
  d.freq != 0 && r.enable && ((!r.w1.enabled && !r.w2.enabled) || r.w1.admits d.freq || r.w2.admits d.freq)

/-- The state of a cell that has just been defined: VACANT, BARRED or UNSEEN (R7). -/
def FeedRec.judge (r : FeedRec) (d : CellDef) : CellState :=
  if d.freq = 0 then .vacant else if r.admits d then .unseen else .barred

/-- A valid definition (R10). -/
def CellDef.valid (d : CellDef) : Bool :=
  (d.freq == 0 || (decide (45000 ≤ d.freq) && decide (d.freq ≤ 870000)))
    && (d.bandwidth == 6 || d.bandwidth == 7 || d.bandwidth == 8) && decide (d.profile ≤ 7)

/-- A vacant definition is stored in one form (R10). -/
def CellDef.normal (d : CellDef) : CellDef := if d.freq = 0 then CellDef.vacant else d

/-- Rankable: LIT, PARTIAL or DARK (R68). -/
def CellState.rankable : CellState → Bool
  | .lit | .part | .dark => true
  | .vacant | .barred | .unseen | .empty | .lost => false

/-! ## The visit score -/

/-- Term A: twice the MER above the required MER, clamped to 0 to 500 (R58). -/
def termA (mer mreq : Nat) : Nat := min 500 (2 * (mer - mreq))

/-- Term B: the level against the level window (R58). -/
def termB (lv lvmin lvmax : Nat) : Nat :=
  if lv < lvmin then 200 - 20 * (lvmin - lv) else if lvmax < lv then 200 - 10 * (lv - lvmax) else 200

/-- Term C: 200 less a fifth of the correction load (R59). -/
def termC (load : Nat) : Nat := 200 - load / 5

/-- Term D: 5 times the trim margin, at most 20 of it (R59). -/
def termD (margin : Nat) : Nat := 5 * min margin 20

/-- The penalty of uncorrectable blocks (Table 4.1). -/
def penalise (sum blocks : Nat) : Nat :=
  if blocks = 0 then sum else if blocks ≤ 3 then sum / 2 else if blocks ≤ 15 then sum / 4 else 0

/-- The visit score S (R57 to R60). -/
def visitScore (m : Measurement) (mreq lvmin lvmax margin : Nat) : Nat :=
  penalise (termA m.mer mreq + termB m.level lvmin lvmax + termC m.load + termD margin) m.blocks

/-- The new cell score from S: S outright when Q is absent or the cell was LOST, else three parts of the old
to one of the new, rounded half up (R62). -/
def smooth (before : CellState) (q : Option Nat) (score : Nat) : Nat :=
  match q with
  | none => score
  | some q => if before = .lost then score else (3 * q + score + 2) / 4

/-! ## The cell at a visit end -/

/-- The treatment classes of outcomes (R32). -/
inductive Treatment where
  | scored
  | noLock
  | unscored
  deriving DecidableEq, Repr

/-- The treatment of an outcome; CUT is scored when the visit ended in READING (Table 2.5). -/
def treatment (o : VisitOutcome) (inReading : Bool) : Treatment :=
  match o with
  | .lit | .part | .unstable => .scored
  | .cut => if inReading then .scored else .unscored
  | .dark | .faded => .noLock
  | .fault | .abandoned => .unscored

/-- The margin of a trim result; 0 for "centre failed" (R54). -/
def TrimResult.margin : TrimResult → Nat
  | .edges _ _ _ m => m
  | .centreFailed => 0

/-- The last trim margin after a visit end (R54). -/
def marginAfter (x : Cell) (t : Treatment) (trim : Option TrimResult) : Option Nat :=
  match t, trim with
  | .scored, some r | .noLock, some r => some r.margin
  | _, _ => x.margin

/-- The measurement that a scored visit carries (R57: always present). The other case is a lane in READING
with no measurement, which no visit reaches; log 24. -/
def scoredMeasurement (r : Record) : Measurement := r.meas.getD { level := 20, mer := 0, load := 1000, blocks := 0 }

/-- The score of a visit end on a cell whose margin has been written (R57). -/
def scoreOf (g : Settings) (x : Cell) (r : Record) : Nat :=
  visitScore (scoredMeasurement r) (g.profiles.toList.getD x.defn.profile 0) g.policy.lvmin g.policy.lvmax
    (x.margin.getD 0)

/-- The state a scored outcome leaves (R63). -/
def scoredState (o : VisitOutcome) : CellState := if o = .lit then .lit else .part

/-- The cell after a no-lock outcome (R64, R65, R67). -/
def afterNoLock (g : Settings) (x : Cell) : Cell :=
  match x.q with
  | none => { x with state := .empty }
  | some q =>
    let fails := satAdd 15 x.fails 1
    { x with q := some (q / 2), fails := fails, state := if g.policy.lost ≤ fails then .lost else .dark }

/-- Steps 1 to 4 of R61: the cell after a visit end, and the visit score of a scored one. -/
def cellEnd (g : Settings) (t : Treatment) (r : Record) (x : Cell) : Cell × Option Nat :=
  let x1 := { x with margin := marginAfter x t r.trim }
  let stamp (y : Cell) : Cell := { y with lastOutcome := some r.outcome, lastTime := r.stop }
  match t with
  | .scored =>
    let score := scoreOf g x1 r
    (stamp { x1 with q := some (smooth x.state x.q score), lastScore := some score, fails := 0,
                     state := scoredState r.outcome }, some score)
  | .noLock => (stamp (afterNoLock g x1), none)
  | .unscored => (stamp x1, none)

end Sys2Proof.Machine
end

