-- ==== Sys2Proof/Machine/Ranking.lean ====
section
/-! DEFINITION. The rank order (R112), the advice queue's rule of divergence (R127 to R130), evaluations
(R101, R113 to R118) and the removal of a service (R104). They work on the directory alone and read the
cells, the feeds, the ranking policy and the clock. -/

namespace Sys2Proof.Machine

/-- What the ranking unit reads: the cells and feeds as they stand, the policy in force, the clock. -/
structure View where
  cells  : Vector Cell 576
  feeds  : Vector FeedRec 6
  policy : Policy
  now    : Time

/-- The directory and the conditions that the work on it has set. -/
structure Books where
  dir    : Dir
  raised : Flags12

/-! ## Rank order -/

/-- The reception state of a cell. -/
def View.state (v : View) (c : CellRef) : CellState := (look v.cells c).state

/-- Whether a cell is rankable at this moment (R68). -/
def View.rankable (v : View) (c : CellRef) : Bool := (v.state c).rankable

/-- The Q of a cell. -/
def View.q (v : View) (c : CellRef) : Option Nat := (look v.cells c).q

/-- An absent Q is lower than every present one (R96, R112). -/
def qLess : Option Nat → Option Nat → Bool
  | none, some _ => true
  | some a, some b => decide (a < b)
  | _, none => false

/-- Whether a sighting on cell a ranks at or above one on cell b (R112): rankable first, then the higher Q,
the lower priority number, the lower feed letter and index. -/
def rankLe (v : View) (a b : CellRef) : Bool :=
  if v.rankable a != v.rankable b then v.rankable a
  else if v.q a != v.q b then qLess (v.q b) (v.q a)
  else if (look v.feeds (feedOf a)).priority != (look v.feeds (feedOf b)).priority then
    decide ((look v.feeds (feedOf a)).priority < (look v.feeds (feedOf b)).priority)
  else decide (a ≤ b)

/-- Puts a sighting into a ranked list. -/
def insertRanked (v : View) (x : Sighting) : List Sighting → List Sighting
  | [] => [x]
  | y :: ys => if rankLe v x.cell y.cell then x :: y :: ys else y :: insertRanked v x ys

/-- Sightings in rank order (R92, R112). -/
def ranked (v : View) : List Sighting → List Sighting
  | [] => []
  | x :: xs => insertRanked v x (ranked v xs)

/-- The sightings of a service slot. -/
def Dir.sightings (d : Dir) (n : SlotNo) : List Sighting := d.pool.filter (fun g => g.slot == n)

/-- Whether a service slot holds a sighting on a cell. -/
def Dir.holds (d : Dir) (n : SlotNo) (c : CellRef) : Bool := d.pool.any (fun g => g.slot == n && g.cell == c)

/-- The sightings of a slot in rank order. -/
def rankedOf (v : View) (d : Dir) (n : SlotNo) : List Sighting := ranked v (d.sightings n)

/-- The cell of the top-ranked rankable sighting of a slot (R112). -/
def topRankable (v : View) (d : Dir) (n : SlotNo) : Option CellRef :=
  ((rankedOf v d n).find? (fun g => v.rankable g.cell)).map Sighting.cell

/-! ## The rule of divergence -/

/-- The Q of a "to" cell (R128). -/
def targetQ (v : View) (c : Option CellRef) : Option Nat := c.bind v.q

/-- The record built for a slot (R128). -/
def adviceFor (v : View) (n : SlotNo) (x : Slot) : Advice :=
  { slot := n, key := x.key, origin := x.reported, target := x.chosen, reason := x.reason
    q := targetQ v x.chosen }

/-- A slot whose advice state has come to NONE: a RETIRING slot becomes FREE in the same step (R105). -/
def settled (x : Slot) : Slot := if x.state = .retiring then Slot.empty else { x with advice := .none }

/-- The rule on a slot that is NONE (R128): append, or owe when the queue is full. An append to an empty
queue sets ADVICE_READY (R132). -/
def divergeNone (v : View) (n : SlotNo) (b : Books) : Books :=
  let x := look b.dir.slots n
  if x.chosen = x.reported then b
  else if b.dir.queue.length < 64 then
    { dir := { b.dir.setSlot n { x with advice := .queued } with queue := b.dir.queue ++ [adviceFor v n x] }
      raised := if b.dir.queue.isEmpty then b.raised ||| Condition.adviceReady.bit else b.raised }
  else { b with dir := b.dir.setSlot n { x with advice := .owed } }

/-- The slot's record brought up to date in place (R129). -/
def refresh (v : View) (n : SlotNo) (x : Slot) (a : Advice) : Advice :=
  if a.slot = n then { a with target := x.chosen, reason := x.reason, q := targetQ v x.chosen } else a

/-- The rule on a slot that is QUEUED (R129): update in place, or remove a record that returned to its
origin. -/
def divergeQueued (v : View) (n : SlotNo) (b : Books) : Books :=
  let x := look b.dir.slots n
  if b.dir.queue.any (fun a => a.slot == n && a.origin == x.chosen) then
    { b with dir := { b.dir.setSlot n (settled x) with queue := b.dir.queue.filter (fun a => a.slot != n) } }
  else { b with dir := { b.dir with queue := b.dir.queue.map (refresh v n x) } }

/-- The rule on a slot that is OWED (R130). -/
def divergeOwed (n : SlotNo) (b : Books) : Books :=
  let x := look b.dir.slots n
  if x.chosen = x.reported then { b with dir := b.dir.setSlot n (settled x) } else b

/-- The rule of divergence applied to one slot (R127). -/
def diverge (v : View) (n : SlotNo) (b : Books) : Books :=
  match (look b.dir.slots n).advice with
  | .none => divergeNone v n b
  | .queued => divergeQueued v n b
  | .owed => divergeOwed n b

/-! ## Evaluation -/

/-- A service has a sighting on a rankable cell (R101). -/
def hasRankable (v : View) (d : Dir) (n : SlotNo) : Bool := (d.sightings n).any (fun g => v.rankable g.cell)

/-- The judgement (R101): LIVE or ORPHAN, and since when. -/
def judged (v : View) (d : Dir) (n : SlotNo) (x : Slot) : Slot :=
  if hasRankable v d n then { x with state := .live, orphanSince := none }
  else if x.state = .orphan then x
  else { x with state := .orphan, orphanSince := some v.now }

/-- Roles held by sightings that were removed are given up before the steps begin (R113): the challenger,
and the pin with its flag. -/
def withoutLostRoles (d : Dir) (n : SlotNo) (x : Slot) : Slot :=
  let x1 := { x with challenger := x.challenger.filter (fun t => d.holds n t.1) }
  match x.pin with
  | some c => if d.holds n c then x1 else { x1 with pin := none, suspended := false }
  | none => x1

/-- The pin step with a rankable pinned cell (R115). -/
def pinStep (c : CellRef) (x : Slot) : Slot :=
  let why : Reason := if x.suspended then .pinRestored else .pinApplied
  { x with chosen := some c, challenger := none, suspended := false
           reason := if x.chosen ≠ some c ∨ x.reason = none then some why else x.reason }

/-- The chosen source passes the failover test: present, its sighting there, its cell rankable (R116). -/
def chosenStands (v : View) (d : Dir) (n : SlotNo) (x : Slot) : Option CellRef :=
  x.chosen.filter (fun c => d.holds n c && v.rankable c)

/-- Failing over (R116). -/
def failover (v : View) (d : Dir) (n : SlotNo) (x : Slot) : Slot :=
  match topRankable v d n with
  | some c => { x with chosen := some c, reason := some .failover, challenger := none }
  | none => { x with chosen := none, reason := some .noSource, challenger := none }

/-- Q(T) is at least Q(chosen) plus the switch margin (R117). A rankable cell has a Q. -/
def aheadByMargin (v : View) (top chosen : CellRef) : Bool :=
  decide ((v.q chosen).getD 0 + v.policy.margin ≤ (v.q top).getD 0)

/-- The challenger's count after an evaluation that finds `top` ahead (R117). -/
def countAfter (top : CellRef) (ch : Option (CellRef × Nat)) : Nat :=
  match ch with
  | some (c, k) => if c = top then k + 1 else 1
  | none => 1

/-- The improvement step, given the standing chosen source (R117). -/
def improve (v : View) (d : Dir) (n : SlotNo) (chosen : CellRef) (x : Slot) : Slot :=
  if x.suspended then { x with challenger := none }
  else
    match topRankable v d n with
    | none => { x with challenger := none }
    | some top =>
      if top = chosen ∨ aheadByMargin v top chosen = false then { x with challenger := none }
      else
        let k := countAfter top x.challenger
        if v.policy.confirm ≤ k then
          { x with chosen := some top, reason := some .improvement, challenger := none }
        else { x with challenger := some (top, k) }

/-- The failover step and, where the chosen source passes it, the improvement step (R116, R117). -/
def failoverOrImprove (v : View) (d : Dir) (n : SlotNo) (x : Slot) : Slot :=
  match chosenStands v d n x with
  | some c => improve v d n c x
  | none => failover v d n x

/-- The steps of an evaluation from the judgement to the hand-off (Figure 7.1). -/
def evaluated (v : View) (d : Dir) (n : SlotNo) (x0 : Slot) : Slot :=
  let x := judged v d n (withoutLostRoles d n x0)
  match x.pin with
  | some c =>
    if v.rankable c then pinStep c x else failoverOrImprove v d n { x with suspended := true }
  | none => failoverOrImprove v d n x

/-- One evaluation (R114 to R118): FREE and RETIRING slots are not evaluated, a PROVISIONAL one only when
released (R120); the hand-off applies the rule of divergence. -/
def evaluate (v : View) (released : Bool) (n : SlotNo) (b : Books) : Books :=
  let x := look b.dir.slots n
  match x.state with
  | .free | .retiring => b
  | .provisional =>
    if released then diverge v n { b with dir := b.dir.setSlot n (evaluated v b.dir n x) } else b
  | .live | .orphan => diverge v n { b with dir := b.dir.setSlot n (evaluated v b.dir n x) }

/-- The evaluations of one event or request: each marked or released service once, in slot order (R100,
R114, R120). -/
def evaluateMarked (v : View) (marked released : List SlotNo) (b : Books) : Books :=
  (List.finRange 512).foldl
    (fun b n =>
      if released.contains n then evaluate v true n b
      else if marked.contains n then evaluate v false n b
      else b) b

/-- Every PROVISIONAL slot. -/
def Dir.provisional (d : Dir) : List SlotNo :=
  (List.finRange 512).filter (fun n => (look d.slots n).state == .provisional)

/-- The end of the recall grace at a completed pass: every PROVISIONAL service is released and evaluated, in
slot order (R119). -/
def endGrace (v : View) (b : Books) : Books :=
  if b.dir.grace then
    evaluateMarked v [] b.dir.provisional { b with dir := { b.dir with grace := false } }
  else b

/-! ## Removing a service -/

/-- The removal of a service (R104). -/
def removeService (v : View) (n : SlotNo) (b : Books) : Books :=
  let x := look b.dir.slots n
  let pool := b.dir.pool.filter (fun g => g.slot != n)
  let bare := { x with chosen := none, challenger := none, pin := none, suspended := false
                       orphanSince := none, reason := some .serviceGone }
  if x.reported.isSome ∨ x.advice = .queued then
    let b1 := diverge v n
      { b with dir := { b.dir with pool := pool, slots := put b.dir.slots n { bare with state := .retiring } } }
    if (look b1.dir.slots n).advice = .none then { b1 with dir := b1.dir.setSlot n Slot.empty } else b1
  else { b with dir := { b.dir with pool := pool, slots := put b.dir.slots n Slot.empty } }

/-- The orphan-since time of a slot lies the forget time or more before the clock (R102). -/
def View.forgetDue (v : View) (x : Slot) : Bool :=
  match x.orphanSince with
  | some t => decide (60 * v.policy.forget ≤ (v.now - t).toNat)
  | none => false

/-- The forget check of one second (R102): due ORPHAN services without a pin, in slot order. -/
def forgetCheck (v : View) (b : Books) : Books :=
  (List.finRange 512).foldl
    (fun b n =>
      let x := look b.dir.slots n
      if x.state = .orphan ∧ x.pin = none ∧ v.forgetDue x = true then removeService v n b else b) b

/-! ## Taking advice -/

/-- What taking a record does to its slot (R133). -/
def reportTaken (a : Advice) (d : Dir) : Dir :=
  let x := look d.slots a.slot
  d.setSlot a.slot
    (if x.state = .retiring then Slot.empty else { x with reported := a.target, advice := .none })

/-- The places freed are filled from the OWED slots in slot order (R134). -/
def refill (v : View) (b : Books) : Books :=
  (List.finRange 512).foldl
    (fun b n =>
      if (look b.dir.slots n).advice = .owed ∧ b.dir.queue.length < 64 then divergeNone v n b else b) b

/-- Take Advice of up to n records: the directory afterwards and the records (R133, R134). -/
def takeAdvice (v : View) (n : Nat) (d : Dir) : Books × List Advice :=
  let taken := d.queue.take n
  let d1 := taken.foldl (fun d a => reportTaken a d) { d with queue := d.queue.drop n }
  (refill v { dir := d1, raised := 0 }, taken)

end Sys2Proof.Machine
end

