-- ==== Sys2Proof/Machine/Directory.lean ====
section
/-! DEFINITION. Admission and the processing of a roster (R81 to R87), the creation, eviction, drop and removal
of sightings (R93 to R100), and the recall at start-up (R108, R184). -/

namespace Sys2Proof.Machine

/-- Directory work in progress within one event or request: the cells and directory as the work has left them,
the conditions it set, the services marked for evaluation, the PROVISIONAL services marked for release (R94),
and the services that lost a sighting on the cell of the visit (R68). -/
structure Work where
  cells   : Vector Cell 576
  dir     : Dir
  raised  : Flags12
  marked  : List SlotNo
  release : List SlotNo
  lostOn  : List SlotNo

/-- Work that has not begun. -/
def Work.start (p : Plant) : Work :=
  { cells := p.cells, dir := p.dir, raised := 0, marked := [], release := [], lostOn := [] }

/-- What the ranking unit would read at this point of the work. -/
def Work.view (g : Settings) (now : Time) (w : Work) : View :=
  { cells := w.cells, feeds := g.feeds, policy := g.policy, now := now }

/-! ## Removal of sightings (R99) -/

/-- The removal of one sighting: it leaves the pool, its service is marked, and a PROVISIONAL service that
loses its chosen sighting is marked for release (R94, R99). -/
def removeSighting (n : SlotNo) (c : CellRef) (w : Work) : Work :=
  let x := look w.dir.slots n
  { w with dir := { w.dir with pool := w.dir.pool.filter (fun g => !(g.slot == n && g.cell == c)) }
           marked := n :: w.marked
           release := if x.state = .provisional ∧ x.chosen = some c then n :: w.release else w.release }

/-- The removal of the sightings on a cell whose service passes a test. -/
def removeOnCell (c : CellRef) (drop : SlotNo → Bool) (w : Work) : Work :=
  ((w.dir.pool.filter (fun g => g.cell == c && drop g.slot)).map Sighting.slot).foldl
    (fun w n => let w1 := removeSighting n c w; { w1 with lostOn := n :: w1.lostOn }) w

/-! ## Admission (R81, R82) -/

/-- A range is enabled when its first or its last is non-zero (R81). -/
def NetRange.enabled (r : NetRange) : Bool := r.first != 0 || r.last != 0

/-- An enabled range admits a network id from first to last (R82). -/
def NetRange.admits (r : NetRange) (net : Half) : Bool :=
  r.enabled && decide (r.first.toNat ≤ net.toNat) && decide (net.toNat ≤ r.last.toNat)

/-- The four ranges. -/
def Admission.ranges (a : Admission) : List NetRange := [a.r1, a.r2, a.r3, a.r4]

/-- The network id passes the ranges (R82). -/
def Admission.netPasses (a : Admission) (net : Half) : Bool :=
  if a.ranges.any NetRange.enabled then a.ranges.any (fun r => r.admits net) else net != 0

/-- The kind is in the kind mask (R82). -/
def Admission.kindPasses (a : Admission) : Kind → Bool
  | .tv => a.tv
  | .radio => a.radio
  | .data => a.data

/-- An entry is admitted (R82). -/
def Admission.admits (a : Admission) (net : Half) (e : Entry) : Bool := a.netPasses net && a.kindPasses e.kind

/-- Step 1 of R84: the first appearance of each key is tested, service number 0 and repeats are skipped.
Gives the admitted entries in order and the number refused. -/
def admitEntries (a : Admission) (net : Half) : List Half → List Entry → List Entry × Nat
  | _, [] => ([], 0)
  | seen, e :: es =>
    if e.service = 0 ∨ e.service ∈ seen then admitEntries a net seen es
    else
      let rest := admitEntries a net (e.service :: seen) es
      if a.admits net e then (e :: rest.1, rest.2) else (rest.1, rest.2 + 1)

/-! ## Finding slots -/

/-- The in-use slot that holds a key (R89). -/
def Dir.find (d : Dir) (k : Key) : Option SlotNo :=
  (List.finRange 512).find? (fun n => (look d.slots n).state != .free && (look d.slots n).key == some k)

/-- The lowest-numbered FREE slot (R93). -/
def Dir.lowestFree (d : Dir) : Option SlotNo :=
  (List.finRange 512).find? (fun n => (look d.slots n).state == .free)

/-! ## Eviction (R95 to R97) -/

/-- The older of two sightings; of equals the one on the lower cell (R96). -/
def olderOnService (a b : Sighting) : Bool :=
  decide (a.created.toNat < b.created.toNat) || (a.created == b.created && decide (a.cell < b.cell))

/-- The older of two sightings; of equals the one of the lower slot, then on the lower cell (R97). -/
def olderInPool (a b : Sighting) : Bool :=
  decide (a.created.toNat < b.created.toNat)
    || (a.created == b.created && (decide (a.slot < b.slot) || (a.slot == b.slot && decide (a.cell < b.cell))))

/-- The lowest-ranked sighting of a service, when the processed cell beats it: not the chosen source, not the
pin, and of a lower Q (R96 step 2). -/
def beatenLowest (v : View) (d : Dir) (n : SlotNo) (c : CellRef) : Option Sighting :=
  let x := look d.slots n
  (rankedOf v d n).getLast?.filter
    (fun g => x.chosen != some g.cell && x.pin != some g.cell && qLess (v.q g.cell) (v.q c))

/-- The sighting to evict under the service limit (R96). -/
def serviceVictim (v : View) (d : Dir) (n : SlotNo) (c : CellRef) : Option Sighting :=
  match best olderOnService ((d.sightings n).filter (fun g => v.state g.cell == .lost)) with
  | some g => some g
  | none => beatenLowest v d n c

/-- The sighting to evict under the pool limit (R97). -/
def poolVictim (v : View) (d : Dir) : Option Sighting :=
  best olderInPool (d.pool.filter (fun g => v.state g.cell == .lost))

/-- Room under the service limit, evicting where R96 allows; none when the new sighting is dropped. -/
def serviceRoom (g : Settings) (now : Time) (n : SlotNo) (c : CellRef) (w : Work) : Option Work :=
  if (w.dir.sightings n).length < 8 then some w
  else (serviceVictim (w.view g now) w.dir n c).map (fun x => removeSighting x.slot x.cell w)

/-- Room under the pool limit, evicting where R97 allows; none when the new sighting is dropped. -/
def poolRoom (g : Settings) (now : Time) (w : Work) : Option Work :=
  if w.dir.pool.length < 2048 then some w
  else (poolVictim (w.view g now) w.dir).map (fun x => removeSighting x.slot x.cell w)

/-- Room under both limits, in the order of R95. The evictions made stand even when a later test drops the
sighting (R98). -/
def makeRoom (g : Settings) (now : Time) (n : SlotNo) (c : CellRef) (w : Work) : Work × Bool :=
  match serviceRoom g now n c w with
  | none => (w, false)
  | some w1 =>
    match poolRoom g now w1 with
    | none => (w1, false)
    | some w2 => (w2, true)

/-! ## Taking one admitted entry (Figure 6.1) -/

/-- The identity and time with which a roster is processed. -/
structure Reading where
  cell    : CellRef
  net     : Half
  stream  : Half
  version : Fin 32
  now     : Time

/-- The key of an entry. -/
def Reading.key (r : Reading) (e : Entry) : Key := { net := r.net, service := e.service }

/-- The sighting created for an admitted entry (R85). -/
def Reading.sighting (r : Reading) (n : SlotNo) (e : Entry) : Sighting :=
  { slot := n, cell := r.cell, stream := r.stream, scrambled := e.scrambled, version := some r.version
    created := r.now, confirmed := r.now }

/-- A sighting confirmed by an admitted entry (R85). -/
def Reading.confirm (r : Reading) (e : Entry) (s : Sighting) : Sighting :=
  { s with stream := r.stream, scrambled := e.scrambled, version := some r.version, confirmed := r.now }

/-- The entry's kind, name and scrambled flag written into the slot record (R85). -/
def slotNamed (e : Entry) (x : Slot) : Slot :=
  { x with kind := some e.kind, name := e.name, scrambled := e.scrambled }

/-- A RETIRING service that takes a new sighting is revived (R94). -/
def revived (x : Slot) : Slot :=
  if x.state = .retiring then { x with state := .live, orphanSince := none } else x

/-- The confirmation of a slot's sighting on the processed cell (R85). -/
def confirmEntry (r : Reading) (n : SlotNo) (e : Entry) (w : Work) : Work :=
  { w with dir :=
      { w.dir with
        pool := w.dir.pool.map (fun s => if s.slot = n ∧ s.cell = r.cell then r.confirm e s else s)
        slots := put w.dir.slots n (slotNamed e (look w.dir.slots n)) } }

/-- A sighting that the limits do not allow: SIGHTING_DROPPED is set (R98). -/
def dropSighting (w : Work) : Work := { w with raised := w.raised ||| Condition.sightingDropped.bit }

/-- A sighting joined to the pool with its slot's record changed. -/
def joinSighting (r : Reading) (n : SlotNo) (e : Entry) (change : Slot → Slot) (w : Work) : Work :=
  { w with dir :=
      { w.dir with pool := w.dir.pool ++ [r.sighting n e]
                   slots := put w.dir.slots n (change (look w.dir.slots n)) }
           marked := n :: w.marked }

/-- A new sighting for a service that has a slot (R94, R95, R98). -/
def createFor (g : Settings) (r : Reading) (n : SlotNo) (e : Entry) (w : Work) : Work :=
  match makeRoom g r.now n r.cell w with
  | (w1, true) => joinSighting r n e (fun x => revived (slotNamed e x)) w1
  | (w1, false) => dropSighting w1

/-- A new service's slot (R93). -/
def newSlot (r : Reading) (e : Entry) : Slot :=
  slotNamed e { Slot.empty with state := .live, key := some (r.key e), created := r.now }

/-- A new service in the lowest FREE slot (R93); its slot returns to FREE when its sighting is dropped (R98). -/
def createService (g : Settings) (r : Reading) (n : SlotNo) (e : Entry) (w : Work) : Work :=
  match makeRoom g r.now n r.cell { w with dir := w.dir.setSlot n (newSlot r e) } with
  | (w1, true) =>
    joinSighting r n e (fun x => { x with chosen := some r.cell, reason := some .newService }) w1
  | (w1, false) => dropSighting { w1 with dir := w1.dir.setSlot n Slot.empty }

/-- The cells with one refused-entry count increased, saturating at 255 (R82, R93). -/
def addRefused (c : CellRef) (k : Nat) (cells : Vector Cell 576) : Vector Cell 576 :=
  put cells c { look cells c with refused := satAdd 255 (look cells c).refused k }

/-- An entry dropped for want of a FREE slot (R93). -/
def dropEntry (r : Reading) (w : Work) : Work :=
  { w with raised := w.raised ||| Condition.directoryFull.bit, cells := addRefused r.cell 1 w.cells }

/-- One admitted entry (Figure 6.1). -/
def takeEntry (g : Settings) (r : Reading) (w : Work) (e : Entry) : Work :=
  match w.dir.find (r.key e) with
  | some n => if w.dir.holds n r.cell then confirmEntry r n e w else createFor g r n e w
  | none =>
    match w.dir.lowestFree with
    | some n => createService g r n e w
    | none => dropEntry r w

/-! ## Processing a roster (R84 to R87) -/

/-- The roster values stored in the cell (R87). -/
def storeRoster (r : Reading) (w : Work) : Work :=
  { w with cells := put w.cells r.cell
             { look w.cells r.cell with roster := some { net := r.net, stream := r.stream, version := r.version } } }

/-- Whether a slot's key is the key of one of these entries. -/
def listed (r : Reading) (es : List Entry) (d : Dir) (n : SlotNo) : Bool :=
  es.any (fun e => (look d.slots n).key == some (r.key e))

/-- A COMPLETE roster (R84), or, without the removals, a PARTIAL one with sections (R86). -/
def processEntries (g : Settings) (r : Reading) (complete : Bool) (es : List Entry) (w : Work) : Work :=
  let adm := admitEntries g.admission r.net [] es
  let w1 := { w with cells := addRefused r.cell adm.2 w.cells }
  let w2 := if complete then removeOnCell r.cell (fun n => !listed r adm.1 w1.dir n) w1 else w1
  storeRoster r (adm.1.foldl (takeEntry g r) w2)

/-- An UNCHANGED read: every sighting on the cell is confirmed (R86). -/
def processUnchanged (c : CellRef) (now : Time) (w : Work) : Work :=
  let version := (look w.cells c).roster.map RosterTag.version
  { w with dir := { w.dir with
      pool := w.dir.pool.map
        (fun s => if s.cell = c then { s with confirmed := now, version := version } else s) } }

/-- The roster results (Table 5.2); `none` also for the empty PARTIAL result and for UNSTABLE, which process
nothing. -/
inductive RosterResult where
  | none
  | complete (ident : SectionId) (entries : List Entry)
  | part (ident : SectionId) (entries : List Entry)
  | unchanged
  deriving DecidableEq, Repr

/-- The reading with which a roster of this identity is processed on a cell. -/
def readingOf (c : CellRef) (now : Time) (i : SectionId) : Reading :=
  { cell := c, net := i.net, stream := i.stream, version := i.version, now := now }

/-- The processing of a roster result (R84, R86). -/
def processRoster (g : Settings) (now : Time) (c : CellRef) (rr : RosterResult) (w : Work) : Work :=
  match rr with
  | .none => w
  | .complete i es => processEntries g (readingOf c now i) true es w
  | .part i es => processEntries g (readingOf c now i) false es w
  | .unchanged => processUnchanged c now w

/-- The evaluations of the work, made after it is done (R100). -/
def Work.finish (g : Settings) (now : Time) (w : Work) : Books :=
  evaluateMarked (w.view g now) w.marked w.release { dir := w.dir, raised := w.raised }

/-! ## Recall at start-up (R108, R184) -/

/-- A service's chosen source at start-up: its pinned sighting, else the sighting on its reported source, else
absent (R184). -/
def recalledChosen (sv : SavedService) (on : CellRef → Bool) : Option CellRef :=
  match sv.pin.filter on with
  | some c => some c
  | none => sv.reported.filter on

/-- A recalled service (R108). -/
def recalledSlot (now : Time) (sv : SavedService) (on : CellRef → Bool) : Slot :=
  { Slot.empty with state := .provisional, key := sv.key, kind := sv.kind, name := sv.name
                    reported := sv.reported, pin := sv.pin, created := now, chosen := recalledChosen sv on }

/-- A recalled sighting (R108). -/
def recalledSighting (now : Time) (x : SavedSighting) : Option Sighting :=
  if h : x.service < 512 then
    some { slot := ⟨x.service, h⟩, cell := x.cell, stream := x.stream, scrambled := false, version := none
           created := now, confirmed := now }
  else none

/-- The directory recalled from an image: services in slots 0, 1, 2 and so on (R184). -/
def recallDir (now : Time) (im : Image) : Dir :=
  { slots := table (fun n : SlotNo =>
      match im.services[n.val]? with
      | some sv => recalledSlot now sv (fun c => im.sightings.any (fun x => x.service == n.val && x.cell == c))
      | none => Slot.empty)
    pool := im.sightings.filterMap (recalledSighting now)
    queue := []
    grace := true }

end Sys2Proof.Machine
end

