-- ==== Sys2Proof/Machine/Roster.lean ====
section
/-! DEFINITION. The roster collector (R72 to R80): sections gathered into one consistent roster. -/

namespace Sys2Proof.Machine

/-- The identity of a section (R71). -/
def identOf (x : Section) : SectionId := { net := x.net, stream := x.stream, version := x.version, last := x.last }

/-- A section the lane passes to the collector (R72). -/
def passesTest (x : Section) : Bool := x.net != 0 && decide (x.number ≤ x.last)

/-- A collector that has just entered COLLECTING with the latched gap period (R73). -/
def Collector.begin (gap : Option Nat) : Collector := { Collector.idle with collecting := true, gap := gap }

/-- Puts a section's entries into the held sections, in section number order. -/
def insertHeld (n : Fin 16) (es : List Entry) : List (Fin 16 × List Entry) → List (Fin 16 × List Entry)
  | [] => [(n, es)]
  | (m, fs) :: rest => if n < m then (n, es) :: (m, fs) :: rest else (m, fs) :: insertHeld n es rest

/-- Whether a section number is held. -/
def Collector.has (c : Collector) (n : Fin 16) : Bool := c.held.any (fun h => h.1 == n)

/-- Every number from 0 to the last section number is held (R76). -/
def Collector.isComplete (c : Collector) : Bool :=
  match c.ident with
  | none => false
  | some i => (List.finRange 16).all (fun n => decide (i.last < n) || c.has n)

/-- The first section of a collection (R74); the gap timer is restarted unless disabled. -/
def Collector.first (c : Collector) (gap : Option Nat) (x : Section) : Collector :=
  { c with ident := some (identOf x), held := [(x.number, x.entries)], gap := gap }

/-- What a section taken in READING does (Figure 5.1). -/
inductive SectionStep where
  | goOn (c : Collector)
  | complete (c : Collector)
  | unchanged (c : Collector)
  | unstable
  deriving DecidableEq, Repr

/-- Going on or complete, by the completion test. -/
def tested (c : Collector) : SectionStep := if c.isComplete then .complete c else .goOn c

/-- The conditions of the unchanged shortcut (R75): a WATCH visit to a LIT cell whose stored values equal the
section's network id, stream id and version. -/
def shortcut (cls : Option VisitClass) (cell : Cell) (x : Section) : Bool :=
  cls == some .watch && cell.state == .lit
    && cell.roster == some { net := x.net, stream := x.stream, version := x.version }

/-- A section that passed the test, taken by the collector (R74 to R77). -/
def Collector.take (c : Collector) (gap : Option Nat) (cls : Option VisitClass) (cell : Cell) (x : Section) :
    SectionStep :=
  if c.held.isEmpty then
    if shortcut cls cell x then
      .unchanged { c with ident := some (identOf x), held := [(x.number, [])] }
    else tested (c.first gap x)
  else if c.ident = some (identOf x) then
    if c.has x.number then .goOn c
    else tested { c with held := insertHeld x.number x.entries c.held, gap := gap }
  else if c.changes = 0 then tested (Collector.first { c with changes := 1 } gap x)
  else .unstable

/-- The roster summary, present when at least one section was held (R80). -/
def Collector.summary (c : Collector) (unchanged : Bool) : Option Summary :=
  match c.ident, c.held with
  | some i, _ :: _ =>
    some { net := i.net, stream := i.stream, version := i.version, held := c.held.length
           expected := i.last.val + 1, unchanged := unchanged }
  | _, _ => none

/-- The entries of the held sections, in section number order (R80). -/
def Collector.entries (c : Collector) : List Entry := (c.held.map Prod.snd).flatten

/-- The COMPLETE result (R80). -/
def Collector.completeResult (c : Collector) : RosterResult :=
  match c.ident with
  | some i => .complete i c.entries
  | none => .none

/-- The PARTIAL result; with no section held there is nothing to process (R80, R86). -/
def Collector.partResult (c : Collector) : RosterResult :=
  match c.ident, c.held with
  | some i, _ :: _ => .part i c.entries
  | _, _ => .none

end Sys2Proof.Machine
end

