-- ==== Sys2Proof/Machine/Operands.lean ====
section
/-! DEFINITION. The operand forms of the link: numbers, references and records as bytes (section 11.11).
Multi-byte numbers go least significant byte first. -/

namespace Sys2Proof.Machine

/-! ## Reading a payload -/

/-- The byte at an offset, as a number. -/
def byteAt (p : List Byte) (i : Nat) : Nat := (p.getD i 0).toNat

/-- The 2-byte number at an offset. -/
def halfAt (p : List Byte) (i : Nat) : Nat := byteAt p i + 256 * byteAt p (i + 1)

/-- The 4-byte number at an offset. -/
def wordAt (p : List Byte) (i : Nat) : Nat := halfAt p i + 65536 * halfAt p (i + 2)

/-- A feed letter, when the byte is one of A to F. -/
def feedAt (p : List Byte) (i : Nat) : Option Feed :=
  if h : byteAt p i < 6 then some ⟨byteAt p i, h⟩ else none

/-- A cell reference, when the feed is A to F and the index at most 95. -/
def cellRefAt (p : List Byte) (i : Nat) : Option CellRef :=
  if hf : byteAt p i < 6 then
    if hc : byteAt p (i + 1) < 96 then some (cellAt ⟨byteAt p i, hf⟩ ⟨byteAt p (i + 1), hc⟩) else none
  else none

/-- A lane, when the byte is at most 7. -/
def laneAt (p : List Byte) (i : Nat) : Option Lane :=
  if h : byteAt p i < 8 then some ⟨byteAt p i, h⟩ else none

/-- A service slot, when the number is at most 511. -/
def slotAt (p : List Byte) (i : Nat) : Option SlotNo :=
  if h : halfAt p i < 512 then some ⟨halfAt p i, h⟩ else none

/-- Yes or no, when the byte is 1 or 0. -/
def yesNoAt (p : List Byte) (i : Nat) : Option Bool :=
  if byteAt p i = 1 then some true else if byteAt p i = 0 then some false else none

/-! ## Building a payload -/

/-- A number as one byte. -/
def b1 (n : Nat) : List Byte := [BitVec.ofNat 8 n]

/-- A number as two bytes. -/
def b2 (n : Nat) : List Byte := [BitVec.ofNat 8 n, BitVec.ofNat 8 (n / 256)]

/-- A number as four bytes. -/
def b4 (n : Nat) : List Byte := b2 n ++ b2 (n / 65536)

/-- A survey-clock time as four bytes. -/
def bTime (t : Time) : List Byte := b4 t.toNat

/-- Yes and no are 1 and 0. -/
def bYes (b : Bool) : List Byte := [if b then 1#8 else 0#8]

/-- A signed byte: a threshold offset, an edge, a centre. -/
def bInt (i : Int) : List Byte := [BitVec.ofInt 8 i]

/-- A cell reference: a feed byte and a cell byte. -/
def bCell (c : CellRef) : List Byte := b1 (feedOf c).val ++ b1 (indexOf c).val

/-- A cell reference that may be absent, which is 0xFF 0xFF. -/
def bCell? (c : Option CellRef) : List Byte :=
  match c with
  | some c => bCell c
  | none => [0xFF#8, 0xFF#8]

/-- An optional field: its bytes, or as many zeros. -/
def bOpt {α : Type} (width : Nat) (enc : α → List Byte) (x : Option α) : List Byte :=
  match x with
  | some a => enc a
  | none => List.replicate width 0#8

/-- A number made of presence bits, the first one bit 0. -/
def flagBits : List Bool → Nat
  | [] => 0
  | b :: bs => b.toNat + 2 * flagBits bs

/-- Flags bytes: one bit for each optional field in order, eight bits to a byte (section 11.11). -/
def flagBytes (bits : List Bool) : List Byte :=
  (List.range ((bits.length + 7) / 8)).map (fun i => BitVec.ofNat 8 (flagBits bits / 256 ^ i))

/-! ## Codes (section 11.11) -/

/-- Reply status codes (Table 11.1). -/
def Status.code : Status → Byte
  | .ok => 0
  | .busy => 1
  | .badValue => 2
  | .wrongState => 3
  | .full => 4
  | .unknown => 5
  | .halted => 6

def VisitClass.code : VisitClass → Nat
  | .sweep => 0
  | .watch => 1
  | .spot => 2

def VisitOutcome.code : VisitOutcome → Nat
  | .lit => 0
  | .part => 1
  | .unstable => 2
  | .cut => 3
  | .dark => 4
  | .faded => 5
  | .fault => 6
  | .abandoned => 7

/-- The last outcome of a cell; NONE is 0xFF. -/
def outcomeCode? : Option VisitOutcome → Nat
  | some o => o.code
  | none => 0xFF

def CellState.code : CellState → Nat
  | .vacant => 0
  | .barred => 1
  | .unseen => 2
  | .empty => 3
  | .lit => 4
  | .part => 5
  | .dark => 6
  | .lost => 7

def SlotState.code : SlotState → Nat
  | .free => 0
  | .provisional => 1
  | .live => 2
  | .orphan => 3
  | .retiring => 4

def Reason.code : Reason → Nat
  | .newService => 0
  | .failover => 1
  | .improvement => 2
  | .pinApplied => 3
  | .pinRestored => 4
  | .noSource => 5
  | .serviceGone => 6

/-- A reason that may be absent, which is 0xFF. -/
def reasonCode? : Option Reason → Nat
  | some r => r.code
  | none => 0xFF

def kindCode : Kind → Nat
  | .tv => 0
  | .radio => 1
  | .data => 2

def Reach.code : Reach → Nat
  | .narrow => 0
  | .wide => 1

/-- The trim step in threshold steps. -/
def TrimStep.size : TrimStep → Nat
  | .one => 1
  | .two => 2

def LaneState.code : LaneState → Nat
  | .parked => 0
  | .idle => 1
  | .tuning => 2
  | .trimming => 3
  | .measuring => 4
  | .reading => 5
  | .held => 6
  | .faulted => 7

def SurveyState.code : SurveyState → Nat
  | .stopped => 0
  | .running => 1
  | .paused => 2
  | .draining => 3

def StoreStatus.code : StoreStatus → Nat
  | .blank => 0
  | .valid => 1
  | .saving => 2

def LinkMode.code : LinkMode → Nat
  | .strict => 0
  | .lenient => 1

def LinkFaultCause.code : LinkFaultCause → Nat
  | .check => 0
  | .framing => 1
  | .overrun => 2

def laneFaultCode : LaneFaultCause → Nat
  | .synthesiser => 0
  | .converter => 1

def HoldNote.code : HoldNote → Nat
  | .none => 0
  | .taken => 1
  | .refused => 2

def AdviceState.code : AdviceState → Nat
  | .none => 0
  | .queued => 1
  | .owed => 2

/-- The period in ms of a period code from 1 to 15: 2 to the power (n - 1) (Conventions). -/
def periodOf (code : Nat) : Nat := 2 ^ (code - 1)

/-- The period of a gap code: none, that is disabled, for code 0 (Table 2.3). -/
def gapPeriod (code : Nat) : Option Nat := if code = 0 then none else some (periodOf code)

/-! ## Record layouts (Tables 11.7 to 11.11) -/

/-- The four trim bytes of a measurement record: low edge, high edge, centre, margin. "Centre failed" has no edges (R47),
and its trim result is present; that the two edge bytes are then 0 is DESIGN CHOICE, log 17. -/
def bTrim : Option TrimResult → List Byte
  | some (.edges low high centre margin) => bInt low ++ bInt high ++ bInt centre ++ b1 margin
  | some .centreFailed => [0#8, 0#8, 0#8, 0#8]
  | none => [0#8, 0#8, 0#8, 0#8]

/-- The flags byte of a measurement record (Table 11.7 byte 5). -/
def recordFlags (r : Record) : List Bool :=
  [r.lock, r.meas.isSome, r.trim.isSome, r.trim == some .centreFailed, r.score.isSome, r.roster.isSome,
    (r.roster.map Summary.unchanged).getD false]

/-- A measurement record, 35 bytes (Table 11.7). -/
def bRecord (r : Record) : List Byte :=
  b1 r.lane.val ++ bCell r.cell ++ b1 r.cls.code ++ b1 r.outcome.code ++ flagBytes (recordFlags r)
    ++ b1 r.hold.code ++ bTime r.start ++ bTime r.stop
    ++ bOpt 7 (fun m => b1 m.level ++ b2 m.mer ++ b2 m.load ++ b2 m.blocks) r.meas
    ++ bTrim r.trim ++ bOpt 2 b2 r.score
    ++ bOpt 7 (fun (x : Summary) => b2 x.net.toNat ++ b2 x.stream.toNat ++ b1 x.version.val ++ b1 x.held ++ b1 x.expected)
        r.roster

/-- A service key, 4 bytes. -/
def bKey (k : Key) : List Byte := b2 k.net.toNat ++ b2 k.service.toNat

/-- An advice record, 14 bytes (Table 11.8). -/
def bAdvice (a : Advice) : List Byte :=
  b2 a.slot.val ++ bOpt 4 bKey a.key ++ bCell? a.origin ++ bCell? a.target ++ b1 (reasonCode? a.reason)
    ++ flagBytes [a.q.isSome] ++ bOpt 2 b2 a.q

/-- A compact service entry, 12 bytes (Table 11.9). -/
def bCompact (cells : Vector Cell 576) (n : SlotNo) (x : Slot) : List Byte :=
  let q := x.chosen.bind (fun c => (look cells c).q)
  b2 n.val ++ bOpt 4 bKey x.key ++ b1 x.state.code ++ bCell? x.chosen ++ flagBytes [q.isSome] ++ bOpt 2 b2 q

/-- A name field: 24 bytes, unused bytes 0 (Table 11.10). -/
def bName (name : List Byte) : List Byte := (name ++ List.replicate 24 0#8).take 24

/-- One sighting of a full service entry, 17 bytes (section 11.11). -/
def bSighting (cells : Vector Cell 576) (x : Slot) (g : Sighting) : List Byte :=
  let c := look cells g.cell
  bCell g.cell ++ b2 g.stream.toNat
    ++ flagBytes [g.scrambled, g.version.isSome, c.q.isSome, x.chosen == some g.cell,
        x.challenger.map Prod.fst == some g.cell, x.pin == some g.cell]
    ++ bOpt 1 (fun (v : Fin 32) => b1 v.val) g.version ++ bTime g.created ++ bTime g.confirmed
    ++ b1 c.state.code ++ bOpt 2 b2 c.q

/-- A full service entry (Table 11.10); a FREE slot ends after its state. -/
def bService (cells : Vector Cell 576) (n : SlotNo) (x : Slot) (sightings : List Sighting) : List Byte :=
  if x.state = .free then b2 n.val ++ b1 x.state.code
  else
    b2 n.val ++ b1 x.state.code ++ bOpt 4 bKey x.key ++ bOpt 1 (fun k : Kind => b1 (kindCode k)) x.kind
      ++ b1 x.name.length ++ bName x.name
      ++ flagBytes [x.scrambled, x.suspended, x.orphanSince.isSome]
      ++ b1 x.advice.code ++ b1 (reasonCode? x.reason)
      ++ bCell? x.chosen ++ bCell? x.reported ++ bCell? x.pin ++ bCell? (x.challenger.map Prod.fst)
      ++ b1 ((x.challenger.map Prod.snd).getD 0)
      ++ bOpt 4 bTime x.orphanSince ++ bTime x.created ++ b1 sightings.length
      ++ (sightings.map (bSighting cells x)).flatten

/-- A cell record as returned, 34 bytes (Table 11.11). -/
def bCellRecord (c : CellRef) (x : Cell) (sightings : Nat) : List Byte :=
  bCell c ++ b4 x.defn.freq ++ b1 x.defn.bandwidth ++ b1 x.defn.profile ++ b1 x.state.code
    ++ flagBytes [x.q.isSome, x.lastScore.isSome, x.roster.isSome, x.margin.isSome, x.due.isSome, x.engaged.isSome]
    ++ bOpt 2 b2 x.q ++ bOpt 2 b2 x.lastScore ++ b1 x.fails ++ b1 (outcomeCode? x.lastOutcome)
    ++ bTime x.lastTime
    ++ bOpt 5 (fun (r : RosterTag) => b2 r.net.toNat ++ b2 r.stream.toNat ++ b1 r.version.val) x.roster
    ++ bOpt 1 b1 x.margin ++ bOpt 4 bTime x.due ++ b1 x.refused ++ bOpt 1 (fun l : Lane => b1 l.val) x.engaged
    ++ b2 sightings

/-- The exclusive-OR of bytes (section 11.2). -/
def xorBytes (bs : List Byte) : Byte := bs.foldl (fun a b => a ^^^ b) 0

/-- The bytes of a frame from its address through its payload. -/
def Frame.body (f : Frame) : List Byte :=
  [f.addr, BitVec.ofNat 8 f.payload.length, f.kind, f.tag] ++ f.payload

/-- A frame on the wire (Table 11.6): sync, body, and the check byte that makes the exclusive-OR 0. -/
def Frame.wire (f : Frame) : List Byte := [0x5A#8] ++ f.body ++ [xorBytes f.body]

end Sys2Proof.Machine
end

