-- ==== Sys2Proof/Machine/Trim.lean ====
section
/-! DEFINITION. The trim unit's sweep (chapter 3): positions, probes, edges, margin and centre. -/

namespace Sys2Proof.Machine

/-- The reach in threshold steps: NARROW 15, WIDE 31 (R41). -/
def Reach.size : Reach → Nat
  | .narrow => 15
  | .wide => 31

/-- The last upward position: the largest multiple of the step not above the reach; the last downward one is
its negative (R45). -/
def Options.lastPosition (o : Options) : Int := ((o.reach.size / o.step.size) * o.step.size : Nat)

/-- A unit that has just been started: it copies the options in force and opens the centre probe (R44). -/
def TrimUnit.begin (o : Options) : TrimUnit :=
  { phase := .centre, opts := some o, offset := some 0, count := 0, high := none, low := none, upEnd := false }

/-- One side's distance: the reach when the run reached its end, else the steps to the edge (R50). -/
def sideDistance (o : Options) (reachedEnd : Bool) (edge : Int) : Nat :=
  if reachedEnd then o.reach.size else edge.natAbs

/-- The result of a sweep that passed its centre probe (R50, R51). The centre truncates toward zero. -/
def sweepResult (o : Options) (low high : Int) (upEnd downEnd : Bool) : TrimResult :=
  .edges low high ((low + high).tdiv 2) (min (sideDistance o upEnd high) (sideDistance o downEnd low))

/-- What an expiring probe window does to a sweep: it goes on with this unit, or it ends with this result. -/
inductive ProbeStep where
  | goOn (u : TrimUnit)
  | sweepEnd (r : TrimResult)
  deriving DecidableEq, Repr

/-- The unit probing its first downward position (R48). -/
def TrimUnit.turnDown (u : TrimUnit) (o : Options) : TrimUnit :=
  { u with phase := .downward, offset := some (-(o.step.size : Int)), count := 0 }

/-- The expiry of a probe window in a sweep with options `o`, holding offset `k` (R46 to R49). -/
def probeStep (u : TrimUnit) (o : Options) (k : Int) (errors : Nat) : ProbeStep :=
  let pass := decide (satAdd 255 u.count errors ≤ o.limit.toNat)
  let s : Int := o.step.size
  match u.phase with
  | .idle => .goOn u
  | .centre =>
    if pass then
      .goOn { u with phase := .upward, offset := some s, count := 0, high := some 0, low := some 0 }
    else .sweepEnd .centreFailed
  | .upward =>
    if pass then
      if k = o.lastPosition then .goOn (TrimUnit.turnDown { u with high := some k, upEnd := true } o)
      else .goOn { u with high := some k, offset := some (k + s), count := 0 }
    else .goOn (u.turnDown o)
  | .downward =>
    if pass then
      if k = -o.lastPosition then .sweepEnd (sweepResult o k (u.high.getD 0) u.upEnd true)
      else .goOn { u with low := some k, offset := some (k - s), count := 0 }
    else .sweepEnd (sweepResult o (u.low.getD 0) (u.high.getD 0) u.upEnd false)

/-- The expiry of a probe window; an idle unit holds no probe. -/
def TrimUnit.windowExpiry (u : TrimUnit) (errors : Nat) : ProbeStep :=
  match u.opts, u.offset with
  | some o, some k => probeStep u o k errors
  | _, _ => .goOn u

/-- The centre of a trim result; 0 for "centre failed" (R27, R51). -/
def TrimResult.centre : TrimResult → Int
  | .edges _ _ c _ => c
  | .centreFailed => 0

end Sys2Proof.Machine
end

