-- ==== Sys2Proof/Machine/Visit.lean ====
section
/-! DEFINITION. The start and the end of a visit (R25, R33, R34, R150), holds (R151, R153), watch due times
(R145), and the grant of work (R146 to R149). Every operation here works on the survey's part of the machine;
none can touch the link, the store, the staging buffer or a setting. -/

namespace Sys2Proof.Machine

/-- A lane in TUNING, TRIMMING, MEASURING or READING is in a visit (R19). -/
def LaneRec.inVisit (x : LaneRec) : Bool :=
  match x.state with
  | .tuning | .trimming | .measuring | .reading => true
  | .parked | .idle | .held | .faulted => false

/-- A lane in a WATCH or SWEEP visit (R139). -/
def LaneRec.surveying (x : LaneRec) : Bool := x.inVisit && x.cls != some .spot

/-- The number of lanes HELD. -/
def heldLanes (lanes : Vector LaneRec 8) : Nat := countIn lanes (fun x => x.state == .held)

/-- The number of lanes HELD other than one (R34). -/
def heldOthers (lanes : Vector LaneRec 8) (l : Lane) : Nat :=
  (List.finRange 8).countP (fun k => k != l && (look lanes k).state == .held)

/-! ## Due times (R145) -/

/-- The cell holds the chosen source of an in-use service. -/
def chosenSomewhere (d : Dir) (c : CellRef) : Bool :=
  d.slots.toList.any (fun x => x.state != .free && x.chosen == some c)

/-- The interval to a cell's next watch. -/
def watchGap (g : Settings) (d : Dir) (c : CellRef) (x : Cell) : Nat :=
  let k := if chosenSomewhere d c then g.watch.chosenInterval else g.watch.watchInterval
  if x.state = .dark then k / 2 else k

/-- The due time of a cell at a visit end or hold end: absent when the cell is not rankable. -/
def dueTime (g : Settings) (now : Time) (d : Dir) (c : CellRef) (x : Cell) : Option Time :=
  if x.state.rankable then some (now + BitVec.ofNat 32 (watchGap g d c x)) else none

/-! ## Lanes between visits -/

/-- Every timer and unit of a visit or hold stopped, what it had noted forgotten (R33). -/
def LaneRec.stopUnits (x : LaneRec) : LaneRec :=
  { x with lockTimer := none, dwellTimer := none, measureTimer := none, refreshTimer := none
           lockNoted := false, trimResult := none, meas := none, gathered := Gathered.empty, lockNow := false
           lockHeld := false, trim := TrimUnit.idle, collector := Collector.idle }

/-- A lane whose visit or hold has ended, in its next state (R33, R153). The threshold offset stays. -/
def LaneRec.leave (x : LaneRec) (next : LaneState) : LaneRec :=
  { x.stopUnits with state := next, cell := none, cls := none, terms := none, start := none, latched := none
                     holdExpiry := none, live := none }

/-- A lane whose spot visit ended in a hold (R34, R151). -/
def LaneRec.hold (x : LaneRec) (now : Time) (seconds : Nat) (lock : Bool) : LaneRec :=
  { x.stopUnits with
      state := .held, start := none, holdExpiry := some (now + BitVec.ofNat 32 seconds)
      live := some { lock := lock, level := x.meas.map Measurement.level, mer := x.meas.map Measurement.mer
                     load := x.meas.map Measurement.load, blocks := 0 }
      lockNow := lock, lockHeld := lock, refreshTimer := x.latched.map Latched.interval }

/-! ## The end of a visit -/

/-- How a visit ends: its outcome, what the collector hands on, whether a lock loss ended it, and the state
the lane takes when it does not hold. -/
structure Ending where
  outcome  : VisitOutcome
  roster   : RosterResult
  summary  : Option Summary
  lockLost : Bool
  next     : LaneState
  deriving DecidableEq, Repr

/-- The six outcomes after which a spot visit may hold (R34). -/
def mayHold : VisitOutcome → Bool
  | .lit | .part | .unstable | .cut | .dark | .faded => true
  | .fault | .abandoned => false

/-- The hold field of the record (R34). -/
def holdNote (g : Settings) (lanes : Vector LaneRec 8) (l : Lane) (o : VisitOutcome) : HoldNote :=
  match (look lanes l).terms with
  | none => .none
  | some t =>
    if t.hold = 0 ∨ mayHold o = false then .none
    else if heldOthers lanes l < g.watch.holdLimit then .taken
    else .refused

/-- The record a visit leaves, its score not yet given (R36). -/
def recordOf (l : Lane) (x : LaneRec) (c : CellRef) (now : Time) (e : Ending) (note : HoldNote) : Record :=
  { lane := l, cell := c, cls := x.cls.getD .sweep, outcome := e.outcome, start := x.start.getD now, stop := now
    lock := x.lockNoted, meas := x.meas, trim := x.trimResult, score := none, roster := e.summary, hold := note }

/-- The front end's lock at the visit end (R151). -/
def lockAtEnd (x : LaneRec) (e : Ending) : Bool :=
  match e.outcome with
  | .dark | .faded => false
  | .cut => x.state != .tuning
  | .part => !e.lockLost
  | .lit | .unstable | .fault | .abandoned => true

/-- The services that hold a sighting on a cell. -/
def holdersOf (d : Dir) (c : CellRef) : List SlotNo := (d.pool.filter (fun g => g.cell == c)).map Sighting.slot

/-- The marks of R68 and R120 after the directory work of a scored or no-lock visit end: every service with a
sighting on the cell is marked; a PROVISIONAL one whose chosen source lies on the cell, or is absent, is
released when the visit end moved the cell out of UNSEEN. -/
def markVisited (c : CellRef) (moved : Bool) (w : Work) : Work :=
  let on := holdersOf w.dir c
  let freed := (on ++ w.lostOn).filter (fun n =>
    let x := look w.dir.slots n
    moved && x.state == .provisional && (x.chosen == some c || x.chosen == none))
  { w with marked := on ++ w.marked, release := freed ++ w.release }

/-- Steps 1 and 2 of R33 on a cell that the cell table has updated from `old` to `new`: the removals of an
EMPTY cell (R64), the roster, and the evaluations (R68). Gives the cells and the directory's books. -/
def visitDirectory (g : Settings) (now : Time) (c : CellRef) (t : Treatment) (rr : RosterResult)
    (old new : Cell) (p : Plant) : Vector Cell 576 × Books :=
  let w0 := Work.start (p.setCell c new)
  let w1 := if t = .noLock ∧ new.state = .empty then removeOnCell c (fun _ => true) w0 else w0
  let w2 := processRoster g now c rr w1
  let w3 := if t = .unscored then w2 else markVisited c (old.state == .unseen && new.state != .unseen) w2
  (w3.cells, w3.finish g now)

/-- A new spot result at the front; the oldest of four is dropped (R154). -/
def pushResult (r : SpotResult) (sv : Survey) : Survey := { sv with results := (r :: sv.results).take 4 }

/-- Steps 2 to 4 of R150 at the survey engine, given the lanes with this visit ended. Gives the survey and the
conditions set. -/
def surveyEnd (l : Lane) (x : LaneRec) (r : Record) (lanes : Vector LaneRec 8) (sv : Survey) : Survey × Flags12 :=
  let sv1 :=
    match x.terms with
    | some t =>
      pushResult { ticket := t.ticket, cell := r.cell, trim := t.trim, hold := t.hold, outcome := r.outcome
                   time := r.stop, record := some r } sv
    | none => sv
  let f1 : Flags12 := if x.terms.isSome then Condition.spotDone.bit else 0
  let stepped := sv.stepped &&& laneBit l != 0
  let sv2 := if stepped then { sv1 with stepped := sv1.stepped &&& ~~~ laneBit l } else sv1
  let f2 : Flags12 := if stepped then Condition.stepHalt.bit else 0
  let sv3 :=
    if sv2.state = .draining ∧ x.surveying = true ∧ lanes.toList.any LaneRec.surveying = false then
      { sv2 with state := .stopped }
    else sv2
  (sv3, f1 ||| f2)

/-- The visit end (R33, R61, R68, R150). A lane with no engaged cell is in no visit. -/
def visitEnd (g : Settings) (now : Time) (l : Lane) (e : Ending) (p : Plant) : Plant :=
  let x := look p.lanes l
  match x.cell with
  | none => p
  | some c =>
    let old := look p.cells c
    let t := treatment e.outcome (x.state == .reading)
    let note := holdNote g p.lanes l e.outcome
    let r0 := recordOf l x c now e note
    let ce := cellEnd g t r0 old
    let r := { r0 with score := ce.2 }
    let vd := visitDirectory g now c t e.roster old ce.1 p
    let lane1 :=
      if note = .taken then
        { x.hold now ((x.terms.map SpotTerms.hold).getD 0) (lockAtEnd x e) with record := some r }
      else { x.leave e.next with record := some r }
    let lanes1 := put p.lanes l lane1
    let sv := surveyEnd l x r lanes1 p.survey
    let cell1 := look vd.1 c
    { cells := put vd.1 c { cell1 with due := dueTime g now vd.2.dir c cell1
                                       engaged := if note = .taken then cell1.engaged else none }
      lanes := lanes1
      dir := vd.2.dir
      survey := sv.1
      notice := p.notice.raise (vd.2.raised ||| sv.2) }

/-- A visit ended from outside, ABANDONED (R35). -/
def abandon (g : Settings) (now : Time) (l : Lane) (next : LaneState) (p : Plant) : Plant :=
  visitEnd g now l { outcome := .abandoned, roster := .none, summary := none, lockLost := false, next := next } p

/-- The end of a hold (R153): the lane is freed, the engagement released, and the due time set unless the cause
clears it. -/
def holdEnd (g : Settings) (now : Time) (l : Lane) (next : LaneState) (setDue : Bool) (p : Plant) : Plant :=
  let x := look p.lanes l
  match x.cell with
  | none => p.setLane l (x.leave next)
  | some c =>
    let y := look p.cells c
    (p.setLane l (x.leave next)).setCell c
      { y with engaged := none, due := if setDue then dueTime g now p.dir c y else y.due }

/-- Ends the engagement of a cell, as a rebuild or a barring does (R5, R16): a visit ABANDONED, a hold without
HOLD_EXPIRED and without a due time; the lane becomes IDLE. -/
def endEngagement (g : Settings) (now : Time) (c : CellRef) (p : Plant) : Plant :=
  match (look p.cells c).engaged with
  | none => p
  | some l =>
    let x := look p.lanes l
    if x.inVisit then abandon g now l .idle p
    else if x.state = .held then holdEnd g now l .idle false p
    else p.setCell c { look p.cells c with engaged := none }

/-! ## Waiting spot entries (R143, R144) -/

/-- The result of an entry removed while it waits. -/
def removedResult (now : Time) (e : SpotEntry) : SpotResult :=
  { ticket := e.ticket, cell := e.cell, trim := e.trim, hold := e.hold, outcome := .abandoned, time := now
    record := none }

/-- Removes the waiting entries that pass a test; each gives a spot result ABANDONED and sets SPOT_DONE (R143). The
reference does not order the results of several entries removed in one step: the oldest entry's is placed first, so the
youngest's stands in front (DESIGN CHOICE, log 32). -/
def dropSpots (now : Time) (gone : SpotEntry → Bool) (p : Plant) : Plant :=
  let out := p.survey.spots.filter gone
  let sv := out.foldl (fun sv e => pushResult (removedResult now e) sv)
    { p.survey with spots := p.survey.spots.filter (fun e => !gone e) }
  { p with survey := sv
           notice := p.notice.raise (if out.isEmpty then 0 else Condition.spotDone.bit) }

/-! ## Grants (R25, R140, R146 to R149) -/

/-- The settings a lane latches (Table 2.1). -/
def latch (t : TimerSet) : Latched :=
  { lock := periodOf t.lock, gap := gapPeriod t.gap, dwell := periodOf t.dwell, interval := t.interval }

/-- A lane at a grant (R25). -/
def LaneRec.granted (x : LaneRec) (g : Settings) (now : Time) (c : CellRef) (k : VisitClass)
    (t : Option SpotTerms) : LaneRec :=
  { x.stopUnits with
      state := .tuning, cell := some c, cls := some k, terms := t, start := some now
      latched := some (latch g.timers), offset := 0, holdExpiry := none, live := none
      lockTimer := some (periodOf g.timers.lock), dwellTimer := some (periodOf g.timers.dwell) }

/-- Starts a visit: the lane as R25 gives, and the cell's engagement (R147). -/
def startVisit (g : Settings) (now : Time) (l : Lane) (c : CellRef) (k : VisitClass) (t : Option SpotTerms)
    (p : Plant) : Plant :=
  (p.setLane l ((look p.lanes l).granted g now c k t)).setCell c { look p.cells c with engaged := some l }

/-- The lowest-numbered IDLE lane (R148). -/
def idleLane (lanes : Vector LaneRec 8) : Option Lane :=
  (List.finRange 8).find? (fun l => (look lanes l).state == .idle)

/-- A spot entry that may be granted now (R149 step 1). -/
def spotGrantable (g : Settings) (p : Plant) (e : SpotEntry) : Bool :=
  (look p.cells e.cell).engaged == none && (e.hold == 0 || decide (heldLanes p.lanes < g.watch.holdLimit))

/-- The due time of a cell that is due and not engaged (R145, R149). -/
def dueAndFree (now : Time) (p : Plant) (c : CellRef) : Option Time :=
  let x := look p.cells c
  if x.engaged = none then x.due.filter (fun t => decide (t.toNat ≤ now.toNat)) else none

/-- The earlier due of two cells (R149 step 2). -/
def dueBefore (a b : CellRef × Time) : Bool :=
  decide (a.2.toNat < b.2.toNat) || (a.2 == b.2 && decide (a.1 < b.1))

/-- The watch cell the schedule offers: due, not engaged, the earliest due time, ties to the lower position. -/
def watchOffer (now : Time) (p : Plant) : Option CellRef :=
  (best dueBefore ((List.finRange 576).filterMap (fun c => (dueAndFree now p c).map (fun t => (c, t))))).map Prod.fst

/-- A position grantable to the sweep (R146). -/
def sweepGrantable (p : Plant) (c : CellRef) : Bool :=
  let x := look p.cells c
  x.state != .vacant && x.state != .barred && x.engaged == none

/-- The position k steps ahead of the cursor. -/
def ahead (c : CellRef) (k : Nat) : CellRef := ⟨(c.val + k) % 576, by omega⟩

/-- How many steps ahead of the cursor the first grantable position lies (R146). -/
def sweepOffer (p : Plant) : Option Nat :=
  (List.range 576).find? (fun k => sweepGrantable p (ahead p.survey.cursor k))

/-- A completed pass (R146): the pass count, SWEEP_DONE, and the end of the recall grace (R119). -/
def completePass (g : Settings) (now : Time) (p : Plant) : Plant :=
  let b := endGrace { cells := p.cells, feeds := g.feeds, policy := g.policy, now := now }
    { dir := p.dir, raised := Condition.sweepDone.bit }
  { p with dir := b.dir, survey := { p.survey with passes := p.survey.passes + 1 }
           notice := p.notice.raise b.raised }

/-- The grant's further effect in step mode (R140). -/
def stepGrant (l : Lane) (sv : Survey) : Survey :=
  if sv.stepMode then { sv with stepped := sv.stepped ||| laneBit l, state := .paused } else sv

/-- A spot grant (R149 step 1): the entry leaves the queue. -/
def grantSpot (g : Settings) (now : Time) (l : Lane) (e : SpotEntry) (p : Plant) : Plant :=
  startVisit g now l e.cell .spot (some { trim := e.trim, hold := e.hold, ticket := e.ticket })
    { p with survey := { p.survey with spots := p.survey.spots.erase e } }

/-- A watch grant (R149 step 2). -/
def grantWatch (g : Settings) (now : Time) (l : Lane) (c : CellRef) (p : Plant) : Plant :=
  startVisit g now l c .watch none
    { p with survey := stepGrant l { p.survey with share := satAdd 15 p.survey.share 1 } }

/-- A sweep grant of the position k ahead (R146, R149 step 3): the cursor stops after it, completing a pass
when it steps from F-95 to A-0. -/
def grantSweep (g : Settings) (now : Time) (l : Lane) (k : Nat) (p : Plant) : Plant :=
  let c := ahead p.survey.cursor k
  let p1 := { p with survey := stepGrant l { p.survey with share := 0, cursor := ahead p.survey.cursor (k + 1) } }
  let p2 := startVisit g now l c .sweep none p1
  if 576 ≤ p.survey.cursor.val + k + 1 then completePass g now p2 else p2

/-- The choice between watch and sweep while RUNNING (Figure 9.1). -/
def grantSurvey (g : Settings) (now : Time) (l : Lane) (p : Plant) : Plant :=
  match watchOffer now p, sweepOffer p with
  | some c, some k =>
    if g.watch.share ≤ p.survey.share then grantSweep g now l k p else grantWatch g now l c p
  | some c, none => grantWatch g now l c p
  | none, some k => grantSweep g now l k p
  | none, none => p

/-- One grant by the arbiter, when a lane is IDLE and work may be granted (R148, R149). -/
def grantOne (g : Settings) (now : Time) (p : Plant) : Plant :=
  match idleLane p.lanes with
  | none => p
  | some l =>
    match p.survey.spots.find? (spotGrantable g p) with
    | some e => grantSpot g now l e p
    | none => if p.survey.state = .running then grantSurvey g now l p else p

end Sys2Proof.Machine
end

