-- ==== Sys2Proof/Machine/Raster.lean ====
section
/-! DEFINITION. Barring (R4, R5), rebuilding (R15, R16), Clear Survey on lanes and cells (R156). -/

namespace Sys2Proof.Machine

/-- A change of many cells in progress: the survey's part of the machine, the services marked for evaluation
and the PROVISIONAL services marked for release. -/
structure Reshape where
  plant   : Plant
  marked  : List SlotNo
  release : List SlotNo

/-- Removes every sighting on a cell (R5 step 4, R16 step 5). -/
def Reshape.clearSightings (c : CellRef) (r : Reshape) : Reshape :=
  let w := removeOnCell c (fun _ => true) { Work.start r.plant with marked := r.marked, release := r.release }
  { plant := { r.plant with dir := w.dir }, marked := w.marked, release := w.release }

/-- The evaluations of the whole change (R100). -/
def Reshape.finish (g : Settings) (now : Time) (r : Reshape) : Plant :=
  let v : View := { cells := r.plant.cells, feeds := g.feeds, policy := g.policy, now := now }
  let b := evaluateMarked v r.marked r.release { dir := r.plant.dir, raised := 0 }
  { r.plant with dir := b.dir, notice := r.plant.notice.raise b.raised }

/-- Step 1 of R5: the engagement ended, and ABANDONED recorded on the cell. -/
def disengage (g : Settings) (now : Time) (c : CellRef) (p : Plant) : Plant :=
  if (look p.cells c).engaged = none then p
  else
    let p1 := endEngagement g now c p
    p1.setCell c { look p1.cells c with lastOutcome := some .abandoned, lastTime := now }

/-- Step 2 of R5: the fields that barring resets; it keeps the rest of the record. -/
def Cell.barred (x : Cell) : Cell := { x with state := .barred, q := none, fails := 0, due := none }

/-- Barring of one cell (R5). -/
def barCell (g : Settings) (now : Time) (c : CellRef) (r : Reshape) : Reshape :=
  let p1 := disengage g now c r.plant
  let p2 := p1.setCell c (look p1.cells c).barred
  Reshape.clearSightings c { r with plant := dropSpots now (fun e => e.cell == c) p2 }

/-- Re-judging one cell of a changed feed (R4). -/
def rejudgeCell (g : Settings) (now : Time) (before after : FeedRec) (r : Reshape) (c : CellRef) : Reshape :=
  let x := look r.plant.cells c
  if before.admits x.defn = true ∧ after.admits x.defn = false then barCell g now c r
  else if x.state = .barred ∧ after.admits x.defn = true then
    { r with plant := r.plant.setCell c { x with state := .unseen } }
  else r

/-- A feed record replaced and its 96 cells re-judged (R3, R4). R4 takes the cells "in turn"; that this is by ascending
index is DESIGN CHOICE, log 32. -/
def changeFeed (g : Settings) (now : Time) (before after : FeedRec) (f : Feed) (p : Plant) : Plant :=
  ((feedCells f).foldl (rejudgeCell g now before after) { plant := p, marked := [], release := [] }).finish g now

/-- Steps 2 and 3 of R16: the new definition, its state, the history cleared. -/
def rebuiltCell (f : FeedRec) (d : CellDef) : Cell := { Cell.atRestart with defn := d, state := f.judge d }

/-- The rebuilding of one cell (R16). -/
def rebuildCell (g : Settings) (now : Time) (d : CellDef) (c : CellRef) (r : Reshape) : Reshape :=
  let p1 := endEngagement g now c r.plant
  let x := rebuiltCell (look g.feeds (feedOf c)) d
  let p2 := p1.setCell c x
  let p3 := if x.state = .unseen then p2 else dropSpots now (fun e => e.cell == c) p2
  Reshape.clearSightings c { r with plant := p3 }

/-- One position of a page write (R15): equal definitions keep everything. -/
def writeCell (g : Settings) (now : Time) (r : Reshape) (e : CellRef × CellDef) : Reshape :=
  if (look r.plant.cells e.1).defn = e.2 then r else rebuildCell g now e.2 e.1 r

/-- The cell at a position of a raster page. -/
def pageCell (f : Feed) (page : Fin 6) (i : Fin 16) : CellRef :=
  cellAt f ⟨page.val * 16 + i.val, by have := page.isLt; have := i.isLt; omega⟩

/-- The resulting page (R14): the staged definitions, then vacant ones. -/
def resultingPage (f : Feed) (page : Fin 6) (staged : List CellDef) : List (CellRef × CellDef) :=
  (List.finRange 16).map (fun i => (pageCell f page i, staged.getD i.val CellDef.vacant))

/-- The frequency a cell of the feed would hold after the write (R14). -/
def resultingFreq (cells : Vector Cell 576) (page : List (CellRef × CellDef)) (c : CellRef) : Nat :=
  match page.find? (fun e => e.1 == c) with
  | some e => e.2.freq
  | none => (look cells c).defn.freq

/-- No two of the numbers that are not 0 are equal. -/
def noRepeat : List Nat → Bool
  | [] => true
  | x :: xs => (x == 0 || !xs.contains x) && noRepeat xs

/-- The check of R14 on the resulting raster of the open page's feed. -/
def pageClear (cells : Vector Cell 576) (f : Feed) (page : List (CellRef × CellDef)) : Bool :=
  noRepeat ((feedCells f).map (resultingFreq cells page))

/-- The number of positions whose definition changes (R15). -/
def rebuiltCount (cells : Vector Cell 576) (page : List (CellRef × CellDef)) : Nat :=
  page.countP (fun e => (look cells e.1).defn != e.2)

/-- The page written position by position (R15), with the evaluations it causes. -/
def writePage (g : Settings) (now : Time) (page : List (CellRef × CellDef)) (p : Plant) : Plant :=
  (page.foldl (writeCell g now) { plant := p, marked := [], release := [] }).finish g now

/-! ## Clear Survey (R156) -/

/-- The record of a visit that Clear Survey abandons (R37, R156 step 1). -/
def clearedRecord (now : Time) (l : Lane) (c : CellRef) (x : LaneRec) : Record :=
  recordOf l x c now { outcome := .abandoned, roster := .none, summary := none, lockLost := false, next := .idle }
    .none

/-- Step 1 of R156 on one lane. -/
def clearLane (now : Time) (p : Plant) (l : Lane) : Plant :=
  let x := look p.lanes l
  match x.inVisit, x.cell with
  | true, some c =>
    (p.setLane l { x.leave .idle with record := some (clearedRecord now l c x) }).setCell c
      { look p.cells c with lastOutcome := some .abandoned, lastTime := now }
  | true, none => p.setLane l (x.leave .idle)
  | false, _ => if x.state = .held then p.setLane l (x.leave .idle) else p

/-- Step 2 of R156 on one cell. -/
def Cell.cleared (x : Cell) : Cell :=
  if x.state = .vacant ∨ x.state = .barred then x
  else { x with state := .unseen, q := none, fails := 0, roster := none, due := none, engaged := none }

/-- Clear Survey (R156): lanes, cells, directory and advice queue, the survey engine. The settings in the
survey engine and the ticket counter are kept. -/
def clearSurvey (now : Time) (p : Plant) : Plant :=
  let p1 := (List.finRange 8).foldl (clearLane now) p
  { p1 with
    cells := table (fun c => (look p1.cells c).cleared)
    dir := { Dir.atRestart with grace := false }
    survey :=
      { p1.survey with state := .stopped, stepped := 0, passes := 0, share := 0, cursor := 0, spots := []
                       results := [] } }

end Sys2Proof.Machine
end

