-- ==== Sys2Proof/Machine/Store.lean ====
section
/-! DEFINITION. The retained store (chapter 12): the image, the header and the page writer. -/

namespace Sys2Proof.Machine

/-! ## The image (R176) -/

/-- The in-use slots, in ascending order: the saved services are theirs (R176 part 3). -/
def savedSlots (d : Dir) : List SlotNo := (List.finRange 512).filter (fun n => (look d.slots n).state != .free)

/-- The saved entry of a slot (R176 part 3). -/
def savedService (x : Slot) : SavedService :=
  { key := x.key, kind := x.kind, name := x.name, reported := x.reported, pin := x.pin }

/-- The options a snapshot saves for a lane (R42). -/
def savedOptions (x : LaneRec) : Options := x.pendingOpts.getD x.options

/-- The whole image of a state (R176). -/
def imageOf (s : State) : Image :=
  { settings := s.settings
    options := table (fun l => savedOptions (look s.plant.lanes l))
    stepMode := s.plant.survey.stepMode
    autoResume := s.plant.survey.autoResume
    mode := s.link.mode
    added := s.link.added
    mask := s.plant.notice.mask
    raster := table (fun c => (look s.plant.cells c).defn)
    services := (savedSlots s.plant.dir).map (fun n => savedService (look s.plant.dir.slots n))
    sightings := s.plant.dir.pool.map (fun g =>
      { service := (savedSlots s.plant.dir).idxOf g.slot, cell := g.cell, stream := g.stream }) }

/-- The length in bytes of the content captured at a draw. -/
def contentLength (draw : Nat) : Nat := (Config.imageLength draw).val + 1

/-- The page count N that a content length needs (R176). -/
def pagesFor (length : Nat) : Nat := (length + 255) / 256

/-- The bytes of a captured image: its content, and 0 in the unused bytes of page N (R176). -/
def captureBytes (draw : Nat) : List Byte :=
  (List.range (256 * pagesFor (contentLength draw))).map
    (fun i => if i < contentLength draw then Config.imageByte draw i else 0)

/-- The page count N of a capture (R178). -/
def Capture.pages (c : Capture) : Nat := pagesFor c.bytes.length

/-- The captured bytes of page k (R179). -/
def Capture.page (c : Capture) (k : Fin 256) : List Byte := (c.bytes.drop (256 * (k.val - 1))).take 256

/-! ## The header (R177) -/

/-- The format word as a 16-bit number. -/
def formatNumber : Nat := Config.formatWord.val

/-- The header fields as bytes of page 0: N, save count, sum, and the format word, which is placed last. -/
def headerBytes (pages : Nat) (count sum : Half) : List Byte :=
  b2 pages ++ b2 count.toNat ++ b2 sum.toNat ++ b2 formatNumber

/-- A whole header page: the fields, the rest as erased. -/
def headerPage (pages : Nat) (count sum : Half) : List Byte :=
  headerBytes pages count sum ++ List.replicate 248 erasedByte

/-- A 2-byte number in the memory. -/
def Memory.half (m : List Host.Cell) (a : Nat) : Nat := (Memory.read m a).toNat + 256 * (Memory.read m (a + 1)).toNat

/-- The image page count of the header. -/
def headerPages (m : List Host.Cell) : Nat := Memory.half m 0

/-- The save count of the header. -/
def headerCount (m : List Host.Cell) : Half := BitVec.ofNat 16 (Memory.half m 2)

/-- The sum of the header. -/
def headerSum (m : List Host.Cell) : Half := BitVec.ofNat 16 (Memory.half m 4)

/-- The format word of the header. -/
def headerFormat (m : List Host.Cell) : Nat := Memory.half m 6

/-- How start-up judges the store (R177). -/
inductive HeaderJudgement where
  | blank
  | valid
  | invalid
  deriving DecidableEq, Repr

/-- Blank: the format word reads erased. Valid: it matches, N lies from 1 to 163, and the sum over pages 1 to N
matches. Otherwise invalid (R177). -/
def judgeHeader (m : List Host.Cell) : HeaderJudgement :=
  if headerFormat m = 0xFFFF then .blank
  else if headerFormat m = formatNumber ∧ 1 ≤ headerPages m ∧ headerPages m ≤ 163
      ∧ byteSum (Memory.readRun m 256 (256 * headerPages m)) = headerSum m then .valid
  else .invalid

/-! ## The page writer (R179) -/

/-- The state with its store replaced. -/
def State.setStore (s : State) (t : Store) : State := { s with store := t }

/-- A save that failed (R179). -/
def failSave (s : State) : State :=
  State.raise (s.setStore { s.store with status := .blank, writer := .idle }) Condition.storeFail.bit

/-- A save that succeeded (R179 stage 4). -/
def finishSave (s : State) : State :=
  State.raise
    (s.setStore { s.store with status := .valid, writer := .idle, saveCount := s.store.saveCount + 1 })
    Condition.storeDone.bit

/-- The state with the memory and the stage of the save replaced. -/
def State.stage (s : State) (m : List Host.Cell) (st : SaveStage) : State :=
  s.setStore { s.store with mem := m, writer := .saving st }

/-- The completion of a page erase (R179, R180). -/
def eraseComplete (s : State) : State :=
  let m := s.store.mem
  match s.store.writer with
  | .idle => s
  | .erasing =>
    State.raise (s.setStore { s.store with mem := Memory.erasePage m 0, writer := .idle }) Condition.storeDone.bit
  | .saving .eraseHeader => s.stage (Memory.erasePage m 0) (.erasePage 1 false)
  | .saving (.erasePage k again) => s.stage (Memory.erasePage m k) (.writePage k again)
  | .saving .eraseHeaderAgain => s.stage (Memory.erasePage m 0) (.writeHeader true)
  | .saving .eraseAfterFail => failSave (s.setStore { s.store with mem := Memory.erasePage m 0 })
  | .saving (.writePage _ _) => s
  | .saving (.writeHeader _) => s

/-- The header page of the save in progress: the held save count plus 1 (R179 stage 3). -/
def savedHeader (t : Store) (c : Capture) : List Byte :=
  headerPage c.pages (t.saveCount + 1) (byteSum c.bytes)

/-- A page of the image written and read back (R179 stage 2). -/
def writePageDone (s : State) (c : Capture) (k : Fin 256) (again : Bool) (flaws : Flaws) : State :=
  let m := Memory.writePage s.store.mem k (takenBytes (c.page k) flaws)
  let s1 := s.setStore { s.store with mem := m }
  if Memory.readPage m k = c.page k then
    let s2 := s1.setStore { s1.store with verified := s1.store.verified + 1 }
    s2.stage m (if k.val = c.pages then .writeHeader false else .erasePage (k + 1) false)
  else if again then failSave s1
  else s1.stage m (.erasePage k true)

/-- The header written and read back (R179 stages 3 and 4). -/
def writeHeaderDone (s : State) (c : Capture) (again : Bool) (flaws : Flaws) : State :=
  let h := savedHeader s.store c
  let m := Memory.writePage s.store.mem 0 (takenBytes h flaws)
  let s1 := s.setStore { s.store with mem := m, image := c.image }
  if Memory.readPage m 0 = h then finishSave s1
  else s1.stage m (if again then .eraseAfterFail else .eraseHeaderAgain)

/-- The completion of a page write (R179). A save always has its capture buffer. -/
def writeComplete (flaws : Flaws) (s : State) : State :=
  match s.store.capture with
  | none => s
  | some c =>
    match s.store.writer with
    | .saving (.writePage k again) => writePageDone s c k again flaws
    | .saving (.writeHeader again) => writeHeaderDone s c again flaws
    | .idle => s
    | .erasing => s
    | .saving .eraseHeader => s
    | .saving (.erasePage _ _) => s
    | .saving .eraseHeaderAgain => s
    | .saving .eraseAfterFail => s

end Sys2Proof.Machine
end

