-- ==== Sys2Proof/Machine/StartUp.lean ====
section
/-! DEFINITION. Restart and start-up (R19, R161, R181, R183, R184): steps 1 to 5 of R183 at the restart, step 6 at
its end. -/

namespace Sys2Proof.Machine

/-! ## What a restart finds in the store memory (R181) -/

/-- How many bytes of a header write cut short are in place: the format word, at bytes 6 and 7, is placed last,
so a write that is not past it has left it erased (R177, R181). -/
def headerPlaced (placed : Nat) : Nat := if placed < 8 then min placed 6 else placed

/-- The memory as start-up reads it: an erase already begun completes, a write is left where the restart cut it
(R181). -/
def settledMemory (r : RestartIn) (t : Store) : List Host.Cell :=
  match t.writer, t.capture with
  | .idle, _ => t.mem
  | .erasing, _ => Memory.erasePage t.mem 0
  | .saving .eraseHeader, _ => Memory.erasePage t.mem 0
  | .saving .eraseHeaderAgain, _ => Memory.erasePage t.mem 0
  | .saving .eraseAfterFail, _ => Memory.erasePage t.mem 0
  | .saving (.erasePage k _), _ => Memory.erasePage t.mem k
  | .saving (.writePage k _), some c =>
    Memory.writePage t.mem k ((takenBytes (c.page k) r.flaws).take r.placed)
  | .saving (.writeHeader _), some c =>
    Memory.writePage t.mem 0 ((takenBytes (savedHeader t c) r.flaws).take (headerPlaced r.placed))
  | .saving (.writePage _ _), none => t.mem
  | .saving (.writeHeader _), none => t.mem

/-- The image that pages 1 to N spell after a restart: a header placed past its format word makes the captured one
count (log 8). -/
def settledImage (r : RestartIn) (t : Store) : Image :=
  match t.writer, t.capture with
  | .saving (.writeHeader _), some c => if r.placed < 8 then t.image else c.image
  | _, _ => t.image

/-! ## The restart (R183 steps 1 to 5) -/

/-- Step 1 of R183: every block at its restart values, the store memory as the restart left it. The queue of
waiting commands and the draw counter are the model's own and go on. -/
def freshState (r : RestartIn) (s : State) : State :=
  { settings := Settings.atRestart, plant := Plant.atRestart, staging := Staging.atRestart
    link := Link.atRestart r.straps r.speed
    store := Store.atRestart (settledMemory r s.store) (settledImage r s.store)
    clock := 0, draws := s.draws, pending := s.pending }

/-- The cells restored from an image: the saved definitions, judged under the restored feeds (R7, R184). -/
def restoredCells (im : Image) : Vector Cell 576 :=
  table (fun c => rebuiltCell (look im.settings.feeds (feedOf c)) (look im.raster c))

/-- The lanes restored from an image: the saved options in force (R42). -/
def restoredLanes (im : Image) : Vector LaneRec 8 :=
  table (fun l => { LaneRec.atRestart with options := look im.options l })

/-- The survey's part of the machine restored from an image (R184). -/
def restoredPlant (im : Image) : Plant :=
  { cells := restoredCells im, lanes := restoredLanes im, dir := recallDir 0 im
    survey := { Survey.atRestart with stepMode := im.stepMode, autoResume := im.autoResume }
    notice := { Notice.atRestart with mask := im.mask } }

/-- Step 5 of R183 and R184: the valid image restored. -/
def restoreImage (s : State) : State :=
  { s with
    settings := s.store.image.settings
    plant := restoredPlant s.store.image
    link := { s.link with mode := s.store.image.mode, added := s.store.image.added }
    store := { s.store with status := .valid, saveCount := headerCount s.store.mem } }

/-- Steps 2 to 5 of R183: the header judged. -/
def judgeStore (s : State) : State :=
  match judgeHeader s.store.mem with
  | .blank => s
  | .invalid => { s with store := { s.store with failNoted := true } }
  | .valid => restoreImage s

/-- A restart, of whatever cause (R183 steps 1 to 5). -/
def restart (r : RestartIn) (s : State) : State := judgeStore (freshState r s)

/-! ## The restart that a Restart request owes (R174) -/

/-- What a restart finds outside the controller when the event that causes it does not say: free values (log 5). -/
def drawnRestart (draw : Nat) : RestartIn :=
  { straps := Config.foundStraps draw, speed := Config.foundSpeed draw, placed := (Config.foundPlaced draw).val
    flaws := Config.foundFlaws draw }

/-- The restart taken when the unit stops sending the reply to a Restart request (R174). -/
def owedRestart (s : State) : State := restart (drawnRestart s.draws) { s with draws := s.draws + 1 }

/-! ## The end of start-up (R183 step 6) -/

/-- The conditions set at the end of start-up (R161). -/
def startUpFlags (failNoted : Bool) : Flags12 :=
  if failNoted then Condition.startDone.bit ||| Condition.storeFail.bit else Condition.startDone.bit

/-- The survey state that start-up leaves (R183 step 6). -/
def resumedState (p : Plant) : SurveyState :=
  if p.survey.autoResume && p.cells.toList.any (fun x => x.defn.freq != 0) then .running else .stopped

/-- Step 6 of R183. -/
def endStartUp (s : State) : State :=
  { s with
    plant :=
      { s.plant with
        survey := { s.plant.survey with state := resumedState s.plant }
        notice := s.plant.notice.endStartUp (startUpFlags s.store.failNoted) }
    link := { s.link with rx := .hunt }
    store := { s.store with failNoted := false } }

/-- POWER_ON (R183). -/
def execPowerOn (r : RestartIn) (s : State) : Result := .next (restart r s)

/-- RESTART_LINE (R183). -/
def execRestartLine (r : RestartIn) (s : State) : Result := .next (restart r s)

/-- RESTART_REPLY_SENT (R174): the restart that an answered Restart request is owed. -/
def execRestartReplySent (r : RestartIn) (s : State) : Result :=
  .next (if s.link.restartOwed then restart r s else s)

/-- START_UP_END (R183 step 6): ends a start-up in progress. -/
def execStartUpEnd (s : State) : Result := .next (if s.plant.notice.startUp then endStartUp s else s)

end Sys2Proof.Machine
end

