-- ==== Sys2Proof/Machine/Link.lean ====
section
/-! DEFINITION. The control link (chapter 11): which frames are accepted, how a request is gated, executed and
answered, and the link faults. -/

namespace Sys2Proof.Machine

/-- What a request leaves: the state, the status and the values that follow it in the reply. -/
structure Served where
  state  : State
  status : Status
  body   : List Byte

/-- A request answered OK with values. -/
def ok (s : State) (body : List Byte) : Served := { state := s, status := .ok, body := body }

/-- A refused request: the status alone, and no effect (Conventions, R166). -/
def refuse (s : State) (st : Status) : Served := { state := s, status := st, body := [] }

/-- One line of Table 11.5: the kind code, the payload lengths it allows, whether it is executed when broadcast,
whether it is served in STRICT mode while a fault is held, and its execution. -/
structure Service where
  kind     : Byte
  lengthOk : Nat → Bool
  bcast    : Bool
  always   : Bool
  run      : List Byte → State → Served

/-! ## Faults (R168, R169) -/

/-- A link fault taken: LINK_FAULT is set, and the record is written when the log is empty. -/
def takeFault (r : LinkFault) (rx : Receiver) (s : State) : State :=
  { s with
    plant := s.plant.raise Condition.linkFault.bit
    link := { s.link with rx := rx, log := some (s.link.log.getD r) } }

/-- The record of an OVERRUN: it describes the request whose reply was overrun (R169). -/
def overrunRecord (a : Answering) (now : Time) : LinkFault :=
  { cause := .overrun, addr := a.request.addr, length := some (BitVec.ofNat 8 a.request.payload.length)
    kind := some a.request.kind, tag := some a.request.tag, time := now }

/-- An OVERRUN (R168): the reply stops, the driver is released, the receiver enters QUIET. When the reply was the
one to a Restart request, the restart is taken, and it clears the fault with everything else (R174). With no reply
pending a 0x5A is no fault. -/
def overrunNow (s : State) : State :=
  match s.link.answering with
  | none => s
  | some a =>
    if s.link.restartOwed then owedRestart s
    else takeFault (overrunRecord a s.clock) .quiet { s with link := { s.link with answering := none, driver := false } }

/-! ## Addresses (R164, R165) -/

/-- The address is in the accept set: the strap address when it is not 0, or an added address. -/
def Link.accepts (k : Link) (a : Byte) : Bool :=
  (k.strap != 0 && a == k.strap.setWidth 8) || k.added.contains a

/-- How the receiver judges an address byte (R164). -/
inductive Judgement where
  | accepted
  | broadcast
  | foreign
  deriving DecidableEq, Repr

/-- 255 is broadcast, an address of the accept set accepted, any other foreign, 0 included (R164). -/
def Link.judge (k : Link) (a : Byte) : Judgement :=
  if a = 255 then .broadcast else if a ≠ 0 ∧ k.accepts a = true then .accepted else .foreign

/-- What bytes that begin a frame meet: nothing in DEAF and QUIET, an OVERRUN while an answer is pending, and
the frame itself in HUNT (R164, R168, R172). -/
def whenHunting (k : State → State) (s : State) : State :=
  match s.link.rx with
  | .deaf => s
  | .quiet => s
  | .frame => overrunNow s
  | .hunt => k s

/-- A length byte above 240: FRAMING for an accepted or broadcast frame, silence for a foreign one; QUIET in
both cases (R164, R168). -/
def lengthFault (addr length : Byte) (s : State) : State :=
  match s.link.judge addr with
  | .foreign => { s with link := { s.link with rx := .quiet } }
  | .accepted | .broadcast =>
    takeFault { cause := .framing, addr := addr, length := some length, kind := none, tag := none, time := s.clock }
      .quiet s

/-- More than 5 ms without a byte inside a frame: FRAMING for an accepted or broadcast frame, and HUNT; a foreign
frame is abandoned into QUIET (R164, R168). `received` are the bytes after the address. -/
def gapFault (addr : Byte) (received : List Byte) (s : State) : State :=
  match s.link.judge addr with
  | .foreign => { s with link := { s.link with rx := .quiet } }
  | .accepted | .broadcast =>
    takeFault
      { cause := .framing, addr := addr, length := received[0]?, kind := received[1]?, tag := received[2]?
        time := s.clock } .hunt s

/-! ## Requests (R166, R167) -/

/-- The gate of STRICT mode: a fault is held and the kind is not one of the four (R166 step 1, R170). -/
def Service.halted (v : Service) (s : State) : Bool :=
  s.link.mode == .strict && s.link.log.isSome && !v.always

/-- The frame of a request of this kind. -/
def frameOf (kind : Byte) (f : Req) : Frame := { addr := f.addr, kind := kind, tag := f.tag, payload := f.payload }

/-- The reply frame to a request frame (R166): its address, its kind plus 0x80, its tag, the status first. -/
def replyTo (f : Frame) (st : Status) (body : List Byte) : Frame :=
  { addr := f.addr, kind := f.kind + 0x80#8, tag := f.tag, payload := st.code :: body }

/-- An accepted request answered: the receiver stays with the frame until the reply has been sent (R164, R172). The
driver counts as on from here (DESIGN CHOICE, log 4). -/
def answer (f : Frame) (r : Served) : State :=
  { r.state with
    link := { r.state.link with
              rx := .frame, driver := true
              answering := some { request := f, reply := replyTo f r.status r.body } } }

/-- The execution of an accepted request (R166). -/
def Service.respond (v : Service) (p : List Byte) (s : State) : Served :=
  if v.halted s then refuse s .halted
  else if v.lengthOk p.length then v.run p s
  else refuse s .badValue

/-- A whole frame of this kind whose check is right, taken in HUNT (R164 to R167). -/
def Service.frame (v : Service) (f : Req) (s : State) : State :=
  match s.link.judge f.addr with
  | .foreign => s
  | .broadcast =>
    if v.bcast && !v.halted s && v.lengthOk f.payload.length then (v.run f.payload s).state else s
  | .accepted => answer (frameOf v.kind f) (v.respond f.payload s)

/-- A request frame of this kind arriving on the link. A payload above 240 bytes has a length byte above 240. -/
def serve (v : Service) (f : Req) (s : State) : State :=
  whenHunting
    (fun s => if 240 < f.payload.length then lengthFault f.addr (BitVec.ofNat 8 f.payload.length) s else v.frame f s)
    s

/-- The service of a kind that is not in the catalogue: the reply is UNKNOWN (R166 step 2). Every length
reaches step 2 before step 3, and no such kind is executed when broadcast. -/
def unknownService (kind : Byte) : Service :=
  { kind := kind, lengthOk := fun _ => true, bcast := false, always := false, run := fun _ s => refuse s .unknown }

/-- A whole frame of any kind, given the catalogue. An accepted frame with a kind of 0x80 or above is discarded
without execution and without a reply (R166). -/
def frameByKind (catalogue : List Service) (kind : Byte) (f : Req) (s : State) : State :=
  if 0x80 ≤ kind.toNat then s
  else
    match catalogue.find? (fun v => v.kind == kind) with
    | some v => v.frame f s
    | none => (unknownService kind).frame f s

/-- A frame of any kind arriving whole on the link. -/
def deliver (catalogue : List Service) (kind : Byte) (f : Req) (s : State) : State :=
  whenHunting
    (fun s =>
      if 240 < f.payload.length then lengthFault f.addr (BitVec.ofNat 8 f.payload.length) s
      else frameByKind catalogue kind f s)
    s

/-- The exclusive-OR from the address through the check byte (section 11.2). -/
def checkSum (kind check : Byte) (f : Req) : Byte := xorBytes ((frameOf kind f).body ++ [check])

/-- A CHECK fault (R168): an accepted or broadcast frame that arrives whole with a wrong check byte. -/
def badCheck (kind : Byte) (f : Req) (s : State) : State :=
  match s.link.judge f.addr with
  | .foreign => s
  | .accepted | .broadcast =>
    takeFault
      { cause := .check, addr := f.addr, length := some (BitVec.ofNat 8 f.payload.length), kind := some kind
        tag := some f.tag, time := s.clock } .hunt s

end Sys2Proof.Machine
end

