-- ==== Sys2Proof/Machine/LinkReq.lean ====
section
/-! DEFINITION. The requests of the control link and of the condition set (chapters 10 and 11). -/

namespace Sys2Proof.Machine

/-! ## Identify (R173) -/

/-- The fields of Table 11.2 in order. The part code takes two bytes, as it is written with four digits, although its
number is below 256 (DESIGN CHOICE, log 17). -/
def runIdentify (_ : List Byte) (s : State) : Served :=
  ok s (b2 0x2C41 ++ b2 0x0086 ++ b1 1 ++ b1 s.link.strap.toNat ++ b1 8 ++ b1 6 ++ b1 s.store.status.code
    ++ b1 s.plant.survey.state.code)

def svcIdentify : Service :=
  { kind := 0x01, lengthOk := (· == 0), bcast := false, always := true, run := runIdentify }

/-- IDENTIFY (R173). -/
def execIdentify (f : Req) (s : State) : Result := .next (serve svcIdentify f s)

/-! ## Restart (R174) -/

/-- Answered OK; the restart follows when the reply has been sent, or an OVERRUN has stopped it. -/
def runRestart (_ : List Byte) (s : State) : Served := ok { s with link := { s.link with restartOwed := true } } []

def svcRestart : Service :=
  { kind := 0x02, lengthOk := (· == 0), bcast := false, always := false, run := runRestart }

/-- RESTART (R174). -/
def execRestart (f : Req) (s : State) : Result := .next (serve svcRestart f s)

/-! ## Set Accept Set (R165) -/

/-- Addresses that are not in `seen`, each held once. The accept set has no order (R165); that they are held, and listed by
Read Link Log, in the order carried, a repeat at its first appearance, is DESIGN CHOICE, log 16. -/
def heldOnce : List Byte → List Byte → List Byte
  | _, [] => []
  | seen, a :: as => if seen.contains a then heldOnce seen as else a :: heldOnce (a :: seen) as

/-- An address equal to the strap address, or given twice, is held once (R165). -/
def runSetAcceptSet (p : List Byte) (s : State) : Served :=
  if p.any (fun a => a == 0 || a == 255) then refuse s .badValue
  else ok { s with link := { s.link with added := heldOnce [s.link.strap.setWidth 8] p } } []

def svcSetAcceptSet : Service :=
  { kind := 0x03, lengthOk := (fun n => decide (n ≤ 3)), bcast := false, always := false, run := runSetAcceptSet }

/-- SET_ACCEPT_SET (R165). -/
def execSetAcceptSet (f : Req) (s : State) : Result := .next (serve svcSetAcceptSet f s)

/-! ## Set Link Mode (R170) -/

def linkModeAt (p : List Byte) (i : Nat) : Option LinkMode :=
  if byteAt p i = 0 then some .strict else if byteAt p i = 1 then some .lenient else none

def runSetLinkMode (p : List Byte) (s : State) : Served :=
  match linkModeAt p 0 with
  | some m => ok { s with link := { s.link with mode := m } } []
  | none => refuse s .badValue

def svcSetLinkMode : Service :=
  { kind := 0x04, lengthOk := (· == 1), bcast := false, always := false, run := runSetLinkMode }

/-- SET_LINK_MODE (R170). -/
def execSetLinkMode (f : Req) (s : State) : Result := .next (serve svcSetLinkMode f s)

/-! ## Read Link Log (R169) -/

/-- The values of Read Link Log: presence bits of the record and of its length, kind and tag; the record; the
mode; the strap address; the number of added addresses and the addresses. That the number precedes them is DESIGN CHOICE,
log 17. -/
def bLinkLog (k : Link) : List Byte :=
  let r := k.log
  flagBytes [r.isSome, (r.bind LinkFault.length).isSome, (r.bind LinkFault.kind).isSome, (r.bind LinkFault.tag).isSome]
    ++ bOpt 1 (fun (x : LinkFault) => b1 x.cause.code) r ++ bOpt 1 (fun (x : LinkFault) => [x.addr]) r
    ++ bOpt 1 (fun a => [a]) (r.bind LinkFault.length) ++ bOpt 1 (fun a => [a]) (r.bind LinkFault.kind)
    ++ bOpt 1 (fun a => [a]) (r.bind LinkFault.tag) ++ bOpt 4 (fun (x : LinkFault) => bTime x.time) r
    ++ b1 k.mode.code ++ b1 k.strap.toNat ++ b1 k.added.length ++ k.added

def runReadLinkLog (_ : List Byte) (s : State) : Served := ok s (bLinkLog s.link)

def svcReadLinkLog : Service :=
  { kind := 0x05, lengthOk := (· == 0), bcast := false, always := true, run := runReadLinkLog }

/-- READ_LINK_LOG (R169). -/
def execReadLinkLog (f : Req) (s : State) : Result := .next (serve svcReadLinkLog f s)

/-! ## Clear Link Fault (R171) -/

def runClearLinkFault (_ : List Byte) (s : State) : Served := ok { s with link := { s.link with log := none } } []

def svcClearLinkFault : Service :=
  { kind := 0x06, lengthOk := (· == 0), bcast := true, always := true, run := runClearLinkFault }

/-- CLEAR_LINK_FAULT (R171). -/
def execClearLinkFault (f : Req) (s : State) : Result := .next (serve svcClearLinkFault f s)

/-! ## Read Conditions (R158) -/

/-- The conditions that are set and the mask in force are returned; exactly those conditions are cleared. -/
def runReadConditions (_ : List Byte) (s : State) : Served :=
  let n := s.plant.notice
  ok { s with plant := { s.plant with notice := n.clear } } (b2 n.conds.toNat ++ b2 n.mask.toNat)

def svcReadConditions : Service :=
  { kind := 0x07, lengthOk := (· == 0), bcast := false, always := true, run := runReadConditions }

/-- READ_CONDITIONS (R158). -/
def execReadConditions (f : Req) (s : State) : Result := .next (serve svcReadConditions f s)

/-! ## Set Notice Mask (R159) -/

/-- A bit above 11 names no condition. The reply carries whether this unit drives the attention line after the
change. -/
def runSetNoticeMask (p : List Byte) (s : State) : Served :=
  if 4096 ≤ halfAt p 0 then refuse s .badValue
  else
    let n := s.plant.notice.setMask (BitVec.ofNat 12 (halfAt p 0))
    ok { s with plant := { s.plant with notice := n } } (bYes n.attention)

def svcSetNoticeMask : Service :=
  { kind := 0x08, lengthOk := (· == 2), bcast := false, always := false, run := runSetNoticeMask }

/-- SET_NOTICE_MASK (R159). -/
def execSetNoticeMask (f : Req) (s : State) : Result := .next (serve svcSetNoticeMask f s)

end Sys2Proof.Machine
end

