-- ==== Sys2Proof/Machine/RasterReq.lean ====
section
/-! DEFINITION. The requests of the feed table, the profiles, the raster and the admission settings (chapters 1
and 5). -/

namespace Sys2Proof.Machine

/-! ## Set Feed, Read Feed (R3, R9) -/

/-- The feed record a Set Feed request carries, when every value is in range (R3). -/
def feedRecAt (p : List Byte) : Option FeedRec :=
  match yesNoAt p 1 with
  | none => none
  | some e =>
    if byteAt p 2 ≤ 7 ∧ wordAt p 3 ≤ 870000 ∧ wordAt p 7 ≤ 870000 ∧ wordAt p 11 ≤ 870000 ∧ wordAt p 15 ≤ 870000 then
      some { enable := e, priority := byteAt p 2, w1 := ⟨wordAt p 3, wordAt p 7⟩, w2 := ⟨wordAt p 11, wordAt p 15⟩ }
    else none

/-- How many cells of the feed a change of record bars (R3, R4). -/
def barredBy (before after : FeedRec) (f : Feed) (cells : Vector Cell 576) : Nat :=
  (feedCells f).countP (fun c => before.admits (look cells c).defn && !after.admits (look cells c).defn)

/-- How many cells of the feed a change of record takes out of BARRED (R3, R4). -/
def admittedBy (after : FeedRec) (f : Feed) (cells : Vector Cell 576) : Nat :=
  (feedCells f).countP (fun c => (look cells c).state == .barred && after.admits (look cells c).defn)

/-- The settings with one feed record replaced. -/
def Settings.setFeed (g : Settings) (f : Feed) (r : FeedRec) : Settings := { g with feeds := put g.feeds f r }

def runSetFeed (p : List Byte) (s : State) : Served :=
  match feedAt p 0, feedRecAt p with
  | some f, some r =>
    let before := look s.settings.feeds f
    let g := s.settings.setFeed f r
    ok { s with settings := g, plant := changeFeed g s.clock before r f s.plant }
      (b1 (barredBy before r f s.plant.cells) ++ b1 (admittedBy r f s.plant.cells))
  | _, _ => refuse s .badValue

def svcSetFeed : Service :=
  { kind := 0x10, lengthOk := (· == 19), bcast := false, always := false, run := runSetFeed }

/-- SET_FEED (R3). -/
def execSetFeed (f : Req) (s : State) : Result := .next (serve svcSetFeed f s)

/-- The reception states, in the order of their codes. That Read Feed gives its eight counts in this order is DESIGN CHOICE,
log 17: R9 lists no order. -/
def allCellStates : List CellState := [.vacant, .barred, .unseen, .empty, .lit, .part, .dark, .lost]

/-- How many of a feed's cells are in a state (R9). -/
def stateCount (f : Feed) (cells : Vector Cell 576) (k : CellState) : Nat :=
  (feedCells f).countP (fun c => (look cells c).state == k)

/-- A feed record as Read Feed returns it. -/
def bFeedRec (r : FeedRec) : List Byte :=
  bYes r.enable ++ b1 r.priority ++ b4 r.w1.base ++ b4 r.w1.limit ++ b4 r.w2.base ++ b4 r.w2.limit

def runReadFeed (p : List Byte) (s : State) : Served :=
  match feedAt p 0 with
  | some f =>
    ok s (bFeedRec (look s.settings.feeds f)
      ++ (allCellStates.map (fun k => b1 (stateCount f s.plant.cells k))).flatten)
  | none => refuse s .badValue

def svcReadFeed : Service :=
  { kind := 0x11, lengthOk := (· == 1), bcast := false, always := false, run := runReadFeed }

/-- READ_FEED (R9). -/
def execReadFeed (f : Req) (s : State) : Result := .next (serve svcReadFeed f s)

/-! ## Profiles (R8) -/

def runSetProfile (p : List Byte) (s : State) : Served :=
  if h : byteAt p 0 < 8 then
    if 50 ≤ halfAt p 1 ∧ halfAt p 1 ≤ 350 then
      ok { s with settings := { s.settings with profiles := put s.settings.profiles ⟨byteAt p 0, h⟩ (halfAt p 1) } } []
    else refuse s .badValue
  else refuse s .badValue

def svcSetProfile : Service :=
  { kind := 0x12, lengthOk := (· == 3), bcast := false, always := false, run := runSetProfile }

/-- SET_PROFILE (R8). -/
def execSetProfile (f : Req) (s : State) : Result := .next (serve svcSetProfile f s)

def runReadProfiles (_ : List Byte) (s : State) : Served :=
  ok s ((s.settings.profiles.toList.map b2).flatten)

def svcReadProfiles : Service :=
  { kind := 0x13, lengthOk := (· == 0), bcast := false, always := false, run := runReadProfiles }

/-- READ_PROFILES (R8). -/
def execReadProfiles (f : Req) (s : State) : Result := .next (serve svcReadProfiles f s)

/-! ## The raster page (R12 to R17) -/

def runOpenRasterPage (p : List Byte) (s : State) : Served :=
  match feedAt p 0 with
  | some f =>
    if h : byteAt p 1 < 6 then
      ok { s with staging := { page := some (f, ⟨byteAt p 1, h⟩), staged := [] } } []
    else refuse s .badValue
  | none => refuse s .badValue

def svcOpenRasterPage : Service :=
  { kind := 0x14, lengthOk := (· == 2), bcast := false, always := false, run := runOpenRasterPage }

/-- OPEN_RASTER_PAGE (R12). -/
def execOpenRasterPage (f : Req) (s : State) : Result := .next (serve svcOpenRasterPage f s)

/-- The i-th definition of a Put Cells payload: frequency, bandwidth, profile (Table 11.5). -/
def defAt (p : List Byte) (i : Nat) : CellDef :=
  { freq := wordAt p (6 * i), bandwidth := byteAt p (6 * i + 4), profile := byteAt p (6 * i + 5) }

/-- The definitions a Put Cells request carries. -/
def defsOf (p : List Byte) : List CellDef := (List.range (p.length / 6)).map (defAt p)

/-- Checked in the order of R13; taking stops when the pointer reaches 16. -/
def runPutCells (p : List Byte) (s : State) : Served :=
  if s.staging.page = none then refuse s .wrongState
  else if (defsOf p).all CellDef.valid then
    let staged := s.staging.staged
    let taken := ((defsOf p).map CellDef.normal).take (16 - staged.length)
    ok { s with staging := { s.staging with staged := staged ++ taken } }
      (b1 taken.length ++ b1 (staged ++ taken).length)
  else refuse s .badValue

def svcPutCells : Service :=
  { kind := 0x15, lengthOk := (fun n => decide (6 ≤ n) && decide (n ≤ 96) && n % 6 == 0), bcast := false
    always := false, run := runPutCells }

/-- PUT_CELLS (R13). -/
def execPutCells (f : Req) (s : State) : Result := .next (serve svcPutCells f s)

def runWriteRasterPage (_ : List Byte) (s : State) : Served :=
  match s.staging.page with
  | none => refuse s .wrongState
  | some (f, k) =>
    let page := resultingPage f k s.staging.staged
    if pageClear s.plant.cells f page then
      ok { s with plant := writePage s.settings s.clock page s.plant, staging := Staging.atRestart }
        (b1 (rebuiltCount s.plant.cells page))
    else refuse s .badValue

def svcWriteRasterPage : Service :=
  { kind := 0x16, lengthOk := (· == 0), bcast := false, always := false, run := runWriteRasterPage }

/-- WRITE_RASTER_PAGE (R14, R15). -/
def execWriteRasterPage (f : Req) (s : State) : Result := .next (serve svcWriteRasterPage f s)

def runCloseRasterPage (_ : List Byte) (s : State) : Served :=
  ok (if s.staging.page = none then s else { s with staging := Staging.atRestart }) []

def svcCloseRasterPage : Service :=
  { kind := 0x17, lengthOk := (· == 0), bcast := false, always := false, run := runCloseRasterPage }

/-- CLOSE_RASTER_PAGE (R17). -/
def execCloseRasterPage (f : Req) (s : State) : Result := .next (serve svcCloseRasterPage f s)

/-! ## Read Cell (R18) -/

/-- The number of sightings that name a cell. -/
def sightingCount (d : Dir) (c : CellRef) : Nat := d.pool.countP (fun g => g.cell == c)

def runReadCell (p : List Byte) (s : State) : Served :=
  match cellRefAt p 0 with
  | some c => ok s (bCellRecord c (look s.plant.cells c) (sightingCount s.plant.dir c))
  | none => refuse s .badValue

def svcReadCell : Service :=
  { kind := 0x18, lengthOk := (· == 2), bcast := false, always := false, run := runReadCell }

/-- READ_CELL (R18). -/
def execReadCell (f : Req) (s : State) : Result := .next (serve svcReadCell f s)

/-! ## Admission (R81, R83) -/

/-- A network range at an offset: first and last. -/
def rangeAt (p : List Byte) (i : Nat) : NetRange :=
  { first := BitVec.ofNat 16 (halfAt p i), last := BitVec.ofNat 16 (halfAt p (i + 2)) }

/-- The admission settings a Set Admission request carries; the kind mask has TV, RADIO, DATA as bits 0 to 2. -/
def admissionAt (p : List Byte) : Admission :=
  let m := byteAt p 16
  { r1 := rangeAt p 0, r2 := rangeAt p 4, r3 := rangeAt p 8, r4 := rangeAt p 12
    tv := m % 2 == 1, radio := m / 2 % 2 == 1, data := m / 4 % 2 == 1 }

def runSetAdmission (p : List Byte) (s : State) : Served :=
  if 8 ≤ byteAt p 16 then refuse s .badValue
  else ok { s with settings := { s.settings with admission := admissionAt p } } []

def svcSetAdmission : Service :=
  { kind := 0x19, lengthOk := (· == 17), bcast := false, always := false, run := runSetAdmission }

/-- SET_ADMISSION (R81). -/
def execSetAdmission (f : Req) (s : State) : Result := .next (serve svcSetAdmission f s)

/-- The admission settings as bytes: the ranges, then the kind mask. -/
def bAdmission (a : Admission) : List Byte :=
  (a.ranges.map (fun r => b2 r.first.toNat ++ b2 r.last.toNat)).flatten ++ flagBytes [a.tv, a.radio, a.data]

def runReadAdmission (_ : List Byte) (s : State) : Served := ok s (bAdmission s.settings.admission)

def svcReadAdmission : Service :=
  { kind := 0x1A, lengthOk := (· == 0), bcast := false, always := false, run := runReadAdmission }

/-- READ_ADMISSION (R83). -/
def execReadAdmission (f : Req) (s : State) : Result := .next (serve svcReadAdmission f s)

end Sys2Proof.Machine
end

