-- ==== Sys2Proof/Machine/LaneReq.lean ====
section
/-! DEFINITION. The requests that reach a lane and the stage timers (chapter 2). -/

namespace Sys2Proof.Machine

/-! ## Park Lane, Unpark Lane (R39, R40) -/

/-- A lane taken out of service from any state (R39). -/
def parkLane (g : Settings) (now : Time) (l : Lane) (p : Plant) : Plant :=
  let x := look p.lanes l
  if x.inVisit then
    match x.cell with
    | some _ => abandon g now l .parked p
    | none => p.setLane l (x.leave .parked)
  else if x.state = .held then holdEnd g now l .parked true p
  else p.setLane l { x with state := .parked }

def runParkLane (p : List Byte) (s : State) : Served :=
  match laneAt p 0 with
  | some l => ok { s with plant := parkLane s.settings s.clock l s.plant } []
  | none => refuse s .badValue

def svcParkLane : Service :=
  { kind := 0x20, lengthOk := (· == 1), bcast := false, always := false, run := runParkLane }

/-- PARK_LANE (R39). -/
def execParkLane (f : Req) (s : State) : Result := .next (serve svcParkLane f s)

/-- A lane returned to service: pending options take force (R40). -/
def LaneRec.unparked (x : LaneRec) : LaneRec :=
  { x with state := .idle, options := x.pendingOpts.getD x.options, pendingOpts := none }

def runUnparkLane (p : List Byte) (s : State) : Served :=
  match laneAt p 0 with
  | some l =>
    let x := look s.plant.lanes l
    if x.state = .parked ∨ x.state = .faulted then ok { s with plant := s.plant.setLane l x.unparked } []
    else refuse s .wrongState
  | none => refuse s .badValue

def svcUnparkLane : Service :=
  { kind := 0x21, lengthOk := (· == 1), bcast := false, always := false, run := runUnparkLane }

/-- UNPARK_LANE (R40). -/
def execUnparkLane (f : Req) (s : State) : Result := .next (serve svcUnparkLane f s)

/-! ## Set Lane Options (R41) -/

def reachAt (p : List Byte) (i : Nat) : Option Reach :=
  if byteAt p i = 0 then some .narrow else if byteAt p i = 1 then some .wide else none

def stepAt (p : List Byte) (i : Nat) : Option TrimStep :=
  if byteAt p i = 1 then some .one else if byteAt p i = 2 then some .two else none

/-- The option values of a Set Lane Options request: reach, step, probe error limit. -/
def optionsAt (p : List Byte) : Option Options :=
  match reachAt p 1, stepAt p 2 with
  | some r, some st => some { reach := r, step := st, limit := p.getD 3 0 }
  | _, _ => none

/-- The lanes that are PARKED, as a lane mask. -/
def parkedMask (lanes : Vector LaneRec 8) : BitVec 8 :=
  (List.finRange 8).foldl (fun m l => if (look lanes l).state = .parked then m ||| laneBit l else m) 0

/-- The options given as pending options to the parked lanes of the mask (R41). -/
def giveOptions (m : BitVec 8) (o : Options) (lanes : Vector LaneRec 8) : Vector LaneRec 8 :=
  table (fun l =>
    let x := look lanes l
    if m &&& laneBit l ≠ 0 ∧ x.state = .parked then { x with pendingOpts := some o } else x)

def runSetLaneOptions (p : List Byte) (s : State) : Served :=
  match optionsAt p with
  | some o =>
    let m := p.getD 0 0
    let parked := parkedMask s.plant.lanes
    ok { s with plant := { s.plant with lanes := giveOptions m o s.plant.lanes } }
      [m &&& parked, m &&& ~~~ parked]
  | none => refuse s .badValue

def svcSetLaneOptions : Service :=
  { kind := 0x22, lengthOk := (· == 4), bcast := false, always := false, run := runSetLaneOptions }

/-- SET_LANE_OPTIONS (R41). -/
def execSetLaneOptions (f : Req) (s : State) : Result := .next (serve svcSetLaneOptions f s)

/-! ## Stage timers (R23, R24) -/

/-- The stage timer settings a Set Timers request carries, when every value is accepted (R23). -/
def timersAt (p : List Byte) : Option TimerSet :=
  if 1 ≤ byteAt p 0 ∧ byteAt p 0 ≤ 15 ∧ byteAt p 1 ≤ 15 ∧ 1 ≤ byteAt p 2 ∧ byteAt p 2 ≤ 15
      ∧ 50 ≤ halfAt p 3 ∧ halfAt p 3 ≤ 2000 then
    some { lock := byteAt p 0, gap := byteAt p 1, dwell := byteAt p 2, interval := halfAt p 3 }
  else none

def runSetTimers (p : List Byte) (s : State) : Served :=
  match timersAt p with
  | some t => ok { s with settings := { s.settings with timers := t } } []
  | none => refuse s .badValue

def svcSetTimers : Service :=
  { kind := 0x23, lengthOk := (· == 5), bcast := false, always := false, run := runSetTimers }

/-- SET_TIMERS (R23). -/
def execSetTimers (f : Req) (s : State) : Result := .next (serve svcSetTimers f s)

/-- The values of Read Timers: the presence bit of the gap period, the four values, the three periods. -/
def bTimers (t : TimerSet) : List Byte :=
  flagBytes [(gapPeriod t.gap).isSome] ++ b1 t.lock ++ b1 t.gap ++ b1 t.dwell ++ b2 t.interval
    ++ b2 (periodOf t.lock) ++ bOpt 2 b2 (gapPeriod t.gap) ++ b2 (periodOf t.dwell)

def runReadTimers (_ : List Byte) (s : State) : Served := ok s (bTimers s.settings.timers)

def svcReadTimers : Service :=
  { kind := 0x24, lengthOk := (· == 0), bcast := false, always := false, run := runReadTimers }

/-- READ_TIMERS (R24). -/
def execReadTimers (f : Req) (s : State) : Result := .next (serve svcReadTimers f s)

/-! ## Read Lane (R43) -/

def bOptions (o : Options) : List Byte := b1 o.reach.code ++ b1 o.step.size ++ [o.limit]

/-- The presence bits of Read Lane, in the order R43 lists the fields, optional parts of a field after it. -/
def laneFlags (x : LaneRec) : List Bool :=
  [x.cell.isSome, x.cls.isSome, x.terms.isSome, x.start.isSome, x.latched.isSome, (x.latched.bind Latched.gap).isSome,
    x.pendingOpts.isSome, x.fault.isSome, x.record.isSome, x.holdExpiry.isSome, x.live.isSome,
    (x.live.bind LiveReading.level).isSome, (x.live.bind LiveReading.mer).isSome, (x.live.bind LiveReading.load).isSome]

/-- The values of Read Lane (R43), in these encodings. -/
def bLane (x : LaneRec) : List Byte :=
  flagBytes (laneFlags x) ++ b1 x.state.code ++ bCell? x.cell ++ bOpt 1 (fun k : VisitClass => b1 k.code) x.cls
    ++ bOpt 4 (fun (t : SpotTerms) => bYes t.trim ++ b2 t.hold ++ [t.ticket]) x.terms
    ++ bOpt 4 bTime x.start
    ++ bOpt 8 (fun (t : Latched) => b2 t.lock ++ bOpt 2 b2 t.gap ++ b2 t.dwell ++ b2 t.interval) x.latched
    ++ bInt x.offset ++ bOptions x.options ++ bOpt 3 bOptions x.pendingOpts
    ++ bOpt 5 (fun (f : LaneFaultCause × Time) => b1 (laneFaultCode f.1) ++ bTime f.2) x.fault
    ++ bOpt 35 bRecord x.record ++ bOpt 4 bTime x.holdExpiry
    ++ bOpt 8 (fun (r : LiveReading) =>
        bYes r.lock ++ bOpt 1 b1 r.level ++ bOpt 2 b2 r.mer ++ bOpt 2 b2 r.load ++ b2 r.blocks) x.live

def runReadLane (p : List Byte) (s : State) : Served :=
  match laneAt p 0 with
  | some l => ok s (bLane (look s.plant.lanes l))
  | none => refuse s .badValue

def svcReadLane : Service :=
  { kind := 0x25, lengthOk := (· == 1), bcast := false, always := false, run := runReadLane }

/-- READ_LANE (R43). -/
def execReadLane (f : Req) (s : State) : Result := .next (serve svcReadLane f s)

end Sys2Proof.Machine
end

