-- ==== Sys2Proof/Machine/SurveyReq.lean ====
section
/-! DEFINITION. The requests of the survey engine (chapter 9). -/

namespace Sys2Proof.Machine

/-- The state with the survey engine's record replaced. -/
def State.setSurvey (s : State) (v : Survey) : State := { s with plant := { s.plant with survey := v } }

/-! ## Start, Halt, Mode, Continue, Clear (R138 to R141, R156) -/

def runStartSurvey (_ : List Byte) (s : State) : Served :=
  ok (s.setSurvey { s.plant.survey with state := .running }) (b1 SurveyState.running.code)

def svcStartSurvey : Service :=
  { kind := 0x28, lengthOk := (· == 0), bcast := true, always := false, run := runStartSurvey }

/-- START_SURVEY (R138). -/
def execStartSurvey (f : Req) (s : State) : Result := .next (serve svcStartSurvey f s)

/-- The survey state after Halt Survey (R139). -/
def haltedState (p : Plant) : SurveyState :=
  match p.survey.state with
  | .running | .paused => if p.lanes.toList.any LaneRec.surveying then .draining else .stopped
  | .stopped => .stopped
  | .draining => .draining

def runHaltSurvey (_ : List Byte) (s : State) : Served :=
  ok (s.setSurvey { s.plant.survey with state := haltedState s.plant }) (b1 (haltedState s.plant).code)

def svcHaltSurvey : Service :=
  { kind := 0x29, lengthOk := (· == 0), bcast := true, always := false, run := runHaltSurvey }

/-- HALT_SURVEY (R139). -/
def execHaltSurvey (f : Req) (s : State) : Result := .next (serve svcHaltSurvey f s)

def runSetSurveyMode (p : List Byte) (s : State) : Served :=
  match yesNoAt p 0, yesNoAt p 1 with
  | some st, some au => ok (s.setSurvey { s.plant.survey with stepMode := st, autoResume := au }) []
  | _, _ => refuse s .badValue

def svcSetSurveyMode : Service :=
  { kind := 0x2A, lengthOk := (· == 2), bcast := false, always := false, run := runSetSurveyMode }

/-- SET_SURVEY_MODE (R140). -/
def execSetSurveyMode (f : Req) (s : State) : Result := .next (serve svcSetSurveyMode f s)

def runContinue (_ : List Byte) (s : State) : Served :=
  if s.plant.survey.state = .paused then ok (s.setSurvey { s.plant.survey with state := .running }) []
  else refuse s .wrongState

def svcContinue : Service :=
  { kind := 0x2B, lengthOk := (· == 0), bcast := false, always := false, run := runContinue }

/-- CONTINUE (R141). -/
def execContinueSurvey (f : Req) (s : State) : Result := .next (serve svcContinue f s)

def runClearSurvey (_ : List Byte) (s : State) : Served := ok { s with plant := clearSurvey s.clock s.plant } []

def svcClearSurvey : Service :=
  { kind := 0x2C, lengthOk := (· == 0), bcast := false, always := false, run := runClearSurvey }

/-- CLEAR_SURVEY (R156). -/
def execClearSurvey (f : Req) (s : State) : Result := .next (serve svcClearSurvey f s)

/-! ## Read Survey (R155) -/

/-- The cells that have a due time, with it. -/
def dueCells (cells : Vector Cell 576) : List Time := cells.toList.filterMap Cell.due

/-- The earliest of the due times. -/
def earliest (ts : List Time) : Option Time := best (fun a b => decide (a.toNat < b.toNat)) ts

/-- A waiting spot entry: ticket, cell, trim choice, hold seconds. -/
def bSpot (e : SpotEntry) : List Byte := [e.ticket] ++ bCell e.cell ++ bYes e.trim ++ b2 e.hold

/-- The values of Read Survey (R155): the presence bit of the earliest due time first. That the number of spot entries
precedes them is DESIGN CHOICE, log 17. -/
def bSurvey (p : Plant) (now : Time) : List Byte :=
  let v := p.survey
  let dues := dueCells p.cells
  flagBytes [(earliest dues).isSome] ++ b1 v.state.code ++ bYes v.stepMode ++ bYes v.autoResume ++ [v.stepped]
    ++ bCell v.cursor ++ b2 v.passes.toNat ++ b1 v.share ++ [v.ticket]
    ++ b1 v.spots.length ++ (v.spots.map bSpot).flatten ++ b1 (heldLanes p.lanes)
    ++ b2 dues.length ++ b2 (dues.countP (fun t => decide (t.toNat ≤ now.toNat))) ++ bOpt 4 bTime (earliest dues)

def runReadSurvey (_ : List Byte) (s : State) : Served := ok s (bSurvey s.plant s.clock)

def svcReadSurvey : Service :=
  { kind := 0x2D, lengthOk := (· == 0), bcast := false, always := false, run := runReadSurvey }

/-- READ_SURVEY (R155). -/
def execReadSurvey (f : Req) (s : State) : Result := .next (serve svcReadSurvey f s)

/-! ## Watch policy (R144) -/

/-- The watch policy a request carries, when every value is in range (R144). -/
def watchPolicyAt (p : List Byte) : Option WatchPolicy :=
  if 5 ≤ halfAt p 0 ∧ halfAt p 0 ≤ 600 ∧ 30 ≤ halfAt p 2 ∧ halfAt p 2 ≤ 3600 ∧ 1 ≤ byteAt p 4 ∧ byteAt p 4 ≤ 15
      ∧ byteAt p 5 ≤ 4 then
    some { chosenInterval := halfAt p 0, watchInterval := halfAt p 2, share := byteAt p 4, holdLimit := byteAt p 5 }
  else none

/-- A hold limit of 0 removes the waiting entries that ask to hold (R144). -/
def afterWatchPolicy (w : WatchPolicy) (now : Time) (p : Plant) : Plant :=
  if w.holdLimit = 0 then dropSpots now (fun e => decide (0 < e.hold)) p else p

def runSetWatchPolicy (p : List Byte) (s : State) : Served :=
  match watchPolicyAt p with
  | some w =>
    ok { s with settings := { s.settings with watch := w }, plant := afterWatchPolicy w s.clock s.plant } []
  | none => refuse s .badValue

def svcSetWatchPolicy : Service :=
  { kind := 0x2E, lengthOk := (· == 6), bcast := false, always := false, run := runSetWatchPolicy }

/-- SET_WATCH_POLICY (R144). -/
def execSetWatchPolicy (f : Req) (s : State) : Result := .next (serve svcSetWatchPolicy f s)

def bWatchPolicy (w : WatchPolicy) : List Byte :=
  b2 w.chosenInterval ++ b2 w.watchInterval ++ b1 w.share ++ b1 w.holdLimit

def runReadWatchPolicy (_ : List Byte) (s : State) : Served := ok s (bWatchPolicy s.settings.watch)

def svcReadWatchPolicy : Service :=
  { kind := 0x2F, lengthOk := (· == 0), bcast := false, always := false, run := runReadWatchPolicy }

/-- READ_WATCH_POLICY (R144). -/
def execReadWatchPolicy (f : Req) (s : State) : Result := .next (serve svcReadWatchPolicy f s)

/-! ## Spot Measure (R142) -/

/-- A spot entry appended with the next ticket. -/
def addSpot (c : CellRef) (trim : Bool) (hold : Nat) (v : Survey) : Survey :=
  { v with spots := v.spots ++ [{ ticket := v.ticket, cell := c, trim := trim, hold := hold }]
           ticket := v.ticket + 1 }

/-- Checked in the order of R142. -/
def runSpotMeasure (p : List Byte) (s : State) : Served :=
  match cellRefAt p 0, yesNoAt p 2 with
  | some c, some trim =>
    let hold := halfAt p 3
    let st := (look s.plant.cells c).state
    if 600 < hold then refuse s .badValue
    else if st = .vacant ∨ st = .barred then refuse s .badValue
    else if 0 < hold ∧ s.settings.watch.holdLimit = 0 then refuse s .wrongState
    else if 4 ≤ s.plant.survey.spots.length then refuse s .full
    else
      ok (s.setSurvey (addSpot c trim hold s.plant.survey))
        ([s.plant.survey.ticket] ++ b1 (s.plant.survey.spots.length + 1))
  | _, _ => refuse s .badValue

def svcSpotMeasure : Service :=
  { kind := 0x30, lengthOk := (· == 5), bcast := false, always := false, run := runSpotMeasure }

/-- SPOT_MEASURE (R142). -/
def execSpotMeasure (f : Req) (s : State) : Result := .next (serve svcSpotMeasure f s)

/-! ## Holds (R152) -/

def runRenewHold (p : List Byte) (s : State) : Served :=
  match laneAt p 0 with
  | none => refuse s .badValue
  | some l =>
    if 1 ≤ halfAt p 1 ∧ halfAt p 1 ≤ 600 then
      let x := look s.plant.lanes l
      if x.state = .held then
        let t := s.clock + BitVec.ofNat 32 (halfAt p 1)
        ok { s with plant := s.plant.setLane l { x with holdExpiry := some t } } (bTime t)
      else refuse s .wrongState
    else refuse s .badValue

def svcRenewHold : Service :=
  { kind := 0x31, lengthOk := (· == 3), bcast := false, always := false, run := runRenewHold }

/-- RENEW_HOLD (R152). -/
def execRenewHold (f : Req) (s : State) : Result := .next (serve svcRenewHold f s)

def runReleaseHold (p : List Byte) (s : State) : Served :=
  match laneAt p 0 with
  | none => refuse s .badValue
  | some l =>
    if (look s.plant.lanes l).state = .held then
      ok { s with plant := holdEnd s.settings s.clock l .idle true s.plant } []
    else refuse s .wrongState

def svcReleaseHold : Service :=
  { kind := 0x32, lengthOk := (· == 1), bcast := false, always := false, run := runReleaseHold }

/-- RELEASE_HOLD (R152). -/
def execReleaseHold (f : Req) (s : State) : Result := .next (serve svcReleaseHold f s)

/-! ## Read Spot Results (R154) -/

/-- One spot result: ticket, cell, trim choice, hold seconds, outcome, time, record. -/
def bSpotResult (r : SpotResult) : List Byte :=
  [r.ticket] ++ bCell r.cell ++ bYes r.trim ++ b2 r.hold ++ b1 r.outcome.code ++ bTime r.time
    ++ bOpt 35 bRecord r.record

/-- The presence bits of the records, the number of results, the results newest first. That the number precedes them is
DESIGN CHOICE, log 17. -/
def bSpotResults (rs : List SpotResult) : List Byte :=
  flagBytes (rs.map (fun r => r.record.isSome)) ++ b1 rs.length ++ (rs.map bSpotResult).flatten

def runReadSpotResults (_ : List Byte) (s : State) : Served := ok s (bSpotResults s.plant.survey.results)

def svcReadSpotResults : Service :=
  { kind := 0x33, lengthOk := (· == 0), bcast := false, always := false, run := runReadSpotResults }

/-- READ_SPOT_RESULTS (R154). -/
def execReadSpotResults (f : Req) (s : State) : Result := .next (serve svcReadSpotResults f s)

end Sys2Proof.Machine
end

