-- ==== Sys2Proof/Machine/DirectoryReq.lean ====
section
/-! DEFINITION. The requests of the service directory, the ranking unit and the advice queue (chapters 6 to 8). -/

namespace Sys2Proof.Machine

/-- What the ranking unit reads in a state. -/
def State.view (s : State) : View :=
  { cells := s.plant.cells, feeds := s.settings.feeds, policy := s.settings.policy, now := s.clock }

/-- The state with the directory's books entered: the directory replaced, the conditions set. -/
def State.enter (s : State) (b : Books) : State :=
  { s with plant := { s.plant with dir := b.dir, notice := s.plant.notice.raise b.raised } }

/-- The books of a state before any work. -/
def State.books (s : State) : Books := { dir := s.plant.dir, raised := 0 }

/-! ## List Services, Read Service (R106, R107) -/

/-- Scans slots upward: up to `k` in-use slots, and the slot after the last one scanned. -/
def scanSlots (d : Dir) : Nat → List SlotNo → List SlotNo × Option SlotNo
  | 0, rest => ([], rest.head?)
  | _ + 1, [] => ([], none)
  | k + 1, n :: rest =>
    if (look d.slots n).state = .free then scanSlots d (k + 1) rest
    else
      let r := scanSlots d k rest
      (n :: r.1, r.2)

/-- The number of slots in use. -/
def slotsInUse (d : Dir) : Nat := countIn d.slots (fun x => x.state != .free)

/-- The values of List Services: number of entries, the entries, the next slot, the two totals. -/
def bServices (cells : Vector Cell 576) (d : Dir) (first count : Nat) : List Byte :=
  let r := scanSlots d count ((List.finRange 512).drop first)
  b1 r.1.length ++ (r.1.map (fun n => bCompact cells n (look d.slots n))).flatten
    ++ b2 ((r.2.map Fin.val).getD 0xFFFF) ++ b2 (slotsInUse d) ++ b2 d.pool.length

def runListServices (p : List Byte) (s : State) : Served :=
  if halfAt p 0 ≤ 511 ∧ 1 ≤ byteAt p 2 ∧ byteAt p 2 ≤ 8 then
    ok s (bServices s.plant.cells s.plant.dir (halfAt p 0) (byteAt p 2))
  else refuse s .badValue

def svcListServices : Service :=
  { kind := 0x34, lengthOk := (· == 3), bcast := false, always := false, run := runListServices }

/-- LIST_SERVICES (R106). -/
def execListServices (f : Req) (s : State) : Result := .next (serve svcListServices f s)

def runReadService (p : List Byte) (s : State) : Served :=
  match slotAt p 0 with
  | some n => ok s (bService s.plant.cells n (look s.plant.dir.slots n) (rankedOf s.view s.plant.dir n))
  | none => refuse s .badValue

def svcReadService : Service :=
  { kind := 0x35, lengthOk := (· == 2), bcast := false, always := false, run := runReadService }

/-- READ_SERVICE (R107). -/
def execReadService (f : Req) (s : State) : Result := .next (serve svcReadService f s)

/-! ## Forget Service (R103) -/

def runForgetService (p : List Byte) (s : State) : Served :=
  match slotAt p 0 with
  | none => refuse s .badValue
  | some n =>
    match (look s.plant.dir.slots n).state with
    | .free | .retiring => refuse s .wrongState
    | .provisional | .live | .orphan =>
      let b := removeService s.view n s.books
      ok (s.enter b) (b1 (look b.dir.slots n).state.code)

def svcForgetService : Service :=
  { kind := 0x36, lengthOk := (· == 2), bcast := false, always := false, run := runForgetService }

/-- FORGET_SERVICE (R103). -/
def execForgetService (f : Req) (s : State) : Result := .next (serve svcForgetService f s)

/-! ## Ranking policy (R110, R111) -/

/-- The ranking policy a request carries, when every value is in range (R56, R110). -/
def policyAt (p : List Byte) : Option Policy :=
  if halfAt p 0 ≤ 500 ∧ 1 ≤ byteAt p 2 ∧ byteAt p 2 ≤ 8 ∧ 1 ≤ byteAt p 3 ∧ byteAt p 3 ≤ 15 ∧ 1 ≤ halfAt p 4
      ∧ halfAt p 4 ≤ 1440 ∧ 20 ≤ byteAt p 6 ∧ byteAt p 6 < byteAt p 7 ∧ byteAt p 7 ≤ 110 then
    some { margin := halfAt p 0, confirm := byteAt p 2, lost := byteAt p 3, forget := halfAt p 4
           lvmin := byteAt p 6, lvmax := byteAt p 7 }
  else none

def runSetRankingPolicy (p : List Byte) (s : State) : Served :=
  match policyAt p with
  | some x => ok { s with settings := { s.settings with policy := x } } []
  | none => refuse s .badValue

def svcSetRankingPolicy : Service :=
  { kind := 0x37, lengthOk := (· == 8), bcast := false, always := false, run := runSetRankingPolicy }

/-- SET_RANKING_POLICY (R110). -/
def execSetRankingPolicy (f : Req) (s : State) : Result := .next (serve svcSetRankingPolicy f s)

def bPolicy (x : Policy) : List Byte :=
  b2 x.margin ++ b1 x.confirm ++ b1 x.lost ++ b2 x.forget ++ b1 x.lvmin ++ b1 x.lvmax

def runReadRankingPolicy (_ : List Byte) (s : State) : Served :=
  ok s (bPolicy s.settings.policy ++ bYes s.plant.dir.grace ++ b2 s.plant.dir.provisional.length)

def svcReadRankingPolicy : Service :=
  { kind := 0x38, lengthOk := (· == 0), bcast := false, always := false, run := runReadRankingPolicy }

/-- READ_RANKING_POLICY (R111). -/
def execReadRankingPolicy (f : Req) (s : State) : Result := .next (serve svcReadRankingPolicy f s)

/-! ## Pins (R121, R122) -/

/-- A service with its pin and flag replaced, released if PROVISIONAL, and evaluated (R120 to R122). -/
def repin (v : View) (n : SlotNo) (pin : Option CellRef) (d : Dir) : Books :=
  evaluate v true n { dir := d.setSlot n { look d.slots n with pin := pin, suspended := false }, raised := 0 }

/-- The chosen source as a reply carries it: its presence bit in a flags byte, and the reference. -/
def bChosen (c : Option CellRef) : List Byte := flagBytes [c.isSome] ++ bCell? c

/-- Checked in the order of R121. -/
def runPinSource (p : List Byte) (s : State) : Served :=
  match slotAt p 0, cellRefAt p 2 with
  | some n, some c =>
    if s.plant.dir.holds n c then
      if s.view.rankable c then
        let b := repin s.view n (some c) s.plant.dir
        let after := (look b.dir.slots n).chosen
        ok (s.enter b) (bChosen after ++ bYes (after != (look s.plant.dir.slots n).chosen))
      else refuse s .wrongState
    else refuse s .badValue
  | _, _ => refuse s .badValue

def svcPinSource : Service :=
  { kind := 0x39, lengthOk := (· == 4), bcast := false, always := false, run := runPinSource }

/-- PIN_SOURCE (R121). -/
def execPinSource (f : Req) (s : State) : Result := .next (serve svcPinSource f s)

def runUnpin (p : List Byte) (s : State) : Served :=
  match slotAt p 0 with
  | none => refuse s .badValue
  | some n =>
    match (look s.plant.dir.slots n).state with
    | .free | .retiring => refuse s .wrongState
    | .provisional | .live | .orphan =>
      let b := repin s.view n none s.plant.dir
      ok (s.enter b) (bChosen (look b.dir.slots n).chosen)

def svcUnpin : Service :=
  { kind := 0x3A, lengthOk := (· == 2), bcast := false, always := false, run := runUnpin }

/-- UNPIN (R122). -/
def execUnpin (f : Req) (s : State) : Result := .next (serve svcUnpin f s)

/-! ## Take Advice (R133, R134) -/

/-- The number of slots OWED. -/
def slotsOwed (d : Dir) : Nat := countIn d.slots (fun x => x.advice == .owed)

/-- The values of Take Advice: number of records, the records oldest first, records held and slots owed after the filling.
R133 and R134 list no number of records; that it precedes them is DESIGN CHOICE, log 17. -/
def bTaken (taken : List Advice) (d : Dir) : List Byte :=
  b1 taken.length ++ (taken.map bAdvice).flatten ++ b1 d.queue.length ++ b2 (slotsOwed d)

def runTakeAdvice (p : List Byte) (s : State) : Served :=
  if 1 ≤ byteAt p 0 ∧ byteAt p 0 ≤ 8 then
    let r := takeAdvice s.view (byteAt p 0) s.plant.dir
    ok (s.enter r.1) (bTaken r.2 r.1.dir)
  else refuse s .badValue

def svcTakeAdvice : Service :=
  { kind := 0x3B, lengthOk := (· == 1), bcast := false, always := false, run := runTakeAdvice }

/-- TAKE_ADVICE (R133). -/
def execTakeAdvice (f : Req) (s : State) : Result := .next (serve svcTakeAdvice f s)

end Sys2Proof.Machine
end

