-- ==== Sys2Proof/Machine/StoreReq.lean ====
section
/-! DEFINITION. The requests of the retained store (chapter 12). -/

namespace Sys2Proof.Machine

/-! ## Save Snapshot, Erase Store, Read Store Status (R178, R180, R182) -/

/-- The image captured; the page writer begins with page 0 (R178, R179). -/
def beginSave (s : State) : State :=
  { s with
    draws := s.draws + 1
    store :=
      { s.store with
        status := .saving, writer := .saving .eraseHeader, verified := 0
        capture := some { image := imageOf s, bytes := captureBytes s.draws } } }

def runSaveSnapshot (_ : List Byte) (s : State) : Served :=
  if s.store.writer = .idle then ok (beginSave s) [] else refuse s .busy

def svcSaveSnapshot : Service :=
  { kind := 0x3C, lengthOk := (· == 0), bcast := true, always := false, run := runSaveSnapshot }

/-- SAVE_SNAPSHOT (R178). -/
def execSaveSnapshot (f : Req) (s : State) : Result := .next (serve svcSaveSnapshot f s)

def runEraseStore (_ : List Byte) (s : State) : Served :=
  if s.store.writer = .idle then ok (s.setStore { s.store with status := .blank, writer := .erasing }) []
  else refuse s .busy

def svcEraseStore : Service :=
  { kind := 0x3D, lengthOk := (· == 0), bcast := false, always := false, run := runEraseStore }

/-- ERASE_STORE (R180). -/
def execEraseStore (f : Req) (s : State) : Result := .next (serve svcEraseStore f s)

/-- The values of Read Store Status (R182): the presence bits of the save count and N (VALID) and of the pages
verified and N (SAVING), the status, these four, and whether the writer is ERASING. -/
def bStoreStatus (t : Store) : List Byte :=
  let valid := t.status == .valid
  let saving := t.status == .saving
  let count := if valid then some t.saveCount.toNat else none
  let pages := if valid then some (headerPages t.mem) else none
  let verified := if saving then some t.verified else none
  let target := if saving then t.capture.map Capture.pages else none
  flagBytes [count.isSome, pages.isSome, verified.isSome, target.isSome]
    ++ b1 t.status.code ++ bOpt 2 b2 count ++ bOpt 1 b1 pages ++ bOpt 1 b1 verified ++ bOpt 1 b1 target
    ++ bYes (t.writer == .erasing)

def runReadStoreStatus (_ : List Byte) (s : State) : Served := ok s (bStoreStatus s.store)

def svcReadStoreStatus : Service :=
  { kind := 0x3E, lengthOk := (· == 0), bcast := false, always := false, run := runReadStoreStatus }

/-- READ_STORE_STATUS (R182). -/
def execReadStoreStatus (f : Req) (s : State) : Result := .next (serve svcReadStoreStatus f s)

end Sys2Proof.Machine
end

