-- ==== Sys2Proof/Machine/LaneEvents.lean ====
section
/-! DEFINITION. The events of the lanes: front-end reports and stage timers (chapters 2, 3, 5), and the events of
the survey engine, the directory and the page writer. A report outside the stage it concerns, or the expiry of a
timer that is not running, changes nothing (R31). -/

namespace Sys2Proof.Machine

/-- The state with work done on the survey's part of the machine. -/
def State.work (k : Settings → Time → Plant → Plant) (s : State) : State :=
  { s with plant := k s.settings s.clock s.plant }

/-! ## Lock and the trim sweep (R26, R27, R46) -/

/-- A lane entering MEASURING (R28). -/
def LaneRec.measure (x : LaneRec) : LaneRec :=
  { x with state := .measuring, measureTimer := x.latched.map Latched.interval, gathered := Gathered.empty }

/-- A spot visit whose terms say no trim (R26, R53). -/
def LaneRec.skipsTrim (x : LaneRec) : Bool :=
  match x.terms with
  | some t => !t.trim
  | none => false

/-- Lock in TUNING (R26, R44). -/
def LaneRec.locked (x : LaneRec) : LaneRec :=
  let y := { x with lockTimer := none, lockNoted := true }
  if x.skipsTrim then y.measure else { y with state := .trimming, trim := TrimUnit.begin x.options }

/-- The live reading of a hold with its lock changed (R151). -/
def LaneRec.liveLock (x : LaneRec) (b : Bool) : LaneRec :=
  { x with live := x.live.map (fun r => { r with lock := b }) }

/-- Lock arriving in a hold. -/
def LaneRec.heldLock (x : LaneRec) : LaneRec := { x.liveLock true with lockNow := true }

/-- Lock lost in a hold. -/
def LaneRec.heldLoss (x : LaneRec) : LaneRec := { x.liveLock false with lockNow := false, lockHeld := false }

/-- A lock report (R26, R31, R151). -/
def lockArrives (l : Lane) (p : Plant) : Plant :=
  let x := look p.lanes l
  match x.state with
  | .tuning => p.setLane l x.locked
  | .held => p.setLane l x.heldLock
  | .parked | .idle | .trimming | .measuring | .reading | .faulted => p

/-- LOCK_ARRIVAL (R26). -/
def execLockArrival (l : Lane) (s : State) : Result := .next (s.work (fun _ _ => lockArrives l))

/-- An ending with no roster, after which the lane is IDLE. -/
def plainEnd (o : VisitOutcome) (lockLost : Bool) : Ending :=
  { outcome := o, roster := .none, summary := none, lockLost := lockLost, next := .idle }

/-- The lock timer's expiry in TUNING: DARK (R26). -/
def lockTimeout (l : Lane) (g : Settings) (now : Time) (p : Plant) : Plant :=
  let x := look p.lanes l
  if x.state = .tuning ∧ x.lockTimer.isSome then visitEnd g now l (plainEnd .dark false) p else p

/-- LOCK_TIMER_EXPIRY (R26). -/
def execLockTimerExpiry (l : Lane) (s : State) : Result := .next (s.work (lockTimeout l))

/-- A sweep's end at the lane (R27, R51): the result kept, the offset at its centre, MEASURING. -/
def LaneRec.swept (x : LaneRec) (r : TrimResult) : LaneRec :=
  LaneRec.measure { x with trimResult := some r, offset := r.centre, trim := TrimUnit.idle }

/-- A probe window's expiry in TRIMMING (R46 to R51). -/
def probeExpires (l : Lane) (errors : Nat) (p : Plant) : Plant :=
  let x := look p.lanes l
  if x.state = .trimming then
    match x.trim.windowExpiry errors with
    | .goOn u => p.setLane l { x with trim := u }
    | .sweepEnd r => p.setLane l (x.swept r)
  else p

/-- PROBE_WINDOW_EXPIRY (R46). -/
def execProbeWindowExpiry (l : Lane) (errors : Nat) (s : State) : Result :=
  .next (s.work (fun _ _ => probeExpires l errors))

/-! ## Readings and means (R28) -/

/-- A number clamped to a range. -/
def clampTo (lo hi : Nat) (i : Int) : Nat := max lo (min hi i.toNat)

/-- One reading taken (R28). -/
def Gathered.add (g : Gathered) (mer level : Int) (load : Fin 1001) (blocks : Nat) : Gathered :=
  { n := g.n + 1, mer := g.mer + clampTo 0 400 mer, level := g.level + clampTo 20 110 level
    load := g.load + load.val, blocks := satAdd 65535 g.blocks blocks }

/-- The means of the readings gathered, truncated (R28). With no reading they are free values (log 11). -/
def Gathered.means (g : Gathered) (draw : Nat) : Measurement :=
  if g.n = 0 then
    { level := 20 + (Config.emptyLevel draw).val, mer := (Config.emptyMer draw).val
      load := (Config.emptyLoad draw).val, blocks := g.blocks }
  else { level := g.level / g.n, mer := g.mer / g.n, load := g.load / g.n, blocks := g.blocks }

/-- The draw counter after means were formed. -/
def Gathered.drawsAfter (g : Gathered) (draw : Nat) : Nat := if g.n = 0 then draw + 1 else draw

/-- A reading in MEASURING or in a hold (R28, R151). -/
def readingArrives (l : Lane) (mer level : Int) (load : Fin 1001) (blocks : Nat) (p : Plant) : Plant :=
  let x := look p.lanes l
  if x.state = .measuring ∨ x.state = .held then
    p.setLane l { x with gathered := x.gathered.add mer level load blocks }
  else p

/-- FRONT_END_READING (R28). -/
def execFrontEndReading (l : Lane) (mer level : Int) (load : Fin 1001) (blocks : Nat) (s : State) : Result :=
  .next (s.work (fun _ _ => readingArrives l mer level load blocks))

/-- The gap period a lane latched. -/
def LaneRec.latchedGap (x : LaneRec) : Option Nat := x.latched.bind Latched.gap

/-- The end of the measure interval: the measurement is complete, READING, the collector started (R28, R73). -/
def LaneRec.measured (x : LaneRec) (m : Measurement) : LaneRec :=
  { x with state := .reading, meas := some m, measureTimer := none, gathered := Gathered.empty
           collector := Collector.begin x.latchedGap }

/-- The measure timer's expiry in MEASURING (R28). -/
def measureTimeout (l : Lane) (s : State) : State :=
  let x := look s.plant.lanes l
  if x.state = .measuring ∧ x.measureTimer.isSome then
    { s with plant := s.plant.setLane l (x.measured (x.gathered.means s.draws))
             draws := x.gathered.drawsAfter s.draws }
  else s

/-- MEASURE_TIMER_EXPIRY (R28). -/
def execMeasureTimerExpiry (l : Lane) (s : State) : Result := .next (measureTimeout l s)

/-! ## Lock loss (R27, R28, R29, R151) -/

/-- An ending of READING that hands the held sections on (R78, R79). -/
def partEnd (x : LaneRec) (o : VisitOutcome) (lockLost : Bool) : Ending :=
  { outcome := o, roster := x.collector.partResult, summary := x.collector.summary false, lockLost := lockLost
    next := .idle }

/-- A loss of lock: FADED in TRIMMING and MEASURING, PARTIAL in READING, the live reading in a hold. -/
def lockLost (l : Lane) (g : Settings) (now : Time) (p : Plant) : Plant :=
  let x := look p.lanes l
  match x.state with
  | .trimming | .measuring => visitEnd g now l (plainEnd .faded true) p
  | .reading => visitEnd g now l (partEnd x .part true) p
  | .held => p.setLane l x.heldLoss
  | .parked | .idle | .tuning | .faulted => p

/-- LOCK_LOSS (R27). -/
def execLockLoss (l : Lane) (s : State) : Result := .next (s.work (lockLost l))

/-! ## The roster (R72 to R78) -/

/-- A section taken by the collector of a lane in READING on a cell (Figure 5.1). -/
def sectionTaken (l : Lane) (c : CellRef) (x : LaneRec) (sec : Section) (g : Settings) (now : Time) (p : Plant) :
    Plant :=
  match x.collector.take x.latchedGap x.cls (look p.cells c) sec with
  | .goOn k => p.setLane l { x with collector := k }
  | .complete k => visitEnd g now l { plainEnd .lit false with roster := k.completeResult, summary := k.summary false } p
  | .unchanged k => visitEnd g now l { plainEnd .lit false with roster := .unchanged, summary := k.summary true } p
  | .unstable => visitEnd g now l { plainEnd .unstable false with summary := x.collector.summary false } p

/-- A section delivered by the demodulator (R72). -/
def sectionArrives (l : Lane) (sec : Section) (g : Settings) (now : Time) (p : Plant) : Plant :=
  let x := look p.lanes l
  match x.cell with
  | none => p
  | some c => if x.state = .reading ∧ passesTest sec = true then sectionTaken l c x sec g now p else p

/-- ROSTER_SECTION (R72). -/
def execRosterSection (l : Lane) (sec : Section) (s : State) : Result := .next (s.work (sectionArrives l sec))

/-- The gap timer's expiry: PARTIAL with the sections held (R78). -/
def gapTimeout (l : Lane) (g : Settings) (now : Time) (p : Plant) : Plant :=
  let x := look p.lanes l
  if x.state = .reading ∧ x.collector.gap.isSome then visitEnd g now l (partEnd x .part false) p else p

/-- GAP_TIMER_EXPIRY (R78). -/
def execGapTimerExpiry (l : Lane) (s : State) : Result := .next (s.work (gapTimeout l))

/-! ## The dwell limit, front-end faults (R30, R38) -/

/-- How the dwell limit ends a visit: with the sections held when in READING (Table 2.4). -/
def cutEnd (x : LaneRec) : Ending := if x.state = .reading then partEnd x .cut false else plainEnd .cut false

/-- The dwell limit's expiry: CUT (R30). -/
def dwellTimeout (l : Lane) (g : Settings) (now : Time) (p : Plant) : Plant :=
  let x := look p.lanes l
  if x.inVisit = true ∧ x.dwellTimer.isSome then visitEnd g now l (cutEnd x) p else p

/-- DWELL_LIMIT_EXPIRY (R30). -/
def execDwellLimitExpiry (l : Lane) (s : State) : Result := .next (s.work (dwellTimeout l))

/-- What a fault report ends (R38): a visit FAULT, or a hold; the lane becomes FAULTED. -/
def faultEnds (l : Lane) (g : Settings) (now : Time) (p : Plant) : Plant :=
  let x := look p.lanes l
  if x.inVisit then
    match x.cell with
    | some _ => visitEnd g now l { plainEnd .fault false with next := .faulted } p
    | none => p.setLane l (x.leave .faulted)
  else if x.state = .held then holdEnd g now l .faulted true p
  else p.setLane l { x with state := .faulted }

/-- A fault report (R38): taken in every state but PARKED. -/
def faultArrives (l : Lane) (cause : LaneFaultCause) (g : Settings) (now : Time) (p : Plant) : Plant :=
  if (look p.lanes l).state = .parked then p
  else
    let p1 := faultEnds l g now p
    (p1.setLane l { look p1.lanes l with fault := some (cause, now) }).raise Condition.laneFault.bit

/-- FRONT_END_FAULT (R38). -/
def execFrontEndFault (l : Lane) (cause : LaneFaultCause) (s : State) : Result :=
  .next (s.work (faultArrives l cause))

/-! ## Holds (R151, R153) -/

/-- The live reading at a refresh (R151). An interval that begins without lock and in which lock arrives is neither one
of lock held throughout nor one of lock lost; that it shows lock no and the means absent is DESIGN CHOICE, log 12. -/
def LaneRec.refreshed (x : LaneRec) (m : Measurement) : LiveReading :=
  let before := (x.live.map LiveReading.blocks).getD 0
  if x.lockHeld then
    { lock := true, level := some m.level, mer := some m.mer, load := some m.load
      blocks := satAdd 65535 before m.blocks }
  else { lock := false, level := none, mer := none, load := none, blocks := before }

/-- A held lane at a refresh: the live reading replaced, a new interval begun; the timer runs on with its period. -/
def LaneRec.refreshStep (x : LaneRec) (m : Measurement) : LaneRec :=
  { x with live := some (x.refreshed m), gathered := Gathered.empty, lockHeld := x.lockNow }

/-- The refresh timer's expiry in a hold (R151). -/
def refreshTimeout (l : Lane) (s : State) : State :=
  let x := look s.plant.lanes l
  if x.state = .held ∧ x.refreshTimer.isSome then
    { s with plant := s.plant.setLane l (x.refreshStep (x.gathered.means s.draws))
             draws := x.gathered.drawsAfter s.draws }
  else s

/-- HOLD_REFRESH_EXPIRY (R151). -/
def execHoldRefreshExpiry (l : Lane) (s : State) : Result := .next (refreshTimeout l s)

/-- The survey clock has reached a lane's hold expiry. -/
def LaneRec.holdOver (x : LaneRec) (now : Time) : Bool :=
  match x.holdExpiry with
  | some t => x.state == .held && decide (t.toNat ≤ now.toNat)
  | none => false

/-- A hold's expiry (R153). -/
def holdTimeout (l : Lane) (g : Settings) (now : Time) (p : Plant) : Plant :=
  if (look p.lanes l).holdOver now then (holdEnd g now l .idle true p).raise Condition.holdExpired.bit else p

/-- HOLD_EXPIRY (R153). -/
def execHoldExpiry (l : Lane) (s : State) : Result := .next (s.work (holdTimeout l))

/-! ## The arbiter, the directory's second, the page writer -/

/-- GRANT (R149): one grant, when a lane is IDLE and some work may be granted. -/
def execGrant (s : State) : Result := .next (s.work grantOne)

/-- WATCH_DUE (R145): being due is read from the clock and the cell's due time; the grant the arbiter then makes is
a GRANT of its own (log 21). -/
def execWatchDue (_c : CellRef) (s : State) : Result := .next s

/-- FORGET_CHECK (R102). -/
def execForgetCheck (s : State) : Result := .next (s.enter (forgetCheck s.view s.books))

/-- PAGE_ERASE_COMPLETE (R179, R180). -/
def execPageEraseComplete (s : State) : Result := .next (eraseComplete s)

/-- PAGE_WRITE_COMPLETE (R179). -/
def execPageWriteComplete (flaws : Flaws) (s : State) : Result := .next (writeComplete flaws s)

end Sys2Proof.Machine
end

