-- ==== Sys2Proof/WellFormed.lean ====
section
/-! DEFINITION. Which commands the reference admits: the sizes and ranges of the operands that the types
leave open. No meaning depends on this check; it says what the senders of commands keep to. -/

namespace Sys2Proof

/-- A frame that arrived whole carries 0 to 240 payload bytes (Table 11.6). -/
def Req.wf (f : Req) : Bool := decide (f.payload.length ≤ 240)

/-- The request kinds of Table 11.5. -/
def catalogued (kind : Byte) : Bool :=
  let k := kind.toNat
  (1 ≤ k && k ≤ 8) || (0x10 ≤ k && k ≤ 0x1A) || (0x20 ≤ k && k ≤ 0x25) || (0x28 ≤ k && k ≤ 0x3E)

/-- The four kinds that are executed when broadcast (R167). -/
def broadcastKind (kind : Byte) : Bool :=
  kind == 0x06#8 || kind == 0x28#8 || kind == 0x29#8 || kind == 0x3C#8

/-- A name has 0 to 24 characters (R71). -/
def Entry.wf (e : Entry) : Bool := decide (e.name.length ≤ 24)

/-- A section carries 0 to 12 entries (R71). -/
def Section.wf (s : Section) : Bool := decide (s.entries.length ≤ 12) && s.entries.all Entry.wf

/-- A write cut short has placed at most a page (R175). -/
def RestartIn.wf (r : RestartIn) : Bool := decide (r.placed ≤ 256)

/-- The bytes received after the address do not make up a whole frame: length, kind, tag, payload, check
(Table 11.6). The length byte, where received, is at most 240. -/
def cutShort (received : List Byte) : Bool :=
  match received with
  | [] => true
  | n :: rest => decide (n.toNat ≤ 240) && decide (rest.length < n.toNat + 3)

/-- How a foreign frame may end (R164). -/
def FrameEnd.wf (f : Req) : FrameEnd → Bool
  | .whole => f.wf
  | .badLength n => decide (240 < n.toNat)
  | .stopped got => cutShort got

/-- The operands of a command lie in the ranges the reference gives. -/
def Instr.wf : Instr → Bool
  | .restartReplySent r | .powerOn r | .restartLine r => r.wf
  | .unknownKind k f => f.wf && decide (k.toNat < 0x80) && !catalogued k && f.addr != 255#8
  | .replyKindDiscarded k f => f.wf && decide (0x80 ≤ k.toNat) && f.addr != 255#8
  | .broadcastDiscarded _ f => f.wf && f.addr == 255#8
  | .foreignFrame _ f e => e.wf f && f.addr != 255#8
  | .checkFault _ _ f => f.wf
  | .framingLengthFault _ n => decide (240 < n.toNat)
  | .framingGapTimeout _ got => cutShort got
  | .rosterSection _ s => s.wf
  | .identify f | .restart f | .setAcceptSet f | .setLinkMode f | .readLinkLog f | .clearLinkFault f
  | .readConditions f | .setNoticeMask f | .setFeed f | .readFeed f | .setProfile f | .readProfiles f
  | .openRasterPage f | .putCells f | .writeRasterPage f | .closeRasterPage f | .readCell f
  | .setAdmission f | .readAdmission f | .parkLane f | .unparkLane f | .setLaneOptions f | .setTimers f
  | .readTimers f | .readLane f | .startSurvey f | .haltSurvey f | .setSurveyMode f | .continueSurvey f
  | .clearSurvey f | .readSurvey f | .setWatchPolicy f | .readWatchPolicy f | .spotMeasure f
  | .renewHold f | .releaseHold f | .readSpotResults f | .listServices f | .readService f
  | .forgetService f | .setRankingPolicy f | .readRankingPolicy f | .pinSource f | .unpin f
  | .takeAdvice f | .saveSnapshot f | .eraseStore f | .readStoreStatus f => f.wf
  | .addressWaitTimeout | .quietSilenceEnd | .overrun | .grant | .watchDue _ | .lockArrival _
  | .lockTimerExpiry _ | .probeWindowExpiry _ _ | .frontEndReading _ _ _ _ _ | .measureTimerExpiry _
  | .lockLoss _ | .gapTimerExpiry _ | .dwellLimitExpiry _ | .frontEndFault _ _ | .holdRefreshExpiry _
  | .holdExpiry _ | .forgetCheck | .pageEraseComplete | .pageWriteComplete _ | .startUpEnd
  | .replySent => true

end Sys2Proof
end

