-- ==== Sys2Proof/Machine/LinkEvents.lean ====
section
/-! DEFINITION. What arrives on the link besides a request the catalogue names: the whole catalogue, frames by
kind, the faults, and the end of a reply (chapter 11). -/

namespace Sys2Proof.Machine

/-- The request kinds of Table 11.5. -/
def catalogue : List Service :=
  [svcIdentify, svcRestart, svcSetAcceptSet, svcSetLinkMode, svcReadLinkLog, svcClearLinkFault, svcReadConditions,
    svcSetNoticeMask, svcSetFeed, svcReadFeed, svcSetProfile, svcReadProfiles, svcOpenRasterPage, svcPutCells,
    svcWriteRasterPage, svcCloseRasterPage]
  ++ [svcReadCell, svcSetAdmission, svcReadAdmission, svcParkLane, svcUnparkLane, svcSetLaneOptions, svcSetTimers,
    svcReadTimers, svcReadLane, svcStartSurvey, svcHaltSurvey, svcSetSurveyMode, svcContinue, svcClearSurvey,
    svcReadSurvey, svcSetWatchPolicy]
  ++ [svcReadWatchPolicy, svcSpotMeasure, svcRenewHold, svcReleaseHold, svcReadSpotResults, svcListServices,
    svcReadService, svcForgetService, svcSetRankingPolicy, svcReadRankingPolicy, svcPinSource, svcUnpin,
    svcTakeAdvice, svcSaveSnapshot, svcEraseStore, svcReadStoreStatus]

/-- A frame of any kind arriving whole, its check right. -/
def frameArrives (kind : Byte) (f : Req) (s : State) : State := deliver catalogue kind f s

/-- A length byte arriving (R164, R168). One of at most 240 is no event. -/
def lengthArrives (addr length : Byte) (s : State) : State :=
  whenHunting (fun s => if 240 < length.toNat then lengthFault addr length s else s) s

/-- The bytes of a frame stopping for more than 5 ms before it is whole (R164, R168). -/
def bytesStop (addr : Byte) (received : List Byte) (s : State) : State :=
  whenHunting (fun s => if cutShort received then gapFault addr received s else s) s

/-- UNKNOWN_KIND (R166). -/
def execUnknownKind (kind : Byte) (f : Req) (s : State) : Result := .next (frameArrives kind f s)

/-- REPLY_KIND_DISCARDED (R166). -/
def execReplyKindDiscarded (kind : Byte) (f : Req) (s : State) : Result := .next (frameArrives kind f s)

/-- BROADCAST_DISCARDED (R167). -/
def execBroadcastDiscarded (kind : Byte) (f : Req) (s : State) : Result := .next (frameArrives kind f s)

/-- FOREIGN_FRAME (R164). -/
def execForeignFrame (kind : Byte) (f : Req) (ending : FrameEnd) (s : State) : Result :=
  .next (match ending with
    | .whole => frameArrives kind f s
    | .badLength n => lengthArrives f.addr n s
    | .stopped got => bytesStop f.addr got s)

/-- CHECK_FAULT (R168): a whole frame with the given check byte. -/
def execCheckFault (kind check : Byte) (f : Req) (s : State) : Result :=
  .next (whenHunting
    (fun s =>
      if 240 < f.payload.length then lengthFault f.addr (BitVec.ofNat 8 f.payload.length) s
      else if checkSum kind check f = 0 then frameByKind catalogue kind f s
      else badCheck kind f s) s)

/-- FRAMING_LENGTH_FAULT (R168). -/
def execFramingLengthFault (addr length : Byte) (s : State) : Result := .next (lengthArrives addr length s)

/-- FRAMING_GAP_TIMEOUT (R168). -/
def execFramingGapTimeout (addr : Byte) (received : List Byte) (s : State) : Result :=
  .next (bytesStop addr received s)

/-- ADDRESS_WAIT_TIMEOUT (R168): in HUNT the sync byte is abandoned and nothing is left of it; while an answer is
pending it is a 0x5A of another party. -/
def execAddressWaitTimeout (s : State) : Result := .next (whenHunting id s)

/-- QUIET ended by silence. -/
def quietEnds (s : State) : State :=
  if s.link.rx = .quiet then { s with link := { s.link with rx := .hunt } } else s

/-- QUIET_SILENCE_END (R164). -/
def execQuietSilenceEnd (s : State) : Result := .next (quietEnds s)

/-- OVERRUN (R168). -/
def execOverrun (s : State) : Result := .next (overrunNow s)

/-- The last byte of a reply sent: the driver is released and the receiver returns to HUNT (R163, R164). After the
reply to a Restart request the controller restarts (R174). -/
def replySent (s : State) : State :=
  match s.link.answering with
  | none => s
  | some _ =>
    if s.link.restartOwed then owedRestart s
    else { s with link := { s.link with answering := none, driver := false, rx := .hunt } }

/-- REPLY_SENT (R164). -/
def execReplySent (s : State) : Result := .next (replySent s)

end Sys2Proof.Machine
end

