-- ==== Sys2Proof/Machine/Dispatch.lean ====
section
/-! DEFINITION. Which meaning each command has: one arm per row of spec/opcode_table.json. -/

namespace Sys2Proof.Machine

def exec (i : Instr) (s : State) : Host.Outcome State Fault Refusal :=
  match i with
  | .identify f => Sys2Proof.Machine.execIdentify f s
  | .restart f => Sys2Proof.Machine.execRestart f s
  | .restartReplySent r => Sys2Proof.Machine.execRestartReplySent r s
  | .setAcceptSet f => Sys2Proof.Machine.execSetAcceptSet f s
  | .setLinkMode f => Sys2Proof.Machine.execSetLinkMode f s
  | .readLinkLog f => Sys2Proof.Machine.execReadLinkLog f s
  | .clearLinkFault f => Sys2Proof.Machine.execClearLinkFault f s
  | .readConditions f => Sys2Proof.Machine.execReadConditions f s
  | .setNoticeMask f => Sys2Proof.Machine.execSetNoticeMask f s
  | .setFeed f => Sys2Proof.Machine.execSetFeed f s
  | .readFeed f => Sys2Proof.Machine.execReadFeed f s
  | .setProfile f => Sys2Proof.Machine.execSetProfile f s
  | .readProfiles f => Sys2Proof.Machine.execReadProfiles f s
  | .openRasterPage f => Sys2Proof.Machine.execOpenRasterPage f s
  | .putCells f => Sys2Proof.Machine.execPutCells f s
  | .writeRasterPage f => Sys2Proof.Machine.execWriteRasterPage f s
  | .closeRasterPage f => Sys2Proof.Machine.execCloseRasterPage f s
  | .readCell f => Sys2Proof.Machine.execReadCell f s
  | .setAdmission f => Sys2Proof.Machine.execSetAdmission f s
  | .readAdmission f => Sys2Proof.Machine.execReadAdmission f s
  | .parkLane f => Sys2Proof.Machine.execParkLane f s
  | .unparkLane f => Sys2Proof.Machine.execUnparkLane f s
  | .setLaneOptions f => Sys2Proof.Machine.execSetLaneOptions f s
  | .setTimers f => Sys2Proof.Machine.execSetTimers f s
  | .readTimers f => Sys2Proof.Machine.execReadTimers f s
  | .readLane f => Sys2Proof.Machine.execReadLane f s
  | .startSurvey f => Sys2Proof.Machine.execStartSurvey f s
  | .haltSurvey f => Sys2Proof.Machine.execHaltSurvey f s
  | .setSurveyMode f => Sys2Proof.Machine.execSetSurveyMode f s
  | .continueSurvey f => Sys2Proof.Machine.execContinueSurvey f s
  | .clearSurvey f => Sys2Proof.Machine.execClearSurvey f s
  | .readSurvey f => Sys2Proof.Machine.execReadSurvey f s
  | .setWatchPolicy f => Sys2Proof.Machine.execSetWatchPolicy f s
  | .readWatchPolicy f => Sys2Proof.Machine.execReadWatchPolicy f s
  | .spotMeasure f => Sys2Proof.Machine.execSpotMeasure f s
  | .renewHold f => Sys2Proof.Machine.execRenewHold f s
  | .releaseHold f => Sys2Proof.Machine.execReleaseHold f s
  | .readSpotResults f => Sys2Proof.Machine.execReadSpotResults f s
  | .listServices f => Sys2Proof.Machine.execListServices f s
  | .readService f => Sys2Proof.Machine.execReadService f s
  | .forgetService f => Sys2Proof.Machine.execForgetService f s
  | .setRankingPolicy f => Sys2Proof.Machine.execSetRankingPolicy f s
  | .readRankingPolicy f => Sys2Proof.Machine.execReadRankingPolicy f s
  | .pinSource f => Sys2Proof.Machine.execPinSource f s
  | .unpin f => Sys2Proof.Machine.execUnpin f s
  | .takeAdvice f => Sys2Proof.Machine.execTakeAdvice f s
  | .saveSnapshot f => Sys2Proof.Machine.execSaveSnapshot f s
  | .eraseStore f => Sys2Proof.Machine.execEraseStore f s
  | .readStoreStatus f => Sys2Proof.Machine.execReadStoreStatus f s
  | .unknownKind kind f => Sys2Proof.Machine.execUnknownKind kind f s
  | .replyKindDiscarded kind f => Sys2Proof.Machine.execReplyKindDiscarded kind f s
  | .broadcastDiscarded kind f => Sys2Proof.Machine.execBroadcastDiscarded kind f s
  | .foreignFrame kind f ending => Sys2Proof.Machine.execForeignFrame kind f ending s
  | .checkFault kind check f => Sys2Proof.Machine.execCheckFault kind check f s
  | .framingLengthFault addr length => Sys2Proof.Machine.execFramingLengthFault addr length s
  | .framingGapTimeout addr received => Sys2Proof.Machine.execFramingGapTimeout addr received s
  | .addressWaitTimeout => Sys2Proof.Machine.execAddressWaitTimeout s
  | .quietSilenceEnd => Sys2Proof.Machine.execQuietSilenceEnd s
  | .overrun => Sys2Proof.Machine.execOverrun s
  | .grant => Sys2Proof.Machine.execGrant s
  | .watchDue c => Sys2Proof.Machine.execWatchDue c s
  | .lockArrival l => Sys2Proof.Machine.execLockArrival l s
  | .lockTimerExpiry l => Sys2Proof.Machine.execLockTimerExpiry l s
  | .probeWindowExpiry l errors => Sys2Proof.Machine.execProbeWindowExpiry l errors s
  | .frontEndReading l mer level load blocks => Sys2Proof.Machine.execFrontEndReading l mer level load blocks s
  | .measureTimerExpiry l => Sys2Proof.Machine.execMeasureTimerExpiry l s
  | .lockLoss l => Sys2Proof.Machine.execLockLoss l s
  | .rosterSection l sec => Sys2Proof.Machine.execRosterSection l sec s
  | .gapTimerExpiry l => Sys2Proof.Machine.execGapTimerExpiry l s
  | .dwellLimitExpiry l => Sys2Proof.Machine.execDwellLimitExpiry l s
  | .frontEndFault l cause => Sys2Proof.Machine.execFrontEndFault l cause s
  | .holdRefreshExpiry l => Sys2Proof.Machine.execHoldRefreshExpiry l s
  | .holdExpiry l => Sys2Proof.Machine.execHoldExpiry l s
  | .forgetCheck => Sys2Proof.Machine.execForgetCheck s
  | .pageEraseComplete => Sys2Proof.Machine.execPageEraseComplete s
  | .pageWriteComplete flaws => Sys2Proof.Machine.execPageWriteComplete flaws s
  | .powerOn r => Sys2Proof.Machine.execPowerOn r s
  | .restartLine r => Sys2Proof.Machine.execRestartLine r s
  | .startUpEnd => Sys2Proof.Machine.execStartUpEnd s
  | .replySent => Sys2Proof.Machine.execReplySent s

end Sys2Proof.Machine
end

