-- ==== Sys2Proof/Machine/Step.lean ====
section
/-! DEFINITION. One step of the machine: the command at the front of the queue is executed; with no command
waiting, a second of the survey clock passes. -/

namespace Sys2Proof.Machine

/-- The step on an empty queue: the survey clock counts one second (DESIGN CHOICE, log 1). -/
def State.tick (s : State) : State := { s with clock := s.clock + 1 }

/-- The state with its queue of waiting commands replaced. -/
def State.withPending (s : State) (q : List Instr) : State := { s with pending := q }

/-- One step. -/
def step (s : State) : Host.Outcome State Fault Refusal :=
  match s.pending with
  | [] => .next s.tick
  | c :: rest => exec c (s.withPending rest)

/-- The state with the command that a word spells put at the front of its queue; unchanged where the word spells
none, which is every word, since the table gives no row any bits. -/
def State.withFetchWord (s : State) (nbits w : Nat) : State :=
  match decodeTableWord nbits w with
  | some c => s.withPending (c :: s.pending)
  | none => s

end Sys2Proof.Machine
end

