-- ==== Sys2Proof/Safety.lean ====
section
/-! DEFINITION. The laws that the reference gives the machine as a whole, as predicates on a state, and the words
in which claims about the link are said. -/

namespace Sys2Proof.Machine

/-! ## Requests -/

/-- The kind byte and the frame of a request row (Table 11.5); none for the other rows. -/
def requestOf : Instr → Option (Byte × Req)
  | .identify f => some (0x01, f)
  | .restart f => some (0x02, f)
  | .setAcceptSet f => some (0x03, f)
  | .setLinkMode f => some (0x04, f)
  | .readLinkLog f => some (0x05, f)
  | .clearLinkFault f => some (0x06, f)
  | .readConditions f => some (0x07, f)
  | .setNoticeMask f => some (0x08, f)
  | .setFeed f => some (0x10, f)
  | .readFeed f => some (0x11, f)
  | .setProfile f => some (0x12, f)
  | .readProfiles f => some (0x13, f)
  | .openRasterPage f => some (0x14, f)
  | .putCells f => some (0x15, f)
  | .writeRasterPage f => some (0x16, f)
  | .closeRasterPage f => some (0x17, f)
  | .readCell f => some (0x18, f)
  | .setAdmission f => some (0x19, f)
  | .readAdmission f => some (0x1A, f)
  | .parkLane f => some (0x20, f)
  | .unparkLane f => some (0x21, f)
  | .setLaneOptions f => some (0x22, f)
  | .setTimers f => some (0x23, f)
  | .readTimers f => some (0x24, f)
  | .readLane f => some (0x25, f)
  | .startSurvey f => some (0x28, f)
  | .haltSurvey f => some (0x29, f)
  | .setSurveyMode f => some (0x2A, f)
  | .continueSurvey f => some (0x2B, f)
  | .clearSurvey f => some (0x2C, f)
  | .readSurvey f => some (0x2D, f)
  | .setWatchPolicy f => some (0x2E, f)
  | .readWatchPolicy f => some (0x2F, f)
  | .spotMeasure f => some (0x30, f)
  | .renewHold f => some (0x31, f)
  | .releaseHold f => some (0x32, f)
  | .readSpotResults f => some (0x33, f)
  | .listServices f => some (0x34, f)
  | .readService f => some (0x35, f)
  | .forgetService f => some (0x36, f)
  | .setRankingPolicy f => some (0x37, f)
  | .readRankingPolicy f => some (0x38, f)
  | .pinSource f => some (0x39, f)
  | .unpin f => some (0x3A, f)
  | .takeAdvice f => some (0x3B, f)
  | .saveSnapshot f => some (0x3C, f)
  | .eraseStore f => some (0x3D, f)
  | .readStoreStatus f => some (0x3E, f)
  | .restartReplySent _ | .unknownKind _ _ | .replyKindDiscarded _ _ | .broadcastDiscarded _ _
  | .foreignFrame _ _ _ | .checkFault _ _ _ | .framingLengthFault _ _ | .framingGapTimeout _ _
  | .addressWaitTimeout | .quietSilenceEnd | .overrun | .grant | .watchDue _ | .lockArrival _
  | .lockTimerExpiry _ | .probeWindowExpiry _ _ | .frontEndReading _ _ _ _ _ | .measureTimerExpiry _
  | .lockLoss _ | .rosterSection _ _ | .gapTimerExpiry _ | .dwellLimitExpiry _ | .frontEndFault _ _
  | .holdRefreshExpiry _ | .holdExpiry _ | .forgetCheck | .pageEraseComplete | .pageWriteComplete _
  | .powerOn _ | .restartLine _ | .startUpEnd | .replySent => none

/-- The kind byte of the frame that a row brings; none for the rows that bring no whole frame. -/
def frameKind : Instr → Option Byte
  | .unknownKind k _ | .replyKindDiscarded k _ | .broadcastDiscarded k _ | .foreignFrame k _ _ | .checkFault k _ _ =>
    some k
  | i => (requestOf i).map Prod.fst

/-- The payload lengths that Table 11.5 allows for a kind. -/
def lengthAllowed (kind : Byte) (n : Nat) : Bool :=
  match kind.toNat with
  | 0x03 => decide (n ≤ 3)
  | 0x15 => decide (6 ≤ n) && decide (n ≤ 96) && n % 6 == 0
  | 0x04 | 0x11 | 0x20 | 0x21 | 0x25 | 0x32 | 0x3B => n == 1
  | 0x08 | 0x14 | 0x18 | 0x2A | 0x35 | 0x36 | 0x3A => n == 2
  | 0x12 | 0x31 | 0x34 => n == 3
  | 0x22 | 0x39 => n == 4
  | 0x23 | 0x30 => n == 5
  | 0x2E => n == 6
  | 0x37 => n == 8
  | 0x19 => n == 17
  | 0x10 => n == 19
  | _ => n == 0

/-- The four kinds served in STRICT mode while a fault is held: Identify, Read Link Log, Clear Link Fault, Read
Conditions (R170). -/
def servedWhileHeld (kind : Byte) : Bool := kind == 0x01#8 || kind == 0x05#8 || kind == 0x06#8 || kind == 0x07#8

/-- STRICT mode with a fault held (R166 step 1). -/
def State.held (s : State) : Bool := s.link.mode == .strict && s.link.log.isSome

/-- The receiver is in HUNT and the frame's address is in the accept set (R164). -/
abbrev State.hears (s : State) (f : Req) : Prop := s.link.rx = .hunt ∧ s.link.judge f.addr = .accepted

/-- A request frame that reaches step 3 of R166: heard, and not gated by the link mode. -/
abbrev State.serves (s : State) (f : Req) : Prop := s.hears f ∧ s.held = false

/-- The state `t` with the reply to a request frame of the given kind: the receiver stays with the frame, the driver
is on, and the reply carries the status and the values (R163, R164, R166). That the driver is on from the end of the
check byte, before the reply begins, is the model's choice (log 4). -/
def replied (kind : Byte) (f : Req) (st : Status) (values : List Byte) (t : State) : State :=
  { t with
    link := { t.link with
              rx := .frame, driver := true
              answering := some
                { request := { addr := f.addr, kind := kind, tag := f.tag, payload := f.payload }
                  reply := { addr := f.addr, kind := kind + 0x80#8, tag := f.tag, payload := st.code :: values } } } }

/-! ## What a step leaves alone -/

/-- Everything but the survey's part of the machine is as it was. -/
abbrev SameOutside (s t : State) : Prop :=
  t.settings = s.settings ∧ t.staging = s.staging ∧ t.link = s.link ∧ t.store = s.store ∧ t.clock = s.clock
    ∧ t.draws = s.draws ∧ t.pending = s.pending

/-- Every cell but one is as it was. -/
def OtherCellsKept (s t : State) (c : CellRef) : Prop := ∀ k, k ≠ c → look t.plant.cells k = look s.plant.cells k

/-- Every lane but one is as it was. -/
def OtherLanesKept (s t : State) (l : Lane) : Prop := ∀ k, k ≠ l → look t.plant.lanes k = look s.plant.lanes k

/-! ## The events that end a visit (Figure 2.1) -/

/-- The outcome with which a section ends READING, if it does (R75 to R77). -/
def sectionOutcome : SectionStep → Option VisitOutcome
  | .goOn _ => none
  | .complete _ | .unchanged _ => some .lit
  | .unstable => some .unstable

/-- The lane whose visit an event ends of its own accord, and the outcome (R26 to R30). -/
def naturalEnd (s : State) : Instr → Option (Lane × VisitOutcome)
  | .lockTimerExpiry l =>
    let x := look s.plant.lanes l
    if x.state = .tuning ∧ x.lockTimer.isSome then some (l, .dark) else none
  | .lockLoss l =>
    match (look s.plant.lanes l).state with
    | .trimming | .measuring => some (l, .faded)
    | .reading => some (l, .part)
    | _ => none
  | .gapTimerExpiry l =>
    let x := look s.plant.lanes l
    if x.state = .reading ∧ x.collector.gap.isSome then some (l, .part) else none
  | .dwellLimitExpiry l =>
    let x := look s.plant.lanes l
    if x.inVisit = true ∧ x.dwellTimer.isSome then some (l, .cut) else none
  | .rosterSection l sec =>
    let x := look s.plant.lanes l
    match x.cell with
    | some c =>
      if x.state = .reading ∧ passesTest sec = true then
        (sectionOutcome (x.collector.take x.latchedGap x.cls (look s.plant.cells c) sec)).map (fun o => (l, o))
      else none
    | none => none
  | _ => none

/-- The roster result that an event which ends READING hands on to the directory: COMPLETE or UNCHANGED at a section
(R75, R76), nothing when UNSTABLE (R77), the sections held when the gap timer, a loss of lock or the dwell limit ends it
(R78, R79). -/
def handedOn (s : State) : Instr → RosterResult
  | .rosterSection l sec =>
    let x := look s.plant.lanes l
    match x.cell with
    | some c =>
      match x.collector.take x.latchedGap x.cls (look s.plant.cells c) sec with
      | .complete k => k.completeResult
      | .unchanged _ => .unchanged
      | .goOn _ | .unstable => .none
    | none => .none
  | .lockLoss l | .gapTimerExpiry l | .dwellLimitExpiry l => (look s.plant.lanes l).collector.partResult
  | _ => .none

/-! ## The limits on a new sighting (R95 to R97) -/

/-- What the two limits answer to a new sighting: it joins, it joins once another one is evicted, or it is dropped. -/
inductive Limits where
  | room
  | evict (g : Sighting)
  | drop
  deriving DecidableEq, Repr

/-- Whether the limits so answer, for a new sighting of slot n on cell c. Under the service limit (R96): the service's
oldest sighting on a LOST cell, ties to the lower cell; without one, its lowest-ranked sighting, unless it is the chosen
source or the pin, or its Q is not below the new cell's. Under the pool limit (R97): the oldest sighting on a LOST cell,
ties to the lower slot, then the lower cell. -/
def limitsAnswer (v : View) (d : Dir) (n : SlotNo) (c : CellRef) : Limits → Prop
  | .room => (d.sightings n).length < 8 ∧ d.pool.length < 2048
  | .evict a =>
    (8 ≤ (d.sightings n).length ∧ d.pool.length ≤ 2048 ∧ a ∈ d.sightings n ∧
      ((v.state a.cell = .lost ∧ ∀ b ∈ d.sightings n, v.state b.cell = .lost → b ≠ a →
          a.created.toNat < b.created.toNat ∨ (a.created = b.created ∧ a.cell < b.cell))
        ∨ ((∀ b ∈ d.sightings n, v.state b.cell ≠ .lost) ∧ (rankedOf v d n).getLast? = some a
            ∧ (look d.slots n).chosen ≠ some a.cell ∧ (look d.slots n).pin ≠ some a.cell
            ∧ qLess (v.q a.cell) (v.q c) = true)))
    ∨ ((d.sightings n).length < 8 ∧ 2048 ≤ d.pool.length ∧ a ∈ d.pool ∧ v.state a.cell = .lost
        ∧ ∀ b ∈ d.pool, v.state b.cell = .lost → b ≠ a →
            a.created.toNat < b.created.toNat
              ∨ (a.created = b.created ∧ (a.slot < b.slot ∨ (a.slot = b.slot ∧ a.cell < b.cell))))
  | .drop =>
    (8 ≤ (d.sightings n).length ∧ (∀ b ∈ d.sightings n, v.state b.cell ≠ .lost)
        ∧ ∀ a, (rankedOf v d n).getLast? = some a →
            (look d.slots n).chosen = some a.cell ∨ (look d.slots n).pin = some a.cell
              ∨ qLess (v.q a.cell) (v.q c) = false)
    ∨ ((d.sightings n).length < 8 ∧ 2048 ≤ d.pool.length ∧ ∀ b ∈ d.pool, v.state b.cell ≠ .lost)

/-! ## The evaluations after an event's directory work (R68, R99, R100, R114, R120) -/

/-- The service lost a sighting in the directory's work, which led from `before` to `after` (R99, R114). -/
def bereft (before after : Dir) (n : SlotNo) : Bool :=
  (before.sightings n).any (fun g => !after.holds n g.cell)

/-- The service is PROVISIONAL and lost its chosen sighting in that work, which releases it (R94, R120). -/
def unseated (before after : Dir) (n : SlotNo) : Bool :=
  let x := look after.slots n
  x.state == .provisional && x.chosen.any (fun k => before.holds n k && !after.holds n k)

/-- The evaluations of one event or request: each service that it releases or concerns, once, in slot order (R100, R114,
R120). -/
def evaluationsOf (v : View) (released concerned : SlotNo → Bool) (b : Books) : Books :=
  (List.finRange 512).foldl
    (fun b n => if released n then evaluate v true n b else if concerned n then evaluate v false n b else b) b

/-- The evaluations that the removal of sightings causes in a request (R99, R100). -/
def removalEvaluations (v : View) (before after : Dir) : Books :=
  evaluationsOf v (unseated before after) (bereft before after) { dir := after, raised := 0 }

/-- The service holds a sighting on the cell when the directory's work is done, or lost a sighting in that work, on this
cell or by an eviction: the visit end evaluates it (R68, R114). -/
def concernedBy (before after : Dir) (c : CellRef) (n : SlotNo) : Bool :=
  after.holds n c || bereft before after n

/-- The visit end releases the service from PROVISIONAL (R120): its chosen sighting was removed; or the visit end moved the
cell out of UNSEEN, and the cell is that of its chosen source, or of a sighting when it has no chosen source (log 14). -/
def releasedBy (before after : Dir) (c : CellRef) (moved : Bool) (n : SlotNo) : Bool :=
  let x := look after.slots n
  unseated before after n
    || (x.state == .provisional && moved && (x.chosen == some c || x.chosen == none)
      && (before.holds n c || after.holds n c))

/-- The evaluations of a visit end on a cell, after the directory's work has led from `before` to `after`. -/
def visitEvaluations (v : View) (c : CellRef) (moved : Bool) (before after : Dir) (raised : Flags12) : Books :=
  evaluationsOf v (releasedBy before after c moved) (concernedBy before after c) { dir := after, raised := raised }

/-! ## What the survey engine does with visits that have ended (R139, R140, R145, R150) -/

/-- The watch due time of a cell, in t, is the one that R145 sets from the cell and the directory as they then stand. -/
def WatchScheduled (s t : State) (c : CellRef) : Prop :=
  let y := look t.plant.cells c
  let chosen := t.plant.dir.slots.toList.any (fun z => z.state != .free && z.chosen == some c)
  let gap := if chosen then s.settings.watch.chosenInterval else s.settings.watch.watchInterval
  (y.state.rankable = false → y.due = none)
    ∧ (y.state.rankable = true → y.due = some (s.clock + BitVec.ofNat 32 (if y.state = .dark then gap / 2 else gap)))

/-- The visit of lane l on cell c ended with this outcome: a SPOT visit has left its spot result, with the lane's record,
and set SPOT_DONE; any other has left no spot result (R150 step 2). -/
def SpotReported (s t : State) (l : Lane) (c : CellRef) (o : VisitOutcome) : Prop :=
  ((look s.plant.lanes l).terms = none → t.plant.survey.results = s.plant.survey.results)
    ∧ ∀ m, (look s.plant.lanes l).terms = some m →
        t.plant.survey.results = (SpotResult.mk m.ticket c m.trim m.hold o s.clock (look t.plant.lanes l).record
          :: s.plant.survey.results).take 4
        ∧ t.plant.notice.conds &&& 0x004#12 ≠ 0

/-- The visits of these lanes, and no others, have ended: each leaves the stepped set, with STEP_HALT if it was in it, and
a draining survey is STOPPED when no WATCH or SWEEP visit is left (R139, R140, R150 steps 3 and 4). The survey's settings,
cursor and counters are as they were. -/
def EngineTakesEnds (s t : State) (ends : Lane → Bool) : Prop :=
  let v := s.plant.survey
  let w := t.plant.survey
  let surveying := fun l => (look s.plant.lanes l).surveying
  (∀ l : Lane, w.stepped.getLsbD l.val = (v.stepped.getLsbD l.val && !ends l))
    ∧ (∀ l : Lane, ends l = true → v.stepped.getLsbD l.val = true → t.plant.notice.conds &&& 0x010#12 ≠ 0)
    ∧ (w.state = if v.state = .draining ∧ (∃ l : Lane, ends l = true ∧ surveying l = true)
          ∧ (∀ l : Lane, surveying l = true → ends l = true) then .stopped
        else v.state)
    ∧ w.stepMode = v.stepMode ∧ w.autoResume = v.autoResume ∧ w.cursor = v.cursor ∧ w.passes = v.passes
    ∧ w.share = v.share ∧ w.ticket = v.ticket

/-! ## The trim sweep, said without its phases (R47 to R51) -/

/-- How many of the positions s, 2s, ... up to n of them pass before the first failure. -/
def runOf (pass : Nat → Bool) : Nat → Nat
  | 0 => 0
  | n + 1 => if pass 1 then 1 + runOf (fun k => pass (k + 1)) n else 0

/-- The result of a sweep over a carrier on which the probes at the given offsets pass. -/
def sweepSpec (o : Options) (pass : Int → Bool) : TrimResult :=
  if pass 0 then
    let n := o.reach.size / o.step.size
    let up := runOf (fun k => pass (k * o.step.size : Nat)) n
    let down := runOf (fun k => pass (-(k * o.step.size : Nat))) n
    let high : Int := (up * o.step.size : Nat)
    let low : Int := -(down * o.step.size : Nat)
    let far := if up = n then o.reach.size else up * o.step.size
    let near := if down = n then o.reach.size else down * o.step.size
    .edges low high ((low + high).tdiv 2) (min far near)
  else .centreFailed

/-- A sweep run on, at most so many probes, with the errors counted at each offset; its result if it ends. -/
def runSweep (errors : Int → Nat) : Nat → TrimUnit → Option TrimResult
  | 0, _ => none
  | k + 1, u =>
    match u.windowExpiry (errors (u.offset.getD 0)) with
    | .goOn v => runSweep errors k v
    | .sweepEnd r => some r

/-! ## The attention output and the link -/

/-- The output is driven exactly while some condition is set and unmasked, and released through start-up (R160,
R161). -/
def AttentionRight (s : State) : Prop := s.plant.notice.attention = s.plant.notice.due

/-- An answered frame is held exactly in FRAME (log 3), with the driver on for as long (log 4); the receiver is deaf
exactly through start-up; a restart is owed only while the reply to a Restart request is pending (R163, R164, R172, R174,
R183). -/
def LinkRight (s : State) : Prop :=
  (s.link.rx = .frame ↔ s.link.answering.isSome = true) ∧ s.link.driver = s.link.answering.isSome
    ∧ (s.link.rx = .deaf ↔ s.plant.notice.startUp = true)
    ∧ (s.link.restartOwed = true → s.link.answering.isSome = true)

/-! ## Settings -/

/-- The ranges of the settings (R3, R8, R23, R56, R110, R144). -/
def SettingsRight (g : Settings) : Prop :=
  (∀ f, (look g.feeds f).priority ≤ 7 ∧ (look g.feeds f).w1.base ≤ 870000 ∧ (look g.feeds f).w1.limit ≤ 870000
      ∧ (look g.feeds f).w2.base ≤ 870000 ∧ (look g.feeds f).w2.limit ≤ 870000)
    ∧ (∀ k, 50 ≤ look g.profiles k ∧ look g.profiles k ≤ 350)
    ∧ (1 ≤ g.timers.lock ∧ g.timers.lock ≤ 15 ∧ g.timers.gap ≤ 15 ∧ 1 ≤ g.timers.dwell ∧ g.timers.dwell ≤ 15
      ∧ 50 ≤ g.timers.interval ∧ g.timers.interval ≤ 2000)
    ∧ (5 ≤ g.watch.chosenInterval ∧ g.watch.chosenInterval ≤ 600 ∧ 30 ≤ g.watch.watchInterval
      ∧ g.watch.watchInterval ≤ 3600 ∧ 1 ≤ g.watch.share ∧ g.watch.share ≤ 15 ∧ g.watch.holdLimit ≤ 4)
    ∧ (g.policy.margin ≤ 500 ∧ 1 ≤ g.policy.confirm ∧ g.policy.confirm ≤ 8 ∧ 1 ≤ g.policy.lost ∧ g.policy.lost ≤ 15
      ∧ 1 ≤ g.policy.forget ∧ g.policy.forget ≤ 1440 ∧ 20 ≤ g.policy.lvmin ∧ g.policy.lvmin < g.policy.lvmax
      ∧ g.policy.lvmax ≤ 110)

/-- The added addresses of an accept set: at most three, none 0 and none 255 (R165). -/
def AddressesRight (added : List Byte) : Prop := added.length ≤ 3 ∧ ∀ a ∈ added, a ≠ 0 ∧ a ≠ 255

/-- The images a store may yet restore: the one its pages spell and the captured one. -/
def Store.images (t : Store) : List Image := t.image :: (t.capture.map Capture.image).toList

/-- Every setting in force, and every one a restart may bring back, lies in its range. -/
def SettingsLaw (s : State) : Prop :=
  SettingsRight s.settings ∧ AddressesRight s.link.added
    ∧ ∀ im ∈ s.store.images, SettingsRight im.settings ∧ AddressesRight im.added

/-! ## The store -/

/-- The page writer carries out a save. -/
def Writer.isSaving : Writer → Bool
  | .saving _ => true
  | .idle | .erasing => false

/-- The image page that a stage of a save works on. -/
def SaveStage.page? : SaveStage → Option (Fin 256)
  | .erasePage k _ | .writePage k _ => some k
  | .eraseHeader | .writeHeader _ | .eraseHeaderAgain | .eraseAfterFail => none

/-- The page that the page writer works on, when it is a page of the image. -/
def Writer.page? : Writer → Option (Fin 256)
  | .saving st => st.page?
  | .idle | .erasing => none

/-- The laws of the retained store: the memory is canonical and lies in 64 KiB (R175); the status is SAVING exactly
while the writer saves, from a capture of 1 to 163 pages (R176, R177), and BLANK while it erases the store (R180); the
writer works on one of those pages. -/
def StoreLaw (s : State) : Prop :=
  Memory.wf s.store.mem = true ∧ (∀ e ∈ s.store.mem, e.1 < 65536)
    ∧ (s.store.status = .saving ↔ s.store.writer.isSaving = true)
    ∧ (s.store.writer = .erasing → s.store.status = .blank)
    ∧ (s.store.writer.isSaving = true → s.store.capture.isSome = true)
    ∧ (∀ c, s.store.capture = some c → c.bytes.length = 256 * c.pages ∧ 1 ≤ c.pages ∧ c.pages ≤ 163)
    ∧ (∀ k c, s.store.writer.page? = some k → s.store.capture = some c → 1 ≤ k.val ∧ k.val ≤ c.pages)

/-- The bytes of the capture that pages 1 to k - 1 should hold, and do. -/
def pagesHold (m : List Host.Cell) (c : Capture) (k : Nat) : Prop :=
  Memory.readRun m 256 (256 * k) = c.bytes.take (256 * k)

/-- The header counts only over pages written and verified since page 0 was last erased (R177): VALID means a valid
header with the held save count; from the first page of a save until its header is written, page 0 reads erased in
its format word, and the pages verified hold the captured bytes. -/
def HeaderLaw (s : State) : Prop :=
  StoreLaw s
    ∧ (s.store.status = .valid → judgeHeader s.store.mem = .valid ∧ headerCount s.store.mem = s.store.saveCount)
    ∧ ∀ c, s.store.capture = some c →
        match s.store.writer with
        | .saving (.erasePage k _) | .saving (.writePage k _) =>
          headerFormat s.store.mem = 0xFFFF ∧ pagesHold s.store.mem c (k.val - 1)
        | .saving (.writeHeader _) => headerFormat s.store.mem = 0xFFFF ∧ pagesHold s.store.mem c c.pages
        | .saving .eraseHeaderAgain => pagesHold s.store.mem c c.pages
        | .saving .eraseHeader | .saving .eraseAfterFail | .idle | .erasing => True

/-! ## Sizes and scores -/

/-- The sizes that the reference bounds: staging pointer (R11), spot queue (R142), spot results (R154), share counter
(R149). A closed staging buffer is empty. -/
def SizesLaw (s : State) : Prop :=
  s.staging.staged.length ≤ 16 ∧ (s.staging.page = none → s.staging.staged = [])
    ∧ s.plant.survey.spots.length ≤ 4 ∧ s.plant.survey.results.length ≤ 4 ∧ s.plant.survey.share ≤ 15

/-- Every score lies from 0 to 1000 (R60), every fail count from 0 to 15 (R65), every refused-entry count from 0 to
255 (R82). -/
def ScoresLaw (s : State) : Prop :=
  (∀ c, (∀ q ∈ (look s.plant.cells c).q, q ≤ 1000) ∧ (∀ v ∈ (look s.plant.cells c).lastScore, v ≤ 1000)
      ∧ (look s.plant.cells c).fails ≤ 15 ∧ (look s.plant.cells c).refused ≤ 255)
    ∧ (∀ l, ∀ r ∈ (look s.plant.lanes l).record, ∀ v ∈ r.score, v ≤ 1000)
    ∧ (∀ e ∈ s.plant.survey.results, ∀ r ∈ e.record, ∀ v ∈ r.score, v ≤ 1000)

/-! ## The raster -/

/-- A definition as the cell table stores it: valid, and vacant in one form only (R10). -/
def CellDef.stored (d : CellDef) : Prop := d.valid = true ∧ d.normal = d

/-- The frequencies of a feed's 96 positions. -/
def feedFreqs (raster : CellRef → CellDef) (f : Feed) : List Nat := (feedCells f).map (fun c => (raster c).freq)

/-- Every definition is stored as R10 says, and no feed holds two cells with the same non-zero frequency (R11). -/
def RasterRight (raster : CellRef → CellDef) : Prop :=
  (∀ c, (raster c).stored) ∧ ∀ f, noRepeat (feedFreqs raster f) = true

/-- The raster in force, the staged definitions, and the rasters a restart may bring back. -/
def RasterLaw (s : State) : Prop :=
  RasterRight (fun c => (look s.plant.cells c).defn) ∧ (∀ d ∈ s.staging.staged, d.stored)
    ∧ ∀ im ∈ s.store.images, RasterRight (look im.raster)

/-! ## Cells, lanes, engagement -/

/-- A cell of this state is neither VACANT nor BARRED: defined and admitted. -/
def CellState.open (k : CellState) : Bool := k != .vacant && k != .barred

/-- The states in which a cell has a Q (R62 to R65): LIT, PARTIAL, DARK and LOST. -/
def CellState.scored (k : CellState) : Bool := k.rankable || k == .lost

/-- A cell record under its feed record: VACANT and BARRED by its definition (R7), a Q exactly in the scored states,
a fail count only with a Q (R64), a due time only when rankable (R145), an engagement only when open (R5, R16). -/
def CellRight (r : FeedRec) (x : Cell) : Prop :=
  (x.state = .vacant ↔ x.defn.freq = 0) ∧ (x.state = .barred ↔ x.defn.freq ≠ 0 ∧ r.admits x.defn = false)
    ∧ x.q.isSome = x.state.scored ∧ (x.q = none → x.fails = 0) ∧ (x.due.isSome = true → x.state.rankable = true)
    ∧ (x.engaged.isSome = true → x.state.open = true)

/-- A lane record whose optional fields and timers are those of its state (Table 2.1, R25 to R28, R44, R73, R151). -/
def LaneRight (x : LaneRec) : Prop :=
  x.cell.isSome = (x.inVisit || x.state == .held) ∧ x.cls.isSome = x.cell.isSome
    ∧ x.terms.isSome = (x.cls == some .spot) ∧ x.latched.isSome = x.cell.isSome ∧ x.start.isSome = x.inVisit
    ∧ (x.state = .held → x.cls = some .spot)
    ∧ x.holdExpiry.isSome = (x.state == .held) ∧ x.live.isSome = (x.state == .held)
    ∧ x.lockTimer.isSome = (x.state == .tuning) ∧ x.dwellTimer.isSome = x.inVisit
    ∧ x.measureTimer.isSome = (x.state == .measuring) ∧ x.refreshTimer.isSome = (x.state == .held)
    ∧ x.meas.isSome = (x.state == .reading) ∧ x.lockNoted = (x.inVisit && x.state != .tuning)
    ∧ (x.trim.phase == .idle) = (x.state != .trimming) ∧ x.collector.collecting = (x.state == .reading)

/-- A roster collector: the sections held stand in section number order, each number once and none above the last of the
collection's identity, which is present exactly while a section is held (R72, R74, R76, R80). -/
def CollectorRight (k : Collector) : Prop :=
  (k.held.map Prod.fst).Pairwise (· < ·) ∧ (k.ident = none ↔ k.held = [])
    ∧ ∀ i ∈ k.ident, ∀ h ∈ k.held, h.1 ≤ i.last

/-- No cell is engaged by more than one lane: the cells' engagements and the lanes' engaged cells are one relation
(R147). -/
def EngagementRight (p : Plant) : Prop :=
  ∀ c l, (look p.cells c).engaged = some l ↔ (look p.lanes l).cell = some c

/-- The laws of the survey: cells, lanes, collectors, engagement; every waiting spot entry is for an open cell (R143); at
most 4 lanes are HELD (R144). -/
def SurveyRight (g : Settings) (p : Plant) : Prop :=
  (∀ c, CellRight (look g.feeds (feedOf c)) (look p.cells c)) ∧ (∀ l, LaneRight (look p.lanes l))
    ∧ EngagementRight p ∧ (∀ e ∈ p.survey.spots, (look p.cells e.cell).state.open = true)
    ∧ heldLanes p.lanes ≤ 4 ∧ ∀ l, CollectorRight (look p.lanes l).collector

/-- The laws of the survey, with the ranges of the settings they rest on. -/
def SurveyLaw (s : State) : Prop := SettingsLaw s ∧ SurveyRight s.settings s.plant

/-! ## The directory -/

/-- The slot and the cell that a sighting joins. -/
def Sighting.join (g : Sighting) : SlotNo × CellRef := (g.slot, g.cell)

/-- A slot in use that is not RETIRING may hold sightings (Table 6.2). -/
def SlotState.keeps (k : SlotState) : Bool := k == .provisional || k == .live || k == .orphan

/-- The laws of sightings (R91): at most 2048, at most 8 of one service, no two on one service and cell, each of a
service that keeps sightings, on a cell that is UNSEEN, LIT, PARTIAL, DARK or LOST. -/
def PoolRight (cells : Vector Cell 576) (d : Dir) : Prop :=
  d.pool.length ≤ 2048 ∧ (∀ n, (d.sightings n).length ≤ 8) ∧ (d.pool.map Sighting.join).Nodup
    ∧ ∀ g ∈ d.pool, (look d.slots g.slot).state.keeps = true
      ∧ ((look cells g.cell).state.scored = true ∨ (look cells g.cell).state = .unseen)

/-- The laws of one slot between steps: a FREE slot holds nothing (R88); an in-use slot has a key; its roles are its
own sightings (R113); LIVE with a rankable sighting and ORPHAN without (R101); the chosen source of either rankable
(R116); a challenger's count from 1 to 7 (R117); a RETIRING slot waits for its record (R105); a PROVISIONAL slot's pin
is its chosen source (R115, R184). -/
def SlotRight (cells : Vector Cell 576) (d : Dir) (n : SlotNo) (x : Slot) : Prop :=
  (x.state = .free → x = Slot.empty) ∧ (x.state ≠ .free → x.key.isSome = true)
    ∧ (∀ c ∈ x.chosen, d.holds n c = true) ∧ (∀ c ∈ x.pin, d.holds n c = true)
    ∧ (∀ t ∈ x.challenger, d.holds n t.1 = true ∧ 1 ≤ t.2 ∧ t.2 ≤ 7)
    ∧ (x.state = .live → (d.sightings n).any (fun g => (look cells g.cell).state.rankable) = true)
    ∧ (x.state = .orphan → (d.sightings n).any (fun g => (look cells g.cell).state.rankable) = false)
    ∧ (x.orphanSince.isSome = true ↔ x.state = .orphan)
    ∧ (x.state = .live ∨ x.state = .orphan → ∀ c ∈ x.chosen, (look cells c).state.rankable = true)
    ∧ (x.state = .retiring → x.chosen = none ∧ x.advice ≠ .none)
    ∧ (x.state = .provisional → x.advice = .none ∧ x.challenger = none ∧ ∀ c ∈ x.pin, x.chosen = some c)

/-- No two in-use slots hold the same key (R89). -/
def KeysRight (d : Dir) : Prop :=
  ∀ n m, (look d.slots n).state ≠ .free → (look d.slots m).state ≠ .free →
    (look d.slots n).key = (look d.slots m).key → n = m

/-- The laws of the advice queue (R126): at most 64 records, one for each QUEUED slot and no other; each record shows
its slot's key, reported source and chosen source, which differ; an OWED slot's differ too, and those of a LIVE or
ORPHAN slot that is NONE agree. -/
def QueueRight (d : Dir) : Prop :=
  d.queue.length ≤ 64 ∧ (d.queue.map Advice.slot).Nodup
    ∧ (∀ n, (look d.slots n).advice = .queued ↔ n ∈ d.queue.map Advice.slot)
    ∧ (∀ a ∈ d.queue, a.key = (look d.slots a.slot).key ∧ a.origin = (look d.slots a.slot).reported
        ∧ a.target = (look d.slots a.slot).chosen ∧ a.origin ≠ a.target)
    ∧ (∀ n, (look d.slots n).advice = .owed → (look d.slots n).chosen ≠ (look d.slots n).reported)
    ∧ (∀ n, (look d.slots n).state = .live ∨ (look d.slots n).state = .orphan → (look d.slots n).advice = .none →
        (look d.slots n).chosen = (look d.slots n).reported)

/-- The laws of the directory. -/
def DirectoryRight (cells : Vector Cell 576) (d : Dir) : Prop :=
  PoolRight cells d ∧ (∀ n, SlotRight cells d n (look d.slots n)) ∧ KeysRight d ∧ QueueRight d

/-- An image from which start-up can recall a directory that keeps the laws (R176, R184). -/
def ImageRight (im : Image) : Prop :=
  im.services.length ≤ 512 ∧ (∀ v ∈ im.services, v.key.isSome = true) ∧ (im.services.map SavedService.key).Nodup
    ∧ im.sightings.length ≤ 2048 ∧ (im.sightings.map (fun x => (x.service, x.cell))).Nodup
    ∧ (∀ k, (im.sightings.filter (fun x => x.service == k)).length ≤ 8)
    ∧ (∀ x ∈ im.sightings, x.service < im.services.length
        ∧ (rebuiltCell (look im.settings.feeds (feedOf x.cell)) (look im.raster x.cell)).state = .unseen)
    ∧ ∀ k v, im.services[k]? = some v → ∀ c ∈ v.pin, ∃ x ∈ im.sightings, x.service = k ∧ x.cell = c

/-- The laws of the whole machine's survey and directory. -/
def DirectoryLaw (s : State) : Prop :=
  SurveyLaw s ∧ DirectoryRight s.plant.cells s.plant.dir ∧ ∀ im ∈ s.store.images, ImageRight im

/-! ## Safe runs -/

/-- A run is safe when every one of its states keeps the laws of the reference. -/
def Safe (s : State) : Prop :=
  AttentionRight s ∧ LinkRight s ∧ StoreLaw s ∧ SizesLaw s ∧ ScoresLaw s ∧ RasterLaw s ∧ DirectoryLaw s

end Sys2Proof.Machine
end

