-- ==== Sys2Proof/Certificates/Slice0/Obligations.lean ====
section
/-! DEFINITION. The statements for the provers, family by family. -/

open Sys2Proof Sys2Proof.Machine

/-! ## The queue and the step -/

/-- One step executes the command at the front of the queue on the state with the queue's rest. -/
def Obligations.StepExecutesTheFrontCommand : Prop :=
  ∀ (s : State) (c : Instr) (rest : List Instr), s.pending = c :: rest → step s = exec c (s.withPending rest)

/-- With no command waiting, a step counts one second of the survey clock. The model's choice (log 1). -/
def Obligations.IdleStepCountsASecond : Prop :=
  ∀ s : State, s.pending = [] → step s = .next { s with clock := s.clock + 1 }

/-- Every command completes, in every state, and none touches the queue of waiting commands. -/
def Obligations.EveryCommandCompletes : Prop :=
  ∀ (i : Instr) (s : State), ∃ t, exec i s = .next t ∧ t.pending = s.pending

/-! ## The control link (chapter 11) -/

/-- R166 steps 1 to 3, R170: a heard request is answered HALTED while a fault is held in STRICT mode, unless it is one of
the four; a length that Table 11.5 does not allow is answered BAD_VALUE; an accepted kind below 0x80 that is not in Table
11.5 is answered UNKNOWN, or HALTED by step 1. None of these changes anything but the reply. -/
def Obligations.RequestsAreGatedInOrder : Prop :=
    (∀ (i : Instr) (k : Byte) (f : Req) (s : State),
       requestOf i = some (k, f) → s.hears f → f.payload.length ≤ 240 →
         (s.held = true → servedWhileHeld k = false → exec i s = .next (replied k f .halted [] s))
           ∧ (s.held = false ∨ servedWhileHeld k = true → lengthAllowed k f.payload.length = false →
               exec i s = .next (replied k f .badValue [] s)))
  ∧ (∀ (k : Byte) (f : Req) (s : State), s.hears f → f.payload.length ≤ 240 → k.toNat < 0x80 → catalogued k = false →
       exec (.unknownKind k f) s = .next (replied k f (if s.held then .halted else .unknown) [] s))

/-- R167: an executed broadcast acts exactly as the same request addressed to the unit, and is not answered: the receiver
stays in HUNT, the driver and the reply being given are as they were. -/
def Obligations.BroadcastsActAsAddressedRequests : Prop :=
  ∀ (i j : Instr) (k : Byte) (f g : Req) (s : State),
    requestOf i = some (k, f) → requestOf j = some (k, g) → broadcastKind k = true → f.addr = 255 →
    f.payload = [] → g.payload = [] → s.hears g → (s.held = false ∨ k = 0x06) →
      ∃ t st vs, exec i s = .next t ∧ exec j s = .next (replied k g st vs t)
        ∧ t.link.rx = .hunt ∧ t.link.driver = s.link.driver ∧ t.link.answering = s.link.answering

/-- R164, R167: a request frame has no effect on a DEAF or QUIET receiver, when it is foreign, and as a broadcast that is not
executed. R164, R166, R167, R168: an accepted frame of a reply kind, a broadcast that is not executed and a sync byte with no
address behind it leave everything as it was; a foreign frame is followed to its end and discarded, or abandoned into QUIET
when its length is bad or its bytes stop; silence ends QUIET and nothing else. -/
def Obligations.FramesThatAreNotForTheUnit : Prop :=
    (∀ (i : Instr) (k : Byte) (f : Req) (s : State), requestOf i = some (k, f) →
       (s.link.rx = .deaf ∨ s.link.rx = .quiet → exec i s = .next s)
         ∧ (s.link.rx = .hunt → f.payload.length ≤ 240 →
             (s.link.judge f.addr = .foreign → exec i s = .next s)
               ∧ (f.addr = 255 →
                   broadcastKind k = false ∨ lengthAllowed k f.payload.length = false ∨ (s.held = true ∧ k ≠ 0x06) →
                   exec i s = .next s)))
  ∧ (∀ s : State, s.link.rx = .hunt →
       (∀ k f, f.payload.length ≤ 240 → s.link.judge f.addr = .accepted → 0x80 ≤ k.toNat →
           exec (.replyKindDiscarded k f) s = .next s)
         ∧ (∀ k f, f.payload.length ≤ 240 → f.addr = 255 →
             broadcastKind k = false ∨ lengthAllowed k f.payload.length = false ∨ (s.held = true ∧ k ≠ 0x06) →
             exec (.broadcastDiscarded k f) s = .next s)
         ∧ exec .addressWaitTimeout s = .next s)
  ∧ (∀ (k : Byte) (f : Req) (s : State), s.link.rx = .hunt → s.link.judge f.addr = .foreign →
       (f.payload.length ≤ 240 → exec (.foreignFrame k f .whole) s = .next s)
         ∧ (∀ n : Byte, 240 < n.toNat →
             exec (.foreignFrame k f (.badLength n)) s = .next { s with link := { s.link with rx := .quiet } })
         ∧ (∀ got, cutShort got = true →
             exec (.foreignFrame k f (.stopped got)) s = .next { s with link := { s.link with rx := .quiet } }))
  ∧ (∀ s : State,
       (s.link.rx = .quiet → exec .quietSilenceEnd s = .next { s with link := { s.link with rx := .hunt } })
         ∧ (s.link.rx ≠ .quiet → exec .quietSilenceEnd s = .next s))

/-- R168, R169: a whole accepted or broadcast frame with a wrong check byte, and the two FRAMING faults: LINK_FAULT is set,
the first fault is recorded with the fields received, and the receiver goes where R168 says. -/
def Obligations.LinkFaultsAreLogged : Prop :=
    (∀ (k c : Byte) (f : Req) (s : State), s.link.rx = .hunt → s.link.judge f.addr ≠ .foreign → f.payload.length ≤ 240 →
       checkSum k c f ≠ 0 →
         exec (.checkFault k c f) s = .next
           { s with
             plant := { s.plant with notice := s.plant.notice.raise Condition.linkFault.bit }
             link := { s.link with
                       rx := .hunt
                       log := some (s.link.log.getD
                         { cause := .check, addr := f.addr, length := some (BitVec.ofNat 8 f.payload.length)
                           kind := some k, tag := some f.tag, time := s.clock }) } })
  ∧ (∀ (a : Byte) (s : State), s.link.rx = .hunt → s.link.judge a ≠ .foreign →
       (∀ n : Byte, 240 < n.toNat →
         exec (.framingLengthFault a n) s = .next
           { s with
             plant := { s.plant with notice := s.plant.notice.raise Condition.linkFault.bit }
             link := { s.link with
                       rx := .quiet
                       log := some (s.link.log.getD
                         { cause := .framing, addr := a, length := some n, kind := none, tag := none
                           time := s.clock }) } })
         ∧ (∀ got, cutShort got = true →
           exec (.framingGapTimeout a got) s = .next
             { s with
               plant := { s.plant with notice := s.plant.notice.raise Condition.linkFault.bit }
               link := { s.link with
                         rx := .hunt
                         log := some (s.link.log.getD
                           { cause := .framing, addr := a, length := got[0]?, kind := got[1]?, tag := got[2]?
                             time := s.clock }) } }))

/-- R163, R164, R168, R169, R172: the last byte of a reply releases the driver and returns the receiver to HUNT; a sync byte
of another party while an answer is pending stops the reply, and the record describes the request. R174: when that reply
is the one to a Restart request, either end restarts the controller exactly as the restart line does. Logs 2, 5 and 28 are
the model's part: that these events change nothing with no answer pending and RESTART_REPLY_SENT nothing with no restart
owed (log 2), that REPLY_SENT and OVERRUN carry no straps, so that those are free values (log 5), and that a request frame
that starts while an answer is pending is an OVERRUN as a whole (log 28). -/
def Obligations.RepliesEndOrAreOverrun : Prop :=
    (∀ (s : State) (a : Answering), s.link.answering = some a → s.link.restartOwed = false →
       exec .replySent s = .next { s with link := { s.link with answering := none, driver := false, rx := .hunt } }
         ∧ exec .overrun s = .next
             { s with
               plant := { s.plant with notice := s.plant.notice.raise Condition.linkFault.bit }
               link := { s.link with
                         rx := .quiet, answering := none, driver := false
                         log := some (s.link.log.getD
                           { cause := .overrun, addr := a.request.addr
                             length := some (BitVec.ofNat 8 a.request.payload.length), kind := some a.request.kind
                             tag := some a.request.tag, time := s.clock }) } })
  ∧ (∀ (s : State) (a : Answering), s.link.answering = some a → s.link.restartOwed = true →
       ∃ r : RestartIn, exec .replySent s = exec (.restartLine r) { s with draws := s.draws + 1 }
         ∧ exec .overrun s = exec (.restartLine r) { s with draws := s.draws + 1 })
  ∧ (∀ (s : State) (r : RestartIn),
       (s.link.restartOwed = true → exec (.restartReplySent r) s = exec (.restartLine r) s)
         ∧ (s.link.restartOwed = false → exec (.restartReplySent r) s = .next s))
  ∧ (∀ s : State,
       (s.link.answering = none → exec .overrun s = .next s ∧ exec .replySent s = .next s)
         ∧ ∀ i k f, requestOf i = some (k, f) → s.link.rx = .frame → exec i s = exec .overrun s)

/-- R173: Identify returns the fields of Table 11.2, in every mode and state, and changes nothing. R174: Restart is
answered OK and owes a restart; that what is owed is a flag of the link, read when the reply ends, is the model's way
of saying it (log 5). The two bytes of the part code are the model's choice (log 17). -/
def Obligations.IdentifyAndRestartAreAnswered : Prop :=
    (∀ (f : Req) (s : State), s.hears f → f.payload = [] →
       exec (.identify f) s = .next
         (replied 0x01 f .ok
           (b2 0x2C41 ++ b2 0x0086 ++ b1 1 ++ b1 s.link.strap.toNat ++ b1 8 ++ b1 6 ++ b1 s.store.status.code
             ++ b1 s.plant.survey.state.code) s))
  ∧ (∀ (f : Req) (s : State), s.serves f → f.payload = [] →
       exec (.restart f) s = .next (replied 0x02 f .ok [] { s with link := { s.link with restartOwed := true } }))

/-- R165, R170: Set Accept Set replaces the added addresses, each held once and the strap address not among them (log
16), and refuses an address of 0 or 255; Set Link Mode takes 0 for STRICT and 1 for LENIENT and refuses any other
value. R169, R171: Read Link Log returns the record, or the mark that the log is empty, with the mode, the strap
address and the added addresses in the order in which they are held, itself the model's choice (log 16), and changes
nothing; Clear Link Fault empties the log and leaves LINK_FAULT set; both are served while a fault is held. How the
reply marks its optional fields, and the number before the added addresses, are the model's (log 17), and that an
added address equal to the strap address is not listed is its reading (log 16). -/
def Obligations.LinkSettingsAndLog : Prop :=
    (∀ (f : Req) (s : State), s.serves f → f.payload.length ≤ 3 →
       ((∃ a ∈ f.payload, a = 0 ∨ a = 255) → exec (.setAcceptSet f) s = .next (replied 0x03 f .badValue [] s))
         ∧ ((∀ a ∈ f.payload, a ≠ 0 ∧ a ≠ 255) →
             ∃ added : List Byte, added.Nodup ∧ added.length ≤ 3
               ∧ (∀ a, a ∈ added ↔ a ∈ f.payload ∧ a ≠ s.link.strap.setWidth 8)
               ∧ exec (.setAcceptSet f) s = .next (replied 0x03 f .ok [] { s with link := { s.link with added := added } })))
  ∧ (∀ (f : Req) (m : Byte) (s : State), s.serves f → f.payload = [m] →
       (m = 0 → exec (.setLinkMode f) s = .next (replied 0x04 f .ok [] { s with link := { s.link with mode := .strict } }))
         ∧ (m = 1 →
             exec (.setLinkMode f) s = .next (replied 0x04 f .ok [] { s with link := { s.link with mode := .lenient } }))
         ∧ (m ≠ 0 → m ≠ 1 → exec (.setLinkMode f) s = .next (replied 0x04 f .badValue [] s)))
  ∧ (∀ (f : Req) (s : State), s.hears f → f.payload = [] →
       (s.link.log = none →
         exec (.readLinkLog f) s = .next
           (replied 0x05 f .ok
             ([0#8] ++ List.replicate 9 0#8 ++ b1 s.link.mode.code ++ b1 s.link.strap.toNat ++ b1 s.link.added.length
               ++ s.link.added) s))
         ∧ (∀ r, s.link.log = some r →
           exec (.readLinkLog f) s = .next
             (replied 0x05 f .ok
               (b1 (1 + 2 * r.length.isSome.toNat + 4 * r.kind.isSome.toNat + 8 * r.tag.isSome.toNat)
                 ++ b1 r.cause.code ++ [r.addr, r.length.getD 0, r.kind.getD 0, r.tag.getD 0] ++ bTime r.time
                 ++ b1 s.link.mode.code ++ b1 s.link.strap.toNat ++ b1 s.link.added.length ++ s.link.added) s))
         ∧ exec (.clearLinkFault f) s = .next (replied 0x06 f .ok [] { s with link := { s.link with log := none } }))

/-! ## Conditions and the attention output (chapter 10) -/

/-- R158: Read Conditions returns the conditions that are set and the mask, clears exactly those conditions and releases the
output; it is served while a fault is held. R159, R160: Set Notice Mask replaces the whole mask and judges the output at
once, and its reply says whether the unit drives the line; a flag that names no condition is BAD_VALUE (log 18). -/
def Obligations.ConditionsAreReadAndMasked : Prop :=
    (∀ (f : Req) (s : State), s.hears f → f.payload = [] →
       exec (.readConditions f) s = .next
         (replied 0x07 f .ok (b2 s.plant.notice.conds.toNat ++ b2 s.plant.notice.mask.toNat)
           { s with plant := { s.plant with notice := { s.plant.notice with conds := 0, attention := false } } }))
  ∧ (∀ (f : Req) (lo hi : Byte) (s : State), s.serves f → f.payload = [lo, hi] →
       (hi.toNat < 16 →
         ∃ (m : Flags12) (driven : Bool), m.toNat = lo.toNat + 256 * hi.toNat
           ∧ (driven = true ↔ s.plant.notice.startUp = false ∧ s.plant.notice.conds &&& m ≠ 0)
           ∧ exec (.setNoticeMask f) s = .next
               (replied 0x08 f .ok [if driven then 1 else 0]
                 { s with plant := { s.plant with notice := { s.plant.notice with mask := m, attention := driven } } }))
         ∧ (16 ≤ hi.toNat → exec (.setNoticeMask f) s = .next (replied 0x08 f .badValue [] s)))

/-- R157, R158: nothing but a Read Conditions frame and a restart clears a condition. The restarts are the three rows
that bring one and, with the reply to a Restart request pending, whatever ends that reply (R174). What such a restart
samples is free (log 5). -/
def Obligations.ConditionsStaySetUntilRead : Prop :=
  ∀ (i : Instr) (s t : State), exec i s = .next t → frameKind i ≠ some 0x07 →
    (∀ r, i ≠ .powerOn r ∧ i ≠ .restartLine r ∧ i ≠ .restartReplySent r) →
      s.plant.notice.conds &&& t.plant.notice.conds = s.plant.notice.conds
        ∨ (s.link.restartOwed = true ∧ s.link.answering.isSome = true
            ∧ ∃ r : RestartIn, exec i s = exec (.restartLine r) { s with draws := s.draws + 1 })

/-! ## Feeds, cells and the raster (chapter 1) -/

/-- R10: when a definition is valid, and the one form in which a vacant one is stored. R2: the test of admission. -/
def Obligations.DefinitionsAndAdmission : Prop :=
    (∀ d e : CellDef,
       (d.valid = true ↔
           (d.freq = 0 ∨ (45000 ≤ d.freq ∧ d.freq ≤ 870000)) ∧ (d.bandwidth = 6 ∨ d.bandwidth = 7 ∨ d.bandwidth = 8)
             ∧ d.profile ≤ 7)
         ∧ (d.freq = 0 → d.normal = { freq := 0, bandwidth := 8, profile := 0 })
         ∧ (d.normal = e.normal ↔
             (d.freq = 0 ∧ e.freq = 0)
               ∨ (d.freq ≠ 0 ∧ d.freq = e.freq ∧ d.bandwidth = e.bandwidth ∧ d.profile = e.profile)))
  ∧ (∀ (r : FeedRec) (d : CellDef),
       r.admits d = true ↔
         d.freq ≠ 0 ∧ r.enable = true ∧
           ((r.w1.base = 0 ∧ r.w1.limit = 0 ∧ r.w2.base = 0 ∧ r.w2.limit = 0)
             ∨ ((r.w1.base ≠ 0 ∨ r.w1.limit ≠ 0) ∧ r.w1.base ≤ d.freq ∧ d.freq ≤ r.w1.limit)
             ∨ ((r.w2.base ≠ 0 ∨ r.w2.limit ≠ 0) ∧ r.w2.base ≤ d.freq ∧ d.freq ≤ r.w2.limit)))

/-- R3, R4, R5, R143: Set Feed is refused BAD_VALUE for a bad feed, enable, priority or window, and else replaces the
record and re-judges the feed's cells: a cell that is no longer admitted is barred, with its engagement ended and its
sightings and spot entries removed; a BARRED one that is admitted becomes UNSEEN; every other one and every cell of
another feed is as it was, and so is every lane on such a cell. The reply counts both. Cell by cell, a spot visit that
ends and then the entries that waited for the cell, oldest first, give spot results ABANDONED and SPOT_DONE. A barred
cell that was HELD records ABANDONED too (log 15). The visits that end leave the stepped set, with STEP_HALT, and may
end a draining survey. R99, R100, R114, R120: each service that lost a sighting is then evaluated once, in slot order,
a PROVISIONAL one only when its chosen sighting is among them. That the cells are taken by ascending index, and the
entries of one cell oldest first, is the model's choice (log 32). Stated where the laws of the survey hold. -/
def Obligations.SetFeedRejudgesItsCells : Prop :=
    (∀ (f : Req) (s : State), s.serves f → f.payload.length = 19 →
       6 ≤ byteAt f.payload 0 ∨ 2 ≤ byteAt f.payload 1 ∨ 8 ≤ byteAt f.payload 2
           ∨ (∃ k ∈ [3, 7, 11, 15], 870000 < wordAt f.payload k) →
         exec (.setFeed f) s = .next (replied 0x10 f .badValue [] s))
  ∧ ∀ (f : Req) (fd : Feed) (r : FeedRec) (s : State), SurveyLaw s → s.serves f → f.payload.length = 19 →
    feedAt f.payload 0 = some fd → feedRecAt f.payload = some r →
      ∃ t, exec (.setFeed f) s = .next
          (replied 0x10 f .ok
            (b1 ((feedCells fd).countP (fun c =>
                (look s.settings.feeds fd).admits (look s.plant.cells c).defn && !r.admits (look s.plant.cells c).defn))
              ++ b1 ((feedCells fd).countP (fun c =>
                  (look s.plant.cells c).state == .barred && r.admits (look s.plant.cells c).defn))) t)
        ∧ t.settings = { s.settings with feeds := put s.settings.feeds fd r }
        ∧ t.staging = s.staging ∧ t.link = s.link ∧ t.store = s.store ∧ t.clock = s.clock ∧ t.draws = s.draws
        ∧ (∀ c, feedOf c ≠ fd → look t.plant.cells c = look s.plant.cells c)
        ∧ (let bars := fun c : CellRef => feedOf c = fd
              ∧ (look s.settings.feeds fd).admits (look s.plant.cells c).defn = true
              ∧ r.admits (look s.plant.cells c).defn = false
           (∀ g, g ∈ t.plant.dir.pool ↔ g ∈ s.plant.dir.pool ∧ ¬ bars g.cell)
            ∧ (∀ e, e ∈ t.plant.survey.spots ↔ e ∈ s.plant.survey.spots ∧ ¬ bars e.cell)
            ∧ (let ended := fun c : CellRef => (look s.plant.cells c).engaged.toList.flatMap (fun l =>
                  if (look s.plant.lanes l).inVisit then
                    (look s.plant.lanes l).terms.toList.map (fun m =>
                      SpotResult.mk m.ticket c m.trim m.hold .abandoned s.clock (look t.plant.lanes l).record)
                  else [])
               let waited := fun c : CellRef => (s.plant.survey.spots.filter (fun e => e.cell == c)).map (fun e =>
                  SpotResult.mk e.ticket e.cell e.trim e.hold .abandoned s.clock none)
               let given := ((feedCells fd).filter (fun c => (look s.settings.feeds fd).admits (look s.plant.cells c).defn
                  && !r.admits (look s.plant.cells c).defn)).flatMap (fun c => ended c ++ waited c)
               let ends := fun l : Lane => (look s.plant.lanes l).inVisit
                  && (look s.plant.lanes l).cell.any (fun c => feedOf c == fd
                    && (look s.settings.feeds fd).admits (look s.plant.cells c).defn
                    && !r.admits (look s.plant.cells c).defn)
               let b := removalEvaluations t.view s.plant.dir { s.plant.dir with pool := t.plant.dir.pool }
               (given = [] → t.plant.survey.results = s.plant.survey.results)
                ∧ (given ≠ [] → t.plant.survey.results = (given.reverse ++ s.plant.survey.results).take 4
                    ∧ t.plant.notice.conds &&& 0x004#12 ≠ 0)
                ∧ EngineTakesEnds s t ends
                ∧ t.plant.dir = b.dir
                ∧ t.plant.notice = s.plant.notice.raise ((if given = [] then 0 else 0x004#12)
                    ||| (if ∃ l : Lane, ends l = true ∧ s.plant.survey.stepped.getLsbD l.val = true then 0x010#12 else 0)
                    ||| b.raised))
            ∧ ∀ l, ((∀ c ∈ (look s.plant.lanes l).cell, ¬ bars c) → look t.plant.lanes l = look s.plant.lanes l)
                ∧ (∀ c ∈ (look s.plant.lanes l).cell, bars c → (look t.plant.lanes l).state = .idle
                    ∧ (look t.plant.lanes l).cell = none))
        ∧ ∀ c, feedOf c = fd →
            let x := look s.plant.cells c
            let y := look t.plant.cells c
            ((look s.settings.feeds fd).admits x.defn = true → r.admits x.defn = false →
                y = { x with state := .barred, q := none, fails := 0, due := none, engaged := none
                             lastOutcome := if x.engaged.isSome then some .abandoned else x.lastOutcome
                             lastTime := if x.engaged.isSome then s.clock else x.lastTime })
              ∧ (x.state = .barred → r.admits x.defn = true → y = { x with state := .unseen })
              ∧ ((look s.settings.feeds fd).admits x.defn = r.admits x.defn → y = x)

/-- R9: Read Feed returns the feed record and the number of the feed's cells in each of the eight states, which sum to 96,
and changes nothing; a feed that is not A to F is BAD_VALUE. That the counts stand in the order of the states' codes is the
model's choice (log 17). -/
def Obligations.ReadFeedReturnsRecordAndCounts : Prop :=
  ∀ (f : Req) (b : Byte) (s : State), s.serves f → f.payload = [b] →
    (6 ≤ b.toNat → exec (.readFeed f) s = .next (replied 0x11 f .badValue [] s))
      ∧ ∀ fd : Feed, b.toNat = fd.val →
          exec (.readFeed f) s = .next
            (replied 0x11 f .ok
              (bYes (look s.settings.feeds fd).enable ++ b1 (look s.settings.feeds fd).priority
                ++ b4 (look s.settings.feeds fd).w1.base ++ b4 (look s.settings.feeds fd).w1.limit
                ++ b4 (look s.settings.feeds fd).w2.base ++ b4 (look s.settings.feeds fd).w2.limit
                ++ (allCellStates.map (fun k => b1 ((feedCells fd).countP
                    (fun c => (look s.plant.cells c).state == k)))).flatten) s)
          ∧ (allCellStates.map (fun k => (feedCells fd).countP (fun c => (look s.plant.cells c).state == k))).sum = 96

/-- R8: Set Profile replaces one required MER from 50 to 350, else BAD_VALUE; Read Profiles returns all eight. R23:
Set Timers is validated as a whole and replaces the shared set; no lane is touched. R24: Read Timers returns the four
values and the period that each code selects; the gap period is absent, shown by its presence bit, when the gap timer is
disabled. Where that bit stands, and the order of codes, interval and periods in the reply, is the model's choice
(log 17). -/
def Obligations.ProfilesAndTimersAreSetAndRead : Prop :=
    (∀ (f : Req) (s : State), s.serves f →
       (∀ k lo hi : Byte, f.payload = [k, lo, hi] →
         (8 ≤ k.toNat ∨ lo.toNat + 256 * hi.toNat < 50 ∨ 350 < lo.toNat + 256 * hi.toNat →
           exec (.setProfile f) s = .next (replied 0x12 f .badValue [] s))
         ∧ ∀ n : Fin 8, k.toNat = n.val → 50 ≤ lo.toNat + 256 * hi.toNat → lo.toNat + 256 * hi.toNat ≤ 350 →
             exec (.setProfile f) s = .next
               (replied 0x12 f .ok []
                 { s with settings :=
                   { s.settings with profiles := put s.settings.profiles n (lo.toNat + 256 * hi.toNat) } }))
         ∧ (f.payload = [] →
           exec (.readProfiles f) s = .next (replied 0x13 f .ok ((s.settings.profiles.toList.map b2).flatten) s)))
  ∧ (∀ (f : Req) (lock gap dwell lo hi : Byte) (s : State), s.serves f → f.payload = [lock, gap, dwell, lo, hi] →
       let interval := lo.toNat + 256 * hi.toNat
       (lock.toNat = 0 ∨ 15 < lock.toNat ∨ 15 < gap.toNat ∨ dwell.toNat = 0 ∨ 15 < dwell.toNat ∨ interval < 50
           ∨ 2000 < interval → exec (.setTimers f) s = .next (replied 0x23 f .badValue [] s))
         ∧ (1 ≤ lock.toNat → lock.toNat ≤ 15 → gap.toNat ≤ 15 → 1 ≤ dwell.toNat → dwell.toNat ≤ 15 → 50 ≤ interval →
             interval ≤ 2000 →
             exec (.setTimers f) s = .next
               (replied 0x23 f .ok []
                 { s with settings := { s.settings with
                   timers := { lock := lock.toNat, gap := gap.toNat, dwell := dwell.toNat, interval := interval } } })))
  ∧ (∀ (f : Req) (s : State), s.serves f → f.payload = [] →
       let t := s.settings.timers
       exec (.readTimers f) s = .next
         (replied 0x24 f .ok
           ([if t.gap = 0 then 0 else 1] ++ b1 t.lock ++ b1 t.gap ++ b1 t.dwell ++ b2 t.interval ++ b2 (2 ^ (t.lock - 1))
             ++ (if t.gap = 0 then [0, 0] else b2 (2 ^ (t.gap - 1))) ++ b2 (2 ^ (t.dwell - 1))) s))

/-- R12, R13, R17: opening a page discards the staging; Put Cells stages valid definitions up to position 16, normalised,
and refuses the whole request for one invalid definition or without an open page; closing discards the staging. -/
def Obligations.StagingIsOpenedFilledAndClosed : Prop :=
  ∀ (f : Req) (s : State), s.serves f →
    (∀ (b k : Byte) (fd : Feed) (page : Fin 6), f.payload = [b, k] → b.toNat = fd.val → k.toNat = page.val →
        exec (.openRasterPage f) s = .next
          (replied 0x14 f .ok [] { s with staging := { page := some (fd, page), staged := [] } }))
      ∧ (∀ b k : Byte, f.payload = [b, k] → 6 ≤ b.toNat ∨ 6 ≤ k.toNat →
          exec (.openRasterPage f) s = .next (replied 0x14 f .badValue [] s))
      ∧ (∀ ds : List CellDef, 1 ≤ ds.length → ds.length ≤ 16 → defsOf f.payload = ds →
          f.payload.length = 6 * ds.length →
          (s.staging.page = none → exec (.putCells f) s = .next (replied 0x15 f .wrongState [] s))
          ∧ (s.staging.page ≠ none → (∃ d ∈ ds, d.valid = false) →
              exec (.putCells f) s = .next (replied 0x15 f .badValue [] s))
          ∧ (s.staging.page ≠ none → (∀ d ∈ ds, d.valid = true) → s.staging.staged.length ≤ 16 →
              exec (.putCells f) s = .next
                (replied 0x15 f .ok
                  (b1 (min ds.length (16 - s.staging.staged.length))
                    ++ b1 (min (s.staging.staged.length + ds.length) 16))
                  { s with staging :=
                    { s.staging with
                      staged := (s.staging.staged ++ ds.map CellDef.normal).take 16 } })))
      ∧ (f.payload = [] → s.staging.page ≠ none →
          exec (.closeRasterPage f) s = .next
            (replied 0x17 f .ok [] { s with staging := { page := none, staged := [] } }))
      ∧ (f.payload = [] → s.staging.page = none →
          exec (.closeRasterPage f) s = .next (replied 0x17 f .ok [] s))

/-- R14, R15, R16, R143: Write Raster Page. Without an open page WRONG_STATE; with two equal frequencies in the
resulting feed BAD_VALUE; else each of the 16 cells whose definition changes is rebuilt, judged under its feed record
with its history cleared, every other cell keeps everything, and the staging is closed. Position by position, a spot
visit that ends on a changed cell and then the spot entries that waited for it, when it has become VACANT or BARRED,
give spot results ABANDONED and SPOT_DONE; the entries of a cell now UNSEEN stay. The visits that end leave the stepped
set, with STEP_HALT, and may end a draining survey. R99, R100, R114, R120: each service that lost a sighting is then
evaluated once, in slot order, a PROVISIONAL one only when its chosen sighting is among them. That of several entries
for one cell the oldest gives its result first is the model's choice (log 32). Stated where the laws of the survey
hold. -/
def Obligations.WriteRasterPageRebuildsChangedCells : Prop :=
  ∀ (f : Req) (s : State), SurveyLaw s → s.serves f → f.payload = [] →
    (s.staging.page = none → exec (.writeRasterPage f) s = .next (replied 0x16 f .wrongState [] s))
      ∧ ∀ (fd : Feed) (k : Fin 6), s.staging.page = some (fd, k) →
          let page := resultingPage fd k s.staging.staged
          let raster := fun c => match page.find? (fun e => e.1 == c) with
            | some e => e.2
            | none => (look s.plant.cells c).defn
          (noRepeat (feedFreqs raster fd) = false → exec (.writeRasterPage f) s = .next (replied 0x16 f .badValue [] s))
          ∧ (noRepeat (feedFreqs raster fd) = true →
              ∃ t, exec (.writeRasterPage f) s = .next
                  (replied 0x16 f .ok (b1 (page.countP (fun e => (look s.plant.cells e.1).defn != e.2))) t)
                ∧ t.staging = { page := none, staged := [] }
                ∧ t.settings = s.settings ∧ t.link = s.link ∧ t.store = s.store ∧ t.clock = s.clock
                ∧ t.draws = s.draws
                ∧ (∀ g, g ∈ t.plant.dir.pool ↔
                    g ∈ s.plant.dir.pool ∧ (look s.plant.cells g.cell).defn = raster g.cell)
                ∧ t.plant.survey.spots = s.plant.survey.spots.filter (fun e =>
                    (look s.plant.cells e.cell).defn == raster e.cell || (look t.plant.cells e.cell).state == .unseen)
                ∧ (let ended := fun c : CellRef => (look s.plant.cells c).engaged.toList.flatMap (fun l =>
                      if (look s.plant.lanes l).inVisit then
                        (look s.plant.lanes l).terms.toList.map (fun m =>
                          SpotResult.mk m.ticket c m.trim m.hold .abandoned s.clock (look t.plant.lanes l).record)
                      else [])
                   let waited := fun c : CellRef =>
                      if (look t.plant.cells c).state = .unseen then []
                      else (s.plant.survey.spots.filter (fun e => e.cell == c)).map (fun e =>
                        SpotResult.mk e.ticket e.cell e.trim e.hold .abandoned s.clock none)
                   let given := (page.filter (fun e => (look s.plant.cells e.1).defn != e.2)).flatMap
                      (fun e => ended e.1 ++ waited e.1)
                   let ends := fun l : Lane => (look s.plant.lanes l).inVisit
                      && (look s.plant.lanes l).cell.any (fun c => (look s.plant.cells c).defn != raster c)
                   let b := removalEvaluations t.view s.plant.dir { s.plant.dir with pool := t.plant.dir.pool }
                   (given = [] → t.plant.survey.results = s.plant.survey.results)
                    ∧ (given ≠ [] → t.plant.survey.results = (given.reverse ++ s.plant.survey.results).take 4
                        ∧ t.plant.notice.conds &&& 0x004#12 ≠ 0)
                    ∧ EngineTakesEnds s t ends
                    ∧ t.plant.dir = b.dir
                    ∧ t.plant.notice = s.plant.notice.raise ((if given = [] then 0 else 0x004#12)
                        ||| (if ∃ l : Lane, ends l = true ∧ s.plant.survey.stepped.getLsbD l.val = true then 0x010#12
                            else 0)
                        ||| b.raised))
                ∧ (∀ l, ((∀ c ∈ (look s.plant.lanes l).cell, (look s.plant.cells c).defn = raster c) →
                      look t.plant.lanes l = look s.plant.lanes l)
                    ∧ (∀ c ∈ (look s.plant.lanes l).cell, (look s.plant.cells c).defn ≠ raster c →
                        (look t.plant.lanes l).state = .idle ∧ (look t.plant.lanes l).cell = none))
                ∧ ∀ c, look t.plant.cells c =
                    if (look s.plant.cells c).defn = raster c then look s.plant.cells c
                    else
                      { defn := raster c
                        state := if (raster c).freq = 0 then .vacant
                          else if (look s.settings.feeds (feedOf c)).admits (raster c) then .unseen else .barred
                        q := none, lastScore := none, fails := 0, lastOutcome := none, lastTime := 0, roster := none
                        margin := none, due := none, refused := 0, engaged := none })

/-! ## Lanes and visits (chapters 2 to 5) -/

/-- R39, R35: Park Lane takes a lane out of service from any state, and its lane holds no visit and no hold
afterwards; a hold that it ends releases the cell and sets its due time, without HOLD_EXPIRED (R145, R153); a visit in
flight leaves a record ABANDONED, unscored; options and last fault are kept. R150: that visit end sets the cell's due
time and releases it, leaves a spot result and SPOT_DONE for a SPOT visit, takes the lane off the stepped set with
STEP_HALT, and may end a draining survey; the directory is as it was. -/
def Obligations.ParkLaneEndsEverything : Prop :=
  ∀ (f : Req) (b : Byte) (l : Lane) (s : State), s.serves f → f.payload = [b] →
    (8 ≤ b.toNat → exec (.parkLane f) s = .next (replied 0x20 f .badValue [] s))
      ∧ (b.toNat = l.val →
          ∃ t, exec (.parkLane f) s = .next (replied 0x20 f .ok [] t) ∧ SameOutside s t ∧ OtherLanesKept s t l
            ∧ (let x := look s.plant.lanes l
               let y := look t.plant.lanes l
               y.state = .parked ∧ y.options = x.options ∧ y.pendingOpts = x.pendingOpts ∧ y.fault = x.fault
                ∧ (x.inVisit = true ∨ x.state = .held → y.cell = none ∧ y.terms = none ∧ y.live = none)
                ∧ (x.inVisit = false → y.record = x.record)
                ∧ (∀ c, x.state = .held → x.cell = some c →
                    look t.plant.cells c = { look s.plant.cells c with
                      engaged := none, due := dueTime s.settings s.clock s.plant.dir c (look s.plant.cells c) }
                    ∧ OtherCellsKept s t c ∧ t.plant.notice = s.plant.notice)
                ∧ t.plant.dir = s.plant.dir ∧ t.plant.survey.spots = s.plant.survey.spots
                ∧ EngineTakesEnds s t (fun k => k == l && x.inVisit && x.cell.isSome)
                ∧ (x.inVisit = false → t.plant.survey.results = s.plant.survey.results)
                ∧ (∀ c, x.inVisit = true ∨ x.state = .held → x.cell = some c → WatchScheduled s t c)
                ∧ ∀ c, x.inVisit = true → x.cell = some c →
                    SpotReported s t l c .abandoned ∧ OtherCellsKept s t c
                    ∧ look t.plant.cells c = { look s.plant.cells c with
                        lastOutcome := some .abandoned, lastTime := s.clock, due := (look t.plant.cells c).due
                        engaged := none }
                    ∧ (∃ r, y.record = some r ∧ r.outcome = .abandoned ∧ r.cell = c ∧ r.stop = s.clock
                      ∧ r.score = none ∧ r.roster = none ∧ r.hold = .none)
                    ∧ (look t.plant.cells c).state = (look s.plant.cells c).state
                    ∧ (look t.plant.cells c).q = (look s.plant.cells c).q
                    ∧ (look t.plant.cells c).lastOutcome = some .abandoned
                    ∧ (look t.plant.cells c).engaged = none))

/-- R40: Unpark Lane on a PARKED or FAULTED lane puts pending options in force and makes the lane IDLE; on any other lane
WRONG_STATE. R41: Set Lane Options gives the parked lanes of the mask pending options, refuses the others of the mask, and
reports both; a bad reach or step is BAD_VALUE. -/
def Obligations.ParkedLanesAreConfiguredAndReturned : Prop :=
    (∀ (f : Req) (b : Byte) (l : Lane) (s : State), s.serves f → f.payload = [b] →
       (8 ≤ b.toNat → exec (.unparkLane f) s = .next (replied 0x21 f .badValue [] s))
         ∧ (b.toNat = l.val →
             let x := look s.plant.lanes l
             (x.state ≠ .parked → x.state ≠ .faulted →
                 exec (.unparkLane f) s = .next (replied 0x21 f .wrongState [] s))
             ∧ (x.state = .parked ∨ x.state = .faulted →
                 exec (.unparkLane f) s = .next
                   (replied 0x21 f .ok []
                     { s with plant := (s.plant.setLane l
                         { x with state := .idle, options := x.pendingOpts.getD x.options, pendingOpts := none }) }))))
  ∧ (∀ (f : Req) (m reach st limit : Byte) (s : State), s.serves f → f.payload = [m, reach, st, limit] →
       (2 ≤ reach.toNat ∨ st.toNat = 0 ∨ 3 ≤ st.toNat → exec (.setLaneOptions f) s = .next (replied 0x22 f .badValue [] s))
         ∧ ∀ o : Options, reach.toNat = o.reach.code → st.toNat = o.step.size → limit = o.limit →
             ∃ t took refused, exec (.setLaneOptions f) s = .next (replied 0x22 f .ok [took, refused] t)
               ∧ SameOutside s t ∧ t.plant.cells = s.plant.cells ∧ t.plant.dir = s.plant.dir
               ∧ t.plant.survey = s.plant.survey ∧ t.plant.notice = s.plant.notice
               ∧ ∀ l : Lane,
                   (look t.plant.lanes l =
                     if m.getLsbD l.val = true ∧ (look s.plant.lanes l).state = .parked then
                       { look s.plant.lanes l with pendingOpts := some o }
                     else look s.plant.lanes l)
                   ∧ took.getLsbD l.val = (m.getLsbD l.val && (look s.plant.lanes l).state == .parked)
                   ∧ refused.getLsbD l.val = (m.getLsbD l.val && (look s.plant.lanes l).state != .parked))

/-- R26, R44, R53, R151: a lock report in TUNING stops the lock timer and begins the sweep, or the measurement of a
spot visit without trim; in a hold it changes only the live reading. R46 to R49, R51: a probe window's expiry in
TRIMMING moves the sweep on, or ends it: the lane keeps the result, sets its threshold offset to the centre and enters
MEASURING. A lane in any other state is left as it was. That the live reading follows a lock report in a hold at once
is the model's reading (log 12), and so is that an expiry outside TRIMMING changes nothing (log 2). That a trim unit
back in IDLE holds no copied options and no mark is the model's choice (log 31). -/
def Obligations.LockAndProbesMoveTheVisit : Prop :=
    (∀ (l : Lane) (s : State),
       let x := look s.plant.lanes l
       (x.state = .tuning → (∀ t ∈ x.terms, t.trim = true) →
           exec (.lockArrival l) s = .next
             { s with plant := (s.plant.setLane l
                 { x with state := .trimming, lockTimer := none, lockNoted := true
                          trim := { phase := .centre, opts := some x.options, offset := some 0, count := 0, high := none
                                    low := none, upEnd := false } }) })
         ∧ (∀ t, x.state = .tuning → x.terms = some t → t.trim = false →
             exec (.lockArrival l) s = .next
               { s with plant := (s.plant.setLane l
                   { x with state := .measuring, lockTimer := none, lockNoted := true
                            measureTimer := x.latched.map Latched.interval, gathered := Gathered.empty }) })
         ∧ (x.state = .held →
             exec (.lockArrival l) s = .next
               { s with plant := (s.plant.setLane l
                   { x with lockNow := true, live := x.live.map (fun r => { r with lock := true }) }) })
         ∧ (x.state ≠ .tuning → x.state ≠ .held → exec (.lockArrival l) s = .next s))
  ∧ (∀ (l : Lane) (errors : Nat) (s : State),
       let x := look s.plant.lanes l
       (x.state ≠ .trimming → exec (.probeWindowExpiry l errors) s = .next s)
         ∧ (∀ u, x.state = .trimming → x.trim.windowExpiry errors = .goOn u →
             exec (.probeWindowExpiry l errors) s = .next { s with plant := (s.plant.setLane l { x with trim := u }) })
         ∧ (∀ r, x.state = .trimming → x.trim.windowExpiry errors = .sweepEnd r →
             exec (.probeWindowExpiry l errors) s = .next
               { s with plant := (s.plant.setLane l
                   { x with state := .measuring, trimResult := some r, offset := r.centre, trim := TrimUnit.idle
                            measureTimer := x.latched.map Latched.interval, gathered := Gathered.empty }) }))

/-- R45 to R51: the sweep, probe by probe, ends within 63 probes with the result that the contiguous passing run around the
set point gives, for every carrier: edges, centre and margin, or centre failed. The edges lie on their sides of the set
point within the reach, the margin is at most the reach, and the centre lies from -15 to +15. -/
def Obligations.SweepFindsThePassingRun : Prop :=
    (∀ (o : Options) (errors : Int → Nat),
       runSweep errors 63 (TrimUnit.begin o) = some (sweepSpec o (fun k => decide (min 255 (errors k) ≤ o.limit.toNat))))
  ∧ (∀ (o : Options) (pass : Int → Bool) (low high centre : Int) (margin : Nat),
       sweepSpec o pass = .edges low high centre margin →
         -(o.reach.size : Int) ≤ low ∧ low ≤ 0 ∧ 0 ≤ high ∧ high ≤ o.reach.size ∧ margin ≤ o.reach.size
           ∧ -15 ≤ centre ∧ centre ≤ 15)

/-- R28, R31: a reading taken in MEASURING or in a hold joins the sums, clamped; in any other state it is discarded. The
measure timer's expiry forms the truncated means of the readings gathered, enters READING and starts the collector empty
with the latched gap period (R73). -/
def Obligations.ReadingsFormTheMeasurement : Prop :=
    (∀ (l : Lane) (mer level : Int) (load : Fin 1001) (blocks : Nat) (s : State),
       let x := look s.plant.lanes l
       (x.state = .measuring ∨ x.state = .held →
         ∃ a b : Nat, (a : Int) = max 0 (min 400 mer) ∧ (b : Int) = max 20 (min 110 level)
           ∧ exec (.frontEndReading l mer level load blocks) s = .next
               { s with plant := (s.plant.setLane l
                   { x with gathered :=
                     { n := x.gathered.n + 1, mer := x.gathered.mer + a, level := x.gathered.level + b
                       load := x.gathered.load + load.val, blocks := min 65535 (x.gathered.blocks + blocks) } }) })
         ∧ (x.state ≠ .measuring → x.state ≠ .held → exec (.frontEndReading l mer level load blocks) s = .next s))
  ∧ (∀ (l : Lane) (s : State),
       let x := look s.plant.lanes l
       x.state = .measuring → x.measureTimer.isSome = true → 1 ≤ x.gathered.n →
         exec (.measureTimerExpiry l) s = .next
           { s with plant := (s.plant.setLane l
               { x with state := .reading, measureTimer := none, gathered := Gathered.empty
                        meas := some { level := x.gathered.level / x.gathered.n, mer := x.gathered.mer / x.gathered.n
                                       load := x.gathered.load / x.gathered.n, blocks := x.gathered.blocks }
                        collector := { collecting := true, ident := none, held := [], changes := 0
                                       gap := x.latched.bind Latched.gap } }) })

/-- R72, R74 to R77: what a section does to a lane in READING. One that fails the test, or is already held, changes
nothing. A first section fixes the identity, also on a WATCH visit to which the shortcut does not apply; where it
does, READING ends LIT, marked unchanged. A further number of the same identity is held, in section number order
(R80); the last missing one ends READING LIT, with every section from 0 to the last held, and hands on their entries
in section number order. A section of another identity restarts the collection at change count 0, and ends READING
UNSTABLE after that. Each section held restarts the gap timer. A roster of one section completes at once, as a version
change too, for which the shortcut is not tried again. -/
def Obligations.SectionsAreCollected : Prop :=
  ∀ (l : Lane) (c : CellRef) (x : LaneRec) (sec : Section) (s : State),
    look s.plant.lanes l = x → x.state = .reading → x.cell = some c →
      let id : SectionId := { net := sec.net, stream := sec.stream, version := sec.version, last := sec.last }
      let matched := x.cls = some .watch ∧ (look s.plant.cells c).state = .lit
        ∧ (look s.plant.cells c).roster = some { net := sec.net, stream := sec.stream, version := sec.version }
      (sec.net = 0 ∨ sec.last < sec.number → exec (.rosterSection l sec) s = .next s)
        ∧ (sec.net ≠ 0 → sec.number ≤ sec.last → x.collector.held = [] → ¬ matched → 0 < sec.last.val →
            exec (.rosterSection l sec) s = .next
              { s with plant := (s.plant.setLane l
                  { x with collector :=
                    { x.collector with
                      ident := some id, held := [(sec.number, sec.entries)], gap := x.latched.bind Latched.gap } }) })
        ∧ (sec.net ≠ 0 → sec.number ≤ sec.last → x.collector.held = [] → matched →
            ∃ t r, exec (.rosterSection l sec) s = .next t ∧ (look t.plant.lanes l).record = some r ∧ r.outcome = .lit
              ∧ r.roster = some { net := sec.net, stream := sec.stream, version := sec.version, held := 1
                                  expected := sec.last.val + 1, unchanged := true })
        ∧ (sec.net ≠ 0 → sec.number ≤ sec.last → x.collector.ident = some id → x.collector.held ≠ [] →
            (x.collector.has sec.number = true → exec (.rosterSection l sec) s = .next s)
            ∧ (∀ k : Fin 16, x.collector.has sec.number = false → k ≤ sec.last → k ≠ sec.number →
                x.collector.has k = false →
                ∃ held : List (Fin 16 × List Entry), exec (.rosterSection l sec) s = .next
                    { s with plant := (s.plant.setLane l
                        { x with collector :=
                          { x.collector with held := held, gap := x.latched.bind Latched.gap } }) }
                  ∧ (∀ e, e ∈ held ↔ e = (sec.number, sec.entries) ∨ e ∈ x.collector.held)
                  ∧ ((x.collector.held.map Prod.fst).Pairwise (· < ·) → (held.map Prod.fst).Pairwise (· < ·)))
            ∧ (CollectorRight x.collector → x.collector.has sec.number = false →
                (∀ k : Fin 16, k ≤ sec.last → k ≠ sec.number → x.collector.has k = true) →
                ∃ (t : State) (r : Record) (held : List (Fin 16 × List Entry)),
                  exec (.rosterSection l sec) s = .next t ∧ (look t.plant.lanes l).record = some r
                  ∧ r.outcome = .lit
                  ∧ r.roster = some { net := sec.net, stream := sec.stream, version := sec.version
                                      held := sec.last.val + 1, expected := sec.last.val + 1, unchanged := false }
                  ∧ handedOn s (.rosterSection l sec) = .complete id (held.map Prod.snd).flatten
                  ∧ held.map Prod.fst = (List.finRange 16).filter (fun k => decide (k ≤ sec.last))
                  ∧ ∀ e, e ∈ held ↔ e = (sec.number, sec.entries) ∨ e ∈ x.collector.held))
        ∧ (sec.net ≠ 0 → sec.number ≤ sec.last → x.collector.ident ≠ some id → x.collector.held ≠ [] →
            (x.collector.changes = 0 → 0 < sec.last.val →
              exec (.rosterSection l sec) s = .next
                { s with plant := (s.plant.setLane l
                    { x with collector :=
                      { x.collector with
                        ident := some id, held := [(sec.number, sec.entries)], changes := 1
                        gap := x.latched.bind Latched.gap } }) })
            ∧ (x.collector.changes ≠ 0 →
                ∃ t r, exec (.rosterSection l sec) s = .next t ∧ (look t.plant.lanes l).record = some r
                  ∧ r.outcome = .unstable))
        ∧ (sec.net ≠ 0 → sec.last = 0 → sec.number = 0 →
            (x.collector.held = [] ∧ ¬ matched)
              ∨ (x.collector.held ≠ [] ∧ x.collector.ident ≠ some id ∧ x.collector.changes = 0) →
            ∃ t r, exec (.rosterSection l sec) s = .next t ∧ (look t.plant.lanes l).record = some r ∧ r.outcome = .lit
              ∧ r.roster = some { net := sec.net, stream := sec.stream, version := sec.version, held := 1
                                  expected := 1, unchanged := false })

/-- R57 to R60: the visit score by its formula, from 0 to 1000. -/
def Obligations.VisitScoreFormula : Prop :=
  ∀ (m : Measurement) (mreq lvmin lvmax t : Nat),
    let a : Int := max 0 (min 500 (2 * ((m.mer : Int) - mreq)))
    let b : Int :=
      if m.level < lvmin then max 0 (200 - 20 * ((lvmin : Int) - m.level))
      else if lvmax < m.level then max 0 (200 - 10 * ((m.level : Int) - lvmax)) else 200
    let sum : Int := a + b + max 0 (200 - ((m.load / 5 : Nat) : Int)) + 5 * min t 20
    ((visitScore m mreq lvmin lvmax t : Int) =
        if m.blocks = 0 then sum else if m.blocks ≤ 3 then sum / 2 else if m.blocks ≤ 15 then sum / 4 else 0)
      ∧ visitScore m mreq lvmin lvmax t ≤ 1000

/-- R30 to R33, R57, R61 to R63: an event that ends a visit from READING scores the cell: the outcome and the time are
recorded, S is computed from the measurement and the settings in force, Q takes S outright or the rounded mean, the fail
count is 0, and the state is LIT or PARTIAL. Other cells, other lanes and everything outside the survey are as they were. -/
def Obligations.ScoredVisitEndUpdatesTheCell : Prop :=
  ∀ (i : Instr) (l : Lane) (o : VisitOutcome) (c : CellRef) (m : Measurement) (k : Fin 8) (s : State),
    naturalEnd s i = some (l, o) → (look s.plant.lanes l).state = .reading → (look s.plant.lanes l).cell = some c →
    (look s.plant.lanes l).meas = some m → (look s.plant.cells c).defn.profile = k.val →
      ∃ t, exec i s = .next t ∧ SameOutside s t ∧ OtherCellsKept s t c ∧ OtherLanesKept s t l ∧
        (let lane := look s.plant.lanes l
         let x := look s.plant.cells c
         let y := look t.plant.cells c
         let margin := (lane.trimResult.map TrimResult.margin).orElse (fun _ => x.margin)
         let score := visitScore m (look s.settings.profiles k) s.settings.policy.lvmin s.settings.policy.lvmax
           (margin.getD 0)
         y.defn = x.defn ∧ y.margin = margin ∧ y.lastScore = some score ∧ y.fails = 0 ∧ y.lastOutcome = some o
          ∧ y.lastTime = s.clock ∧ y.state = (if o = .lit then .lit else .part)
          ∧ (x.q = none ∨ x.state = .lost → y.q = some score)
          ∧ (∀ q, x.q = some q → x.state ≠ .lost → y.q = some ((3 * q + score + 2) / 4))
          ∧ ∃ r, (look t.plant.lanes l).record = some r ∧ r.lane = l ∧ r.cell = c ∧ r.outcome = o
              ∧ r.stop = s.clock ∧ r.lock = lane.lockNoted ∧ r.meas = some m ∧ r.trim = lane.trimResult
              ∧ r.score = some score)

/-- R26 to R28, R54, R64, R65: an event that ends a visit DARK or FADED: without a Q the cell becomes EMPTY; with one, Q is
halved, the fail count rises, and the lost limit decides between DARK and LOST. R30, R32, R38, R66: a visit that ends CUT
before READING, or FAULT, records its outcome and time on the cell and leaves its state, Q, scores, fail count, margin and
roster as they were. -/
def Obligations.VisitEndWithoutAScore : Prop :=
    (∀ (i : Instr) (l : Lane) (o : VisitOutcome) (c : CellRef) (s : State),
       naturalEnd s i = some (l, o) → o = .dark ∨ o = .faded → (look s.plant.lanes l).cell = some c →
         ∃ t, exec i s = .next t ∧ SameOutside s t ∧ OtherCellsKept s t c ∧ OtherLanesKept s t l ∧
           (let lane := look s.plant.lanes l
            let x := look s.plant.cells c
            let y := look t.plant.cells c
            y.defn = x.defn ∧ y.lastScore = x.lastScore ∧ y.lastOutcome = some o ∧ y.lastTime = s.clock
             ∧ y.roster = x.roster ∧ y.refused = x.refused
             ∧ y.margin = (lane.trimResult.map TrimResult.margin).orElse (fun _ => x.margin)
             ∧ (x.q = none → y.q = none ∧ y.state = .empty ∧ y.fails = x.fails ∧ y.due = none)
             ∧ (∀ q, x.q = some q → y.q = some (q / 2) ∧ y.fails = min 15 (x.fails + 1)
                 ∧ y.state = if s.settings.policy.lost ≤ y.fails then .lost else .dark)
             ∧ ∃ r, (look t.plant.lanes l).record = some r ∧ r.lane = l ∧ r.cell = c ∧ r.outcome = o
                 ∧ r.stop = s.clock ∧ r.lock = lane.lockNoted ∧ r.meas = lane.meas ∧ r.trim = lane.trimResult
                 ∧ r.score = none ∧ r.roster = none))
  ∧ (∀ (i : Instr) (l : Lane) (o : VisitOutcome) (c : CellRef) (s : State),
       ((naturalEnd s i = some (l, .cut) ∧ o = .cut ∧ (look s.plant.lanes l).state ≠ .reading)
         ∨ ∃ cause, i = .frontEndFault l cause ∧ o = .fault ∧ (look s.plant.lanes l).inVisit = true) →
       (look s.plant.lanes l).cell = some c →
         ∃ t, exec i s = .next t ∧ SameOutside s t ∧ OtherCellsKept s t c ∧ OtherLanesKept s t l ∧
           (let x := look s.plant.cells c
            let y := look t.plant.cells c
            y = { x with lastOutcome := some o, lastTime := s.clock, due := y.due, engaged := y.engaged }
             ∧ ∃ r, (look t.plant.lanes l).record = some r ∧ r.outcome = o ∧ r.cell = c ∧ r.stop = s.clock
                 ∧ r.score = none ∧ r.roster = none))

/-- R33, R34, R151: after an event that ends a visit of its own accord the lane holds when the visit's spot terms ask
for it and fewer other lanes are HELD than the hold limit; else it is IDLE with nothing of the visit but its record
and its threshold offset. The record's hold field says which. A hold begins with the live reading of R151: lock no
after DARK, FADED, CUT in TUNING and PARTIAL by lock loss, else yes; the means of the visit's measurement, absent
without one; no blocks. R139, R140, R145, R150, R154: the survey engine's part: the due time from the cell as it then
stands, a spot result and SPOT_DONE for a spot visit, STEP_HALT for a stepped lane, STOPPED when the last visit of a
draining survey ends. That the trim unit of the lane then holds no copied options and no mark is the model's choice
(log 31). -/
def Obligations.VisitEndAtTheLaneAndTheEngine : Prop :=
    (∀ (i : Instr) (l : Lane) (o : VisitOutcome) (c : CellRef) (s : State),
       naturalEnd s i = some (l, o) → (look s.plant.lanes l).cell = some c →
         ∃ t r, exec i s = .next t ∧ (look t.plant.lanes l).record = some r ∧
           (let x := look s.plant.lanes l
            let y := look t.plant.lanes l
            let others := ((List.finRange 8).filter (fun k => k != l && (look s.plant.lanes k).state == .held)).length
            y.offset = x.offset ∧ y.lockTimer = none ∧ y.dwellTimer = none ∧ y.measureTimer = none
             ∧ y.trim = TrimUnit.idle ∧ y.collector = Collector.idle ∧ y.start = none
             ∧ (∀ terms, x.terms = some terms → 0 < terms.hold → others < s.settings.watch.holdLimit →
                 r.hold = .taken ∧ y.state = .held ∧ y.cell = some c ∧ y.terms = some terms ∧ y.cls = x.cls
                   ∧ y.latched = x.latched ∧ y.holdExpiry = some (s.clock + BitVec.ofNat 32 terms.hold)
                   ∧ y.refreshTimer = x.latched.map Latched.interval
                   ∧ (∃ k : Bool, y.live = some { lock := k, level := x.meas.map Measurement.level
                                                  mer := x.meas.map Measurement.mer, load := x.meas.map Measurement.load
                                                  blocks := 0 }
                       ∧ (k = true ↔ o ≠ .dark ∧ o ≠ .faded ∧ ¬ (o = .cut ∧ x.state = .tuning) ∧ i ≠ .lockLoss l))
                   ∧ (look t.plant.cells c).engaged = (look s.plant.cells c).engaged)
             ∧ (∀ terms, x.terms = some terms → 0 < terms.hold → s.settings.watch.holdLimit ≤ others →
                 r.hold = .refused ∧ y.state = .idle)
             ∧ ((∀ terms ∈ x.terms, terms.hold = 0) → r.hold = .none ∧ y.state = .idle)
             ∧ (y.state = .idle → y.cell = none ∧ y.cls = none ∧ y.terms = none ∧ y.latched = none
                 ∧ y.holdExpiry = none ∧ y.live = none ∧ y.refreshTimer = none
                 ∧ (look t.plant.cells c).engaged = none)))
  ∧ (∀ (i : Instr) (l : Lane) (o : VisitOutcome) (c : CellRef) (s : State),
       naturalEnd s i = some (l, o) → (look s.plant.lanes l).cell = some c →
         ∃ t r, exec i s = .next t ∧ (look t.plant.lanes l).record = some r ∧
           WatchScheduled s t c ∧ SpotReported s t l c o ∧ EngineTakesEnds s t (fun k => k == l)
             ∧ r.outcome = o ∧ r.cell = c ∧ t.plant.survey.spots = s.plant.survey.spots)

/-- R31: a front-end report that reaches a lane outside the stage it concerns changes nothing. That a stage timer's
expiry, the dwell limit's and a hold's do so too is read from R31 (log 2). -/
def Obligations.ReportsOutsideTheirStageAreDiscarded : Prop :=
  ∀ (l : Lane) (s : State),
    let x := look s.plant.lanes l
    (x.state ≠ .tuning → exec (.lockTimerExpiry l) s = .next s)
      ∧ (x.inVisit = false → x.state ≠ .held → exec (.lockLoss l) s = .next s)
      ∧ (x.state = .tuning → exec (.lockLoss l) s = .next s)
      ∧ (x.state ≠ .measuring → exec (.measureTimerExpiry l) s = .next s)
      ∧ (∀ sec, x.state ≠ .reading → exec (.rosterSection l sec) s = .next s)
      ∧ (x.state ≠ .reading → exec (.gapTimerExpiry l) s = .next s)
      ∧ (x.inVisit = false → exec (.dwellLimitExpiry l) s = .next s)
      ∧ (x.state ≠ .held → exec (.holdRefreshExpiry l) s = .next s ∧ exec (.holdExpiry l) s = .next s)
      ∧ (∀ cause, x.state = .parked → exec (.frontEndFault l cause) s = .next s)

/-- R38: a fault report in every state but PARKED records the cause and the time, sets LANE_FAULT and leaves the lane FAULTED
with no engaged cell; a hold that it ends sets the cell's due time from the cell as it stands (R145), releases the
engagement and sets no HOLD_EXPIRED. R150: the end of a visit, FAULT, sets the cell's due time and releases it, leaves a
spot result and SPOT_DONE for a SPOT visit, takes the lane off the stepped set with STEP_HALT, and may end a draining
survey; the directory is as it was. -/
def Obligations.FrontEndFaultTakesTheLaneDown : Prop :=
  ∀ (l : Lane) (cause : LaneFaultCause) (s : State), LaneRight (look s.plant.lanes l) →
    (look s.plant.lanes l).state ≠ .parked →
      ∃ t, exec (.frontEndFault l cause) s = .next t ∧ SameOutside s t ∧ OtherLanesKept s t l
        ∧ (look t.plant.lanes l).state = .faulted ∧ (look t.plant.lanes l).fault = some (cause, s.clock)
        ∧ (look t.plant.lanes l).cell = none ∧ t.plant.notice.conds &&& 0x020#12 ≠ 0
        ∧ (∀ c, (look s.plant.lanes l).cell = some c → (look t.plant.cells c).engaged = none)
        ∧ (∀ c, (look s.plant.lanes l).state = .held → (look s.plant.lanes l).cell = some c →
            (look t.plant.cells c).due = dueTime s.settings s.clock s.plant.dir c (look s.plant.cells c))
        ∧ ((look s.plant.lanes l).state = .held → t.plant.notice.conds &&& 0x008#12 = s.plant.notice.conds &&& 0x008#12)
        ∧ t.plant.dir = s.plant.dir ∧ t.plant.survey.spots = s.plant.survey.spots
        ∧ EngineTakesEnds s t (fun k => k == l && (look s.plant.lanes l).inVisit)
        ∧ ((look s.plant.lanes l).inVisit = false → t.plant.survey.results = s.plant.survey.results)
        ∧ (∀ c, (look s.plant.lanes l).cell = some c → WatchScheduled s t c ∧ OtherCellsKept s t c)
        ∧ ((look s.plant.lanes l).cell = none → t.plant.cells = s.plant.cells)
        ∧ (∀ c, (look s.plant.lanes l).inVisit = true → (look s.plant.lanes l).cell = some c →
            SpotReported s t l c .fault ∧ ∃ r, (look t.plant.lanes l).record = some r ∧ r.outcome = .fault ∧ r.cell = c)

/-- R151: at each refresh of a hold the live reading is replaced: by the interval's means, with its blocks added, when
lock held throughout; with lock no and the means absent when it did not. Gathering begins anew. A loss of lock in a
hold changes only the live reading, and the interval no longer counts as locked. R152, R153: a hold ends at its expiry
with HOLD_EXPIRED and by Release Hold without; both free the lane, release the engagement and set the due time. Before
its expiry an expiry event changes nothing. Renew Hold moves the expiry only. Both requests are refused BAD_VALUE out
of range and WRONG_STATE on a lane that is not HELD. That the live lock follows a loss at once is the model's reading
(log 12), and so is that an expiry before its time changes nothing (log 2). An interval in which lock arrives but did
not stand at its beginning counts as not locked (log 12). -/
def Obligations.HoldsAreRefreshedRenewedAndEnded : Prop :=
    (∀ (l : Lane) (v : LiveReading) (s : State),
       let x := look s.plant.lanes l
       x.state = .held → x.refreshTimer.isSome = true → x.live = some v → 1 ≤ x.gathered.n →
         exec (.holdRefreshExpiry l) s = .next
           { s with plant := (s.plant.setLane l
               { x with
                 gathered := Gathered.empty, lockHeld := x.lockNow
                 live := some (if x.lockHeld then
                     { lock := true, level := some (x.gathered.level / x.gathered.n)
                       mer := some (x.gathered.mer / x.gathered.n), load := some (x.gathered.load / x.gathered.n)
                       blocks := min 65535 (v.blocks + x.gathered.blocks) }
                   else { lock := false, level := none, mer := none, load := none, blocks := v.blocks }) }) })
  ∧ (∀ (l : Lane) (v : LiveReading) (s : State),
       let x := look s.plant.lanes l
       x.state = .held → x.refreshTimer.isSome = true → x.live = some v → x.lockHeld = false →
         ∃ d : Nat, exec (.holdRefreshExpiry l) s = .next
           { s with
             draws := d
             plant := (s.plant.setLane l
               { x with
                 gathered := Gathered.empty, lockHeld := x.lockNow
                 live := some { lock := false, level := none, mer := none, load := none, blocks := v.blocks } }) })
  ∧ (∀ (f : Req) (b : Byte) (s : State), s.serves f →
       (∀ lo hi : Byte, f.payload = [b, lo, hi] →
           (8 ≤ b.toNat ∨ lo.toNat + 256 * hi.toNat = 0 ∨ 600 < lo.toNat + 256 * hi.toNat →
             exec (.renewHold f) s = .next (replied 0x31 f .badValue [] s))
           ∧ ∀ l : Lane, b.toNat = l.val → 1 ≤ lo.toNat + 256 * hi.toNat → lo.toNat + 256 * hi.toNat ≤ 600 →
               (look s.plant.lanes l).state ≠ .held →
               exec (.renewHold f) s = .next (replied 0x31 f .wrongState [] s))
         ∧ (f.payload = [b] →
             (8 ≤ b.toNat → exec (.releaseHold f) s = .next (replied 0x32 f .badValue [] s))
             ∧ ∀ l : Lane, b.toNat = l.val → (look s.plant.lanes l).state ≠ .held →
                 exec (.releaseHold f) s = .next (replied 0x32 f .wrongState [] s)))
  ∧ (∀ (l : Lane) (s : State),
       let x := look s.plant.lanes l
       x.state = .held →
         exec (.lockLoss l) s = .next
           { s with plant := (s.plant.setLane l
               { x with lockNow := false, lockHeld := false, live := x.live.map (fun r => { r with lock := false }) }) })
  ∧ (∀ (l : Lane) (c : CellRef) (e : Time) (s : State),
       (look s.plant.lanes l).state = .held → (look s.plant.lanes l).cell = some c →
       (look s.plant.lanes l).holdExpiry = some e →
         (s.clock.toNat < e.toNat → exec (.holdExpiry l) s = .next s)
           ∧ (∀ (f : Req) (b lo hi : Byte), s.serves f → f.payload = [b, lo, hi] → b.toNat = l.val →
               1 ≤ lo.toNat + 256 * hi.toNat → lo.toNat + 256 * hi.toNat ≤ 600 →
               ∃ n : Time, n = s.clock + BitVec.ofNat 32 (lo.toNat + 256 * hi.toNat)
                 ∧ exec (.renewHold f) s = .next
                     (replied 0x31 f .ok (b4 n.toNat)
                       { s with plant := (s.plant.setLane l { look s.plant.lanes l with holdExpiry := some n }) }))
           ∧ ∃ p : Plant,
               p = (s.plant.setLane l ((look s.plant.lanes l).leave .idle)).setCell c
                     { look s.plant.cells c with
                       engaged := none
                       due := dueTime s.settings s.clock s.plant.dir c (look s.plant.cells c) }
               ∧ (e.toNat ≤ s.clock.toNat →
                   exec (.holdExpiry l) s = .next { s with plant := { p with notice := p.notice.raise 0x008#12 } })
               ∧ (∀ (f : Req) (b : Byte), s.serves f → f.payload = [b] → b.toNat = l.val →
                   exec (.releaseHold f) s = .next (replied 0x32 f .ok [] { s with plant := p })))

/-! ## Rosters and admission (chapter 5) -/

/-- R81, R83: Set Admission replaces the settings as a whole, BAD_VALUE for a kind bit that names no kind (log 18); Read
Admission returns them. R82: when an entry is admitted. R84 step 1: the admitted set keeps the order of the roster, holds
each key at most once and no service number 0, and with the refused count accounts for every service number the roster
lists, each once: its first entry is in the set exactly when it is admitted, and is counted refused exactly when not.
That a repeat of a number refused before is skipped and not counted again is the model's reading
(log 13). -/
def Obligations.AdmissionOfServices : Prop :=
    (∀ (f : Req) (s : State), s.serves f →
       (f.payload.length = 17 → 8 ≤ byteAt f.payload 16 →
           exec (.setAdmission f) s = .next (replied 0x19 f .badValue [] s))
         ∧ (∀ a : Admission, f.payload = bAdmission a →
             exec (.setAdmission f) s = .next
               (replied 0x19 f .ok [] { s with settings := { s.settings with admission := a } }))
         ∧ (f.payload = [] → exec (.readAdmission f) s = .next (replied 0x1A f .ok (bAdmission s.settings.admission) s)))
  ∧ (∀ (a : Admission) (net : Half) (e : Entry),
       a.admits net e = true ↔
         ((∀ r ∈ a.ranges, r.first = 0 ∧ r.last = 0) ∧ net ≠ 0
             ∨ ∃ r ∈ a.ranges, (r.first ≠ 0 ∨ r.last ≠ 0) ∧ r.first.toNat ≤ net.toNat ∧ net.toNat ≤ r.last.toNat)
           ∧ (match e.kind with
               | .tv => a.tv = true
               | .radio => a.radio = true
               | .data => a.data = true))
  ∧ (∀ (a : Admission) (net : Half) (es : List Entry),
       let r := admitEntries a net [] es
       let firstOf := fun k => es.find? (fun e => e.service == k)
       r.1.Sublist es ∧ (r.1.map Entry.service).Nodup
         ∧ (∀ k e, k ≠ 0 → firstOf k = some e →
             (e ∈ r.1 ↔ a.admits net e = true) ∧ (a.admits net e = false → ∀ y ∈ r.1, y.service ≠ k))
         ∧ (∀ e ∈ r.1, firstOf e.service = some e)
         ∧ r.2 = (((es.map Entry.service).dedup).filter (fun k =>
             k != 0 && (firstOf k).any (fun e => !a.admits net e))).length
         ∧ (∀ e ∈ r.1, e.service ≠ 0 ∧ a.admits net e = true)
         ∧ r.1.length + r.2 = ((es.map Entry.service).filter (fun n => n != 0)).dedup.length)

/-- R84 to R87: a scored visit end hands its roster to the directory: a COMPLETE one first removes from the cell the
sightings of services it does not list or admission refuses, then each admitted entry is taken in turn; a PARTIAL one
removes none; an UNCHANGED one confirms the cell's sightings; nothing else changes the pool. R64, R68, R100, R114,
R120: the directory afterwards is what the evaluations of the visit end make of it: each service with a sighting on
the cell, and each that lost one in the work, is evaluated once, in slot order, a PROVISIONAL one only when it is
released; a DARK or FADED end that leaves the cell EMPTY first removes its sightings, and a CUT before READING
evaluates nothing. That a service without a chosen source may be released by a sighting lost in the work is the
model's reading (log 14). R85, R93 to R98: what one entry does: it confirms its service's sighting, or creates one
within the limits (a RETIRING service is revived, a new one takes the lowest FREE slot), after an eviction where the
limits ask for one, or it is dropped, with SIGHTING_DROPPED or DIRECTORY_FULL. After a COMPLETE roster every sighting
on the cell is of a service whose key the roster lists and admission admits, where the laws of the directory hold. -/
def Obligations.CompleteRosterReplacesTheSightings : Prop :=
    (∀ (i : Instr) (l : Lane) (o : VisitOutcome) (c : CellRef) (s : State),
       naturalEnd s i = some (l, o) → (look s.plant.lanes l).state = .reading → (look s.plant.lanes l).cell = some c →
         ∃ t, exec i s = .next t ∧
           (let x := look s.plant.cells c
            let y := look t.plant.cells c
            let w := processRoster s.settings s.clock c (handedOn s i) (Work.start (s.plant.setCell c
              { y with roster := x.roster, refused := x.refused, due := x.due, engaged := x.engaged }))
            let b := visitEvaluations { s.view with cells := t.plant.cells } c (x.state == .unseen && y.state != .unseen)
              s.plant.dir w.dir w.raised
            t.plant.dir.pool = w.dir.pool ∧ y.roster = (look w.cells c).roster
             ∧ y.refused = (look w.cells c).refused ∧ t.plant.notice.conds &&& w.raised = w.raised
             ∧ (DirectoryRight s.plant.cells s.plant.dir →
                 t.plant.dir = b.dir ∧ t.plant.notice.conds &&& b.raised = b.raised)
             ∧ ∀ n, (look t.plant.dir.slots n).key = (look w.dir.slots n).key
                 ∧ (look t.plant.dir.slots n).kind = (look w.dir.slots n).kind
                 ∧ (look t.plant.dir.slots n).name = (look w.dir.slots n).name
                 ∧ (look t.plant.dir.slots n).scrambled = (look w.dir.slots n).scrambled
                 ∧ (look t.plant.dir.slots n).created = (look w.dir.slots n).created
                 ∧ (look t.plant.dir.slots n).reported = (look w.dir.slots n).reported))
  ∧ (∀ (i : Instr) (l : Lane) (o : VisitOutcome) (c : CellRef) (s : State),
       naturalEnd s i = some (l, o) → (look s.plant.lanes l).state ≠ .reading → (look s.plant.lanes l).cell = some c →
         ∃ t, exec i s = .next t ∧
           (let x := look s.plant.cells c
            let y := look t.plant.cells c
            let after := if y.state = .empty then
                { s.plant.dir with pool := s.plant.dir.pool.filter (fun z => z.cell != c) }
              else s.plant.dir
            let b := visitEvaluations { s.view with cells := t.plant.cells } c (x.state == .unseen && y.state != .unseen)
              s.plant.dir after 0
            (o = .dark ∨ o = .faded → t.plant.dir = b.dir ∧ t.plant.notice.conds &&& b.raised = b.raised)
             ∧ (o = .cut → t.plant.dir = s.plant.dir)))
  ∧ (∀ (g : Settings) (now : Time) (c : CellRef) (i : SectionId) (es : List Entry) (w : Work),
       let adm := admitEntries g.admission i.net [] es
       let r : Reading := { cell := c, net := i.net, stream := i.stream, version := i.version, now := now }
       let counted := put w.cells c { look w.cells c with refused := min 255 ((look w.cells c).refused + adm.2) }
       let kept := w.dir.pool.filter (fun z => !(z.cell == c) || adm.1.any (fun e =>
         (look w.dir.slots z.slot).key == some { net := i.net, service := e.service }))
       let ends := fun (v u : Work) => u.dir = v.dir ∧ u.raised = v.raised
         ∧ u.cells = put v.cells c { look v.cells c with
             roster := some { net := i.net, stream := i.stream, version := i.version } }
       (∃ w1 : Work, w1.cells = counted ∧ w1.raised = w.raised ∧ w1.dir = { w.dir with pool := kept }
           ∧ ends (adm.1.foldl (takeEntry g r) w1) (processRoster g now c (.complete i es) w))
         ∧ ends (adm.1.foldl (takeEntry g r) { w with cells := counted }) (processRoster g now c (.part i es) w)
         ∧ processRoster g now c .none w = w
         ∧ processRoster g now c .unchanged w = { w with dir := { w.dir with pool := w.dir.pool.map (fun z =>
             if z.cell = c then
               { z with confirmed := now, version := (look w.cells c).roster.map RosterTag.version }
             else z) } })
  ∧ (∀ (g : Settings) (r : Reading) (e : Entry) (w : Work),
       let u := takeEntry g r w e
       let v : View := { cells := w.cells, feeds := g.feeds, policy := g.policy, now := r.now }
       let inUse := fun m : SlotNo => (look w.dir.slots m).state ≠ .free
         ∧ (look w.dir.slots m).key = some { net := r.net, service := e.service }
       let made := fun n : SlotNo => Sighting.mk n r.cell r.stream e.scrambled (some r.version) r.now r.now
       let joins := fun (n : SlotNo) (z : Slot) =>
         (limitsAnswer v w.dir n r.cell .room →
             u.dir = { w.dir with slots := put w.dir.slots n z, pool := w.dir.pool ++ [made n] }
               ∧ u.raised = w.raised ∧ u.cells = w.cells ∧ n ∈ u.marked)
         ∧ (∀ a, limitsAnswer v w.dir n r.cell (.evict a) →
             u.dir = { w.dir with
                 slots := put w.dir.slots n z
                 pool := w.dir.pool.filter (fun y => !(y.slot == a.slot && y.cell == a.cell)) ++ [made n] }
               ∧ u.raised = w.raised ∧ u.cells = w.cells ∧ n ∈ u.marked ∧ a.slot ∈ u.marked
               ∧ ((look w.dir.slots a.slot).state = .provisional → (look w.dir.slots a.slot).chosen = some a.cell →
                   a.slot ∈ u.release))
         ∧ (limitsAnswer v w.dir n r.cell .drop →
             u.dir = w.dir ∧ u.raised = w.raised ||| 0x080#12 ∧ u.cells = w.cells)
       (∀ n, inUse n → (∀ m, inUse m → m = n) →
         let x := look w.dir.slots n
         let named := { x with kind := some e.kind, name := e.name, scrambled := e.scrambled }
         (w.dir.holds n r.cell = true →
             u.dir = { w.dir with
                 slots := put w.dir.slots n named
                 pool := w.dir.pool.map (fun z => if z.slot = n ∧ z.cell = r.cell then
                   { z with stream := r.stream, scrambled := e.scrambled, version := some r.version
                            confirmed := r.now } else z) }
               ∧ u.raised = w.raised ∧ u.cells = w.cells)
           ∧ (w.dir.holds n r.cell = false →
               joins n (if x.state = .retiring then { named with state := .live, orphanSince := none } else named)))
         ∧ ((∀ m, ¬ inUse m) → ∀ n, look w.dir.slots n = Slot.empty → (∀ m, m < n → (look w.dir.slots m).state ≠ .free) →
             w.dir.sightings n = [] →
             joins n { Slot.empty with
               state := .live, key := some { net := r.net, service := e.service }, kind := some e.kind, name := e.name
               scrambled := e.scrambled, created := r.now, chosen := some r.cell, reason := some .newService })
         ∧ ((∀ m, ¬ inUse m) → (∀ m, (look w.dir.slots m).state ≠ .free) →
             u.dir = w.dir ∧ u.raised = w.raised ||| 0x040#12
               ∧ u.cells = put w.cells r.cell
                   { look w.cells r.cell with refused := min 255 ((look w.cells r.cell).refused + 1) }))
  ∧ (∀ (g : Settings) (now : Time) (c : CellRef) (i : SectionId) (es : List Entry) (p : Plant),
       DirectoryRight p.cells p.dir → (look p.cells c).state.rankable = true →
         let w := processRoster g now c (.complete i es) (Work.start p)
         (∀ x ∈ w.dir.pool, x.cell = c →
             ∃ e ∈ es, e.service ≠ 0 ∧ g.admission.admits i.net e = true
               ∧ (look w.dir.slots x.slot).key = some { net := i.net, service := e.service })
           ∧ (look w.cells c).roster = some { net := i.net, stream := i.stream, version := i.version }
           ∧ ∀ k, k ≠ c → look w.cells k = look p.cells k)

/-! ## The service directory and ranking (chapters 6 and 7) -/

/-- R106, R107: List Services and Read Service return what the directory holds and change nothing: List Services the
in-use slots from the first slot upward, each once, up to the count, with the slot after the last one scanned, absent
when the scan passed slot 511; a slot above 511 or a count outside 1 to 8 is BAD_VALUE. -/
def Obligations.DirectoryIsRead : Prop :=
  ∀ (f : Req) (lo hi : Byte) (s : State), s.serves f →
    (∀ n : Byte, f.payload = [lo, hi, n] →
        (512 ≤ lo.toNat + 256 * hi.toNat ∨ n.toNat = 0 ∨ 8 < n.toNat →
          exec (.listServices f) s = .next (replied 0x34 f .badValue [] s))
        ∧ (lo.toNat + 256 * hi.toNat < 512 → 1 ≤ n.toNat → n.toNat ≤ 8 →
          ∃ (found : List SlotNo) (after : Option SlotNo),
            exec (.listServices f) s = .next
              (replied 0x34 f .ok
                (b1 found.length ++ (found.map (fun k => bCompact s.plant.cells k (look s.plant.dir.slots k))).flatten
                  ++ b2 ((after.map Fin.val).getD 0xFFFF)
                  ++ b2 (s.plant.dir.slots.toList.countP (fun x => x.state != .free)) ++ b2 s.plant.dir.pool.length) s)
            ∧ found.length ≤ n.toNat
            ∧ (∀ k : SlotNo, k ∈ found ↔
                lo.toNat + 256 * hi.toNat ≤ k.val ∧ (look s.plant.dir.slots k).state ≠ .free
                  ∧ ∀ a ∈ after, k < a)
            ∧ found.Pairwise (· < ·)
            ∧ ∀ a, after = some a ↔ found.length = n.toNat ∧ ∃ k ∈ found.getLast?, a.val = k.val + 1))
      ∧ (f.payload = [lo, hi] →
        (512 ≤ lo.toNat + 256 * hi.toNat → exec (.readService f) s = .next (replied 0x35 f .badValue [] s))
        ∧ ∀ n : SlotNo, lo.toNat + 256 * hi.toNat = n.val →
            exec (.readService f) s = .next
              (replied 0x35 f .ok
                (bService s.plant.cells n (look s.plant.dir.slots n) (rankedOf s.view s.plant.dir n)) s))

/-- R102, R103, R104: Forget Service removes the service at once: its sightings go, and its slot is RETIRING while the
host is to hear of it, else FREE; the reply says which. A slot above 511 is BAD_VALUE, a FREE or RETIRING one
WRONG_STATE. Other services' slots and sightings are as they were. The forget check removes exactly the ORPHAN
services without a pin whose orphan-since time lies the forget time or more back, in slot order. R104, R128 to R130:
what each removal does to the slot and the queue: a NONE service that was reported is queued, or owed, as SERVICE_GONE;
an OWED one that was reported waits RETIRING; a QUEUED one's record becomes SERVICE_GONE in its place, or is removed,
the slot FREE, when its "from" was absent too; any other slot is FREE. -/
def Obligations.ServicesAreForgotten : Prop :=
    (∀ (f : Req) (lo hi : Byte) (s : State), s.serves f → f.payload = [lo, hi] → 512 ≤ lo.toNat + 256 * hi.toNat →
       exec (.forgetService f) s = .next (replied 0x36 f .badValue [] s))
  ∧ (∀ (f : Req) (lo hi : Byte) (n : SlotNo) (s : State), s.serves f → f.payload = [lo, hi] →
       lo.toNat + 256 * hi.toNat = n.val →
         let x := look s.plant.dir.slots n
         (x.state = .free ∨ x.state = .retiring → exec (.forgetService f) s = .next (replied 0x36 f .wrongState [] s))
           ∧ (x.state ≠ .free → x.state ≠ .retiring →
               ∃ t, exec (.forgetService f) s = .next
                   (replied 0x36 f .ok (b1 (look t.plant.dir.slots n).state.code) t)
                 ∧ SameOutside s t ∧ t.plant.cells = s.plant.cells ∧ t.plant.lanes = s.plant.lanes
                 ∧ (let b := removeService s.view n { dir := s.plant.dir, raised := 0 }
                    t.plant = { s.plant with dir := b.dir, notice := s.plant.notice.raise b.raised })
                 ∧ t.plant.dir.pool = s.plant.dir.pool.filter (fun g => g.slot != n)
                 ∧ (∀ k, k ≠ n → look t.plant.dir.slots k = look s.plant.dir.slots k)
                 ∧ ((look t.plant.dir.slots n).state = .retiring ∨ look t.plant.dir.slots n = Slot.empty)
                 ∧ (x.reported = none → x.advice ≠ .queued → look t.plant.dir.slots n = Slot.empty)
                 ∧ (∀ c, x.reported = some c → x.advice = .none →
                     (look t.plant.dir.slots n).state = .retiring ∧ (look t.plant.dir.slots n).chosen = none
                       ∧ (look t.plant.dir.slots n).reason = some .serviceGone)))
  ∧ (∀ s : State,
       ∃ t, exec .forgetCheck s = .next t ∧ SameOutside s t ∧ t.plant.cells = s.plant.cells
         ∧ t.plant.lanes = s.plant.lanes ∧ t.plant.survey = s.plant.survey
         ∧ ∀ n : SlotNo,
             let x := look s.plant.dir.slots n
             let y := look t.plant.dir.slots n
             let gone := x.state = .orphan ∧ x.pin = none
               ∧ ∃ at_, x.orphanSince = some at_ ∧ 60 * s.settings.policy.forget ≤ (s.clock - at_).toNat
             (gone → (y.state = .retiring ∨ y = Slot.empty) ∧ ∀ g ∈ t.plant.dir.pool, g.slot ≠ n)
               ∧ (¬ gone → y = x ∧ t.plant.dir.sightings n = s.plant.dir.sightings n))
  ∧ (∀ s : State,
       let gone := (List.finRange 512).filter (fun n =>
         let x := look s.plant.dir.slots n
         x.state == .orphan && x.pin == none
           && x.orphanSince.any (fun at_ => decide (60 * s.settings.policy.forget ≤ (s.clock - at_).toNat)))
       let b := gone.foldl (fun b n => removeService s.view n b) { dir := s.plant.dir, raised := 0 }
       exec .forgetCheck s = .next
         { s with plant := { s.plant with dir := b.dir, notice := s.plant.notice.raise b.raised } })
  ∧ (∀ (v : View) (n : SlotNo) (b : Books),
       let x := look b.dir.slots n
       let u := removeService v n b
       let y := look u.dir.slots n
       let gone := { x with
         state := .retiring, chosen := none, challenger := none, pin := none, suspended := false, orphanSince := none
         reason := some .serviceGone }
       u.dir.pool = b.dir.pool.filter (fun g => g.slot != n) ∧ u.dir.grace = b.dir.grace
         ∧ (∀ k, k ≠ n → look u.dir.slots k = look b.dir.slots k)
         ∧ (x.advice ≠ .queued → x.reported = none →
             y = Slot.empty ∧ u.dir.queue = b.dir.queue ∧ u.raised = b.raised)
         ∧ (∀ c, x.advice = .none → x.reported = some c → b.dir.queue.length < 64 →
             y = { gone with advice := .queued }
               ∧ u.dir.queue = b.dir.queue ++ [{ slot := n, key := x.key, origin := some c, target := none
                                                 reason := some .serviceGone, q := none }]
               ∧ u.raised = if b.dir.queue = [] then b.raised ||| 0x001#12 else b.raised)
         ∧ (∀ c, x.advice = .none → x.reported = some c → 64 ≤ b.dir.queue.length →
             y = { gone with advice := .owed } ∧ u.dir.queue = b.dir.queue ∧ u.raised = b.raised)
         ∧ (∀ c, x.advice = .owed → x.reported = some c →
             y = gone ∧ u.dir.queue = b.dir.queue ∧ u.raised = b.raised)
         ∧ (x.advice = .queued → (∃ a ∈ b.dir.queue, a.slot = n ∧ a.origin = none) →
             y = Slot.empty ∧ u.dir.queue = b.dir.queue.filter (fun a => a.slot != n) ∧ u.raised = b.raised)
         ∧ (x.advice = .queued → (∀ a ∈ b.dir.queue, a.slot = n → a.origin ≠ none) →
             y = gone ∧ u.raised = b.raised
               ∧ u.dir.queue = b.dir.queue.map (fun a =>
                   if a.slot = n then { a with target := none, reason := some .serviceGone, q := none } else a)))

/-- R56, R110: Set Ranking Policy is validated as a whole, replaces the policy, and evaluates nothing. R111: Read
Ranking Policy returns the policy, the recall grace and the number of PROVISIONAL slots. R144: Set Watch Policy is
validated as a whole; a hold limit of 0 removes the waiting entries that ask to hold, each with a result ABANDONED and
SPOT_DONE. Read Watch Policy returns the four values. The order of these results, the oldest entry's first, is the
model's choice (log 32). -/
def Obligations.PoliciesAreTakenWholeAndRead : Prop :=
    (∀ (f : Req) (s : State), s.serves f → f.payload.length = 8 →
       let p := f.payload
       let good := halfAt p 0 ≤ 500 ∧ 1 ≤ byteAt p 2 ∧ byteAt p 2 ≤ 8 ∧ 1 ≤ byteAt p 3 ∧ byteAt p 3 ≤ 15
         ∧ 1 ≤ halfAt p 4 ∧ halfAt p 4 ≤ 1440 ∧ 20 ≤ byteAt p 6 ∧ byteAt p 6 < byteAt p 7 ∧ byteAt p 7 ≤ 110
       (¬ good → exec (.setRankingPolicy f) s = .next (replied 0x37 f .badValue [] s))
         ∧ (good →
             exec (.setRankingPolicy f) s = .next
               (replied 0x37 f .ok []
                 { s with settings := { s.settings with
                   policy := { margin := halfAt p 0, confirm := byteAt p 2, lost := byteAt p 3, forget := halfAt p 4
                               lvmin := byteAt p 6, lvmax := byteAt p 7 } } })))
  ∧ (∀ (f : Req) (s : State), s.serves f → f.payload = [] →
       exec (.readRankingPolicy f) s = .next
         (replied 0x38 f .ok
           (b2 s.settings.policy.margin ++ b1 s.settings.policy.confirm ++ b1 s.settings.policy.lost
             ++ b2 s.settings.policy.forget ++ b1 s.settings.policy.lvmin ++ b1 s.settings.policy.lvmax
             ++ [if s.plant.dir.grace then 1 else 0]
             ++ b2 (s.plant.dir.slots.toList.countP (fun x => x.state == .provisional))) s))
  ∧ (∀ (f : Req) (s : State), s.serves f →
       (f.payload.length = 6 →
         let p := f.payload
         let good := 5 ≤ halfAt p 0 ∧ halfAt p 0 ≤ 600 ∧ 30 ≤ halfAt p 2 ∧ halfAt p 2 ≤ 3600 ∧ 1 ≤ byteAt p 4
           ∧ byteAt p 4 ≤ 15 ∧ byteAt p 5 ≤ 4
         (¬ good → exec (.setWatchPolicy f) s = .next (replied 0x2E f .badValue [] s))
           ∧ (good →
               ∃ t, exec (.setWatchPolicy f) s = .next (replied 0x2E f .ok [] t)
                 ∧ t.settings = { s.settings with
                     watch := { chosenInterval := halfAt p 0, watchInterval := halfAt p 2, share := byteAt p 4
                                holdLimit := byteAt p 5 } }
                 ∧ t.staging = s.staging ∧ t.link = s.link ∧ t.store = s.store ∧ t.clock = s.clock ∧ t.draws = s.draws
                 ∧ t.plant.cells = s.plant.cells ∧ t.plant.lanes = s.plant.lanes ∧ t.plant.dir = s.plant.dir
                 ∧ (byteAt p 5 ≠ 0 → t.plant = s.plant)
                 ∧ (byteAt p 5 = 0 →
                     let out := s.plant.survey.spots.filter (fun e => decide (0 < e.hold))
                     t.plant.survey.spots = s.plant.survey.spots.filter (fun e => decide (e.hold = 0))
                       ∧ (out = [] → t.plant.survey.results = s.plant.survey.results)
                       ∧ (out ≠ [] →
                           t.plant.notice.conds &&& 0x004#12 ≠ 0
                             ∧ t.plant.survey.results =
                                 (out.reverse.map (fun e =>
                                   SpotResult.mk e.ticket e.cell e.trim e.hold .abandoned s.clock none)
                                   ++ s.plant.survey.results).take 4))))
       ∧ (f.payload = [] →
           exec (.readWatchPolicy f) s = .next
             (replied 0x2F f .ok
               (b2 s.settings.watch.chosenInterval ++ b2 s.settings.watch.watchInterval ++ b1 s.settings.watch.share
                 ++ b1 s.settings.watch.holdLimit) s)))

/-- R112: rank order puts sightings on rankable cells first, then orders by Q, the feed's priority, and position; it keeps
every sighting, and a sighting never stands behind one that it outranks. -/
def Obligations.RankOrderFollowsItsKeys : Prop :=
  ∀ (v : View) (gs : List Sighting),
    (ranked v gs).Perm gs ∧ (ranked v gs).Pairwise (fun a b => rankLe v a.cell b.cell = true)
      ∧ ∀ a b : CellRef,
          (v.rankable a = true → v.rankable b = false → rankLe v a b = true ∧ rankLe v b a = false)
            ∧ (∀ p q : Nat, v.rankable a = v.rankable b → v.q a = some p → v.q b = some q → q < p →
                rankLe v a b = true ∧ rankLe v b a = false)
            ∧ (∀ p : Nat, v.rankable a = v.rankable b → v.q a = some p → v.q b = none →
                rankLe v a b = true ∧ rankLe v b a = false)
            ∧ (v.rankable a = v.rankable b → v.q a = v.q b →
                (look v.feeds (feedOf a)).priority < (look v.feeds (feedOf b)).priority →
                rankLe v a b = true ∧ rankLe v b a = false)
            ∧ (v.rankable a = v.rankable b → v.q a = v.q b →
                (look v.feeds (feedOf a)).priority = (look v.feeds (feedOf b)).priority → a < b →
                rankLe v a b = true ∧ rankLe v b a = false)

/-- R101, R113, R115 to R118: one evaluation of a LIVE or ORPHAN service, or of a released PROVISIONAL one: the judgement and
its orphan-since time; the pin when its cell is rankable, with its reason; else failover when the chosen source is lost;
else, with a pin suspended, no move, and with none, the challenger counted and the chosen source moved at the confirm
count; last the hand-off to the rule of divergence, which moves the advice state only. Other slots, the sightings and the
rest of the slot are as they were. -/
def Obligations.EvaluationMovesTheChosenSource : Prop :=
  ∀ (v : View) (rel : Bool) (n : SlotNo) (b : Books),
    let x := look b.dir.slots n
    let d := b.dir
    let e := evaluate v rel n b
    let y := look e.dir.slots n
    let stands := fun c : CellRef => d.holds n c = true ∧ v.rankable c = true
    (x.state = .live ∨ x.state = .orphan ∨ (x.state = .provisional ∧ rel = true)) →
      (e.dir.pool = d.pool ∧ (∀ k, k ≠ n → look e.dir.slots k = look d.slots k)
        ∧ y.key = x.key ∧ y.kind = x.kind ∧ y.name = x.name ∧ y.scrambled = x.scrambled ∧ y.reported = x.reported
        ∧ y.created = x.created
        ∧ (y.state = if (d.sightings n).any (fun g => v.rankable g.cell) then .live else .orphan)
        ∧ (y.state = .live → y.orphanSince = none)
        ∧ (y.state = .orphan → y.orphanSince = if x.state = .orphan then x.orphanSince else some v.now)
        ∧ (y.pin = x.pin.filter (fun c => d.holds n c)))
      ∧ (∃ z : Slot, z.advice = x.advice ∧ y = { z with advice := y.advice }
          ∧ e = diverge v n { b with dir := b.dir.setSlot n z })
      ∧ (∀ c, x.pin = some c → stands c →
          y.chosen = some c ∧ y.challenger = none ∧ y.suspended = false
            ∧ (x.chosen ≠ some c ∨ x.reason = none →
                y.reason = some (if x.suspended then .pinRestored else .pinApplied))
            ∧ (x.chosen = some c → x.reason ≠ none → y.reason = x.reason))
      ∧ (∀ c, x.pin = some c → d.holds n c = true → v.rankable c = false →
          y.suspended = true ∧ y.challenger = none
            ∧ ∀ k, x.chosen = some k → stands k → y.chosen = some k ∧ y.reason = x.reason)
      ∧ (∀ c, x.pin = some c → d.holds n c = false → y.suspended = false)
      ∧ (x.pin = none → y.suspended = x.suspended)
      ∧ ((∀ c ∈ x.pin, ¬ stands c) → (∀ c ∈ x.chosen, ¬ stands c) →
          y.chosen = topRankable v d n ∧ y.challenger = none
            ∧ y.reason = some (if (topRankable v d n).isSome then .failover else .noSource))
      ∧ (∀ c, (∀ p ∈ x.pin, d.holds n p = false) → (x.pin = none → x.suspended = false) → x.chosen = some c → stands c →
          ∃ top, topRankable v d n = some top
            ∧ (top = c ∨ (v.q top).getD 0 < (v.q c).getD 0 + v.policy.margin →
                y.chosen = some c ∧ y.reason = x.reason ∧ y.challenger = none)
            ∧ (top ≠ c → (v.q c).getD 0 + v.policy.margin ≤ (v.q top).getD 0 →
                let k := match x.challenger with
                  | some (h, j) => if h = top ∧ d.holds n h = true then j + 1 else 1
                  | none => 1
                (v.policy.confirm ≤ k →
                    y.chosen = some top ∧ y.reason = some .improvement ∧ y.challenger = none)
                ∧ (k < v.policy.confirm → y.chosen = some c ∧ y.reason = x.reason ∧ y.challenger = some (top, k))))

/-- R121: Pin Source on a sighting whose cell is rankable makes it the pin and the chosen source; the reply carries the chosen
source and whether the request changed it. Refused BAD_VALUE without a sighting there, WRONG_STATE when the cell is not
rankable. Stated where the laws of the directory hold. R122: Unpin removes the pin and its flag and evaluates the service,
releasing a PROVISIONAL one; FREE and RETIRING slots are WRONG_STATE. Unpinning moves no standing chosen source by itself:
another top-ranked sighting must be ahead by the margin, and is counted from this evaluation. A slot, feed or cell out of
range is BAD_VALUE in both. The presence mark before the chosen source in both replies is the model's (log 17). -/
def Obligations.PinsAreSetAndRemoved : Prop :=
    (∀ (f : Req) (s : State), s.serves f →
       (f.payload.length = 4 → 512 ≤ halfAt f.payload 0 ∨ 6 ≤ byteAt f.payload 2 ∨ 96 ≤ byteAt f.payload 3 →
           exec (.pinSource f) s = .next (replied 0x39 f .badValue [] s))
         ∧ (f.payload.length = 2 → 512 ≤ halfAt f.payload 0 →
             exec (.unpin f) s = .next (replied 0x3A f .badValue [] s)))
  ∧ (∀ (f : Req) (n : SlotNo) (c : CellRef) (s : State), DirectoryRight s.plant.cells s.plant.dir → s.serves f →
       f.payload = b2 n.val ++ bCell c →
         (s.plant.dir.holds n c = false → exec (.pinSource f) s = .next (replied 0x39 f .badValue [] s))
           ∧ (s.plant.dir.holds n c = true → (look s.plant.cells c).state.rankable = false →
               exec (.pinSource f) s = .next (replied 0x39 f .wrongState [] s))
           ∧ (s.plant.dir.holds n c = true → (look s.plant.cells c).state.rankable = true →
               ∃ t, exec (.pinSource f) s = .next
                   (replied 0x39 f .ok
                     ([1#8] ++ bCell c ++ [if (look s.plant.dir.slots n).chosen = some c then 0#8 else 1#8]) t)
                 ∧ SameOutside s t ∧ t.plant.cells = s.plant.cells ∧ t.plant.lanes = s.plant.lanes
                 ∧ t.plant.dir.pool = s.plant.dir.pool
                 ∧ (∀ k, k ≠ n → look t.plant.dir.slots k = look s.plant.dir.slots k)
                 ∧ (let x := look s.plant.dir.slots n
                    let y := look t.plant.dir.slots n
                    y.pin = some c ∧ y.suspended = false ∧ y.chosen = some c ∧ y.challenger = none ∧ y.state = .live
                     ∧ (x.chosen ≠ some c → y.reason = some .pinApplied))))
  ∧ (∀ (f : Req) (lo hi : Byte) (n : SlotNo) (s : State), s.serves f → f.payload = [lo, hi] →
       lo.toNat + 256 * hi.toNat = n.val →
         let x := look s.plant.dir.slots n
         (x.state = .free ∨ x.state = .retiring → exec (.unpin f) s = .next (replied 0x3A f .wrongState [] s))
           ∧ (x.state ≠ .free → x.state ≠ .retiring →
               ∃ t, exec (.unpin f) s = .next
                   (replied 0x3A f .ok
                     ([if (look t.plant.dir.slots n).chosen.isSome then 1#8 else 0#8]
                       ++ bCell? (look t.plant.dir.slots n).chosen) t)
                 ∧ SameOutside s t ∧ t.plant.cells = s.plant.cells ∧ t.plant.lanes = s.plant.lanes
                 ∧ t.plant.dir.pool = s.plant.dir.pool
                 ∧ (∀ k, k ≠ n → look t.plant.dir.slots k = look s.plant.dir.slots k)
                 ∧ (look t.plant.dir.slots n).pin = none ∧ (look t.plant.dir.slots n).suspended = false
                 ∧ ((look t.plant.dir.slots n).state = .live ∨ (look t.plant.dir.slots n).state = .orphan)
                 ∧ (∀ c, x.chosen = some c → s.plant.dir.holds n c = true →
                     (look s.plant.cells c).state.rankable = true →
                     let y := look t.plant.dir.slots n
                     (topRankable s.view s.plant.dir n = some c → y.chosen = some c ∧ y.challenger = none)
                     ∧ ∀ top, topRankable s.view s.plant.dir n = some top → top ≠ c →
                         ((s.view.q top).getD 0 < (s.view.q c).getD 0 + s.settings.policy.margin →
                           y.chosen = some c ∧ y.challenger = none ∧ y.reason = x.reason)
                         ∧ ((s.view.q c).getD 0 + s.settings.policy.margin ≤ (s.view.q top).getD 0 →
                           x.challenger = none →
                           (s.settings.policy.confirm ≤ 1 →
                             y.chosen = some top ∧ y.reason = some .improvement ∧ y.challenger = none)
                           ∧ (1 < s.settings.policy.confirm →
                             y.chosen = some c ∧ y.reason = x.reason ∧ y.challenger = some (top, 1))))))

/-! ## The advice queue (chapter 8) -/

/-- R127 to R130, R132: the rule of divergence on one slot, in its three cases. -/
def Obligations.DivergenceRule : Prop :=
  ∀ (v : View) (n : SlotNo) (b : Books),
    let x := look b.dir.slots n
    let e := diverge v n b
    let y := look e.dir.slots n
    (x.chosen = x.reported → x.advice = .none → e = b)
      ∧ (x.chosen ≠ x.reported → x.advice = .none → b.dir.queue.length < 64 →
          y = { x with advice := .queued }
            ∧ e.dir.queue = b.dir.queue ++ [{ slot := n, key := x.key, origin := x.reported, target := x.chosen
                                              reason := x.reason, q := x.chosen.bind v.q }]
            ∧ e.raised = if b.dir.queue = [] then b.raised ||| 0x001#12 else b.raised)
      ∧ (x.chosen ≠ x.reported → x.advice = .none → 64 ≤ b.dir.queue.length →
          y = { x with advice := .owed } ∧ e.dir.queue = b.dir.queue ∧ e.raised = b.raised)
      ∧ (x.advice = .queued → (∀ a ∈ b.dir.queue, a.slot = n → a.origin = x.reported) →
          (∃ a ∈ b.dir.queue, a.slot = n) → e.raised = b.raised ∧
          (x.chosen = x.reported →
            e.dir.queue = b.dir.queue.filter (fun a => a.slot != n)
              ∧ (x.state = .retiring → y = Slot.empty) ∧ (x.state ≠ .retiring → y = { x with advice := .none }))
          ∧ (x.chosen ≠ x.reported →
            y = x ∧ e.dir.queue = b.dir.queue.map (fun a =>
              if a.slot = n then { a with target := x.chosen, reason := x.reason, q := x.chosen.bind v.q } else a)))
      ∧ (x.advice = .owed → e.dir.queue = b.dir.queue ∧ e.raised = b.raised ∧
          (x.chosen ≠ x.reported → y = x)
          ∧ (x.chosen = x.reported → (x.state = .retiring → y = Slot.empty)
              ∧ (x.state ≠ .retiring → y = { x with advice := .none })))
      ∧ e.dir.pool = b.dir.pool ∧ ∀ k, k ≠ n → look e.dir.slots k = look b.dir.slots k

/-- R133, R134: Take Advice returns the oldest records, reports each to its slot, frees RETIRING ones, and fills the places
from the OWED slots in ascending slot order, each with the record its slot then gives; an append to the emptied queue sets
ADVICE_READY (R132). The reply carries the records, and counts what is then held and owed; that a byte with the number of
records precedes them is the model's choice, for R133 and R134 list no such byte (log 17). A count outside 1 to 8 is
BAD_VALUE. Stated where the laws of the directory hold. -/
def Obligations.TakeAdviceReportsTheOldest : Prop :=
  ∀ (f : Req) (b : Byte) (s : State), DirectoryRight s.plant.cells s.plant.dir → s.serves f → f.payload = [b] →
    (b.toNat = 0 ∨ 8 < b.toNat → exec (.takeAdvice f) s = .next (replied 0x3B f .badValue [] s))
      ∧ (1 ≤ b.toNat → b.toNat ≤ 8 →
          let taken := s.plant.dir.queue.take b.toNat
          ∃ t more, exec (.takeAdvice f) s = .next
              (replied 0x3B f .ok
                (b1 taken.length ++ (taken.map bAdvice).flatten ++ b1 t.plant.dir.queue.length
                  ++ b2 (t.plant.dir.slots.toList.countP (fun x => x.advice == .owed))) t)
            ∧ SameOutside s t ∧ t.plant.cells = s.plant.cells ∧ t.plant.lanes = s.plant.lanes
            ∧ t.plant.dir.pool = s.plant.dir.pool
            ∧ t.plant.dir.queue = s.plant.dir.queue.drop b.toNat ++ more
            ∧ more = (((List.finRange 512).filter (fun n => (look s.plant.dir.slots n).advice == .owed)).take
                  (64 - (s.plant.dir.queue.drop b.toNat).length)).map (fun n =>
                let x := look s.plant.dir.slots n
                Advice.mk n x.key x.reported x.chosen x.reason (x.chosen.bind s.view.q))
            ∧ (∀ n, (look s.plant.dir.slots n).advice = .owed →
                look t.plant.dir.slots n =
                  if n ∈ more.map Advice.slot then { look s.plant.dir.slots n with advice := .queued }
                  else look s.plant.dir.slots n)
            ∧ t.plant.notice = s.plant.notice.raise
                (if s.plant.dir.queue.drop b.toNat = [] ∧ more ≠ [] then 0x001#12 else 0)
            ∧ (t.plant.dir.queue.length < 64 → ∀ n, (look t.plant.dir.slots n).advice ≠ .owed)
            ∧ (∀ a ∈ taken,
                (look s.plant.dir.slots a.slot).state = .retiring ∧ look t.plant.dir.slots a.slot = Slot.empty
                ∨ (look s.plant.dir.slots a.slot).state ≠ .retiring
                  ∧ look t.plant.dir.slots a.slot =
                      { look s.plant.dir.slots a.slot with reported := a.target, advice := .none })
            ∧ ∀ n, (look t.plant.dir.slots n).chosen = (look s.plant.dir.slots n).chosen
                ∧ (look t.plant.dir.slots n).pin = (look s.plant.dir.slots n).pin)

/-! ## The survey engine (chapter 9) -/

/-- R138, R139, R140, R141: the requests that move the survey state and its modes. -/
def Obligations.SurveyStateRequests : Prop :=
  ∀ (f : Req) (s : State), s.serves f →
    let v := s.plant.survey
    let busy := s.plant.lanes.toList.any (fun x => x.inVisit && x.cls != some .spot)
    (f.payload = [] →
      exec (.startSurvey f) s = .next
          (replied 0x28 f .ok [1] { s with plant := { s.plant with survey := { v with state := .running } } })
      ∧ ((v.state = .running ∨ v.state = .paused) → busy = true →
          exec (.haltSurvey f) s = .next
            (replied 0x29 f .ok [3] { s with plant := { s.plant with survey := { v with state := .draining } } }))
      ∧ ((v.state = .running ∨ v.state = .paused) → busy = false →
          exec (.haltSurvey f) s = .next
            (replied 0x29 f .ok [0] { s with plant := { s.plant with survey := { v with state := .stopped } } }))
      ∧ ((v.state = .stopped ∨ v.state = .draining) →
          exec (.haltSurvey f) s = .next (replied 0x29 f .ok (b1 v.state.code) s))
      ∧ (v.state = .paused →
          exec (.continueSurvey f) s = .next
            (replied 0x2B f .ok [] { s with plant := { s.plant with survey := { v with state := .running } } }))
      ∧ (v.state ≠ .paused → exec (.continueSurvey f) s = .next (replied 0x2B f .wrongState [] s)))
    ∧ (∀ a b : Byte, f.payload = [a, b] →
        (∀ st au : Bool, a = (if st then 1 else 0) → b = (if au then 1 else 0) →
          exec (.setSurveyMode f) s = .next
            (replied 0x2A f .ok []
              { s with plant := { s.plant with survey := { v with stepMode := st, autoResume := au } } }))
        ∧ (2 ≤ a.toNat ∨ 2 ≤ b.toNat → exec (.setSurveyMode f) s = .next (replied 0x2A f .badValue [] s)))

/-- R156: Clear Survey. -/
def Obligations.ClearSurveyStartsOver : Prop :=
  ∀ (f : Req) (s : State), s.serves f → f.payload = [] →
    ∃ t, exec (.clearSurvey f) s = .next (replied 0x2C f .ok [] t) ∧ SameOutside s t
      ∧ t.plant.notice = s.plant.notice
      ∧ t.plant.dir = { slots := Vector.replicate 512 Slot.empty, pool := [], queue := [], grace := false }
      ∧ t.plant.survey =
          { s.plant.survey with
            state := .stopped, stepped := 0, passes := 0, share := 0, cursor := 0, spots := [], results := [] }
      ∧ (∀ l, let x := look s.plant.lanes l
              let y := look t.plant.lanes l
              (x.inVisit = true ∨ x.state = .held → y.state = .idle ∧ y.cell = none)
                ∧ (x.inVisit = false → x.state ≠ .held → y = x)
                ∧ (∀ c, x.inVisit = true → x.cell = some c → ∃ r, y.record = some r ∧ r.outcome = .abandoned
                    ∧ r.cell = c ∧ r.score = none ∧ r.hold = .none))
      ∧ ∀ c, let x := look s.plant.cells c
             let y := look t.plant.cells c
             (y.defn = x.defn ∧ y.lastScore = x.lastScore ∧ y.margin = x.margin ∧ y.refused = x.refused)
              ∧ (x.state ≠ .vacant → x.state ≠ .barred →
                  y.state = .unseen ∧ y.q = none ∧ y.fails = 0 ∧ y.roster = none ∧ y.due = none ∧ y.engaged = none)
              ∧ (x.state = .vacant ∨ x.state = .barred → y.state = x.state ∧ y.q = x.q ∧ y.engaged = x.engaged)
              ∧ ((∃ l, (look s.plant.lanes l).inVisit = true ∧ (look s.plant.lanes l).cell = some c) →
                  y.lastOutcome = some .abandoned ∧ y.lastTime = s.clock)
              ∧ ((∀ l, (look s.plant.lanes l).inVisit = true → (look s.plant.lanes l).cell ≠ some c) →
                  y.lastOutcome = x.lastOutcome ∧ y.lastTime = x.lastTime)

/-- R142: Spot Measure, checked in order (a feed, cell, trim choice or hold seconds out of range is BAD_VALUE, then a
VACANT or BARRED cell, then WRONG_STATE, then FULL), appends an entry with the next ticket. -/
def Obligations.SpotMeasureQueuesASpot : Prop :=
    (∀ (f : Req) (s : State), s.serves f → f.payload.length = 5 →
       6 ≤ byteAt f.payload 0 ∨ 96 ≤ byteAt f.payload 1 ∨ 2 ≤ byteAt f.payload 2 ∨ 600 < halfAt f.payload 3 →
         exec (.spotMeasure f) s = .next (replied 0x30 f .badValue [] s))
  ∧ ∀ (f : Req) (c : CellRef) (tr : Bool) (lo hi : Byte) (s : State), s.serves f →
    f.payload = bCell c ++ [if tr then 1 else 0, lo, hi] →
      let hold := lo.toNat + 256 * hi.toNat
      let v := s.plant.survey
      let k := (look s.plant.cells c).state
      (600 < hold ∨ k = .vacant ∨ k = .barred → exec (.spotMeasure f) s = .next (replied 0x30 f .badValue [] s))
        ∧ (hold ≤ 600 → k ≠ .vacant → k ≠ .barred → 0 < hold → s.settings.watch.holdLimit = 0 →
            exec (.spotMeasure f) s = .next (replied 0x30 f .wrongState [] s))
        ∧ (hold ≤ 600 → k ≠ .vacant → k ≠ .barred → hold = 0 ∨ 0 < s.settings.watch.holdLimit → 4 ≤ v.spots.length →
            exec (.spotMeasure f) s = .next (replied 0x30 f .full [] s))
        ∧ (hold ≤ 600 → k ≠ .vacant → k ≠ .barred → hold = 0 ∨ 0 < s.settings.watch.holdLimit → v.spots.length < 4 →
            exec (.spotMeasure f) s = .next
              (replied 0x30 f .ok ([v.ticket] ++ b1 (v.spots.length + 1))
                { s with plant := { s.plant with survey := { v with
                    spots := v.spots ++ [{ ticket := v.ticket, cell := c, trim := tr, hold := hold }]
                    ticket := v.ticket + 1 } } }))

/-- R18, R43, R154, R155: the reads of a cell, of a lane, of the spot results and of the survey change nothing and return what
stands. The order of the fields in a layout that the reference leaves to its rules is the model's reading, and so are the
edge bytes of a record whose sweep ended "centre failed" and the number that precedes a list of spot entries or spot results
(log 17). -/
def Obligations.LanesCellsAndSurveyAreRead : Prop :=
    (∀ (f : Req) (a b : Byte) (s : State), s.serves f → f.payload = [a, b] →
       (6 ≤ a.toNat ∨ 96 ≤ b.toNat → exec (.readCell f) s = .next (replied 0x18 f .badValue [] s))
         ∧ ∀ c : CellRef, a.toNat = (feedOf c).val → b.toNat = (indexOf c).val →
             exec (.readCell f) s = .next
               (replied 0x18 f .ok
                 (bCellRecord c (look s.plant.cells c) (s.plant.dir.pool.countP (fun g => g.cell == c))) s))
  ∧ (∀ (f : Req) (s : State), s.serves f →
       (∀ (b : Byte) (l : Lane), f.payload = [b] → b.toNat = l.val →
           exec (.readLane f) s = .next (replied 0x25 f .ok (bLane (look s.plant.lanes l)) s))
         ∧ (∀ b : Byte, f.payload = [b] → 8 ≤ b.toNat → exec (.readLane f) s = .next (replied 0x25 f .badValue [] s))
         ∧ (f.payload = [] →
             exec (.readSpotResults f) s = .next (replied 0x33 f .ok (bSpotResults s.plant.survey.results) s)
             ∧ exec (.readSurvey f) s = .next (replied 0x2D f .ok (bSurvey s.plant s.clock) s)))

/-- R147 to R149: one grant. With no lane IDLE there is none; else the lowest IDLE lane takes the oldest grantable
spot, or, while the survey runs, the due watch cell or the sweep's cell by the share counter (Figure 9.1). R140: in
step mode a watch or sweep grant pauses the survey and marks the lane stepped. R119, R146: a sweep grant that
completes a pass counts it, sets SWEEP_DONE, and ends the recall grace, releasing and evaluating every PROVISIONAL
service in slot order. R149 step 1: a spot entry may be granted when its cell is not engaged and it asks for no hold or
fewer lanes are HELD than the limit. R146: a position may be granted to the sweep when its cell is neither VACANT,
BARRED nor engaged; the cursor's positions run in order and return to A-0. R22, R25: what a lane is given at a grant. R145: that a cell becomes due changes nothing by
itself (log 21). -/
def Obligations.GrantFollowsTheArbiter : Prop :=
    (∀ s : State,
       let p := s.plant
       let sweep := (List.range 576).find? (fun k => sweepGrantable p (ahead p.survey.cursor k))
       (idleLane p.lanes = none → exec .grant s = .next s)
         ∧ ∀ l : Lane, idleLane p.lanes = some l →
           (look p.lanes l).state = .idle ∧ (∀ k, k < l → (look p.lanes k).state ≠ .idle)
           ∧ (∀ e, p.survey.spots.find? (spotGrantable s.settings p) = some e →
               ∃ t, exec .grant s = .next t ∧ SameOutside s t ∧ OtherCellsKept s t e.cell ∧ OtherLanesKept s t l
                 ∧ look t.plant.lanes l = (look p.lanes l).granted s.settings s.clock e.cell .spot
                     (some { trim := e.trim, hold := e.hold, ticket := e.ticket })
                 ∧ look t.plant.cells e.cell = { look p.cells e.cell with engaged := some l }
                 ∧ t.plant.survey = { p.survey with spots := p.survey.spots.erase e }
                 ∧ t.plant.dir = p.dir ∧ t.plant.notice = p.notice)
           ∧ (p.survey.spots.find? (spotGrantable s.settings p) = none →
               (p.survey.state ≠ .running → exec .grant s = .next s)
               ∧ (p.survey.state = .running → watchOffer s.clock p = none → sweep = none → exec .grant s = .next s)
               ∧ (∀ c, p.survey.state = .running → watchOffer s.clock p = some c →
                   p.survey.share < s.settings.watch.share ∨ sweep = none →
                   ∃ t, exec .grant s = .next t ∧ SameOutside s t ∧ OtherCellsKept s t c ∧ OtherLanesKept s t l
                     ∧ look t.plant.lanes l = (look p.lanes l).granted s.settings s.clock c .watch none
                     ∧ look t.plant.cells c = { look p.cells c with engaged := some l }
                     ∧ t.plant.survey.share = min 15 (p.survey.share + 1) ∧ t.plant.survey.cursor = p.survey.cursor
                     ∧ t.plant.survey.state = (if p.survey.stepMode then .paused else .running)
                     ∧ t.plant.survey.stepped =
                         (if p.survey.stepMode then p.survey.stepped ||| laneBit l else p.survey.stepped)
                     ∧ t.plant.dir = p.dir ∧ t.plant.notice = p.notice)
               ∧ (∀ k, p.survey.state = .running → sweep = some k →
                   s.settings.watch.share ≤ p.survey.share ∨ watchOffer s.clock p = none →
                   ∃ t, exec .grant s = .next t ∧ SameOutside s t ∧ OtherCellsKept s t (ahead p.survey.cursor k)
                     ∧ OtherLanesKept s t l
                     ∧ look t.plant.lanes l =
                         (look p.lanes l).granted s.settings s.clock (ahead p.survey.cursor k) .sweep none
                     ∧ look t.plant.cells (ahead p.survey.cursor k) =
                         { look p.cells (ahead p.survey.cursor k) with engaged := some l }
                     ∧ t.plant.survey.share = 0 ∧ t.plant.survey.cursor = ahead p.survey.cursor (k + 1)
                     ∧ t.plant.survey.state = (if p.survey.stepMode then .paused else .running)
                     ∧ t.plant.survey.stepped =
                         (if p.survey.stepMode then p.survey.stepped ||| laneBit l else p.survey.stepped)
                     ∧ (p.survey.cursor.val + k + 1 < 576 →
                         t.plant.survey.passes = p.survey.passes ∧ t.plant.dir = p.dir ∧ t.plant.notice = p.notice)
                     ∧ (576 ≤ p.survey.cursor.val + k + 1 →
                         t.plant.survey.passes = p.survey.passes + 1 ∧ t.plant.notice.conds &&& 0x002#12 ≠ 0
                           ∧ t.plant.dir.grace = false
                           ∧ (p.dir.grace = false → t.plant.dir = p.dir)
                           ∧ (p.dir.grace = true →
                               let freed := (List.finRange 512).filter
                                 (fun n => (look p.dir.slots n).state == .provisional)
                               let b := freed.foldl (fun b n => evaluate { s.view with cells := t.plant.cells } true n b)
                                 { dir := { p.dir with grace := false }, raised := 0x002#12 }
                               t.plant.dir = b.dir ∧ t.plant.notice = p.notice.raise b.raised
                                 ∧ (∀ n ∉ freed, look t.plant.dir.slots n = look p.dir.slots n)
                                 ∧ ∀ n ∈ freed, (look t.plant.dir.slots n).state = .live
                                     ∨ (look t.plant.dir.slots n).state = .orphan)))))
  ∧ (∀ (x : LaneRec) (g : Settings) (now : Time) (c : CellRef) (k : VisitClass) (terms : Option SpotTerms),
       let y := x.granted g now c k terms
       y.state = .tuning ∧ y.cell = some c ∧ y.cls = some k ∧ y.terms = terms ∧ y.start = some now ∧ y.offset = 0
         ∧ y.latched = some { lock := 2 ^ (g.timers.lock - 1)
                              gap := if g.timers.gap = 0 then none else some (2 ^ (g.timers.gap - 1))
                              dwell := 2 ^ (g.timers.dwell - 1), interval := g.timers.interval }
         ∧ y.lockTimer = some (2 ^ (g.timers.lock - 1)) ∧ y.dwellTimer = some (2 ^ (g.timers.dwell - 1))
         ∧ y.measureTimer = none ∧ y.lockNoted = false ∧ y.meas = none ∧ y.trimResult = none
         ∧ y.options = x.options ∧ y.record = x.record ∧ y.fault = x.fault)
  ∧ (∀ (g : Settings) (p : Plant) (e : SpotEntry),
       spotGrantable g p e = true ↔
         (look p.cells e.cell).engaged = none
           ∧ (e.hold = 0
             ∨ ((List.finRange 8).filter (fun l => (look p.lanes l).state == .held)).length < g.watch.holdLimit))
  ∧ (∀ (p : Plant) (c : CellRef),
       sweepGrantable p c = true ↔
         (look p.cells c).state ≠ .vacant ∧ (look p.cells c).state ≠ .barred ∧ (look p.cells c).engaged = none)
  ∧ (∀ (c : CellRef) (k : Nat), (ahead c k).val = (c.val + k) % 576)
  ∧ (∀ (c : CellRef) (s : State), exec (.watchDue c) s = .next s)

/-- R145, R149: the watch cell offered is due and not engaged, none such is due earlier, and of those due at the same time
none lies at a lower position. -/
def Obligations.WatchOfferIsTheEarliestDue : Prop :=
  ∀ (now : Time) (p : Plant),
    let isDue := fun (c : CellRef) (t : Time) =>
      (look p.cells c).engaged = none ∧ (look p.cells c).due = some t ∧ t.toNat ≤ now.toNat
    (∀ c, watchOffer now p = some c ↔
        ∃ t, isDue c t ∧ ∀ k u, isDue k u → t.toNat < u.toNat ∨ (t = u ∧ c ≤ k))
      ∧ (watchOffer now p = none ↔ ∀ c t, ¬ isDue c t)

/-! ## The retained store and start-up (chapter 12) -/

/-- R178: Save Snapshot captures the whole image, of the parts that R42 and R176 give, and starts the page writer;
BUSY while it works. R180: Erase Store makes the status BLANK and starts the erase of page 0, BUSY while the writer
works; the erase's completion erases page 0, sets STORE_DONE and keeps the held save count and the image pages. R182:
Read Store Status, in its three forms. -/
def Obligations.StoreIsSavedErasedAndRead : Prop :=
    (∀ (f : Req) (s : State), s.serves f → f.payload = [] →
       (s.store.writer ≠ .idle → exec (.saveSnapshot f) s = .next (replied 0x3C f .busy [] s))
         ∧ (s.store.writer = .idle →
             ∃ cap : Capture, cap.image = imageOf s ∧ 1 ≤ cap.pages ∧ cap.pages ≤ 163
               ∧ cap.bytes.length = 256 * cap.pages
               ∧ (let im := cap.image
                  im.settings = s.settings ∧ im.stepMode = s.plant.survey.stepMode
                   ∧ im.autoResume = s.plant.survey.autoResume ∧ im.mode = s.link.mode ∧ im.added = s.link.added
                   ∧ im.mask = s.plant.notice.mask
                   ∧ (∀ l, look im.options l =
                       (look s.plant.lanes l).pendingOpts.getD (look s.plant.lanes l).options)
                   ∧ (∀ c, look im.raster c = (look s.plant.cells c).defn)
                   ∧ ∃ used : List SlotNo, used.Pairwise (· < ·)
                       ∧ (∀ n, n ∈ used ↔ (look s.plant.dir.slots n).state ≠ .free)
                       ∧ im.services = used.map (fun n =>
                           let x := look s.plant.dir.slots n
                           { key := x.key, kind := x.kind, name := x.name, reported := x.reported, pin := x.pin })
                       ∧ im.sightings = s.plant.dir.pool.map (fun z =>
                           { service := used.idxOf z.slot, cell := z.cell, stream := z.stream }))
               ∧ exec (.saveSnapshot f) s = .next
                   (replied 0x3C f .ok []
                     { s with
                       draws := s.draws + 1
                       store := { s.store with status := .saving, writer := .saving .eraseHeader, verified := 0
                                               capture := some cap } })))
  ∧ (∀ (f : Req) (s : State),
       (s.serves f → f.payload = [] →
         (s.store.writer ≠ .idle → exec (.eraseStore f) s = .next (replied 0x3D f .busy [] s))
         ∧ (s.store.writer = .idle →
             exec (.eraseStore f) s = .next
               (replied 0x3D f .ok [] { s with store := { s.store with status := .blank, writer := .erasing } })))
       ∧ (s.store.writer = .erasing → Memory.wf s.store.mem = true →
           ∃ m, exec .pageEraseComplete s = .next
               { s with
                 plant := { s.plant with notice := s.plant.notice.raise 0x200#12 }
                 store := { s.store with mem := m, writer := .idle } }
             ∧ ∀ a, Memory.read m a = if a < 256 then 0xFF#8 else Memory.read s.store.mem a))
  ∧ (∀ (f : Req) (s : State), s.serves f → f.payload = [] →
       (s.store.status = .blank →
           exec (.readStoreStatus f) s = .next
             (replied 0x3E f .ok ([0, 0, 0, 0, 0, 0, 0] ++ [if s.store.writer = .erasing then 1 else 0]) s))
         ∧ (s.store.status = .valid →
             exec (.readStoreStatus f) s = .next
               (replied 0x3E f .ok
                 ([3, 1] ++ b2 s.store.saveCount.toNat ++ b1 (headerPages s.store.mem) ++ [0, 0]
                   ++ [if s.store.writer = .erasing then 1 else 0]) s))
         ∧ (∀ cap, s.store.status = .saving → s.store.capture = some cap →
             exec (.readStoreStatus f) s = .next
               (replied 0x3E f .ok
                 ([12, 2, 0, 0, 0] ++ b1 s.store.verified ++ b1 cap.pages
                   ++ [if s.store.writer = .erasing then 1 else 0]) s)))

/-- R179: the page writer's stages. An erase completed goes on to the page's write, or after a failed header ends the
save; a page that reads back as captured counts as verified and leads to the next page or the header; a mismatch is
retried once, and a second one fails the save; a header that reads back as written makes the store VALID with the next
save count. An erase leaves its page erased, and neither an erase nor a write touches another page. The model's part:
where the header's fields lie (log 7), that the image which the pages spell is the captured one from the header's
write on (log 8), and that the bytes a write fails to place come as an operand (log 9). -/
def Obligations.PageWriterFollowsItsStages : Prop :=
  ∀ (s : State) (cap : Capture) (flaws : Flaws), s.store.capture = some cap →
    let m0 := Memory.erasePage s.store.mem 0
    (∀ (k : Fin 256) (a : Nat), Memory.read (Memory.erasePage s.store.mem k) a =
        if 256 * k.val ≤ a ∧ a < 256 * k.val + 256 then 0xFF#8 else Memory.read s.store.mem a)
      ∧ (s.store.writer = .saving .eraseHeader →
        exec .pageEraseComplete s = .next
          { s with store := { s.store with mem := m0, writer := .saving (.erasePage 1 false) } })
      ∧ (∀ k again, s.store.writer = .saving (.erasePage k again) →
          exec .pageEraseComplete s = .next
            { s with store := { s.store with mem := Memory.erasePage s.store.mem k
                                             writer := .saving (.writePage k again) } })
      ∧ (s.store.writer = .saving .eraseHeaderAgain →
          exec .pageEraseComplete s = .next
            { s with store := { s.store with mem := m0, writer := .saving (.writeHeader true) } })
      ∧ (s.store.writer = .saving .eraseAfterFail →
          exec .pageEraseComplete s = .next
            { s with
              plant := { s.plant with notice := s.plant.notice.raise 0x400#12 }
              store := { s.store with mem := m0, status := .blank, writer := .idle } })
      ∧ (∀ k again, s.store.writer = .saving (.writePage k again) →
          ∃ m, (∀ a, a < 256 * k.val ∨ 256 * k.val + 256 ≤ a → Memory.read m a = Memory.read s.store.mem a)
            ∧ (Memory.readPage m k = cap.page k →
              exec (.pageWriteComplete flaws) s = .next
                { s with store := { s.store with
                    mem := m, verified := s.store.verified + 1
                    writer := .saving (if k.val = cap.pages then .writeHeader false else .erasePage (k + 1) false) } })
            ∧ (Memory.readPage m k ≠ cap.page k →
                (again = false →
                  exec (.pageWriteComplete flaws) s = .next
                    { s with store := { s.store with mem := m, writer := .saving (.erasePage k true) } })
                ∧ (again = true →
                  exec (.pageWriteComplete flaws) s = .next
                    { s with
                      plant := { s.plant with notice := s.plant.notice.raise 0x400#12 }
                      store := { s.store with mem := m, status := .blank, writer := .idle } }))
            ∧ (flaws = [] → Memory.wf s.store.mem = true → (cap.page k).length = 256 → Memory.readPage m k = cap.page k))
      ∧ (∀ again, s.store.writer = .saving (.writeHeader again) →
          ∃ m h, h = headerPage cap.pages (s.store.saveCount + 1) (byteSum cap.bytes)
            ∧ (∀ a, 256 ≤ a → Memory.read m a = Memory.read s.store.mem a)
            ∧ (Memory.readPage m 0 = h →
              exec (.pageWriteComplete flaws) s = .next
                { s with
                  plant := { s.plant with notice := s.plant.notice.raise 0x200#12 }
                  store := { s.store with mem := m, image := cap.image, status := .valid, writer := .idle
                                          saveCount := s.store.saveCount + 1 } })
            ∧ (Memory.readPage m 0 ≠ h →
              exec (.pageWriteComplete flaws) s = .next
                { s with store := { s.store with
                    mem := m, image := cap.image
                    writer := .saving (if again then .eraseAfterFail else .eraseHeaderAgain) } })
            ∧ (flaws = [] → Memory.wf s.store.mem = true → Memory.readPage m 0 = h))

/-- R161, R174, R183 steps 1 to 4: a restart, of whatever cause, with a blank or an invalid store leaves every block
at its restart values, the straps sampled, and STORE_FAIL noted when the store was invalid. R181: a restart during a
save, before the header write is past its format word, or during Erase Store, finds the store blank: defaults, and no
STORE_FAIL. Stated where the header law of R177 holds. The model's part: the command stops before step 6 (log 22);
what the restart found in the memory is its operand (log 10) and the image kept beside the memory (log 8); the flag of
an owed restart (log 5); the draw counter and the queue go on (log 25). An idle trim unit holds nothing of its last
sweep (log 31). -/
def Obligations.RestartWithoutAnImageTakesTheDefaults : Prop :=
    (∀ (i : Instr) (r : RestartIn) (s : State),
       (i = .powerOn r ∨ i = .restartLine r ∨ (i = .restartReplySent r ∧ s.link.restartOwed = true)) →
       judgeHeader (settledMemory r s.store) ≠ .valid →
         exec i s = .next
           { settings := Settings.atRestart, plant := Plant.atRestart, staging := Staging.atRestart
             link := Link.atRestart r.straps r.speed
             store := { mem := settledMemory r s.store, image := settledImage r s.store, status := .blank
                        writer := .idle, verified := 0, saveCount := 0, capture := none
                        failNoted := judgeHeader (settledMemory r s.store) == .invalid }
             clock := 0, draws := s.draws, pending := s.pending })
  ∧ (∀ (i : Instr) (r : RestartIn) (s : State),
       (i = .powerOn r ∨ i = .restartLine r ∨ (i = .restartReplySent r ∧ s.link.restartOwed = true)) →
       HeaderLaw s → s.store.writer ≠ .idle →
       (∀ again, s.store.writer = .saving (.writeHeader again) → r.placed < 8) →
         ∃ t, exec i s = .next t ∧ t.store.status = .blank ∧ t.store.failNoted = false
           ∧ t.settings = Settings.atRestart)

/-- R42, R183 step 5, R184: a restart with a valid store restores the image: settings, options, modes, addresses, mask
and raster, each cell judged under its feed record with everything else at its restart value; the services PROVISIONAL
in slots 0, 1, 2 and so on; the store VALID with the header's save count; its sightings in the pool, joined to its
service, new and unconfirmed (R108). The model's part: the image is the one kept beside the memory (log 8), as the
restart's operand left both (log 10); the command stops before step 6 (log 22); the flag of an owed restart (log 5);
added addresses come back as saved (log 16). An idle trim unit holds nothing of its last sweep (log 31). -/
def Obligations.RestartRestoresTheImage : Prop :=
  ∀ (i : Instr) (r : RestartIn) (s : State),
    (i = .powerOn r ∨ i = .restartLine r ∨ (i = .restartReplySent r ∧ s.link.restartOwed = true)) →
    judgeHeader (settledMemory r s.store) = .valid →
      ∃ t, exec i s = .next t ∧
        (let im := settledImage r s.store
         t.settings = im.settings ∧ t.staging = Staging.atRestart ∧ t.clock = 0
          ∧ t.link = { Link.atRestart r.straps r.speed with mode := im.mode, added := im.added }
          ∧ t.store = { mem := settledMemory r s.store, image := im, status := .valid, writer := .idle, verified := 0
                        saveCount := headerCount (settledMemory r s.store), capture := none, failNoted := false }
          ∧ t.plant.notice = { conds := 0, mask := im.mask, startUp := true, attention := false }
          ∧ t.plant.survey = { Survey.atRestart with stepMode := im.stepMode, autoResume := im.autoResume }
          ∧ (∀ l, look t.plant.lanes l = { LaneRec.atRestart with options := look im.options l })
          ∧ (∀ c, look t.plant.cells c =
              { Cell.atRestart with
                defn := look im.raster c
                state := if (look im.raster c).freq = 0 then .vacant
                  else if (look im.settings.feeds (feedOf c)).admits (look im.raster c) then .unseen else .barred })
          ∧ t.plant.dir.queue = [] ∧ t.plant.dir.grace = true
          ∧ (∀ g, g ∈ t.plant.dir.pool ↔ ∃ x ∈ im.sightings, x.service = g.slot.val
              ∧ g = { slot := g.slot, cell := x.cell, stream := x.stream, scrambled := false, version := none
                      created := 0, confirmed := 0 })
          ∧ (∀ n : SlotNo, im.services[n.val]? = none → look t.plant.dir.slots n = Slot.empty)
          ∧ ∀ (n : SlotNo) (sv : SavedService), im.services[n.val]? = some sv →
              let x := look t.plant.dir.slots n
              let seen := fun c => im.sightings.any (fun g => g.service == n.val && g.cell == c)
              x.state = .provisional ∧ x.key = sv.key ∧ x.kind = sv.kind ∧ x.name = sv.name
                ∧ x.reported = sv.reported ∧ x.pin = sv.pin ∧ x.advice = .none ∧ x.challenger = none
                ∧ x.scrambled = false ∧ x.suspended = false ∧ x.reason = none ∧ x.orphanSince = none ∧ x.created = 0
                ∧ (∀ c, sv.pin = some c → seen c = true → x.chosen = some c)
                ∧ (∀ c, sv.pin = none → sv.reported = some c → seen c = true → x.chosen = some c)
                ∧ (sv.pin = none → (∀ c ∈ sv.reported, seen c = false) → x.chosen = none))

/-- R183 step 6, R161: the end of start-up sets START_DONE, with STORE_FAIL when noted, judges the line, enters HUNT, and
resumes the survey when auto-resume is yes and some cell has a frequency. -/
def Obligations.StartUpEndOpensTheLink : Prop :=
  ∀ s : State, s.plant.notice.startUp = true →
    ∃ (run driven : Bool) (conds : Flags12),
      conds = s.plant.notice.conds ||| (if s.store.failNoted then 0xC00#12 else 0x800#12)
        ∧ (driven = true ↔ conds &&& s.plant.notice.mask ≠ 0)
        ∧ (run = true ↔ s.plant.survey.autoResume = true ∧ ∃ c, (look s.plant.cells c).defn.freq ≠ 0)
        ∧ exec .startUpEnd s = .next
            { s with
              plant :=
                { s.plant with
                  survey := { s.plant.survey with state := if run then .running else .stopped }
                  notice := { conds := conds, mask := s.plant.notice.mask, startUp := false, attention := driven } }
              link := { s.link with rx := .hunt }
              store := { s.store with failNoted := false } }

/-! ## The state after reset, and the laws every step keeps -/

/-- The restart values that the reference states, for every block (R1, R6, R8, R11, R19, R22, R81, R88, R90, R109,
R119, R126, R137, R142, R144, R146, R154, R157, R159, R161, R164, R165, R169, R170, R183), the trim units (R44) and the
roster collectors (R73) among them. -/
def Obligations.ResetHoldsTheStatedValues : Prop :=
  (∀ f, look State.reset.settings.feeds f = { enable := true, priority := 4, w1 := ⟨0, 0⟩, w2 := ⟨0, 0⟩ })
    ∧ State.reset.settings.profiles.toList = [150, 180, 200, 220, 250, 280, 300, 330]
    ∧ State.reset.settings.timers = { lock := 8, gap := 10, dwell := 13, interval := 200 }
    ∧ State.reset.settings.watch = { chosenInterval := 20, watchInterval := 120, share := 3, holdLimit := 2 }
    ∧ State.reset.settings.policy = { margin := 40, confirm := 2, lost := 3, forget := 60, lvmin := 45, lvmax := 85 }
    ∧ State.reset.settings.admission.tv = true ∧ State.reset.settings.admission.radio = true
    ∧ State.reset.settings.admission.data = false
    ∧ (∀ r ∈ State.reset.settings.admission.ranges, r.first = 0 ∧ r.last = 0)
    ∧ (∀ c, look State.reset.plant.cells c =
        { defn := { freq := 0, bandwidth := 8, profile := 0 }, state := .vacant, q := none, lastScore := none
          fails := 0, lastOutcome := none, lastTime := 0, roster := none, margin := none, due := none, refused := 0
          engaged := none })
    ∧ (∀ l, (look State.reset.plant.lanes l).state = .idle ∧ (look State.reset.plant.lanes l).cell = none
        ∧ (look State.reset.plant.lanes l).offset = 0 ∧ (look State.reset.plant.lanes l).record = none
        ∧ (look State.reset.plant.lanes l).fault = none ∧ (look State.reset.plant.lanes l).pendingOpts = none
        ∧ (look State.reset.plant.lanes l).options = { reach := .narrow, step := .one, limit := 4 }
        ∧ (look State.reset.plant.lanes l).cls = none ∧ (look State.reset.plant.lanes l).terms = none
        ∧ (look State.reset.plant.lanes l).start = none ∧ (look State.reset.plant.lanes l).latched = none
        ∧ (look State.reset.plant.lanes l).holdExpiry = none ∧ (look State.reset.plant.lanes l).live = none
        ∧ (let u := (look State.reset.plant.lanes l).trim
           u.phase = .idle ∧ u.offset = none ∧ u.count = 0 ∧ u.high = none ∧ u.low = none)
        ∧ (look State.reset.plant.lanes l).collector =
            { collecting := false, ident := none, held := [], changes := 0, gap := none })
    ∧ (∀ n, let x := look State.reset.plant.dir.slots n
        x.state = .free ∧ x.key = none ∧ x.chosen = none ∧ x.reported = none ∧ x.pin = none ∧ x.suspended = false
          ∧ x.challenger = none ∧ x.advice = .none ∧ x = Slot.empty) ∧ State.reset.plant.dir.pool = []
    ∧ State.reset.plant.dir.queue = [] ∧ State.reset.plant.dir.grace = true
    ∧ State.reset.plant.survey =
        { state := .stopped, stepMode := false, autoResume := true, stepped := 0, passes := 0, share := 0, ticket := 0
          cursor := 0, spots := [], results := [] }
    ∧ State.reset.plant.notice.conds = 0
    ∧ State.reset.plant.notice.mask = Condition.adviceReady.bit ||| Condition.laneFault.bit
        ||| Condition.linkFault.bit ||| Condition.storeFail.bit
    ∧ State.reset.plant.notice.attention = false ∧ State.reset.staging.page = none
    ∧ State.reset.staging.staged = [] ∧ State.reset.link.rx = .deaf ∧ State.reset.link.added = []
    ∧ State.reset.link.mode = .strict ∧ State.reset.link.log = none ∧ State.reset.clock = 0
    ∧ State.reset.store.status = .blank ∧ State.reset.store.writer = .idle ∧ State.reset.store.verified = 0
    ∧ State.reset.store.saveCount = 0 ∧ State.reset.store.failNoted = false

/-- The state after reset keeps every law of the reference. -/
def Obligations.ResetIsSafe : Prop := Safe State.reset ∧ HeaderLaw State.reset

/-- R160, R161: that the output is driven exactly while some condition is set and unmasked, and released through
start-up; R164, R172, R183: that an answered frame is held exactly in FRAME, and the receiver is deaf exactly through
start-up; R174: that a restart is owed only while a reply is pending: each kept by every step. Two parts of the second
law are the model's choice: FRAME stands for an answered frame only (log 3), and the driver is on from the end of its
check byte (log 4; R163 drives it only while the reply is sent). That a restart owed is a flag is the model's way of
saying it (log 5). -/
def Obligations.AttentionAndLinkStayRight : Prop :=
    (∀ s t : State, AttentionRight s → step s = .next t → AttentionRight t)
  ∧ (∀ s t : State, LinkRight s → step s = .next t → LinkRight t)

/-- Every setting, and every one a restart may bring back, stays in its range (R3, R8, R23, R56, R110, R144, R165); the staging
pointer, the spot queue, the spot results and the share counter stay within their sizes (R11, R142, R149, R154); scores stay
from 0 to 1000, fail counts to 15, refused-entry counts to 255 (R60, R65, R82): each kept by every step. -/
def Obligations.SettingsSizesAndScoresStayInRange : Prop :=
    (∀ s t : State, SettingsLaw s → step s = .next t → SettingsLaw t)
  ∧ (∀ s t : State, SizesLaw s → step s = .next t → SizesLaw t)
  ∧ (∀ s t : State, ScoresLaw s → step s = .next t → ScoresLaw t)

/-- R10, R11: every stored definition stays valid and normal, and no feed comes to hold two cells with the same non-zero
frequency: kept by every step. -/
def Obligations.RasterStaysRight : Prop := ∀ s t : State, RasterLaw s → step s = .next t → RasterLaw t

/-- R175 to R177: the store memory stays canonical, and a header counts only over pages written and verified since
page 0 was last erased; the status is BLANK while the store is erased (R180): kept by every step. -/
def Obligations.StoreHeaderStaysRight : Prop := ∀ s t : State, HeaderLaw s → step s = .next t → HeaderLaw t

/-- R7, R19, R64, R143 to R145, R147: no cell is engaged by more than one lane, each cell's state and each lane's
fields fit its definition and its stage, the sections a collector holds stand in order and within the roster (R76,
R80), spot entries wait for open cells only, and at most 4 lanes are HELD: kept by every step. -/
def Obligations.SurveyStaysRight : Prop := ∀ s t : State, SurveyLaw s → step s = .next t → SurveyLaw t

/-- R88, R89, R91, R101, R113, R126: the laws of the service directory and the advice queue: kept by every step. -/
def Obligations.DirectoryStaysRight : Prop := ∀ s t : State, DirectoryLaw s → step s = .next t → DirectoryLaw t
end

