-- ==== Sys2Proof/Laws/State.lean ====
section
/-! SUPPORT. One lemma per field per update of a state record, true by definition, so that no later proof unfolds an
update. -/

namespace Sys2Proof.Machine

/-! ## Updates of the whole state -/

@[simp] theorem State.withPending_settings (s : State) (q : List Instr) :
    (s.withPending q).settings = s.settings := rfl
@[simp] theorem State.withPending_plant (s : State) (q : List Instr) : (s.withPending q).plant = s.plant := rfl
@[simp] theorem State.withPending_staging (s : State) (q : List Instr) : (s.withPending q).staging = s.staging := rfl
@[simp] theorem State.withPending_link (s : State) (q : List Instr) : (s.withPending q).link = s.link := rfl
@[simp] theorem State.withPending_store (s : State) (q : List Instr) : (s.withPending q).store = s.store := rfl
@[simp] theorem State.withPending_clock (s : State) (q : List Instr) : (s.withPending q).clock = s.clock := rfl
@[simp] theorem State.withPending_draws (s : State) (q : List Instr) : (s.withPending q).draws = s.draws := rfl
@[simp] theorem State.withPending_pending (s : State) (q : List Instr) : (s.withPending q).pending = q := rfl

@[simp] theorem State.tick_settings (s : State) : (s.tick).settings = s.settings := rfl
@[simp] theorem State.tick_plant (s : State) : (s.tick).plant = s.plant := rfl
@[simp] theorem State.tick_staging (s : State) : (s.tick).staging = s.staging := rfl
@[simp] theorem State.tick_link (s : State) : (s.tick).link = s.link := rfl
@[simp] theorem State.tick_store (s : State) : (s.tick).store = s.store := rfl
@[simp] theorem State.tick_clock (s : State) : (s.tick).clock = s.clock + 1 := rfl
@[simp] theorem State.tick_draws (s : State) : (s.tick).draws = s.draws := rfl
@[simp] theorem State.tick_pending (s : State) : (s.tick).pending = s.pending := rfl

@[simp] theorem State.work_settings (s : State) (k : Settings → Time → Plant → Plant) :
    (s.work k).settings = s.settings := rfl
@[simp] theorem State.work_plant (s : State) (k : Settings → Time → Plant → Plant) :
    (s.work k).plant = k s.settings s.clock s.plant := rfl
@[simp] theorem State.work_staging (s : State) (k : Settings → Time → Plant → Plant) :
    (s.work k).staging = s.staging := rfl
@[simp] theorem State.work_link (s : State) (k : Settings → Time → Plant → Plant) : (s.work k).link = s.link := rfl
@[simp] theorem State.work_store (s : State) (k : Settings → Time → Plant → Plant) : (s.work k).store = s.store := rfl
@[simp] theorem State.work_clock (s : State) (k : Settings → Time → Plant → Plant) : (s.work k).clock = s.clock := rfl
@[simp] theorem State.work_draws (s : State) (k : Settings → Time → Plant → Plant) : (s.work k).draws = s.draws := rfl
@[simp] theorem State.work_pending (s : State) (k : Settings → Time → Plant → Plant) :
    (s.work k).pending = s.pending := rfl

@[simp] theorem State.raise_settings (s : State) (m : Flags12) : (s.raise m).settings = s.settings := rfl
@[simp] theorem State.raise_plant (s : State) (m : Flags12) : (s.raise m).plant = s.plant.raise m := rfl
@[simp] theorem State.raise_staging (s : State) (m : Flags12) : (s.raise m).staging = s.staging := rfl
@[simp] theorem State.raise_link (s : State) (m : Flags12) : (s.raise m).link = s.link := rfl
@[simp] theorem State.raise_store (s : State) (m : Flags12) : (s.raise m).store = s.store := rfl
@[simp] theorem State.raise_clock (s : State) (m : Flags12) : (s.raise m).clock = s.clock := rfl
@[simp] theorem State.raise_draws (s : State) (m : Flags12) : (s.raise m).draws = s.draws := rfl
@[simp] theorem State.raise_pending (s : State) (m : Flags12) : (s.raise m).pending = s.pending := rfl

@[simp] theorem State.setSurvey_settings (s : State) (v : Survey) : (s.setSurvey v).settings = s.settings := rfl
@[simp] theorem State.setSurvey_plant (s : State) (v : Survey) :
    (s.setSurvey v).plant = { s.plant with survey := v } := rfl
@[simp] theorem State.setSurvey_staging (s : State) (v : Survey) : (s.setSurvey v).staging = s.staging := rfl
@[simp] theorem State.setSurvey_link (s : State) (v : Survey) : (s.setSurvey v).link = s.link := rfl
@[simp] theorem State.setSurvey_store (s : State) (v : Survey) : (s.setSurvey v).store = s.store := rfl
@[simp] theorem State.setSurvey_clock (s : State) (v : Survey) : (s.setSurvey v).clock = s.clock := rfl
@[simp] theorem State.setSurvey_draws (s : State) (v : Survey) : (s.setSurvey v).draws = s.draws := rfl
@[simp] theorem State.setSurvey_pending (s : State) (v : Survey) : (s.setSurvey v).pending = s.pending := rfl

@[simp] theorem State.enter_settings (s : State) (b : Books) : (s.enter b).settings = s.settings := rfl
@[simp] theorem State.enter_plant (s : State) (b : Books) :
    (s.enter b).plant = { s.plant with dir := b.dir, notice := s.plant.notice.raise b.raised } := rfl
@[simp] theorem State.enter_staging (s : State) (b : Books) : (s.enter b).staging = s.staging := rfl
@[simp] theorem State.enter_link (s : State) (b : Books) : (s.enter b).link = s.link := rfl
@[simp] theorem State.enter_store (s : State) (b : Books) : (s.enter b).store = s.store := rfl
@[simp] theorem State.enter_clock (s : State) (b : Books) : (s.enter b).clock = s.clock := rfl
@[simp] theorem State.enter_draws (s : State) (b : Books) : (s.enter b).draws = s.draws := rfl
@[simp] theorem State.enter_pending (s : State) (b : Books) : (s.enter b).pending = s.pending := rfl

@[simp] theorem State.setStore_settings (s : State) (t : Store) : (s.setStore t).settings = s.settings := rfl
@[simp] theorem State.setStore_plant (s : State) (t : Store) : (s.setStore t).plant = s.plant := rfl
@[simp] theorem State.setStore_staging (s : State) (t : Store) : (s.setStore t).staging = s.staging := rfl
@[simp] theorem State.setStore_link (s : State) (t : Store) : (s.setStore t).link = s.link := rfl
@[simp] theorem State.setStore_store (s : State) (t : Store) : (s.setStore t).store = t := rfl
@[simp] theorem State.setStore_clock (s : State) (t : Store) : (s.setStore t).clock = s.clock := rfl
@[simp] theorem State.setStore_draws (s : State) (t : Store) : (s.setStore t).draws = s.draws := rfl
@[simp] theorem State.setStore_pending (s : State) (t : Store) : (s.setStore t).pending = s.pending := rfl

@[simp] theorem State.stage_settings (s : State) (m : List Host.Cell) (g : SaveStage) :
    (s.stage m g).settings = s.settings := rfl
@[simp] theorem State.stage_plant (s : State) (m : List Host.Cell) (g : SaveStage) :
    (s.stage m g).plant = s.plant := rfl
@[simp] theorem State.stage_staging (s : State) (m : List Host.Cell) (g : SaveStage) :
    (s.stage m g).staging = s.staging := rfl
@[simp] theorem State.stage_link (s : State) (m : List Host.Cell) (g : SaveStage) : (s.stage m g).link = s.link := rfl
@[simp] theorem State.stage_store (s : State) (m : List Host.Cell) (g : SaveStage) :
    (s.stage m g).store = { s.store with mem := m, writer := .saving g } := rfl
@[simp] theorem State.stage_clock (s : State) (m : List Host.Cell) (g : SaveStage) :
    (s.stage m g).clock = s.clock := rfl
@[simp] theorem State.stage_draws (s : State) (m : List Host.Cell) (g : SaveStage) :
    (s.stage m g).draws = s.draws := rfl
@[simp] theorem State.stage_pending (s : State) (m : List Host.Cell) (g : SaveStage) :
    (s.stage m g).pending = s.pending := rfl

/-! ## Updates of the survey's part -/

@[simp] theorem Plant.setCell_cells (p : Plant) (c : CellRef) (x : Cell) :
    (p.setCell c x).cells = put p.cells c x := rfl
@[simp] theorem Plant.setCell_lanes (p : Plant) (c : CellRef) (x : Cell) : (p.setCell c x).lanes = p.lanes := rfl
@[simp] theorem Plant.setCell_dir (p : Plant) (c : CellRef) (x : Cell) : (p.setCell c x).dir = p.dir := rfl
@[simp] theorem Plant.setCell_survey (p : Plant) (c : CellRef) (x : Cell) : (p.setCell c x).survey = p.survey := rfl
@[simp] theorem Plant.setCell_notice (p : Plant) (c : CellRef) (x : Cell) : (p.setCell c x).notice = p.notice := rfl

@[simp] theorem Plant.setLane_cells (p : Plant) (l : Lane) (x : LaneRec) : (p.setLane l x).cells = p.cells := rfl
@[simp] theorem Plant.setLane_lanes (p : Plant) (l : Lane) (x : LaneRec) :
    (p.setLane l x).lanes = put p.lanes l x := rfl
@[simp] theorem Plant.setLane_dir (p : Plant) (l : Lane) (x : LaneRec) : (p.setLane l x).dir = p.dir := rfl
@[simp] theorem Plant.setLane_survey (p : Plant) (l : Lane) (x : LaneRec) : (p.setLane l x).survey = p.survey := rfl
@[simp] theorem Plant.setLane_notice (p : Plant) (l : Lane) (x : LaneRec) : (p.setLane l x).notice = p.notice := rfl

@[simp] theorem Plant.raise_cells (p : Plant) (m : Flags12) : (p.raise m).cells = p.cells := rfl
@[simp] theorem Plant.raise_lanes (p : Plant) (m : Flags12) : (p.raise m).lanes = p.lanes := rfl
@[simp] theorem Plant.raise_dir (p : Plant) (m : Flags12) : (p.raise m).dir = p.dir := rfl
@[simp] theorem Plant.raise_survey (p : Plant) (m : Flags12) : (p.raise m).survey = p.survey := rfl
@[simp] theorem Plant.raise_notice (p : Plant) (m : Flags12) : (p.raise m).notice = p.notice.raise m := rfl

@[simp] theorem Dir.setSlot_slots (d : Dir) (n : SlotNo) (x : Slot) : (d.setSlot n x).slots = put d.slots n x := rfl
@[simp] theorem Dir.setSlot_pool (d : Dir) (n : SlotNo) (x : Slot) : (d.setSlot n x).pool = d.pool := rfl
@[simp] theorem Dir.setSlot_queue (d : Dir) (n : SlotNo) (x : Slot) : (d.setSlot n x).queue = d.queue := rfl
@[simp] theorem Dir.setSlot_grace (d : Dir) (n : SlotNo) (x : Slot) : (d.setSlot n x).grace = d.grace := rfl

/-! ## Updates of the condition set -/

@[simp] theorem Notice.raise_conds (n : Notice) (m : Flags12) : (n.raise m).conds = n.conds ||| m := rfl
@[simp] theorem Notice.raise_mask (n : Notice) (m : Flags12) : (n.raise m).mask = n.mask := rfl
@[simp] theorem Notice.raise_startUp (n : Notice) (m : Flags12) : (n.raise m).startUp = n.startUp := rfl

@[simp] theorem Notice.clear_conds (n : Notice) : (n.clear).conds = 0 := rfl
@[simp] theorem Notice.clear_mask (n : Notice) : (n.clear).mask = n.mask := rfl
@[simp] theorem Notice.clear_startUp (n : Notice) : (n.clear).startUp = n.startUp := rfl

@[simp] theorem Notice.setMask_conds (n : Notice) (m : Flags12) : (n.setMask m).conds = n.conds := rfl
@[simp] theorem Notice.setMask_mask (n : Notice) (m : Flags12) : (n.setMask m).mask = m := rfl
@[simp] theorem Notice.setMask_startUp (n : Notice) (m : Flags12) : (n.setMask m).startUp = n.startUp := rfl

@[simp] theorem Notice.endStartUp_conds (n : Notice) (m : Flags12) : (n.endStartUp m).conds = n.conds ||| m := rfl
@[simp] theorem Notice.endStartUp_mask (n : Notice) (m : Flags12) : (n.endStartUp m).mask = n.mask := rfl
@[simp] theorem Notice.endStartUp_startUp (n : Notice) (m : Flags12) : (n.endStartUp m).startUp = false := rfl

/-! ## A reply sent -/

@[simp] theorem replied_settings (k : Byte) (f : Req) (st : Status) (vs : List Byte) (t : State) :
    (replied k f st vs t).settings = t.settings := rfl
@[simp] theorem replied_plant (k : Byte) (f : Req) (st : Status) (vs : List Byte) (t : State) :
    (replied k f st vs t).plant = t.plant := rfl
@[simp] theorem replied_staging (k : Byte) (f : Req) (st : Status) (vs : List Byte) (t : State) :
    (replied k f st vs t).staging = t.staging := rfl
@[simp] theorem replied_store (k : Byte) (f : Req) (st : Status) (vs : List Byte) (t : State) :
    (replied k f st vs t).store = t.store := rfl
@[simp] theorem replied_clock (k : Byte) (f : Req) (st : Status) (vs : List Byte) (t : State) :
    (replied k f st vs t).clock = t.clock := rfl
@[simp] theorem replied_draws (k : Byte) (f : Req) (st : Status) (vs : List Byte) (t : State) :
    (replied k f st vs t).draws = t.draws := rfl
@[simp] theorem replied_pending (k : Byte) (f : Req) (st : Status) (vs : List Byte) (t : State) :
    (replied k f st vs t).pending = t.pending := rfl
@[simp] theorem replied_link_speed (k : Byte) (f : Req) (st : Status) (vs : List Byte) (t : State) :
    (replied k f st vs t).link.speed = t.link.speed := rfl
@[simp] theorem replied_link_strap (k : Byte) (f : Req) (st : Status) (vs : List Byte) (t : State) :
    (replied k f st vs t).link.strap = t.link.strap := rfl
@[simp] theorem replied_link_added (k : Byte) (f : Req) (st : Status) (vs : List Byte) (t : State) :
    (replied k f st vs t).link.added = t.link.added := rfl
@[simp] theorem replied_link_mode (k : Byte) (f : Req) (st : Status) (vs : List Byte) (t : State) :
    (replied k f st vs t).link.mode = t.link.mode := rfl
@[simp] theorem replied_link_log (k : Byte) (f : Req) (st : Status) (vs : List Byte) (t : State) :
    (replied k f st vs t).link.log = t.link.log := rfl
@[simp] theorem replied_link_restartOwed (k : Byte) (f : Req) (st : Status) (vs : List Byte) (t : State) :
    (replied k f st vs t).link.restartOwed = t.link.restartOwed := rfl
@[simp] theorem replied_link_rx (k : Byte) (f : Req) (st : Status) (vs : List Byte) (t : State) :
    (replied k f st vs t).link.rx = .frame := rfl
@[simp] theorem replied_link_driver (k : Byte) (f : Req) (st : Status) (vs : List Byte) (t : State) :
    (replied k f st vs t).link.driver = true := rfl

/-! ## A link fault taken -/

@[simp] theorem takeFault_settings (r : LinkFault) (rx : Receiver) (s : State) :
    (takeFault r rx s).settings = s.settings := rfl
@[simp] theorem takeFault_staging (r : LinkFault) (rx : Receiver) (s : State) :
    (takeFault r rx s).staging = s.staging := rfl
@[simp] theorem takeFault_store (r : LinkFault) (rx : Receiver) (s : State) :
    (takeFault r rx s).store = s.store := rfl
@[simp] theorem takeFault_clock (r : LinkFault) (rx : Receiver) (s : State) :
    (takeFault r rx s).clock = s.clock := rfl
@[simp] theorem takeFault_draws (r : LinkFault) (rx : Receiver) (s : State) :
    (takeFault r rx s).draws = s.draws := rfl
@[simp] theorem takeFault_pending (r : LinkFault) (rx : Receiver) (s : State) :
    (takeFault r rx s).pending = s.pending := rfl
@[simp] theorem takeFault_plant (r : LinkFault) (rx : Receiver) (s : State) :
    (takeFault r rx s).plant = s.plant.raise Condition.linkFault.bit := rfl
@[simp] theorem takeFault_link_rx (r : LinkFault) (rx : Receiver) (s : State) : (takeFault r rx s).link.rx = rx := rfl
@[simp] theorem takeFault_link_log (r : LinkFault) (rx : Receiver) (s : State) :
    (takeFault r rx s).link.log = some (s.link.log.getD r) := rfl
@[simp] theorem takeFault_link_mode (r : LinkFault) (rx : Receiver) (s : State) :
    (takeFault r rx s).link.mode = s.link.mode := rfl
@[simp] theorem takeFault_link_added (r : LinkFault) (rx : Receiver) (s : State) :
    (takeFault r rx s).link.added = s.link.added := rfl
@[simp] theorem takeFault_link_strap (r : LinkFault) (rx : Receiver) (s : State) :
    (takeFault r rx s).link.strap = s.link.strap := rfl
@[simp] theorem takeFault_link_answering (r : LinkFault) (rx : Receiver) (s : State) :
    (takeFault r rx s).link.answering = s.link.answering := rfl
@[simp] theorem takeFault_link_driver (r : LinkFault) (rx : Receiver) (s : State) :
    (takeFault r rx s).link.driver = s.link.driver := rfl
@[simp] theorem takeFault_link_restartOwed (r : LinkFault) (rx : Receiver) (s : State) :
    (takeFault r rx s).link.restartOwed = s.link.restartOwed := rfl

end Sys2Proof.Machine
end

