-- ==== Sys2Proof/Laws/Tables.lean ====
section
/-! SUPPORT. What the operations on tables and on the store memory can do (Machine/Ops.lean). -/

namespace Sys2Proof.Machine

/-! ## Tables -/

@[simp] theorem look_put_self {α : Type} {n : Nat} (v : Vector α n) (i : Fin n) (a : α) : look (put v i a) i = a := by
  simp [look, put]

theorem look_put_ne {α : Type} {n : Nat} (v : Vector α n) {i j : Fin n} (a : α) (h : j ≠ i) :
    look (put v i a) j = look v j := by
  have : i.val ≠ j.val := fun e => h (Fin.ext e.symm)
  simp [look, put, this]

/-- Reading a table after one entry was replaced. -/
theorem look_put {α : Type} {n : Nat} (v : Vector α n) (i j : Fin n) (a : α) :
    look (put v i a) j = if j = i then a else look v j := by
  split
  · next h => subst h; simp
  · next h => exact look_put_ne v a h

@[simp] theorem put_look {α : Type} {n : Nat} (v : Vector α n) (i : Fin n) : put v i (look v i) = v := by
  simp [look, put]

@[simp] theorem look_table {α : Type} {n : Nat} (f : Fin n → α) (i : Fin n) : look (table f) i = f i := by
  simp [look, table]

/-- Two tables that read alike are equal. -/
theorem table_ext {α : Type} {n : Nat} {v w : Vector α n} (h : ∀ i, look v i = look w i) : v = w := by
  apply Vector.ext
  intro i hi
  exact h ⟨i, hi⟩

@[simp] theorem look_replicate {α : Type} {n : Nat} (a : α) (i : Fin n) : look (Vector.replicate n a) i = a := by
  simp [look]

theorem mem_toList_iff {α : Type} {n : Nat} (v : Vector α n) (a : α) : a ∈ v.toList ↔ ∃ i, look v i = a := by
  simp only [Vector.mem_toList_iff, Vector.mem_iff_getElem, look]
  constructor
  · rintro ⟨i, hi, rfl⟩; exact ⟨⟨i, hi⟩, rfl⟩
  · rintro ⟨i, rfl⟩; exact ⟨i.val, i.isLt, rfl⟩

/-! ## The best of a list -/

/-- The best element is one of the list. -/
theorem best_mem {α : Type} {better : α → α → Bool} : ∀ {xs : List α} {x : α}, best better xs = some x → x ∈ xs
  | [], _, h => by simp [best] at h
  | y :: ys, x, h => by
    unfold best at h
    split at h
    · simp_all
    · next z hz =>
      have := best_mem hz
      split at h <;> simp_all

theorem best_none {α : Type} {better : α → α → Bool} {xs : List α} : best better xs = none ↔ xs = [] := by
  cases xs with
  | nil => simp [best]
  | cons y ys =>
    simp only [best, reduceCtorEq, iff_false]
    split
    · simp
    · split <;> simp

/-- No element is better than the best one, for a strict order in which what is no better than x is no better than
anything x is no better than. -/
theorem best_le {α : Type} {better : α → α → Bool}
    (trans : ∀ a b c, better a b = false → better b c = false → better a c = false)
    (irrefl : ∀ a, better a a = false) (asymm : ∀ a b, better a b = true → better b a = false) :
    ∀ {xs : List α} {x : α}, best better xs = some x → ∀ y ∈ xs, better y x = false
  | [], _, h => by simp [best] at h
  | z :: zs, x, h => by
    unfold best at h
    split at h
    · next hz =>
      rw [best_none] at hz
      subst hz
      intro y hy
      simp_all
    · next w hw =>
      have ih := best_le trans irrefl asymm hw
      intro y hy
      rw [List.mem_cons] at hy
      split at h
      · next hb =>
        obtain rfl : w = x := by simpa using h
        rcases hy with rfl | hy
        · exact asymm _ _ hb
        · exact ih y hy
      · next hb =>
        obtain rfl : z = x := by simpa using h
        rcases hy with rfl | hy
        · exact irrefl _
        · exact trans _ _ _ (ih y hy) (by simpa using hb)

/-- An element that is better than every other one is the best. -/
theorem best_eq {α : Type} {better : α → α → Bool} :
    ∀ {xs : List α} {x : α}, x ∈ xs → (∀ y ∈ xs, y ≠ x → better x y = true ∧ better y x = false) →
      best better xs = some x
  | [], _, hx, _ => by simp at hx
  | z :: zs, x, hx, h => by
    unfold best
    cases hb : best better zs with
    | none =>
      rw [best_none] at hb
      subst hb
      simp_all
    | some y =>
      have hy := best_mem hb
      by_cases hxz : x ∈ zs
      · have := best_eq hxz (fun w hw => h w (List.mem_cons_of_mem _ hw))
        obtain rfl : y = x := by rw [hb] at this; exact Option.some.inj this
        by_cases hz : z = y
        · subst hz; simp
        · simp [(h z List.mem_cons_self hz).1]
      · obtain rfl : x = z := by simpa [hxz] using hx
        have hne : y ≠ x := fun e => hxz (e ▸ hy)
        simp [(h y (List.mem_cons_of_mem _ hy) hne).2]

/-! ## The store memory -/

/-- Every address of a list lies above a bound. -/
def Memory.above (a : Nat) (m : List Host.Cell) : Prop := ∀ e ∈ m, a < e.1

/-- The canonical form, one entry at a time. -/
theorem Memory.wf_cons {a : Nat} {v : Byte} {m : List Host.Cell} :
    Memory.wf ((a, v) :: m) = true ↔ v ≠ erasedByte ∧ Memory.above a m ∧ Memory.wf m = true := by
  induction m generalizing a v with
  | nil => simp [Memory.wf, Memory.above]
  | cons e rest ih =>
    obtain ⟨b, w⟩ := e
    have hb := @ih b w
    simp only [Memory.wf, Bool.and_eq_true, bne_iff_ne, ne_eq, decide_eq_true_eq]
    constructor
    · rintro ⟨⟨hv, hlt⟩, hw⟩
      refine ⟨hv, ?_, hw⟩
      intro e he
      rw [List.mem_cons] at he
      rcases he with rfl | he
      · exact hlt
      · exact Nat.lt_trans hlt ((hb.mp hw).2.1 e he)
    · rintro ⟨hv, hab, hw⟩
      exact ⟨⟨hv, hab (b, w) (by simp)⟩, hw⟩

theorem Memory.wf_tail {e : Host.Cell} {m : List Host.Cell} (h : Memory.wf (e :: m) = true) : Memory.wf m = true :=
  (Memory.wf_cons (a := e.1) (v := e.2)).mp h |>.2.2

theorem Memory.read_above {a : Nat} {m : List Host.Cell} (h : Memory.above a m) : Memory.read m a = erasedByte := by
  induction m with
  | nil => rfl
  | cons e rest ih =>
    obtain ⟨b, v⟩ := e
    have hb : a < b := h (b, v) (by simp)
    simp only [Memory.read]
    rw [if_neg (by omega)]
    exact ih (fun e he => h e (by simp [he]))

/-- Where a write puts its entry: everything it lists is the address written or was listed before. -/
theorem Memory.mem_write {m : List Host.Cell} {a : Nat} {v : Byte} {e : Host.Cell} (h : e ∈ Memory.write m a v) :
    e = (a, v) ∨ e ∈ m := by
  induction m with
  | nil =>
    simp only [Memory.write] at h
    split at h <;> simp_all
  | cons x rest ih =>
    obtain ⟨b, w⟩ := x
    simp only [Memory.write] at h
    split at h
    · split at h <;> simp_all
    · split at h
      · next heq => subst heq; (split at h <;> simp_all); tauto
      · rw [List.mem_cons] at h
        rcases h with rfl | h
        · simp
        · rcases ih h with rfl | h' <;> simp_all

/-- Every memory write keeps the canonical form. -/
theorem Memory.write_wf {m : List Host.Cell} (a : Nat) (v : Byte) (h : Memory.wf m = true) :
    Memory.wf (Memory.write m a v) = true := by
  induction m with
  | nil =>
    simp only [Memory.write]
    split <;> simp_all [Memory.wf]
  | cons x rest ih =>
    obtain ⟨b, w⟩ := x
    obtain ⟨hw, hab, hr⟩ := Memory.wf_cons.mp h
    simp only [Memory.write]
    split
    · next hlt =>
      split
      · exact h
      · next hv =>
        refine Memory.wf_cons.mpr ⟨hv, ?_, h⟩
        intro e he
        rw [List.mem_cons] at he
        rcases he with rfl | he
        · exact hlt
        · exact Nat.lt_trans hlt (hab e he)
    · next hnlt =>
      split
      · next heq =>
        subst heq
        split
        · exact hr
        · next hv => exact Memory.wf_cons.mpr ⟨hv, hab, hr⟩
      · next hne =>
        refine Memory.wf_cons.mpr ⟨hw, ?_, ih hr⟩
        intro e he
        rcases Memory.mem_write he with rfl | he
        · change b < a; omega
        · exact hab e he

/-- Reading a byte after a write (a write is read back, and leaves every other byte as it was). -/
theorem Memory.read_write {m : List Host.Cell} (a b : Nat) (v : Byte) (h : Memory.wf m = true) :
    Memory.read (Memory.write m a v) b = if b = a then v else Memory.read m b := by
  induction m with
  | nil =>
    simp only [Memory.write]
    split <;> simp_all [Memory.read]
  | cons x rest ih =>
    obtain ⟨c, w⟩ := x
    obtain ⟨hw, hab, hr⟩ := Memory.wf_cons.mp h
    simp only [Memory.write]
    split
    · next hlt =>
      by_cases hba : b = a
      · subst hba
        by_cases hv : v = erasedByte
        · rw [if_pos hv, if_pos rfl, hv]
          exact Memory.read_above (fun e he => by
            rw [List.mem_cons] at he
            rcases he with rfl | he
            · exact hlt
            · exact Nat.lt_trans hlt (hab e he))
        · rw [if_neg hv, if_pos rfl]
          simp [Memory.read]
      · rw [if_neg hba]
        by_cases hv : v = erasedByte
        · rw [if_pos hv]
        · rw [if_neg hv]
          simp [Memory.read, hba]
    · next hnlt =>
      split
      · next heq =>
        subst heq
        by_cases hba : b = a
        · subst hba
          by_cases hv : v = erasedByte
          · rw [if_pos hv, if_pos rfl, hv]
            exact Memory.read_above hab
          · rw [if_neg hv, if_pos rfl]
            simp [Memory.read]
        · by_cases hv : v = erasedByte <;> simp [Memory.read, hba, hv]
      · next hne =>
        simp only [Memory.read, ih hr]
        by_cases hbc : b = c
        · subst hbc
          rw [if_pos rfl, if_neg (by omega)]
          simp
        · rw [if_neg hbc, if_neg hbc]

theorem Memory.writeRun_wf {m : List Host.Cell} (h : Memory.wf m = true) (a : Nat) (vs : List Byte) :
    Memory.wf (Memory.writeRun m a vs) = true := by
  induction vs generalizing m a with
  | nil => exact h
  | cons v vs ih => exact ih (Memory.write_wf a v h) (a + 1)

/-- Reading a byte after a run of bytes was written. -/
theorem Memory.read_writeRun {m : List Host.Cell} (h : Memory.wf m = true) (a : Nat) (vs : List Byte) (b : Nat) :
    Memory.read (Memory.writeRun m a vs) b =
      if a ≤ b ∧ b < a + vs.length then vs.getD (b - a) 0 else Memory.read m b := by
  induction vs generalizing m a with
  | nil => simp [Memory.writeRun]
  | cons v vs ih =>
    simp only [Memory.writeRun]
    rw [ih (Memory.write_wf a v h) (a + 1), Memory.read_write a b v h]
    by_cases h1 : a + 1 ≤ b ∧ b < a + 1 + vs.length
    · rw [if_pos h1, if_pos (by simp only [List.length_cons]; omega)]
      have : b - a = (b - (a + 1)) + 1 := by omega
      rw [this]
      simp
    · rw [if_neg h1]
      by_cases h2 : b = a
      · subst h2
        rw [if_pos rfl, if_pos (by simp only [List.length_cons]; omega)]
        simp
      · rw [if_neg h2, if_neg (by simp only [List.length_cons]; omega)]

theorem Memory.mem_writeRun {m : List Host.Cell} {a : Nat} {vs : List Byte} {e : Host.Cell}
    (h : e ∈ Memory.writeRun m a vs) : (a ≤ e.1 ∧ e.1 < a + vs.length) ∨ e ∈ m := by
  induction vs generalizing m a with
  | nil => exact .inr h
  | cons v vs ih =>
    rcases ih h with h' | h'
    · left; simp only [List.length_cons]; omega
    · rcases Memory.mem_write h' with rfl | h''
      · left; simp
      · exact .inr h''

theorem Memory.writePage_wf {m : List Host.Cell} (h : Memory.wf m = true) (k : Fin 256) (vs : List Byte) :
    Memory.wf (Memory.writePage m k vs) = true := Memory.writeRun_wf h _ _

theorem Memory.filter_wf {m : List Host.Cell} (h : Memory.wf m = true) (p : Host.Cell → Bool) :
    Memory.wf (m.filter p) = true := by
  induction m with
  | nil => rfl
  | cons x rest ih =>
    obtain ⟨b, w⟩ := x
    obtain ⟨hw, hab, hr⟩ := Memory.wf_cons.mp h
    simp only [List.filter_cons]
    split
    · exact Memory.wf_cons.mpr ⟨hw, fun e he => hab e (List.mem_filter.mp he).1, ih hr⟩
    · exact ih hr

theorem Memory.erasePage_wf {m : List Host.Cell} (h : Memory.wf m = true) (k : Fin 256) :
    Memory.wf (Memory.erasePage m k) = true := Memory.filter_wf h _

/-- Reading a byte after a page erase: erased within the page, as before elsewhere. -/
theorem Memory.read_erasePage {m : List Host.Cell} (h : Memory.wf m = true) (k : Fin 256) (a : Nat) :
    Memory.read (Memory.erasePage m k) a =
      if pageBase k ≤ a ∧ a < pageBase k + 256 then erasedByte else Memory.read m a := by
  induction m with
  | nil => simp [Memory.erasePage, Memory.read]
  | cons x rest ih =>
    obtain ⟨b, w⟩ := x
    obtain ⟨hw, hab, hr⟩ := Memory.wf_cons.mp h
    have ih' := ih hr
    unfold Memory.erasePage at ih' ⊢
    simp only [List.filter_cons]
    by_cases hin : pageBase k ≤ b ∧ b < pageBase k + 256
    · rw [if_neg (by simp [hin.1, hin.2]), ih']
      by_cases ha : pageBase k ≤ a ∧ a < pageBase k + 256
      · rw [if_pos ha, if_pos ha]
      · rw [if_neg ha, if_neg ha]
        simp only [Memory.read]
        rw [if_neg]
        rintro rfl; exact ha hin
    · rw [if_pos (by simp only [Bool.not_eq_true', Bool.and_eq_false_iff, decide_eq_false_iff_not]; omega)]
      simp only [Memory.read]
      by_cases hab' : a = b
      · subst hab'
        rw [if_pos rfl, if_pos rfl, if_neg hin]
      · rw [if_neg hab', if_neg hab', ih']

theorem Memory.mem_erasePage {m : List Host.Cell} {k : Fin 256} {e : Host.Cell} (h : e ∈ Memory.erasePage m k) :
    e ∈ m := (List.mem_filter.mp h).1

end Sys2Proof.Machine
end

