-- ==== Sys2Proof/Laws/Ranking.lean ====
section
/-! SUPPORT. What the ranking unit's operations can do (Machine/Ranking.lean): rank order, the rule of divergence,
evaluations and the removal of a service. -/

namespace Sys2Proof.Machine

/-! ## Rank order -/

theorem qLess_irrefl (a : Option Nat) : qLess a a = false := by
  cases a <;> simp [qLess]

/-- An absent Q counts as -1, every other as itself: the order of R96 and R112 is the order of these numbers. -/
def qRank : Option Nat → Nat
  | none => 0
  | some q => q + 1

theorem qLess_iff (a b : Option Nat) : qLess a b = true ↔ qRank a < qRank b := by
  cases a <;> cases b <;> simp [qLess, qRank]

theorem qRank_inj {a b : Option Nat} (h : qRank a = qRank b) : a = b := by
  cases a <;> cases b <;> simp_all [qRank]

/-- The four keys of R112 as numbers, the better the lower. -/
def rankKey (v : View) (c : CellRef) : Nat × Int × Nat × Nat :=
  (if v.rankable c then 0 else 1, -(qRank (v.q c) : Int), (look v.feeds (feedOf c)).priority, c.val)

/-- Rank order is the lexicographic order of the keys. -/
theorem rankLe_iff (v : View) (a b : CellRef) :
    rankLe v a b = true ↔
      (rankKey v a).1 < (rankKey v b).1 ∨ (rankKey v a).1 = (rankKey v b).1 ∧
        ((rankKey v a).2.1 < (rankKey v b).2.1 ∨ (rankKey v a).2.1 = (rankKey v b).2.1 ∧
          ((rankKey v a).2.2.1 < (rankKey v b).2.2.1 ∨ (rankKey v a).2.2.1 = (rankKey v b).2.2.1 ∧ a.val ≤ b.val)) := by
  unfold rankLe rankKey
  by_cases hr : v.rankable a = v.rankable b
  · by_cases hq : v.q a = v.q b
    · by_cases hp : (look v.feeds (feedOf a)).priority = (look v.feeds (feedOf b)).priority
      · simp only [hr, hq, hp, bne_self_eq_false, Bool.false_eq_true, if_false, decide_eq_true_eq, lt_self_iff_false,
          true_and, false_or]
        exact Fin.le_def
      · simp [hr, hq, hp]
    · have hne : qRank (v.q a) ≠ qRank (v.q b) := fun e => hq (qRank_inj e)
      simp only [hr, bne_self_eq_false, Bool.false_eq_true, if_false, bne_iff_ne, ne_eq, hq, not_false_eq_true, if_true,
        qLess_iff, true_and, lt_self_iff_false, false_or]
      omega
  · cases ha : v.rankable a <;> cases hb : v.rankable b <;> simp_all

theorem rankLe_total (v : View) (a b : CellRef) : rankLe v a b = true ∨ rankLe v b a = true := by
  rw [rankLe_iff, rankLe_iff]; omega

theorem rankLe_trans (v : View) {a b c : CellRef} (h : rankLe v a b = true) (h' : rankLe v b c = true) :
    rankLe v a c = true := by
  rw [rankLe_iff] at *; omega

theorem rankLe_antisymm (v : View) {a b : CellRef} (h : rankLe v a b = true) (h' : rankLe v b a = true) : a = b := by
  rw [rankLe_iff] at *; exact Fin.ext (by omega)

theorem insertRanked_perm (v : View) (x : Sighting) (ys : List Sighting) : (insertRanked v x ys).Perm (x :: ys) := by
  induction ys with
  | nil => exact .refl _
  | cons y ys ih =>
    simp only [insertRanked]
    split
    · exact .refl _
    · exact ((List.Perm.cons y ih).trans (List.Perm.swap x y ys))

/-- Rank order keeps every sighting (R92). -/
theorem ranked_perm (v : View) (gs : List Sighting) : (ranked v gs).Perm gs := by
  induction gs with
  | nil => exact .refl _
  | cons g gs ih => exact (insertRanked_perm v g _).trans (List.Perm.cons g ih)

theorem insertRanked_sorted (v : View) (x : Sighting) {ys : List Sighting}
    (h : ys.Pairwise (fun a b => rankLe v a.cell b.cell = true)) :
    (insertRanked v x ys).Pairwise (fun a b => rankLe v a.cell b.cell = true) := by
  induction ys with
  | nil => simp [insertRanked]
  | cons y ys ih =>
    rw [List.pairwise_cons] at h
    simp only [insertRanked]
    split
    · next hxy =>
      refine List.pairwise_cons.mpr ⟨?_, List.pairwise_cons.mpr h⟩
      intro z hz
      rw [List.mem_cons] at hz
      rcases hz with rfl | hz
      · exact hxy
      · exact rankLe_trans v hxy (h.1 z hz)
    · next hxy =>
      refine List.pairwise_cons.mpr ⟨?_, ih h.2⟩
      intro z hz
      rw [(insertRanked_perm v x ys).mem_iff, List.mem_cons] at hz
      rcases hz with rfl | hz
      · rcases rankLe_total v z.cell y.cell with h' | h'
        · exact absurd h' hxy
        · exact h'
      · exact h.1 z hz

/-- Sightings in rank order stand in rank order. -/
theorem ranked_sorted (v : View) (gs : List Sighting) :
    (ranked v gs).Pairwise (fun a b => rankLe v a.cell b.cell = true) := by
  induction gs with
  | nil => exact List.Pairwise.nil
  | cons g gs ih => exact insertRanked_sorted v g ih

theorem mem_sightings {d : Dir} {n : SlotNo} {g : Sighting} : g ∈ d.sightings n ↔ g ∈ d.pool ∧ g.slot = n := by
  simp [Dir.sightings, List.mem_filter]

theorem holds_iff {d : Dir} {n : SlotNo} {c : CellRef} :
    d.holds n c = true ↔ ∃ g ∈ d.sightings n, g.cell = c := by
  simp only [Dir.holds, List.any_eq_true, Bool.and_eq_true, beq_iff_eq, mem_sightings]
  constructor
  · rintro ⟨g, hg, h1, h2⟩; exact ⟨g, ⟨hg, h1⟩, h2⟩
  · rintro ⟨g, ⟨hg, h1⟩, h2⟩; exact ⟨g, hg, h1, h2⟩

/-- The top-ranked rankable sighting of a service lies on a rankable cell, and no rankable one ranks above it. -/
theorem topRankable_some {v : View} {d : Dir} {n : SlotNo} {c : CellRef} (h : topRankable v d n = some c) :
    d.holds n c = true ∧ v.rankable c = true
      ∧ ∀ k, d.holds n k = true → v.rankable k = true → rankLe v c k = true := by
  unfold topRankable rankedOf at h
  rw [Option.map_eq_some_iff] at h
  obtain ⟨g, hg, rfl⟩ := h
  have hs := ranked_sorted v (d.sightings n)
  have hp := ranked_perm v (d.sightings n)
  rw [List.find?_eq_some_iff_append] at hg
  obtain ⟨hr, as, bs, he, ha⟩ := hg
  have hmem : g ∈ d.sightings n := by rw [← hp.mem_iff, he]; simp
  refine ⟨holds_iff.mpr ⟨g, hmem, rfl⟩, hr, ?_⟩
  intro k hk hrk
  obtain ⟨z, hz, rfl⟩ := holds_iff.mp hk
  rw [← hp.mem_iff, he, List.mem_append, List.mem_cons] at hz
  rw [he, List.pairwise_append, List.pairwise_cons] at hs
  rcases hz with hz | rfl | hz
  · exact absurd hrk (by simpa using ha z hz)
  · exact (rankLe_total v z.cell z.cell).elim id id
  · exact hs.2.1.1 z hz

/-- A service has a top-ranked rankable sighting exactly when it has a rankable one. -/
theorem topRankable_isSome (v : View) (d : Dir) (n : SlotNo) : (topRankable v d n).isSome = hasRankable v d n := by
  have hp := ranked_perm v (d.sightings n)
  rw [Bool.eq_iff_iff]
  simp only [topRankable, rankedOf, hasRankable, Option.isSome_map, List.find?_isSome, List.any_eq_true]
  constructor
  · rintro ⟨g, hg, hr⟩; exact ⟨g, hp.mem_iff.mp hg, hr⟩
  · rintro ⟨g, hg, hr⟩; exact ⟨g, hp.mem_iff.mpr hg, hr⟩

theorem topRankable_none {v : View} {d : Dir} {n : SlotNo} : topRankable v d n = none ↔ hasRankable v d n = false := by
  rw [← topRankable_isSome]; cases topRankable v d n <;> simp

theorem hasRankable_of_holds {v : View} {d : Dir} {n : SlotNo} {c : CellRef} (h : d.holds n c = true)
    (hr : v.rankable c = true) : hasRankable v d n = true := by
  obtain ⟨g, hg, rfl⟩ := holds_iff.mp h
  exact List.any_eq_true.mpr ⟨g, hg, hr⟩

/-! ## The rule of divergence -/

/-- All the rule of divergence can do to the books: the pool, the grace flag and the other slots stay; the slot takes
another advice state, or a RETIRING one becomes FREE; at most ADVICE_READY is set. -/
theorem diverge_spec (v : View) (n : SlotNo) (b : Books) :
    (diverge v n b).dir.pool = b.dir.pool ∧ (diverge v n b).dir.grace = b.dir.grace
      ∧ (∀ k, k ≠ n → look (diverge v n b).dir.slots k = look b.dir.slots k)
      ∧ ((look b.dir.slots n).state = .retiring ∧ look (diverge v n b).dir.slots n = Slot.empty
          ∨ ∃ a, look (diverge v n b).dir.slots n = { look b.dir.slots n with advice := a })
      ∧ ((diverge v n b).raised = b.raised ∨ (diverge v n b).raised = b.raised ||| Condition.adviceReady.bit) := by
  have hsame : ∃ a, look b.dir.slots n = { look b.dir.slots n with advice := a } := ⟨_, rfl⟩
  have hset : ∀ (x : Slot) k, k ≠ n → look (put b.dir.slots n x) k = look b.dir.slots k :=
    fun x k hk => look_put_ne _ _ hk
  have hsettled : (look b.dir.slots n).state = .retiring ∧ settled (look b.dir.slots n) = Slot.empty
      ∨ ∃ a, settled (look b.dir.slots n) = { look b.dir.slots n with advice := a } := by
    unfold settled
    split
    · next h => exact .inl ⟨h, rfl⟩
    · exact .inr ⟨_, rfl⟩
  unfold diverge
  split
  · unfold divergeNone
    dsimp only
    split
    · exact ⟨rfl, rfl, fun _ _ => rfl, .inr hsame, .inl rfl⟩
    · split
      · refine ⟨rfl, rfl, hset _, .inr ⟨.queued, by simp⟩, ?_⟩
        split
        · exact .inr rfl
        · exact .inl rfl
      · exact ⟨rfl, rfl, hset _, .inr ⟨.owed, by simp⟩, .inl rfl⟩
  · unfold divergeQueued
    dsimp only
    split
    · exact ⟨rfl, rfl, hset _, by simpa using hsettled, .inl rfl⟩
    · exact ⟨rfl, rfl, fun _ _ => rfl, .inr hsame, .inl rfl⟩
  · unfold divergeOwed
    dsimp only
    split
    · exact ⟨rfl, rfl, hset _, by simpa using hsettled, .inl rfl⟩
    · exact ⟨rfl, rfl, fun _ _ => rfl, .inr hsame, .inl rfl⟩

@[simp] theorem diverge_pool (v : View) (n : SlotNo) (b : Books) : (diverge v n b).dir.pool = b.dir.pool :=
  (diverge_spec v n b).1
@[simp] theorem diverge_grace (v : View) (n : SlotNo) (b : Books) : (diverge v n b).dir.grace = b.dir.grace :=
  (diverge_spec v n b).2.1
theorem diverge_other (v : View) {n k : SlotNo} (b : Books) (h : k ≠ n) :
    look (diverge v n b).dir.slots k = look b.dir.slots k := (diverge_spec v n b).2.2.1 k h

/-- The rule of divergence on a slot that is not RETIRING changes its advice state only. -/
theorem diverge_slot (v : View) {n : SlotNo} {b : Books} (h : (look b.dir.slots n).state ≠ .retiring) :
    ∃ a, look (diverge v n b).dir.slots n = { look b.dir.slots n with advice := a } :=
  (diverge_spec v n b).2.2.2.1.elim (fun h' => absurd h'.1 h) id

/-- No condition that was set is lost by the rule of divergence. -/
theorem diverge_raised (v : View) (n : SlotNo) (b : Books) : b.raised &&& (diverge v n b).raised = b.raised := by
  rcases (diverge_spec v n b).2.2.2.2 with h | h <;> rw [h]
  · exact BitVec.and_self
  · ext i; simp; tauto

/-! ## Evaluation -/

/-- An evaluated slot's judgement (R101). -/
theorem judged_state (v : View) (d : Dir) (n : SlotNo) (x : Slot) :
    (judged v d n x).state = if hasRankable v d n then .live else .orphan := by
  unfold judged
  split
  · rfl
  · split
    · assumption
    · rfl

/-- What the judgement and the steps of an evaluation keep of a slot. -/
def Slot.sameEntry (x y : Slot) : Prop :=
  y.key = x.key ∧ y.kind = x.kind ∧ y.name = x.name ∧ y.scrambled = x.scrambled ∧ y.reported = x.reported
    ∧ y.advice = x.advice ∧ y.created = x.created

theorem Slot.sameEntry.trans {x y z : Slot} (h : x.sameEntry y) (h' : y.sameEntry z) : x.sameEntry z := by
  unfold Slot.sameEntry at *; simp_all

theorem withoutLostRoles_kept (d : Dir) (n : SlotNo) (x : Slot) :
    x.sameEntry (withoutLostRoles d n x) ∧ (withoutLostRoles d n x).chosen = x.chosen
      ∧ (withoutLostRoles d n x).reason = x.reason
      ∧ (withoutLostRoles d n x).state = x.state ∧ (withoutLostRoles d n x).orphanSince = x.orphanSince
      ∧ (withoutLostRoles d n x).challenger = x.challenger.filter (fun t => d.holds n t.1)
      ∧ (withoutLostRoles d n x).pin = x.pin.filter (fun c => d.holds n c)
      ∧ (withoutLostRoles d n x).suspended = (x.suspended && (x.pin.isNone || (x.pin.filter (fun c => d.holds n c)).isSome)) := by
  unfold withoutLostRoles Slot.sameEntry
  cases hp : x.pin with
  | none => simp
  | some c =>
    dsimp only
    cases hh : d.holds n c <;> simp [hh, Option.filter]

theorem judged_kept (v : View) (d : Dir) (n : SlotNo) (x : Slot) :
    x.sameEntry (judged v d n x) ∧ (judged v d n x).chosen = x.chosen ∧ (judged v d n x).reason = x.reason
      ∧ (judged v d n x).challenger = x.challenger ∧ (judged v d n x).pin = x.pin
      ∧ (judged v d n x).suspended = x.suspended := by
  unfold judged Slot.sameEntry
  split
  · simp
  · split <;> simp

/-- The orphan-since time of a judged slot is present exactly when it is judged ORPHAN (R101). -/
theorem judged_orphanSince {v : View} {d : Dir} {n : SlotNo} {x : Slot}
    (h : x.state = .orphan → x.orphanSince.isSome = true) :
    (judged v d n x).orphanSince.isSome = true ↔ (judged v d n x).state = .orphan := by
  unfold judged
  split
  · simp
  · split
    · next h' => simp [h', h h']
    · simp

/-- What the failover step and the improvement step keep, and what they choose: the chosen source stands, or is the
top-ranked rankable sighting. -/
theorem failoverOrImprove_spec (v : View) (d : Dir) (n : SlotNo) (x : Slot) :
    let y := failoverOrImprove v d n x
    x.sameEntry y ∧ y.state = x.state ∧ y.orphanSince = x.orphanSince ∧ y.pin = x.pin ∧ y.suspended = x.suspended
      ∧ (y.chosen = chosenStands v d n x ∧ (chosenStands v d n x).isSome = true ∨ y.chosen = topRankable v d n)
      ∧ (∀ t ∈ y.challenger, topRankable v d n = some t.1 ∧ t.2 < v.policy.confirm
          ∧ t.2 = countAfter t.1 x.challenger) := by
  unfold failoverOrImprove Slot.sameEntry
  dsimp only
  cases hc : chosenStands v d n x with
  | none =>
    dsimp only [failover]
    cases ht : topRankable v d n <;> simp
  | some c =>
    have hx : x.chosen = some c := by
      have := hc
      simp only [chosenStands, Option.filter_eq_some_iff] at this
      exact this.1
    dsimp only [improve]
    split
    · simp [hx]
    · split
      · simp [hx]
      · next top ht =>
        split
        · simp [hx]
        · split
          · simp [ht]
          · next hk => simpa [hx, ht] using hk

/-- Everything that the steps of an evaluation do to a slot (R101, R113 to R117). -/
theorem evaluated_spec (v : View) (d : Dir) (n : SlotNo) (x : Slot) :
    let y := evaluated v d n x
    x.sameEntry y ∧ y.state = (if hasRankable v d n then .live else .orphan)
      ∧ y.pin = x.pin.filter (fun c => d.holds n c)
      ∧ (∀ c ∈ y.chosen, d.holds n c = true ∧ v.rankable c = true)
      ∧ (∀ t ∈ y.challenger, d.holds n t.1 = true ∧ v.rankable t.1 = true ∧ t.2 < v.policy.confirm ∧ 1 ≤ t.2)
      ∧ ((x.state = .orphan → x.orphanSince.isSome = true) → (y.orphanSince.isSome = true ↔ y.state = .orphan)) := by
  have hw := withoutLostRoles_kept d n x
  have hj := judged_kept v d n (withoutLostRoles d n x)
  have hs := judged_state v d n (withoutLostRoles d n x)
  have ho := @judged_orphanSince v d n (withoutLostRoles d n x)
  have hcase : ∀ z : Slot, (judged v d n (withoutLostRoles d n x)).sameEntry z →
      z.state = (judged v d n (withoutLostRoles d n x)).state →
      z.orphanSince = (judged v d n (withoutLostRoles d n x)).orphanSince →
      z.pin = (judged v d n (withoutLostRoles d n x)).pin →
      let y := failoverOrImprove v d n z
      x.sameEntry y ∧ y.state = (if hasRankable v d n then .live else .orphan)
        ∧ y.pin = x.pin.filter (fun c => d.holds n c)
        ∧ (∀ c ∈ y.chosen, d.holds n c = true ∧ v.rankable c = true)
        ∧ (∀ t ∈ y.challenger, d.holds n t.1 = true ∧ v.rankable t.1 = true ∧ t.2 < v.policy.confirm ∧ 1 ≤ t.2)
        ∧ ((x.state = .orphan → x.orphanSince.isSome = true) → (y.orphanSince.isSome = true ↔ y.state = .orphan)) := by
    intro z hz1 hz2 hz3 hz4
    obtain ⟨f1, f2, f3, f4, -, f6, f7⟩ := failoverOrImprove_spec v d n z
    refine ⟨(hw.1.trans hj.1).trans (hz1.trans f1), by rw [f2, hz2, hs], ?_, ?_, ?_, ?_⟩
    · rw [f4, hz4, hj.2.2.2.2.1, hw.2.2.2.2.2.2.1]
    · intro c hc
      rcases f6 with ⟨f6, -⟩ | f6
      · rw [f6] at hc
        simp only [chosenStands, Option.mem_def, Option.filter_eq_some_iff, Bool.and_eq_true] at hc
        exact hc.2
      · rw [f6] at hc
        exact ⟨(topRankable_some hc).1, (topRankable_some hc).2.1⟩
    · intro t ht
      obtain ⟨g1, g2, g3⟩ := f7 t ht
      refine ⟨(topRankable_some g1).1, (topRankable_some g1).2.1, g2, ?_⟩
      rw [g3]
      unfold countAfter
      split
      · split <;> omega
      · omega
    · intro hx
      rw [f3, hz3, f2, hz2]
      exact ho (by rw [hw.2.2.2.1, hw.2.2.2.2.1]; exact hx)
  intro y
  have hy0 : y = match (judged v d n (withoutLostRoles d n x)).pin with
    | some c =>
      if v.rankable c then pinStep c (judged v d n (withoutLostRoles d n x))
      else failoverOrImprove v d n { judged v d n (withoutLostRoles d n x) with suspended := true }
    | none => failoverOrImprove v d n (judged v d n (withoutLostRoles d n x)) := rfl
  have hpin : (judged v d n (withoutLostRoles d n x)).pin = x.pin.filter (fun c => d.holds n c) := by
    rw [hj.2.2.2.2.1, hw.2.2.2.2.2.2.1]
  cases hp : (judged v d n (withoutLostRoles d n x)).pin with
  | none =>
    have : y = failoverOrImprove v d n (judged v d n (withoutLostRoles d n x)) := by rw [hy0, hp]
    rw [this]
    exact hcase _ ⟨rfl, rfl, rfl, rfl, rfl, rfl, rfl⟩ rfl rfl rfl
  | some c =>
    by_cases hr : v.rankable c = true
    · have hy : y = pinStep c (judged v d n (withoutLostRoles d n x)) := by rw [hy0, hp]; simp only [hr, if_true]
      rw [hy]
      have hh : d.holds n c = true := by
        rw [hp] at hpin
        have := hpin.symm
        simp only [Option.filter_eq_some_iff] at this
        exact this.2
      refine ⟨(hw.1.trans hj.1).trans ⟨rfl, rfl, rfl, rfl, rfl, rfl, rfl⟩, hs, ?_, ?_, ?_, ?_⟩
      · exact hpin
      · intro k hk
        obtain rfl : c = k := by simpa [pinStep] using hk
        exact ⟨hh, hr⟩
      · intro t ht; simp [pinStep] at ht
      · intro hx
        exact ho (by rw [hw.2.2.2.1, hw.2.2.2.2.1]; exact hx)
    · have hy : y = failoverOrImprove v d n
          { judged v d n (withoutLostRoles d n x) with suspended := true } := by
        rw [hy0, hp]; simp only [if_neg hr]
      rw [hy]
      exact hcase _ ⟨rfl, rfl, rfl, rfl, rfl, rfl, rfl⟩ rfl rfl rfl

/-- Whether an evaluation takes place (R114, R120). -/
def evaluates (x : Slot) (released : Bool) : Bool :=
  x.state == .live || x.state == .orphan || (x.state == .provisional && released)

/-- One evaluation: the slot evaluated and handed to the rule of divergence, or nothing. -/
theorem evaluate_eq (v : View) (released : Bool) (n : SlotNo) (b : Books) :
    evaluate v released n b =
      if evaluates (look b.dir.slots n) released then
        diverge v n { b with dir := b.dir.setSlot n (evaluated v b.dir n (look b.dir.slots n)) }
      else b := by
  unfold evaluate evaluates
  cases h : (look b.dir.slots n).state <;> simp [h]

/-- All an evaluation can do to the books. -/
theorem evaluate_spec (v : View) (released : Bool) (n : SlotNo) (b : Books) :
    (evaluate v released n b).dir.pool = b.dir.pool ∧ (evaluate v released n b).dir.grace = b.dir.grace
      ∧ (∀ k, k ≠ n → look (evaluate v released n b).dir.slots k = look b.dir.slots k)
      ∧ (evaluates (look b.dir.slots n) released = true →
          ∃ a, look (evaluate v released n b).dir.slots n =
            { evaluated v b.dir n (look b.dir.slots n) with advice := a })
      ∧ b.raised &&& (evaluate v released n b).raised = b.raised := by
  rw [evaluate_eq]
  split
  · refine ⟨by simp, by simp, fun k hk => ?_, fun _ => ?_, ?_⟩
    · rw [diverge_other _ _ hk]; exact look_put_ne _ _ hk
    · have hs : (look ((b.dir.setSlot n (evaluated v b.dir n (look b.dir.slots n))).slots) n).state ≠ .retiring := by
        simp only [Dir.setSlot_slots, look_put_self]
        rw [(evaluated_spec v b.dir n (look b.dir.slots n)).2.1]
        split <;> simp
      obtain ⟨a, ha⟩ := diverge_slot v (b := { b with dir := b.dir.setSlot n (evaluated v b.dir n (look b.dir.slots n)) }) hs
      refine ⟨a, ?_⟩
      rw [ha]
      simp
    · exact diverge_raised v n { b with dir := b.dir.setSlot n (evaluated v b.dir n (look b.dir.slots n)) }
  · next h => exact ⟨rfl, rfl, fun _ _ => rfl, fun h' => absurd h' h, BitVec.and_self⟩

@[simp] theorem evaluate_pool (v : View) (released : Bool) (n : SlotNo) (b : Books) :
    (evaluate v released n b).dir.pool = b.dir.pool := (evaluate_spec v released n b).1
@[simp] theorem evaluate_grace (v : View) (released : Bool) (n : SlotNo) (b : Books) :
    (evaluate v released n b).dir.grace = b.dir.grace := (evaluate_spec v released n b).2.1

/-! ## The evaluations of one event -/

/-- What holds of the books and is kept by every evaluation holds after all of them. -/
theorem evaluateMarked_induct {v : View} {marked released : List SlotNo} (P : Books → Prop)
    (step : ∀ b rel n, P b → P (evaluate v rel n b)) {b : Books} (h : P b) : P (evaluateMarked v marked released b) := by
  unfold evaluateMarked
  generalize List.finRange 512 = ns
  induction ns generalizing b with
  | nil => exact h
  | cons n ns ih =>
    rw [List.foldl_cons]
    apply ih
    split
    · exact step _ _ _ h
    · split
      · exact step _ _ _ h
      · exact h

@[simp] theorem evaluateMarked_pool (v : View) (marked released : List SlotNo) (b : Books) :
    (evaluateMarked v marked released b).dir.pool = b.dir.pool :=
  evaluateMarked_induct (P := fun x => x.dir.pool = b.dir.pool) (fun c rel n h => by rw [evaluate_pool, h]) rfl

@[simp] theorem evaluateMarked_grace (v : View) (marked released : List SlotNo) (b : Books) :
    (evaluateMarked v marked released b).dir.grace = b.dir.grace :=
  evaluateMarked_induct (P := fun x => x.dir.grace = b.dir.grace) (fun c rel n h => by rw [evaluate_grace, h]) rfl

theorem flags_trans {a b c : Flags12} (h : a &&& b = a) (h' : b &&& c = b) : a &&& c = a := by
  rw [← h, BitVec.and_assoc, h']

/-- No condition that was set is lost by the evaluations. -/
theorem evaluateMarked_raised (v : View) (marked released : List SlotNo) (b : Books) :
    b.raised &&& (evaluateMarked v marked released b).raised = b.raised :=
  evaluateMarked_induct (P := fun x => b.raised &&& x.raised = b.raised)
    (fun c rel n h => flags_trans h (evaluate_spec v rel n c).2.2.2.2) BitVec.and_self

/-- A slot that is neither marked nor released is left as it was. -/
theorem evaluateMarked_other {v : View} {marked released : List SlotNo} {n : SlotNo} (b : Books)
    (h : n ∉ marked) (h' : n ∉ released) :
    look (evaluateMarked v marked released b).dir.slots n = look b.dir.slots n := by
  unfold evaluateMarked
  generalize List.finRange 512 = ns
  induction ns generalizing b with
  | nil => rfl
  | cons k ns ih =>
    rw [List.foldl_cons, ih]
    split
    · next hc =>
      have hk : n ≠ k := fun e => h' (e ▸ List.contains_iff_mem.mp hc)
      exact (evaluate_spec v true k b).2.2.1 n hk
    · split
      · next hc =>
        have hk : n ≠ k := fun e => h (e ▸ List.contains_iff_mem.mp hc)
        exact (evaluate_spec v false k b).2.2.1 n hk
      · rfl

/-! ## What an evaluation reads of the cells

States and Qs, and nothing else of them: a cell's due time, its engagement or its roster does not bear on the ranking
unit. -/

/-- Two views with the same states and Qs of the cells, and the same feeds, policy and clock. -/
structure View.Agrees (v u : View) : Prop where
  state  : ∀ c, v.state c = u.state c
  q      : ∀ c, v.q c = u.q c
  feeds  : v.feeds = u.feeds
  policy : v.policy = u.policy
  now    : v.now = u.now

theorem View.Agrees.rankable {v u : View} (h : v.Agrees u) (c : CellRef) : v.rankable c = u.rankable c := by
  rw [View.rankable, View.rankable, h.state]

theorem rankLe_congr {v u : View} (h : v.Agrees u) (a b : CellRef) : rankLe v a b = rankLe u a b := by
  simp only [rankLe, h.rankable, h.q, h.feeds]

theorem ranked_congr {v u : View} (h : v.Agrees u) (l : List Sighting) : ranked v l = ranked u l := by
  have hi : ∀ x (l : List Sighting), insertRanked v x l = insertRanked u x l := fun x l => by
    induction l with
    | nil => rfl
    | cons y ys ih => simp only [insertRanked, rankLe_congr h, ih]
  induction l with
  | nil => rfl
  | cons x xs ih => simp only [ranked, ih, hi]

theorem topRankable_congr {v u : View} (h : v.Agrees u) (d : Dir) (n : SlotNo) : topRankable v d n = topRankable u d n := by
  simp only [topRankable, rankedOf, ranked_congr h, h.rankable]

theorem diverge_congr {v u : View} (h : v.Agrees u) (n : SlotNo) (b : Books) : diverge v n b = diverge u n b := by
  have hq : ∀ c, targetQ v c = targetQ u c := fun c => by cases c with
    | none => rfl
    | some c => exact h.q c
  have hr : ∀ x, refresh v n x = refresh u n x := fun x => funext fun a => by simp only [refresh, hq]
  simp only [diverge, divergeNone, divergeQueued, adviceFor, hq, hr]

theorem evaluated_congr {v u : View} (h : v.Agrees u) (d : Dir) (n : SlotNo) (x : Slot) :
    evaluated v d n x = evaluated u d n x := by
  have hi : ∀ c y, improve v d n c y = improve u d n c y := fun c y => by
    simp only [improve, aheadByMargin, topRankable_congr h, h.q, h.policy]
    rfl
  have hj : ∀ y, judged v d n y = judged u d n y := fun y => by
    simp only [judged, hasRankable, h.rankable, h.now]
    rfl
  have hc : ∀ y, chosenStands v d n y = chosenStands u d n y := fun y => by simp only [chosenStands, h.rankable]
  have hf : ∀ y, failover v d n y = failover u d n y := fun y => by
    simp only [failover, topRankable_congr h]
  have hfi : ∀ y, failoverOrImprove v d n y = failoverOrImprove u d n y := fun y => by
    simp only [failoverOrImprove, hc, hi, hf]
  simp only [evaluated, hj, hfi, h.rankable]

/-- Evaluations from views that agree are the same. -/
theorem evaluate_congr {v u : View} (h : v.Agrees u) (released : Bool) (n : SlotNo) (b : Books) :
    evaluate v released n b = evaluate u released n b := by
  simp only [evaluate, evaluated_congr h, diverge_congr h]

theorem evaluateMarked_congr {v u : View} (h : v.Agrees u) (marked released : List SlotNo) (b : Books) :
    evaluateMarked v marked released b = evaluateMarked u marked released b := by
  simp only [evaluateMarked, evaluate_congr h]

/-! ## Removing a service -/

/-- All the removal of a service can do (R104): its sightings go, its slot is RETIRING or FREE, the other slots and
their sightings stay. -/
theorem removeService_spec (v : View) (n : SlotNo) (b : Books) :
    (removeService v n b).dir.pool = b.dir.pool.filter (fun g => g.slot != n)
      ∧ (removeService v n b).dir.grace = b.dir.grace
      ∧ (∀ k, k ≠ n → look (removeService v n b).dir.slots k = look b.dir.slots k)
      ∧ (look (removeService v n b).dir.slots n = Slot.empty
          ∨ ∃ a, a ≠ .none ∧ look (removeService v n b).dir.slots n =
              { look b.dir.slots n with
                chosen := none, challenger := none, pin := none, suspended := false, orphanSince := none
                reason := some .serviceGone, state := .retiring, advice := a })
      ∧ b.raised &&& (removeService v n b).raised = b.raised := by
  unfold removeService
  dsimp only
  split
  · generalize hb : ({ b with dir := { b.dir with
      pool := b.dir.pool.filter (fun g => g.slot != n)
      slots := put b.dir.slots n { look b.dir.slots n with
        chosen := none, challenger := none, pin := none, suspended := false, orphanSince := none
        reason := some .serviceGone, state := .retiring } } } : Books) = b1
    have hp : b1.dir.pool = b.dir.pool.filter (fun g => g.slot != n) := by rw [← hb]
    have hg : b1.dir.grace = b.dir.grace := by rw [← hb]
    have hr : b1.raised = b.raised := by rw [← hb]
    have ho : ∀ k, k ≠ n → look b1.dir.slots k = look b.dir.slots k := fun k hk => by
      rw [← hb]; exact look_put_ne _ _ hk
    have hn : look b1.dir.slots n = { look b.dir.slots n with
        chosen := none, challenger := none, pin := none, suspended := false, orphanSince := none
        reason := some .serviceGone, state := .retiring } := by rw [← hb]; simp
    obtain ⟨d1, d2, d3, d4, -⟩ := diverge_spec v n b1
    have d5 := diverge_raised v n b1
    rw [hr] at d5
    split
    · refine ⟨by simp [hp], by simp [hg], fun k hk => ?_, .inl (by simp), d5⟩
      simp only [Dir.setSlot_slots]
      rw [look_put_ne _ _ hk, d3 k hk, ho k hk]
    · next hne =>
      refine ⟨by rw [d1, hp], by rw [d2, hg], fun k hk => by rw [d3 k hk, ho k hk], ?_, d5⟩
      rcases d4 with ⟨-, h⟩ | ⟨a, h⟩
      · exact .inl h
      · refine .inr ⟨a, ?_, by rw [h, hn]⟩
        rintro rfl
        exact hne (by rw [h])
  · exact ⟨rfl, rfl, fun k hk => look_put_ne _ _ hk, .inl (by simp), BitVec.and_self⟩

end Sys2Proof.Machine
end

