-- ==== Sys2Proof/Laws/Directory.lean ====
section
/-! SUPPORT. What the work of the service directory can do (Machine/Directory.lean): removals, admission, the taking of
entries, the processing of a roster. -/

namespace Sys2Proof.Machine

/-! ## Removal of sightings (R99) -/

/-- The removal of sightings leaves cells, slots, queue, grace flag and conditions; the pool loses exactly the sightings
on the cell whose service passes the test; their services are marked and noted as having lost one. -/
theorem removeOnCell_spec (c : CellRef) (drop : SlotNo → Bool) (w : Work) :
    let u := removeOnCell c drop w
    u.cells = w.cells ∧ u.raised = w.raised
      ∧ u.dir = { w.dir with pool := w.dir.pool.filter (fun g => !(g.cell == c && drop g.slot)) }
      ∧ (∀ n, n ∈ u.marked ↔ n ∈ w.marked ∨ drop n = true ∧ w.dir.holds n c = true)
      ∧ (∀ n, n ∈ u.lostOn ↔ n ∈ w.lostOn ∨ drop n = true ∧ w.dir.holds n c = true)
      ∧ (∀ n, n ∈ u.release ↔ n ∈ w.release ∨ drop n = true ∧ w.dir.holds n c = true
          ∧ (look w.dir.slots n).state = .provisional ∧ (look w.dir.slots n).chosen = some c) := by
  intro u
  have key : ∀ (ns : List SlotNo) (w : Work),
      let u := ns.foldl (fun w n => let w1 := removeSighting n c w; { w1 with lostOn := n :: w1.lostOn }) w
      u.cells = w.cells ∧ u.raised = w.raised
        ∧ u.dir = { w.dir with pool := w.dir.pool.filter (fun g => !(g.cell == c && decide (g.slot ∈ ns))) }
        ∧ (∀ n, n ∈ u.marked ↔ n ∈ w.marked ∨ n ∈ ns) ∧ (∀ n, n ∈ u.lostOn ↔ n ∈ w.lostOn ∨ n ∈ ns)
        ∧ (∀ n, n ∈ u.release ↔ n ∈ w.release ∨ n ∈ ns ∧ (look w.dir.slots n).state = .provisional
            ∧ (look w.dir.slots n).chosen = some c) := by
    intro ns
    induction ns with
    | nil => intro w; simp
    | cons k ns ih =>
      intro w
      rw [List.foldl_cons]
      obtain ⟨h1, h2, h3, h4, h5, h6⟩ := ih (let w1 := removeSighting k c w; { w1 with lostOn := k :: w1.lostOn })
      refine ⟨h1, h2, ?_, fun n => ?_, fun n => ?_, fun n => ?_⟩
      · rw [h3]
        simp only [removeSighting, List.filter_filter]
        congr 1
        apply List.filter_congr
        intro g _
        by_cases hk : g.slot = k <;> by_cases hc : g.cell = c <;> simp [hk, hc]
      · rw [h4]; simp [removeSighting]; tauto
      · rw [h5]; simp [removeSighting]; tauto
      · rw [h6]
        simp only [removeSighting, List.mem_cons]
        by_cases hn : n = k
        · subst hn
          split <;> simp <;> tauto
        · split <;> simp [hn]
  have hmem : ∀ n, n ∈ (w.dir.pool.filter (fun g => g.cell == c && drop g.slot)).map Sighting.slot ↔
      drop n = true ∧ w.dir.holds n c = true := by
    intro n
    simp only [List.mem_map, List.mem_filter, Bool.and_eq_true, beq_iff_eq, holds_iff, mem_sightings]
    constructor
    · rintro ⟨g, ⟨hg, h1, h2⟩, rfl⟩; exact ⟨h2, g, ⟨hg, rfl⟩, h1⟩
    · rintro ⟨h2, g, ⟨hg, rfl⟩, h1⟩; exact ⟨g, ⟨hg, h1, h2⟩, rfl⟩
  obtain ⟨h1, h2, h3, h4, h5, h6⟩ := key ((w.dir.pool.filter (fun g => g.cell == c && drop g.slot)).map Sighting.slot) w
  refine ⟨h1, h2, ?_, fun n => ?_, fun n => ?_, fun n => ?_⟩
  · refine h3.trans ?_
    refine congrArg (fun p => { w.dir with pool := p }) (List.filter_congr ?_)
    intro g hg
    have hh := hmem g.slot
    by_cases hc : g.cell = c
    · have : w.dir.holds g.slot c = true := holds_iff.mpr ⟨g, mem_sightings.mpr ⟨hg, rfl⟩, hc⟩
      simp only [hc, beq_self_eq_true, Bool.true_and, hh, this, and_true, Bool.decide_eq_true]
    · rw [beq_false_of_ne hc, Bool.false_and, Bool.false_and]
  · exact (h4 n).trans (or_congr Iff.rfl (hmem n))
  · exact (h5 n).trans (or_congr Iff.rfl (hmem n))
  · exact (h6 n).trans (or_congr Iff.rfl (by rw [hmem n]; tauto))

/-! ## Admission (R82, R84) -/

/-- The admitted set keeps the order of the roster, holds each key at most once, no service number 0 and none seen
before, and only entries that admission admits. -/
theorem admitEntries_spec (a : Admission) (net : Half) (seen : List Half) (es : List Entry) :
    let r := admitEntries a net seen es
    r.1.Sublist es ∧ (r.1.map Entry.service).Nodup
      ∧ ∀ e ∈ r.1, e.service ≠ 0 ∧ e.service ∉ seen ∧ a.admits net e = true := by
  induction es generalizing seen with
  | nil => simp [admitEntries]
  | cons e es ih =>
    simp only [admitEntries]
    split
    · obtain ⟨h1, h2, h3⟩ := ih seen
      exact ⟨h1.cons e, h2, h3⟩
    · next hn =>
      rw [not_or] at hn
      obtain ⟨h1, h2, h3⟩ := ih (e.service :: seen)
      split
      · next ha =>
        refine ⟨h1.cons_cons e, ?_, ?_⟩
        · simp only [List.map_cons, List.nodup_cons]
          refine ⟨?_, h2⟩
          intro hmem
          obtain ⟨x, hx, hxe⟩ := List.mem_map.mp hmem
          exact (h3 x hx).2.1 (by simp [hxe])
        · intro x hx
          rw [List.mem_cons] at hx
          rcases hx with rfl | hx
          · exact ⟨hn.1, hn.2, ha⟩
          · obtain ⟨g1, g2, g3⟩ := h3 x hx
            exact ⟨g1, fun h => g2 (by simp [h]), g3⟩
      · refine ⟨h1.cons e, h2, ?_⟩
        intro x hx
        obtain ⟨g1, g2, g3⟩ := h3 x hx
        exact ⟨g1, fun h => g2 (by simp [h]), g3⟩

/-! ## Making room (R95 to R98) -/

/-- Work that only sheds sightings, marking and releasing as R94 and R99 say. -/
structure Work.Sheds (w u : Work) : Prop where
  cells : u.cells = w.cells
  raised : u.raised = w.raised
  lostOn : u.lostOn = w.lostOn
  slots : u.dir.slots = w.dir.slots
  queue : u.dir.queue = w.dir.queue
  grace : u.dir.grace = w.dir.grace
  pool : u.dir.pool.Sublist w.dir.pool
  marked : ∀ k ∈ w.marked, k ∈ u.marked
  release : ∀ k ∈ w.release, k ∈ u.release
  gone : ∀ s ∈ w.dir.pool, s ∉ u.dir.pool → s.slot ∈ u.marked
  freed : ∀ s ∈ w.dir.pool, s ∉ u.dir.pool → (look w.dir.slots s.slot).state = .provisional →
    (look w.dir.slots s.slot).chosen = some s.cell → s.slot ∈ u.release

theorem Work.Sheds.refl (w : Work) : w.Sheds w :=
  ⟨rfl, rfl, rfl, rfl, rfl, rfl, List.Sublist.refl _, fun _ h => h, fun _ h => h, fun _ h hn => absurd h hn,
    fun _ h hn => absurd h hn⟩

theorem Work.Sheds.trans {w u t : Work} (a : w.Sheds u) (b : u.Sheds t) : w.Sheds t where
  cells := b.cells.trans a.cells
  raised := b.raised.trans a.raised
  lostOn := b.lostOn.trans a.lostOn
  slots := b.slots.trans a.slots
  queue := b.queue.trans a.queue
  grace := b.grace.trans a.grace
  pool := b.pool.trans a.pool
  marked := fun k h => b.marked k (a.marked k h)
  release := fun k h => b.release k (a.release k h)
  gone := fun s hs hn => by
    by_cases h : s ∈ u.dir.pool
    · exact b.gone s h hn
    · exact b.marked _ (a.gone s hs h)
  freed := fun s hs hn hp hc => by
    by_cases h : s ∈ u.dir.pool
    · exact b.freed s h hn (by rw [a.slots]; exact hp) (by rw [a.slots]; exact hc)
    · exact b.release _ (a.freed s hs h hp hc)

/-- One removal: no other sighting goes. -/
theorem mem_removeSighting {k : SlotNo} {d : CellRef} {w : Work} {s : Sighting} :
    s ∈ (removeSighting k d w).dir.pool ↔ s ∈ w.dir.pool ∧ ¬ (s.slot = k ∧ s.cell = d) := by
  simp only [removeSighting, List.mem_filter, Bool.not_eq_true', Bool.and_eq_false_iff, beq_eq_false_iff_ne, ne_eq]
  tauto

theorem removeSighting_sheds (k : SlotNo) (d : CellRef) (w : Work) : w.Sheds (removeSighting k d w) where
  cells := rfl
  raised := rfl
  lostOn := rfl
  slots := rfl
  queue := rfl
  grace := rfl
  pool := List.filter_sublist
  marked := fun j hj => by simp [removeSighting, hj]
  release := fun j hj => by simp only [removeSighting]; split <;> simp [hj]
  gone := fun s hs hn => by
    have h : s.slot = k ∧ s.cell = d := by rw [mem_removeSighting] at hn; tauto
    simp [removeSighting, h.1]
  freed := fun s hs hn hp hc => by
    have h : s.slot = k ∧ s.cell = d := by rw [mem_removeSighting] at hn; tauto
    obtain ⟨rfl, rfl⟩ := h
    simp [removeSighting, hp, hc]

theorem serviceRoom_sheds {g : Settings} {now : Time} {n : SlotNo} {c : CellRef} {w u : Work}
    (h : serviceRoom g now n c w = some u) : w.Sheds u := by
  unfold serviceRoom at h
  split at h
  · exact Option.some.inj h ▸ .refl w
  · obtain ⟨x, -, rfl⟩ := Option.map_eq_some_iff.mp h
    exact removeSighting_sheds _ _ _

theorem poolRoom_sheds {g : Settings} {now : Time} {w u : Work} (h : poolRoom g now w = some u) : w.Sheds u := by
  unfold poolRoom at h
  split at h
  · exact Option.some.inj h ▸ .refl w
  · obtain ⟨x, -, rfl⟩ := Option.map_eq_some_iff.mp h
    exact removeSighting_sheds _ _ _

/-- Making room can only shed sightings. -/
theorem makeRoom_sheds (g : Settings) (now : Time) (n : SlotNo) (c : CellRef) (w : Work) :
    w.Sheds (makeRoom g now n c w).1 := by
  unfold makeRoom
  cases h1 : serviceRoom g now n c w with
  | none => exact .refl w
  | some w1 =>
    dsimp only
    cases h2 : poolRoom g now w1 with
    | none => exact serviceRoom_sheds h1
    | some w2 => exact (serviceRoom_sheds h1).trans (poolRoom_sheds h2)

/-- What making room does, by what the limits of R95 to R97 answer: nothing where there is room, one removal where a
sighting is evicted, and no room where the new sighting is dropped. -/
theorem makeRoom_spec (g : Settings) (now : Time) (n : SlotNo) (c : CellRef) (w : Work) :
    (limitsAnswer (w.view g now) w.dir n c .room → makeRoom g now n c w = (w, true))
      ∧ (∀ a, limitsAnswer (w.view g now) w.dir n c (.evict a) →
          makeRoom g now n c w = (removeSighting a.slot a.cell w, true))
      ∧ (limitsAnswer (w.view g now) w.dir n c .drop → makeRoom g now n c w = (w, false)) := by
  have hnone : (∀ b ∈ w.dir.sightings n, (w.view g now).state b.cell ≠ .lost) →
      (w.dir.sightings n).filter (fun s => (w.view g now).state s.cell == .lost) = [] := fun h => by
    rw [List.filter_eq_nil_iff]
    exact fun b hb => by simpa using h b hb
  refine ⟨?_, ?_, ?_⟩
  · rintro ⟨h1, h2⟩
    simp [makeRoom, serviceRoom, poolRoom, h1, h2]
  · rintro a (⟨h8, hp, ha, hwhy⟩ | ⟨h8, hp, ha, hl, hold⟩)
    · have hslot := (mem_sightings.mp ha).2
      have hv : serviceVictim (w.view g now) w.dir n c = some a := by
        rcases hwhy with ⟨hl, hold⟩ | ⟨hno, hlast, hch, hpin, hq⟩
        · rw [serviceVictim, best_eq (x := a)]
          · exact List.mem_filter.mpr ⟨ha, by simp [hl]⟩
          · intro b hb hne
            obtain ⟨hb1, hb2⟩ := List.mem_filter.mp hb
            rcases hold b hb1 (by simpa using hb2) hne with h | ⟨h, h'⟩
            · have : ¬ b.created.toNat < a.created.toNat := by omega
              have hc : ¬ b.created = a.created := fun e => by rw [e] at h; omega
              simp [olderOnService, h, this, hc]
            · have h3 : ¬ b.cell < a.cell := not_lt_of_gt h'
              simp [olderOnService, h, h', h3]
        · rw [serviceVictim, hnone hno]
          simp [best, beatenLowest, hlast, hch, hpin, hq]
      have hlt : (removeSighting a.slot a.cell w).dir.pool.length < 2048 := by
        refine Nat.lt_of_lt_of_le ?_ hp
        exact List.length_filter_lt_length_iff_exists.mpr ⟨a, (mem_sightings.mp ha).1, by simp⟩
      have h8' : ¬ (w.dir.sightings n).length < 8 := by omega
      simp [makeRoom, serviceRoom, poolRoom, h8', hv, hlt]
    · have hv : poolVictim (w.view g now) w.dir = some a := by
        rw [poolVictim, best_eq (x := a)]
        · exact List.mem_filter.mpr ⟨ha, by simp [hl]⟩
        · intro b hb hne
          obtain ⟨hb1, hb2⟩ := List.mem_filter.mp hb
          rcases hold b hb1 (by simpa using hb2) hne with h | ⟨h, h' | ⟨h', h''⟩⟩
          · have : ¬ b.created.toNat < a.created.toNat := by omega
            have hc : ¬ b.created = a.created := fun e => by rw [e] at h; omega
            simp [olderInPool, h, this, hc]
          · have h3 : ¬ b.slot < a.slot := not_lt_of_gt h'
            have h4 : ¬ b.slot = a.slot := fun e => lt_irrefl _ (e ▸ h')
            simp [olderInPool, h, h', h3, h4]
          · have h3 : ¬ b.cell < a.cell := not_lt_of_gt h''
            simp [olderInPool, h, h', h'', h3]
      have hp' : ¬ w.dir.pool.length < 2048 := by omega
      simp [makeRoom, serviceRoom, poolRoom, h8, hp', hv]
  · rintro (⟨h8, hno, hlast⟩ | ⟨h8, hp, hno⟩)
    · have hv : serviceVictim (w.view g now) w.dir n c = none := by
        rw [serviceVictim, hnone hno]
        simp only [best, beatenLowest]
        cases hl : (rankedOf (w.view g now) w.dir n).getLast? with
        | none => rfl
        | some a => rcases hlast a hl with h | h | h <;> simp [h]
      have h8' : ¬ (w.dir.sightings n).length < 8 := by omega
      simp [makeRoom, serviceRoom, h8', hv]
    · have hv : poolVictim (w.view g now) w.dir = none := by
        rw [poolVictim, best_none, List.filter_eq_nil_iff]
        exact fun b hb => by simpa using hno b hb
      have hp' : ¬ w.dir.pool.length < 2048 := by omega
      simp [makeRoom, serviceRoom, poolRoom, h8, hp', hv]

/-! ## Taking entries and processing rosters (R84 to R86) -/

/-- What directory work on one cell keeps of the cells, the queue, the grace flag and the conditions already set. -/
def Work.keeps (c : CellRef) (w u : Work) : Prop :=
  (∀ k, k ≠ c → look u.cells k = look w.cells k)
    ∧ (∃ rf ro, look u.cells c = { look w.cells c with refused := rf, roster := ro })
    ∧ u.dir.queue = w.dir.queue ∧ u.dir.grace = w.dir.grace ∧ w.raised &&& u.raised = w.raised

theorem Work.keeps.refl (c : CellRef) (w : Work) : w.keeps c w :=
  ⟨fun _ _ => rfl, ⟨_, _, rfl⟩, rfl, rfl, BitVec.and_self⟩

theorem Work.keeps.trans {c : CellRef} {w u t : Work} (h : w.keeps c u) (h' : u.keeps c t) : w.keeps c t := by
  obtain ⟨a1, ⟨x, y, a2⟩, a3, a4, a5⟩ := h
  obtain ⟨b1, ⟨x', y', b2⟩, b3, b4, b5⟩ := h'
  exact ⟨fun k hk => (b1 k hk).trans (a1 k hk), ⟨x', y', by rw [b2, a2]⟩, b3.trans a3, b4.trans a4, flags_trans a5 b5⟩

theorem Work.keeps.of_eq {c : CellRef} {w u : Work} (h1 : u.cells = w.cells) (h2 : u.dir.queue = w.dir.queue)
    (h3 : u.dir.grace = w.dir.grace) (h4 : u.raised = w.raised) : w.keeps c u :=
  ⟨fun _ _ => by rw [h1], ⟨(look w.cells c).refused, (look w.cells c).roster, by rw [h1]⟩, h2, h3,
    by rw [h4]; exact BitVec.and_self⟩

theorem or_keeps (a m : Flags12) : a &&& (a ||| m) = a := by
  ext i; simp; tauto

theorem addRefused_keeps (c : CellRef) (k : Nat) (w : Work) :
    w.keeps c { w with cells := addRefused c k w.cells } :=
  ⟨fun _ hk => look_put_ne _ _ hk, ⟨satAdd 255 (look w.cells c).refused k, (look w.cells c).roster, by simp [addRefused]⟩, rfl, rfl, BitVec.and_self⟩

theorem removeOnCell_keeps (c k : CellRef) (drop : SlotNo → Bool) (w : Work) : w.keeps k (removeOnCell c drop w) := by
  obtain ⟨h1, h2, h3, -⟩ := removeOnCell_spec c drop w
  exact Work.keeps.of_eq h1 (by rw [h3]) (by rw [h3]) h2

theorem makeRoom_keeps (g : Settings) (now : Time) (n : SlotNo) (c k : CellRef) (w : Work) :
    w.keeps k (makeRoom g now n c w).1 := by
  have h := makeRoom_sheds g now n c w
  exact Work.keeps.of_eq h.cells h.queue h.grace h.raised

theorem takeEntry_keeps (g : Settings) (r : Reading) (w : Work) (e : Entry) : w.keeps r.cell (takeEntry g r w e) := by
  have hdrop : ∀ u : Work, u.keeps r.cell (dropSighting u) := fun u =>
    ⟨fun _ _ => rfl, ⟨(look u.cells r.cell).refused, (look u.cells r.cell).roster, rfl⟩, rfl, rfl, or_keeps _ _⟩
  have hjoin : ∀ (n : SlotNo) (ch : Slot → Slot) (u : Work), u.keeps r.cell (joinSighting r n e ch u) :=
    fun _ _ u => Work.keeps.of_eq rfl rfl rfl rfl
  unfold takeEntry
  split
  · next n _ =>
    split
    · exact Work.keeps.of_eq rfl rfl rfl rfl
    · have hm := makeRoom_keeps g r.now n r.cell r.cell w
      unfold createFor
      split
      · next w1 hw => rw [hw] at hm; exact hm.trans (hjoin n _ w1)
      · next w1 hw => rw [hw] at hm; exact hm.trans (hdrop w1)
  · split
    · next n _ =>
      have h0 : w.keeps r.cell { w with dir := w.dir.setSlot n (newSlot r e) } := Work.keeps.of_eq rfl rfl rfl rfl
      have hm := makeRoom_keeps g r.now n r.cell r.cell { w with dir := w.dir.setSlot n (newSlot r e) }
      unfold createService
      split
      · next w1 hw => rw [hw] at hm; exact (h0.trans hm).trans (hjoin n _ w1)
      · next w1 hw =>
        rw [hw] at hm
        have h1 : w1.keeps r.cell { w1 with dir := w1.dir.setSlot n Slot.empty } := Work.keeps.of_eq rfl rfl rfl rfl
        exact ((h0.trans hm).trans h1).trans (hdrop _)
    · have h := addRefused_keeps r.cell 1 w
      exact ⟨h.1, h.2.1, rfl, rfl, or_keeps _ _⟩

/-- What holds of work in progress and is kept by every entry holds after all of them. -/
theorem takeEntries_induct {g : Settings} {r : Reading} (P : Work → Prop)
    (step : ∀ w e, P w → P (takeEntry g r w e)) {w : Work} (h : P w) (es : List Entry) :
    P (es.foldl (takeEntry g r) w) := by
  induction es generalizing w with
  | nil => exact h
  | cons e es ih => rw [List.foldl_cons]; exact ih (step w e h)

/-- The processing of a roster result touches of the cells only the visited cell's refused count and roster values, and
neither the queue nor the grace flag nor a condition already set. -/
theorem processRoster_keeps (g : Settings) (now : Time) (c : CellRef) (rr : RosterResult) (w : Work) :
    w.keeps c (processRoster g now c rr w) := by
  have entries : ∀ (r : Reading) (complete : Bool) (es : List Entry), r.cell = c →
      w.keeps c (processEntries g r complete es w) := by
    rintro r complete es rfl
    unfold processEntries
    dsimp only
    have h1 := addRefused_keeps r.cell (admitEntries g.admission r.net [] es).2 w
    have h2 : ∀ u : Work, u.keeps r.cell (storeRoster r u) := fun u =>
      ⟨fun _ hk => look_put_ne _ _ hk, ⟨(look u.cells r.cell).refused,
        some { net := r.net, stream := r.stream, version := r.version }, by simp [storeRoster]⟩, rfl, rfl,
        BitVec.and_self⟩
    refine Work.keeps.trans ?_ (h2 _)
    refine takeEntries_induct (P := fun u => w.keeps r.cell u)
      (fun u e hu => hu.trans (takeEntry_keeps g r u e)) ?_ _
    split
    · exact h1.trans (removeOnCell_keeps _ _ _ _)
    · exact h1
  unfold processRoster
  split
  · exact Work.keeps.refl c w
  · exact entries _ _ _ rfl
  · exact entries _ _ _ rfl
  · exact Work.keeps.of_eq rfl rfl rfl rfl

end Sys2Proof.Machine
end

