-- ==== Sys2Proof/Laws/Evaluations.lean ====
section
/-! SUPPORT. The evaluations that the statements speak of (`evaluationsOf` in Safety.lean) against those that the model
makes (`evaluateMarked` in Machine/Ranking.lean). -/

namespace Sys2Proof.Machine

/-- The model's evaluations are those of the marked and the released services. -/
theorem evaluateMarked_eq (v : View) (marked released : List SlotNo) (b : Books) :
    evaluateMarked v marked released b = evaluationsOf v released.contains marked.contains b := rfl

/-- Evaluations from views that agree, of the same services, are the same; which services count as concerned matters only
for those that are not released. -/
theorem evaluationsOf_congr {v u : View} {r r' c c' : SlotNo → Bool} (h : v.Agrees u) (hr : ∀ n, r n = r' n)
    (hc : ∀ n, r n = false → c n = c' n) (b : Books) : evaluationsOf v r c b = evaluationsOf u r' c' b := by
  have hf : (fun (b : Books) n => if r n then evaluate v true n b else if c n then evaluate v false n b else b)
      = (fun b n => if r' n then evaluate u true n b else if c' n then evaluate u false n b else b) := by
    funext b n
    simp only [evaluate_congr h, ← hr]
    cases hn : r n with
    | true => rfl
    | false => simp only [hc n hn]
  rw [evaluationsOf, hf, evaluationsOf]

end Sys2Proof.Machine
end

