-- ==== Sys2Proof/Laws/Visit.lean ====
section
/-! SUPPORT. What the end of a visit, the end of a hold, a grant and the removal of spot entries can do
(Machine/Visit.lean). -/

namespace Sys2Proof.Machine

/-! ## The directory's part of a visit end -/

/-- The directory's part of a visit end changes of the cells only the visited cell's refused count and roster values. -/
theorem visitDirectory_cells (g : Settings) (now : Time) (c : CellRef) (t : Treatment) (rr : RosterResult)
    (old new : Cell) (p : Plant) :
    (∀ k, k ≠ c → look (visitDirectory g now c t rr old new p).1 k = look p.cells k)
      ∧ ∃ rf ro, look (visitDirectory g now c t rr old new p).1 c = { new with refused := rf, roster := ro }
          ∧ (rr = .none → rf = new.refused ∧ ro = new.roster) := by
  have h0 : ∀ w : Work, w.keeps c (if t = .unscored then w
      else markVisited c (old.state == .unseen && new.state != .unseen) w) := fun w => by
    split
    · exact .refl c w
    · exact .of_eq rfl rfl rfl rfl
  have h1 : (Work.start (p.setCell c new)).keeps c
      (if t = .noLock ∧ new.state = .empty then removeOnCell c (fun _ => true) (Work.start (p.setCell c new))
        else Work.start (p.setCell c new)) := by
    split
    · exact removeOnCell_keeps _ _ _ _
    · exact .refl c _
  obtain ⟨k1, ⟨rf, ro, k2⟩, -⟩ := (h1.trans (processRoster_keeps g now c rr _)).trans (h0 _)
  refine ⟨fun k hk => (k1 k hk).trans (look_put_ne _ _ hk), ?_⟩
  by_cases hr : rr = .none
  · refine ⟨new.refused, new.roster, ?_, fun _ => ⟨rfl, rfl⟩⟩
    have hc : (visitDirectory g now c t rr old new p).1 = (p.setCell c new).cells := by
      unfold visitDirectory
      subst hr
      dsimp only [processRoster]
      have e1 : ∀ w : Work, (if t = .unscored then w
          else markVisited c (old.state == .unseen && new.state != .unseen) w).cells = w.cells := fun w => by
        split <;> rfl
      refine (e1 _).trans ?_
      split
      · exact (removeOnCell_spec c (fun _ => true) _).1
      · rfl
    rw [hc]
    simp
  · exact ⟨rf, ro, k2.trans (by simp [Work.start]), fun h => absurd h hr⟩

/-- The directory's part of a visit end keeps the grace flag. -/
theorem visitDirectory_grace (g : Settings) (now : Time) (c : CellRef) (t : Treatment) (rr : RosterResult)
    (old new : Cell) (p : Plant) : (visitDirectory g now c t rr old new p).2.dir.grace = p.dir.grace := by
  have h0 : ∀ w : Work, (if t = .unscored then w
      else markVisited c (old.state == .unseen && new.state != .unseen) w).dir = w.dir := fun w => by
    split <;> rfl
  have h1 : (if t = .noLock ∧ new.state = .empty then removeOnCell c (fun _ => true) (Work.start (p.setCell c new))
        else Work.start (p.setCell c new)).dir.grace = p.dir.grace := by
    split
    · obtain ⟨-, -, -, h, -⟩ := removeOnCell_keeps c c (fun _ => true) (Work.start (p.setCell c new))
      exact h
    · rfl
  obtain ⟨-, -, -, k, -⟩ := processRoster_keeps g now c rr
    (if t = .noLock ∧ new.state = .empty then removeOnCell c (fun _ => true) (Work.start (p.setCell c new))
        else Work.start (p.setCell c new))
  unfold visitDirectory Work.finish
  dsimp only
  rw [evaluateMarked_grace]
  exact (congrArg Dir.grace (h0 _)).trans (k.trans h1)

/-- A visit end that is not scored and reads no roster changes no sighting. -/
theorem visitDirectory_unscored_pool (g : Settings) (now : Time) (c : CellRef) (old new : Cell) (p : Plant) :
    (visitDirectory g now c .unscored .none old new p).2.dir.pool = p.dir.pool := by
  unfold visitDirectory Work.finish
  dsimp only
  rw [evaluateMarked_pool]
  rfl

/-! ## The cell's part of a visit end (R61 to R66) -/

/-- What a visit end writes into every cell, whatever the outcome: the definition, the last score of an unscored visit,
the roster values, the refused count, the due time and the engagement stay. -/
theorem cellEnd_spec (g : Settings) (t : Treatment) (r : Record) (x : Cell) :
    let y := (cellEnd g t r x).1
    y.defn = x.defn ∧ y.lastOutcome = some r.outcome ∧ y.lastTime = r.stop ∧ y.roster = x.roster
      ∧ y.refused = x.refused ∧ y.due = x.due ∧ y.engaged = x.engaged ∧ y.margin = marginAfter x t r.trim
      ∧ (t = .unscored → y = { x with lastOutcome := some r.outcome, lastTime := r.stop }
          ∧ (cellEnd g t r x).2 = none)
      ∧ (t = .noLock → (cellEnd g t r x).2 = none ∧ y.lastScore = x.lastScore)
      ∧ (t = .scored → ∃ v, (cellEnd g t r x).2 = some v ∧ y.lastScore = some v
          ∧ v = scoreOf g { x with margin := marginAfter x .scored r.trim } r
          ∧ y.q = some (smooth x.state x.q v) ∧ y.fails = 0 ∧ y.state = scoredState r.outcome) := by
  cases t
  · simp [cellEnd]
  · simp only [cellEnd, afterNoLock]
    cases x.q <;> simp
  · simp [cellEnd, marginAfter]

/-! ## The end of a visit (R33) -/

theorem heldOthers_put (lanes : Vector LaneRec 8) (l : Lane) (x : LaneRec) :
    heldOthers (put lanes l x) l = heldOthers lanes l := by
  unfold heldOthers
  apply List.countP_congr
  intro k _
  by_cases hk : k = l
  · simp [hk]
  · rw [look_put_ne _ _ hk]

/-- A visit end on a lane with an engaged cell: the whole of what it does, by parts. -/
theorem visitEnd_spec {g : Settings} {now : Time} {l : Lane} {e : Ending} {p : Plant} {c : CellRef}
    (h : (look p.lanes l).cell = some c) :
    let q := visitEnd g now l e p
    let x := look p.lanes l
    let t := treatment e.outcome (x.state == .reading)
    let note := holdNote g p.lanes l e.outcome
    let r0 := recordOf l x c now e note
    let ce := cellEnd g t r0 (look p.cells c)
    let r := { r0 with score := ce.2 }
    (∀ k, k ≠ c → look q.cells k = look p.cells k)
      ∧ (∀ k, k ≠ l → look q.lanes k = look p.lanes k)
      ∧ (note = .taken → look q.lanes l =
          { x.hold now ((x.terms.map SpotTerms.hold).getD 0) (lockAtEnd x e) with record := some r })
      ∧ (note ≠ .taken → look q.lanes l = { x.leave e.next with record := some r })
      ∧ (∃ rf ro, look q.cells c =
          { ce.1 with
            refused := rf, roster := ro
            due := dueTime g now q.dir c ce.1
            engaged := if note = .taken then ce.1.engaged else none }
          ∧ (e.roster = .none → rf = ce.1.refused ∧ ro = ce.1.roster))
      ∧ q.survey = (surveyEnd l x r q.lanes p.survey).1
      ∧ (∃ m, q.notice = p.notice.raise m ∧ (surveyEnd l x r q.lanes p.survey).2 &&& m
          = (surveyEnd l x r q.lanes p.survey).2)
      ∧ q.dir = (visitDirectory g now c t e.roster (look p.cells c) ce.1 p).2.dir := by
  intro q x t note r0 ce r
  have hq : q = visitEnd g now l e p := rfl
  simp only [visitEnd, h] at hq
  obtain ⟨c1, rf, ro, c2, c3⟩ := visitDirectory_cells g now c t e.roster (look p.cells c) ce.1 p
  refine ⟨fun k hk => ?_, fun k hk => ?_, fun hn => ?_, fun hn => ?_, ⟨rf, ro, ?_, c3⟩, ?_, ⟨_, by rw [hq], ?_⟩, ?_⟩
  · rw [hq]; exact (look_put_ne _ _ hk).trans (c1 k hk)
  · rw [hq]; exact look_put_ne _ _ hk
  · rw [hq]; simp only [look_put_self]; exact if_pos hn
  · rw [hq]; simp only [look_put_self]; exact if_neg hn
  · rw [hq]
    simp only [look_put_self]
    rw [c2]
    rfl
  · rw [hq]
  · rw [hq]; exact (by ext i; simp; tauto)
  · rw [hq]

/-- A lane with no engaged cell is in no visit. -/
theorem visitEnd_none {g : Settings} {now : Time} {l : Lane} {e : Ending} {p : Plant}
    (h : (look p.lanes l).cell = none) : visitEnd g now l e p = p := by
  simp [visitEnd, h]

/-- The cells and lanes that a visit end reaches are the lane's own and its engaged cell. -/
theorem visitEnd_frame (g : Settings) (now : Time) (l : Lane) (e : Ending) (p : Plant) :
    (∀ k, (look p.lanes l).cell ≠ some k → look (visitEnd g now l e p).cells k = look p.cells k)
      ∧ (∀ k, k ≠ l → look (visitEnd g now l e p).lanes k = look p.lanes k)
      ∧ (∃ m, (visitEnd g now l e p).notice = p.notice.raise m) ∨ visitEnd g now l e p = p := by
  cases h : (look p.lanes l).cell with
  | none => exact .inr (visitEnd_none h)
  | some c =>
    obtain ⟨h1, h2, -, -, -, -, ⟨m, h3, -⟩, -⟩ := visitEnd_spec (g := g) (now := now) (e := e) h
    exact .inl ⟨fun k hk => h1 k (fun he => hk (by rw [he])), h2, m, h3⟩

/-- The grace flag is not the business of a visit end. -/
theorem visitEnd_grace (g : Settings) (now : Time) (l : Lane) (e : Ending) (p : Plant) :
    (visitEnd g now l e p).dir.grace = p.dir.grace := by
  cases h : (look p.lanes l).cell with
  | none => rw [visitEnd_none h]
  | some c =>
    obtain ⟨-, -, -, -, -, -, -, hd⟩ := visitEnd_spec (g := g) (now := now) (e := e) h
    rw [hd, visitDirectory_grace]

/-- A visit ended from outside removes and adds no sighting (R35, R66). -/
theorem abandon_pool (g : Settings) (now : Time) (l : Lane) (next : LaneState) (p : Plant) :
    (abandon g now l next p).dir.pool = p.dir.pool := by
  unfold abandon
  cases h : (look p.lanes l).cell with
  | none => rw [visitEnd_none h]
  | some c =>
    obtain ⟨-, -, -, -, -, -, -, hd⟩ := visitEnd_spec (g := g) (now := now)
      (e := { outcome := .abandoned, roster := .none, summary := none, lockLost := false, next := next }) h
    have ht : treatment .abandoned ((look p.lanes l).state == .reading) = .unscored := rfl
    rw [hd, ht, visitDirectory_unscored_pool]

/-- A visit ended from outside never holds. -/
theorem abandon_note (g : Settings) (lanes : Vector LaneRec 8) (l : Lane) : holdNote g lanes l .abandoned = .none := by
  unfold holdNote
  split
  · rfl
  · simp [mayHold]

/-! ## The end of a hold, spot entries, grants -/

/-- A hold end on a lane with an engaged cell. -/
theorem holdEnd_some {g : Settings} {now : Time} {l : Lane} {next : LaneState} {setDue : Bool} {p : Plant} {c : CellRef}
    (h : (look p.lanes l).cell = some c) :
    holdEnd g now l next setDue p =
      (p.setLane l ((look p.lanes l).leave next)).setCell c
        { look p.cells c with
          engaged := none
          due := if setDue then dueTime g now p.dir c (look p.cells c) else (look p.cells c).due } := by
  simp [holdEnd, h]

/-- The results that a run of removed entries leaves, newest first. -/
theorem foldl_pushResult (f : SpotEntry → SpotResult) (out : List SpotEntry) (v : Survey) :
    let u := out.foldl (fun sv e => pushResult (f e) sv) v
    (out ≠ [] → u.results = ((out.reverse.map f) ++ v.results).take 4) ∧ (out = [] → u = v)
      ∧ u = { v with results := u.results } := by
  induction out generalizing v with
  | nil => simp
  | cons e out ih =>
    rw [List.foldl_cons]
    obtain ⟨h1, h2, h3⟩ := ih (pushResult (f e) v)
    refine ⟨fun _ => ?_, fun h => (by simp at h), ?_⟩
    · by_cases ho : out = []
      · rw [h2 ho]; simp [ho, pushResult]
      · rw [h1 ho]
        simp only [pushResult, List.reverse_cons, List.map_append, List.map_cons, List.map_nil, List.append_assoc,
          List.cons_append, List.nil_append]
        rw [List.take_append, List.take_append, List.take_take]
        congr 1
        congr 1
        have : 1 ≤ (out.reverse.map f).length := by
          simp only [List.length_map, List.length_reverse]
          exact List.length_pos_iff.mpr ho
        omega
    · rw [h3]; rfl

/-- The removal of waiting spot entries: only the spot queue, the results and SPOT_DONE. -/
theorem dropSpots_spec (now : Time) (gone : SpotEntry → Bool) (p : Plant) :
    let q := dropSpots now gone p
    let out := p.survey.spots.filter gone
    q.cells = p.cells ∧ q.lanes = p.lanes ∧ q.dir = p.dir
      ∧ q.survey = { p.survey with spots := p.survey.spots.filter (fun e => !gone e), results := q.survey.results }
      ∧ (out = [] → q.survey.results = p.survey.results)
      ∧ (out ≠ [] → q.survey.results = (out.reverse.map (removedResult now) ++ p.survey.results).take 4)
      ∧ q.notice = p.notice.raise (if out = [] then 0 else Condition.spotDone.bit) := by
  obtain ⟨h1, h2, h3⟩ := foldl_pushResult (removedResult now) (p.survey.spots.filter gone)
    { p.survey with spots := p.survey.spots.filter (fun e => !gone e) }
  refine ⟨rfl, rfl, rfl, ?_, fun h => ?_, h1, ?_⟩
  · exact h3
  · unfold dropSpots
    dsimp only
    rw [h2 h]
  · show p.notice.raise _ = _
    cases p.survey.spots.filter gone <;> rfl

/-- The lowest-numbered IDLE lane. -/
theorem idleLane_some {lanes : Vector LaneRec 8} {l : Lane} (h : idleLane lanes = some l) :
    (look lanes l).state = .idle ∧ ∀ k, k < l → (look lanes k).state ≠ .idle := by
  unfold idleLane at h
  rw [List.find?_eq_some_iff_append] at h
  obtain ⟨h1, as, bs, he, ha⟩ := h
  refine ⟨by simpa using h1, fun k hk => ?_⟩
  have hs : (List.finRange 8).Pairwise (· < ·) := List.pairwise_lt_finRange 8
  have hmem : k ∈ List.finRange 8 := List.mem_finRange k
  rw [he, List.mem_append, List.mem_cons] at hmem
  rw [he, List.pairwise_append, List.pairwise_cons] at hs
  rcases hmem with hm | rfl | hm
  · simpa using ha k hm
  · exact absurd hk (lt_irrefl _)
  · exact absurd (hs.2.1.1 k hm) (not_lt.mpr hk.le)

/-- The start of a visit: the lane as R25 gives it, the cell's engagement, nothing else. -/
theorem startVisit_spec (g : Settings) (now : Time) (l : Lane) (c : CellRef) (k : VisitClass) (t : Option SpotTerms)
    (p : Plant) :
    let q := startVisit g now l c k t p
    look q.lanes l = (look p.lanes l).granted g now c k t ∧ (∀ j, j ≠ l → look q.lanes j = look p.lanes j)
      ∧ look q.cells c = { look p.cells c with engaged := some l } ∧ (∀ j, j ≠ c → look q.cells j = look p.cells j)
      ∧ q.dir = p.dir ∧ q.survey = p.survey ∧ q.notice = p.notice := by
  refine ⟨by simp [startVisit], fun j hj => look_put_ne _ _ hj, by simp [startVisit], fun j hj => look_put_ne _ _ hj,
    rfl, rfl, rfl⟩

/-- A completed pass: the pass count, SWEEP_DONE, the grace flag; cells and lanes stay. -/
theorem completePass_spec (g : Settings) (now : Time) (p : Plant) :
    let q := completePass g now p
    q.cells = p.cells ∧ q.lanes = p.lanes ∧ q.survey = { p.survey with passes := p.survey.passes + 1 }
      ∧ q.dir.grace = false ∧ q.dir.pool = p.dir.pool
      ∧ ∃ m, q.notice = p.notice.raise m ∧ Condition.sweepDone.bit &&& m = Condition.sweepDone.bit := by
  refine ⟨rfl, rfl, rfl, ?_, ?_, _, rfl, ?_⟩
  · unfold completePass endGrace
    dsimp only
    split
    · rw [evaluateMarked_grace]
    · next h => simpa using h
  · unfold completePass endGrace
    dsimp only
    split
    · rw [evaluateMarked_pool]
    · rfl
  · unfold endGrace
    split
    · exact evaluateMarked_raised { cells := p.cells, feeds := g.feeds, policy := g.policy, now := now } []
        p.dir.provisional { dir := { p.dir with grace := false }, raised := Condition.sweepDone.bit }
    · exact BitVec.and_self

end Sys2Proof.Machine
end

