-- ==== Sys2Proof/Laws/LaneEvents.lean ====
section
/-! SUPPORT. The events that end a visit, as the visit ends they are (Machine/LaneEvents.lean, Safety.lean). -/

namespace Sys2Proof.Machine

/-- The ending that an event of this outcome brings: the lane does not fault, and only an event in READING hands on a
roster or a summary. -/
def Ending.natural (s : State) (l : Lane) (o : VisitOutcome) (e : Ending) : Prop :=
  e.outcome = o ∧ e.next = .idle
    ∧ ((look s.plant.lanes l).state ≠ .reading → e.roster = .none ∧ e.summary = none)

/-- An event that ends a visit of its own accord is the end of that visit and nothing else. -/
theorem naturalEnd_exec {s : State} {i : Instr} {l : Lane} {o : VisitOutcome} (h : naturalEnd s i = some (l, o)) :
    ∃ e, e.natural s l o ∧ exec i s = .next (s.work (fun g now p => visitEnd g now l e p)) := by
  have next : ∀ t u : State, t = u → (.next t : Result) = .next u := fun _ _ h => by rw [h]
  cases i <;> simp only [naturalEnd, reduceCtorEq] at h
  case lockTimerExpiry k =>
    split at h
    · next hc =>
      obtain ⟨rfl, rfl⟩ := Prod.mk.inj (Option.some.inj h)
      exact ⟨plainEnd .dark false, ⟨rfl, rfl, fun _ => ⟨rfl, rfl⟩⟩, next _ _ (by simp only [State.work, lockTimeout, if_pos hc])⟩
    · simp at h
  case lockLoss k =>
    split at h
    · next hc =>
      obtain ⟨rfl, rfl⟩ := Prod.mk.inj (Option.some.inj h)
      exact ⟨plainEnd .faded true, ⟨rfl, rfl, fun _ => ⟨rfl, rfl⟩⟩, next _ _ (by simp only [State.work, lockLost, hc])⟩
    · next hc =>
      obtain ⟨rfl, rfl⟩ := Prod.mk.inj (Option.some.inj h)
      exact ⟨plainEnd .faded true, ⟨rfl, rfl, fun _ => ⟨rfl, rfl⟩⟩, next _ _ (by simp only [State.work, lockLost, hc])⟩
    · next hc =>
      obtain ⟨rfl, rfl⟩ := Prod.mk.inj (Option.some.inj h)
      exact ⟨partEnd (look s.plant.lanes k) .part true, ⟨rfl, rfl, fun hn => absurd hc hn⟩,
        next _ _ (by simp only [State.work, lockLost, hc])⟩
    · simp at h
  case gapTimerExpiry k =>
    split at h
    · next hc =>
      obtain ⟨rfl, rfl⟩ := Prod.mk.inj (Option.some.inj h)
      exact ⟨partEnd (look s.plant.lanes k) .part false, ⟨rfl, rfl, fun hn => absurd hc.1 hn⟩,
        next _ _ (by simp only [State.work, gapTimeout, if_pos hc])⟩
    · simp at h
  case dwellLimitExpiry k =>
    split at h
    · next hc =>
      obtain ⟨rfl, rfl⟩ := Prod.mk.inj (Option.some.inj h)
      refine ⟨cutEnd (look s.plant.lanes k), ?_, next _ _ (by simp only [State.work, dwellTimeout, if_pos hc])⟩
      unfold cutEnd
      split
      · next hr => exact ⟨rfl, rfl, fun hn => absurd hr hn⟩
      · exact ⟨rfl, rfl, fun _ => ⟨rfl, rfl⟩⟩
    · simp at h
  case rosterSection k sec =>
    split at h
    · next c hcell =>
      split at h
      · next hc =>
        rw [Option.map_eq_some_iff] at h
        obtain ⟨o', ho, he⟩ := h
        obtain ⟨rfl, rfl⟩ := Prod.mk.inj he
        have hex : exec (.rosterSection k sec) s =
            .next (s.work (fun g now p => sectionTaken k c (look s.plant.lanes k) sec g now p)) :=
          next _ _ (by simp only [State.work, sectionArrives, hcell, if_pos hc])
        rw [hex]
        cases hs : (look s.plant.lanes k).collector.take (look s.plant.lanes k).latchedGap (look s.plant.lanes k).cls
            (look s.plant.cells c) sec with
        | goOn x => rw [hs] at ho; simp [sectionOutcome] at ho
        | complete x =>
          rw [hs] at ho
          obtain rfl : VisitOutcome.lit = o' := by simpa [sectionOutcome] using ho
          exact ⟨{ plainEnd .lit false with roster := x.completeResult, summary := x.summary false },
            ⟨rfl, rfl, fun hn => absurd hc.1 hn⟩, next _ _ (by simp only [State.work, sectionTaken, hs])⟩
        | unchanged x =>
          rw [hs] at ho
          obtain rfl : VisitOutcome.lit = o' := by simpa [sectionOutcome] using ho
          exact ⟨{ plainEnd .lit false with roster := .unchanged, summary := x.summary true },
            ⟨rfl, rfl, fun hn => absurd hc.1 hn⟩, next _ _ (by simp only [State.work, sectionTaken, hs])⟩
        | unstable =>
          rw [hs] at ho
          obtain rfl : VisitOutcome.unstable = o' := by simpa [sectionOutcome] using ho
          exact ⟨{ plainEnd .unstable false with summary := (look s.plant.lanes k).collector.summary false },
            ⟨rfl, rfl, fun hn => absurd hc.1 hn⟩, next _ _ (by simp only [State.work, sectionTaken, hs])⟩
      · simp at h
    · simp at h

end Sys2Proof.Machine
end

