-- ==== Sys2Proof/Laws/Link.lean ====
section
/-! SUPPORT. What a frame on the link can do (Machine/Link.lean), and the condition set (Machine/Flags.lean). -/

namespace Sys2Proof.Machine

/-! ## The attention output -/

theorem Notice.judge_right (n : Notice) : n.judge.attention = n.judge.due := rfl
theorem Notice.raise_right (n : Notice) (m : Flags12) : (n.raise m).attention = (n.raise m).due := rfl
theorem Notice.clear_right (n : Notice) : n.clear.attention = n.clear.due := rfl
theorem Notice.setMask_right (n : Notice) (m : Flags12) : (n.setMask m).attention = (n.setMask m).due := rfl
theorem Notice.endStartUp_right (n : Notice) (m : Flags12) : (n.endStartUp m).attention = (n.endStartUp m).due := rfl

/-- Setting no condition leaves a set whose output stands right as it is. -/
theorem Notice.raise_zero {n : Notice} (h : n.attention = n.due) : n.raise 0 = n := by
  have hc : n.conds ||| 0 = n.conds := by simp
  cases n
  simp only [Notice.raise, Notice.judge, Notice.due] at *
  simp_all

/-! ## Bytes that begin a frame -/

theorem whenHunting_hunt {k : State → State} {s : State} (h : s.link.rx = .hunt) : whenHunting k s = k s := by
  simp [whenHunting, h]

theorem whenHunting_deaf {k : State → State} {s : State} (h : s.link.rx = .deaf) : whenHunting k s = s := by
  simp [whenHunting, h]

theorem whenHunting_quiet {k : State → State} {s : State} (h : s.link.rx = .quiet) : whenHunting k s = s := by
  simp [whenHunting, h]

theorem whenHunting_frame {k : State → State} {s : State} (h : s.link.rx = .frame) :
    whenHunting k s = overrunNow s := by
  simp [whenHunting, h]

/-- Everything bytes that begin a frame can do: nothing, an OVERRUN, or what the frame itself does in HUNT. -/
theorem whenHunting_cases (k : State → State) (s : State) :
    whenHunting k s = s ∨ whenHunting k s = overrunNow s ∨ (s.link.rx = .hunt ∧ whenHunting k s = k s) := by
  unfold whenHunting
  split <;> simp_all

/-- An OVERRUN with no reply pending is none. -/
theorem overrunNow_none {s : State} (h : s.link.answering = none) : overrunNow s = s := by
  simp [overrunNow, h]

/-- Every effect of an OVERRUN on a reply that owes no restart (R168, R169). -/
theorem overrunNow_some {s : State} {a : Answering} (h : s.link.answering = some a) (ho : s.link.restartOwed = false) :
    overrunNow s =
      takeFault (overrunRecord a s.clock) .quiet { s with link := { s.link with answering := none, driver := false } } := by
  simp [overrunNow, h, ho]

/-- An OVERRUN of the reply to a Restart request takes the restart (R174). -/
theorem overrunNow_owed {s : State} {a : Answering} (h : s.link.answering = some a) (ho : s.link.restartOwed = true) :
    overrunNow s = owedRestart s := by
  simp [overrunNow, h, ho]

/-- Everything an OVERRUN can do. -/
theorem overrunNow_cases (s : State) :
    overrunNow s = s ∨ (s.link.restartOwed = true ∧ s.link.answering.isSome = true ∧ overrunNow s = owedRestart s) ∨
      ∃ a, s.link.answering = some a ∧ s.link.restartOwed = false ∧ overrunNow s =
        takeFault (overrunRecord a s.clock) .quiet
          { s with link := { s.link with answering := none, driver := false } } := by
  cases ha : s.link.answering with
  | none => exact .inl (overrunNow_none ha)
  | some a =>
    cases ho : s.link.restartOwed with
    | true => exact .inr (.inl ⟨rfl, rfl, overrunNow_owed ha ho⟩)
    | false => exact .inr (.inr ⟨a, rfl, rfl, overrunNow_some ha ho⟩)

/-- The last byte of a reply that owes no restart (R163, R164). -/
theorem replySent_some {s : State} {a : Answering} (h : s.link.answering = some a) (ho : s.link.restartOwed = false) :
    replySent s = { s with link := { s.link with answering := none, driver := false, rx := .hunt } } := by
  simp [replySent, h, ho]

/-- The last byte of the reply to a Restart request (R174). -/
theorem replySent_owed {s : State} {a : Answering} (h : s.link.answering = some a) (ho : s.link.restartOwed = true) :
    replySent s = owedRestart s := by
  simp [replySent, h, ho]

/-- The restart that a Restart request owes is the one that the restart line brings, one draw later (R174). -/
theorem owedRestart_eq (s : State) :
    (.next (owedRestart s) : Result) =
      exec (.restartLine (drawnRestart s.draws)) { s with draws := s.draws + 1 } := rfl

/-! ## Requests -/

theorem Service.halted_eq (v : Service) (s : State) : v.halted s = (s.held && !v.always) := rfl

theorem answer_eq_replied (v : Service) (f : Req) (t : State) (st : Status) (vs : List Byte) :
    answer (frameOf v.kind f) { state := t, status := st, body := vs } = replied v.kind f st vs t := rfl

/-- Every way an accepted request is answered (R166). -/
theorem Service.respond_cases (v : Service) (p : List Byte) (s : State) :
    v.respond p s = refuse s .halted ∨ v.respond p s = refuse s .badValue ∨
      ((s.held = false ∨ v.always = true) ∧ v.lengthOk p.length = true ∧ v.respond p s = v.run p s) := by
  unfold Service.respond
  rw [Service.halted_eq]
  split
  · exact .inl rfl
  · next h =>
    split
    · next hl =>
      refine .inr (.inr ⟨?_, hl, rfl⟩)
      cases hh : s.held <;> cases ha : v.always <;> simp_all
    · exact .inr (.inl rfl)

/-- A request that is heard and executed (R166 step 4). -/
theorem serve_executed {v : Service} {f : Req} {s t : State} {st : Status} {vs : List Byte} (hs : s.hears f)
    (hg : s.held = false ∨ v.always = true) (h240 : f.payload.length ≤ 240) (hl : v.lengthOk f.payload.length = true)
    (hr : v.run f.payload s = { state := t, status := st, body := vs }) : serve v f s = replied v.kind f st vs t := by
  obtain ⟨hx, hj⟩ := hs
  have hh : v.halted s = false := by
    rw [Service.halted_eq]
    rcases hg with h | h <;> simp [h]
  unfold serve
  rw [whenHunting_hunt hx, if_neg (by omega)]
  simp only [Service.frame, hj, Service.respond, hh, hl, hr]
  rfl

/-- A request row on a frame that the unit serves: its execution is what the machine does next. -/
theorem next_served {v : Service} {f : Req} {s t : State} {st : Status} {vs : List Byte} (hs : s.serves f)
    (h240 : f.payload.length ≤ 240) (hl : v.lengthOk f.payload.length = true)
    (hr : v.run f.payload s = { state := t, status := st, body := vs }) :
    (.next (serve v f s) : Result) = .next (replied v.kind f st vs t) :=
  congrArg Host.Outcome.next (serve_executed hs.1 (.inl hs.2) h240 hl hr)

/-- A request that is heard and gated by the link mode (R166 step 1). -/
theorem serve_halted {v : Service} {f : Req} {s : State} (hs : s.hears f) (hh : s.held = true) (ha : v.always = false)
    (h240 : f.payload.length ≤ 240) : serve v f s = replied v.kind f .halted [] s := by
  obtain ⟨hx, hj⟩ := hs
  unfold serve
  rw [whenHunting_hunt hx, if_neg (by omega)]
  simp only [Service.frame, hj, Service.respond, Service.halted_eq, hh, ha]
  rfl

/-- A request that is heard with a length its kind does not allow (R166 step 3). -/
theorem serve_badLength {v : Service} {f : Req} {s : State} (hs : s.hears f) (hg : s.held = false ∨ v.always = true)
    (h240 : f.payload.length ≤ 240) (hl : v.lengthOk f.payload.length = false) :
    serve v f s = replied v.kind f .badValue [] s := by
  obtain ⟨hx, hj⟩ := hs
  have hh : v.halted s = false := by
    rw [Service.halted_eq]
    rcases hg with h | h <;> simp [h]
  unfold serve
  rw [whenHunting_hunt hx, if_neg (by omega)]
  simp only [Service.frame, hj, Service.respond, hh, hl]
  rfl

/-- A broadcast request of a kind that is executed when broadcast (R167). -/
theorem serve_broadcast {v : Service} {f : Req} {s : State} (hx : s.link.rx = .hunt) (hf : f.addr = 255)
    (hb : v.bcast = true) (hg : s.held = false ∨ v.always = true) (h240 : f.payload.length ≤ 240)
    (hl : v.lengthOk f.payload.length = true) : serve v f s = (v.run f.payload s).state := by
  have hh : v.halted s = false := by
    rw [Service.halted_eq]
    rcases hg with h | h <;> simp [h]
  have hj : s.link.judge f.addr = .broadcast := by simp [Link.judge, hf]
  unfold serve
  rw [whenHunting_hunt hx, if_neg (by omega)]
  simp [Service.frame, hj, hb, hh, hl]

/-- A broadcast that is not executed is discarded (R167). -/
theorem serve_broadcast_discarded {v : Service} {f : Req} {s : State} (hx : s.link.rx = .hunt) (hf : f.addr = 255)
    (h240 : f.payload.length ≤ 240)
    (hn : v.bcast = false ∨ v.halted s = true ∨ v.lengthOk f.payload.length = false) : serve v f s = s := by
  have hj : s.link.judge f.addr = .broadcast := by simp [Link.judge, hf]
  unfold serve
  rw [whenHunting_hunt hx, if_neg (by omega)]
  rcases hn with h | h | h <;> simp [Service.frame, hj, h]

/-- A foreign frame is discarded (R164). -/
theorem serve_foreign {v : Service} {f : Req} {s : State} (hx : s.link.rx = .hunt)
    (hj : s.link.judge f.addr = .foreign) (h240 : f.payload.length ≤ 240) : serve v f s = s := by
  unfold serve
  rw [whenHunting_hunt hx, if_neg (by omega)]
  simp [Service.frame, hj]

/-- Everything a length byte above 240 can do. -/
theorem lengthFault_cases (a n : Byte) (s : State) :
    lengthFault a n s = { s with link := { s.link with rx := .quiet } } ∨ ∃ r, lengthFault a n s = takeFault r .quiet s := by
  unfold lengthFault
  split
  · exact .inl rfl
  · exact .inr ⟨_, rfl⟩
  · exact .inr ⟨_, rfl⟩

/-- Everything a request frame can do, whatever the state: no effect, a link fault, a reply that changes nothing
else, its execution with a reply, or its execution as a broadcast. -/
theorem serve_cases (v : Service) (f : Req) (s : State) :
    serve v f s = s ∨ serve v f s = overrunNow s ∨
      (s.link.rx = .hunt ∧
        (serve v f s = lengthFault f.addr (BitVec.ofNat 8 f.payload.length) s ∨
          serve v f s = replied v.kind f .halted [] s ∨ serve v f s = replied v.kind f .badValue [] s ∨
          serve v f s =
            replied v.kind f (v.run f.payload s).status (v.run f.payload s).body (v.run f.payload s).state ∨
          serve v f s = (v.run f.payload s).state)) := by
  rcases whenHunting_cases
      (fun s => if 240 < f.payload.length then lengthFault f.addr (BitVec.ofNat 8 f.payload.length) s else v.frame f s) s
    with h | h | ⟨hx, h⟩
  · exact .inl h
  · exact .inr (.inl h)
  · have h' : serve v f s = _ := h
    rw [h']
    split
    · exact .inr (.inr ⟨hx, .inl rfl⟩)
    · simp only [Service.frame]
      split
      · exact .inl rfl
      · split
        · exact .inr (.inr ⟨hx, .inr (.inr (.inr (.inr rfl)))⟩)
        · exact .inl rfl
      · rcases Service.respond_cases v f.payload s with hr | hr | ⟨-, -, hr⟩
        · exact .inr (.inr ⟨hx, .inr (.inl (by rw [hr]; rfl))⟩)
        · exact .inr (.inr ⟨hx, .inr (.inr (.inl (by rw [hr]; rfl)))⟩)
        · exact .inr (.inr ⟨hx, .inr (.inr (.inr (.inl (by rw [hr]; rfl))))⟩)

end Sys2Proof.Machine
end

