-- ==== Sys2Proof/Laws/Store.lean ====
section
/-! SUPPORT. What the page writer's operations leave in the store memory, and what a header then reads as
(Machine/Store.lean, Machine/StartUp.lean). -/

namespace Sys2Proof.Machine

/-! ## Pages -/

theorem takenBytes_nil (bs : List Byte) : takenBytes bs [] = bs := rfl

theorem takenBytes_length (bs : List Byte) (flaws : Flaws) : (takenBytes bs flaws).length = bs.length := by
  induction flaws generalizing bs with
  | nil => rfl
  | cons x xs ih => exact (ih (bs.set x.1.val x.2)).trans (List.length_set ..)

/-- Reading a byte after up to a page of bytes was written to a page. -/
theorem Memory.read_writePage {m : List Host.Cell} (h : Memory.wf m = true) (k : Fin 256) (bs : List Byte) (a : Nat)
    (hb : bs.length ≤ 256) :
    Memory.read (Memory.writePage m k bs) a =
      if pageBase k ≤ a ∧ a < pageBase k + bs.length then bs.getD (a - pageBase k) 0 else Memory.read m a := by
  unfold Memory.writePage
  rw [List.take_of_length_le hb, Memory.read_writeRun h]

theorem Memory.readRun_length (m : List Host.Cell) (a n : Nat) : (Memory.readRun m a n).length = n := by
  simp [Memory.readRun]

/-- Two memories that read alike over a run give the same run. -/
theorem Memory.readRun_congr {m m' : List Host.Cell} {a n : Nat}
    (h : ∀ b, a ≤ b → b < a + n → Memory.read m b = Memory.read m' b) :
    Memory.readRun m a n = Memory.readRun m' a n := by
  apply List.map_congr_left
  intro i hi
  rw [List.mem_range] at hi
  exact h (a + i) (by omega) (by omega)

/-- A whole page written is read back. -/
theorem Memory.readPage_writePage {m : List Host.Cell} (h : Memory.wf m = true) (k : Fin 256) (bs : List Byte)
    (hb : bs.length = 256) : Memory.readPage (Memory.writePage m k bs) k = bs := by
  apply List.ext_getElem
  · rw [Memory.readPage, Memory.readRun_length, hb]
  · intro i h1 h2
    simp only [Memory.readPage, Memory.readRun, List.getElem_map, List.getElem_range]
    rw [Memory.read_writePage h k bs _ (by omega), if_pos (by omega), Nat.add_sub_cancel_left]
    exact (List.getElem_eq_getD (h := h2) 0).symm

/-- Writing a page leaves every run outside the page as it was. -/
theorem Memory.readRun_writePage {m : List Host.Cell} (h : Memory.wf m = true) (k : Fin 256) (bs : List Byte)
    (hb : bs.length ≤ 256) (a n : Nat) (hout : a + n ≤ pageBase k ∨ pageBase k + 256 ≤ a) :
    Memory.readRun (Memory.writePage m k bs) a n = Memory.readRun m a n :=
  Memory.readRun_congr (fun b h1 h2 => by rw [Memory.read_writePage h k bs b hb, if_neg (by omega)])

/-- Erasing a page leaves every run outside the page as it was. -/
theorem Memory.readRun_erasePage {m : List Host.Cell} (h : Memory.wf m = true) (k : Fin 256) (a n : Nat)
    (hout : a + n ≤ pageBase k ∨ pageBase k + 256 ≤ a) :
    Memory.readRun (Memory.erasePage m k) a n = Memory.readRun m a n :=
  Memory.readRun_congr (fun b h1 h2 => by rw [Memory.read_erasePage h k b, if_neg (by omega)])

/-! ## The capture (R178) -/

theorem captureBytes_length (draw : Nat) : (captureBytes draw).length = 256 * pagesFor (contentLength draw) := by
  simp [captureBytes]

/-- A capture has a whole number of pages, 1 to 163. -/
theorem capture_pages (im : Image) (draw : Nat) :
    let c : Capture := { image := im, bytes := captureBytes draw }
    1 ≤ c.pages ∧ c.pages ≤ 163 ∧ c.bytes.length = 256 * c.pages := by
  have hl : (captureBytes draw).length = 256 * pagesFor (contentLength draw) := captureBytes_length draw
  have hc : contentLength draw ≤ 41728 := (Config.imageLength draw).isLt
  have h1 : 1 ≤ contentLength draw := by simp [contentLength]
  simp only [Capture.pages, hl]
  unfold pagesFor
  omega

/-! ## The header (R177) -/

theorem headerBytes_length (pages : Nat) (count sum : Half) : (headerBytes pages count sum).length = 8 := rfl

theorem headerPage_length (pages : Nat) (count sum : Half) : (headerPage pages count sum).length = 256 := by
  unfold headerPage
  rw [List.length_append, headerBytes_length, List.length_replicate]

theorem half_of_bytes (n : Nat) (h : n < 65536) :
    (BitVec.ofNat 8 n).toNat + 256 * (BitVec.ofNat 8 (n / 256)).toNat = n := by
  simp only [BitVec.toNat_ofNat]
  omega

/-- The fields of a header page that was written to page 0. -/
theorem header_written {m : List Host.Cell} (h : Memory.wf m = true) (pages : Nat) (count sum : Half)
    (hp : pages < 65536) :
    let w := Memory.writePage m 0 (headerPage pages count sum)
    headerPages w = pages ∧ headerCount w = count ∧ headerSum w = sum ∧ headerFormat w = formatNumber := by
  have hr : ∀ a, a < 8 → Memory.read (Memory.writePage m 0 (headerPage pages count sum)) a =
      (headerBytes pages count sum).getD a 0 := by
    intro a ha
    rw [Memory.read_writePage h 0 _ a (by rw [headerPage_length]), if_pos (by rw [headerPage_length]; simp [pageBase]; omega)]
    simp only [pageBase, Fin.val_zero, Nat.mul_zero, Nat.sub_zero, headerPage]
    rw [List.getD_append _ _ _ _ (by rw [headerBytes_length]; omega)]
  have hf : formatNumber < 65536 := by have := Config.formatWord.isLt; unfold formatNumber; omega
  refine ⟨?_, ?_, ?_, ?_⟩
  · unfold headerPages Memory.half
    rw [hr 0 (by omega), hr 1 (by omega)]
    exact half_of_bytes pages hp
  · unfold headerCount Memory.half
    rw [hr 2 (by omega), hr 3 (by omega)]
    show BitVec.ofNat 16 ((BitVec.ofNat 8 count.toNat).toNat + 256 * (BitVec.ofNat 8 (count.toNat / 256)).toNat) = count
    rw [half_of_bytes _ count.isLt, BitVec.ofNat_toNat, BitVec.setWidth_eq]
  · unfold headerSum Memory.half
    rw [hr 4 (by omega), hr 5 (by omega)]
    show BitVec.ofNat 16 ((BitVec.ofNat 8 sum.toNat).toNat + 256 * (BitVec.ofNat 8 (sum.toNat / 256)).toNat) = sum
    rw [half_of_bytes _ sum.isLt, BitVec.ofNat_toNat, BitVec.setWidth_eq]
  · unfold headerFormat Memory.half
    rw [hr 6 (by omega), hr 7 (by omega)]
    exact half_of_bytes formatNumber hf

/-- The format word that a header carries is not the erased word. -/
theorem formatNumber_ne : formatNumber ≠ 0xFFFF := by
  have := Config.formatWord.isLt
  unfold formatNumber
  omega

/-- A header page written over pages whose bytes sum as it says makes the store valid (R177). -/
theorem judgeHeader_written {m : List Host.Cell} (h : Memory.wf m = true) (pages : Nat) (count sum : Half)
    (h1 : 1 ≤ pages) (h2 : pages ≤ 163) (hs : byteSum (Memory.readRun m 256 (256 * pages)) = sum) :
    judgeHeader (Memory.writePage m 0 (headerPage pages count sum)) = .valid := by
  obtain ⟨hp, -, hsum, hf⟩ := header_written h pages count sum (by omega)
  have hrun : Memory.readRun (Memory.writePage m 0 (headerPage pages count sum)) 256 (256 * pages)
      = Memory.readRun m 256 (256 * pages) :=
    Memory.readRun_writePage h 0 _ (by rw [headerPage_length]) _ _ (by simp [pageBase])
  unfold judgeHeader
  rw [hf, if_neg formatNumber_ne, hp, hsum, hrun, if_pos ⟨rfl, h1, h2, hs⟩]

/-- An erased page 0 is judged blank (R177). -/
theorem judgeHeader_erased {m : List Host.Cell} (h : headerFormat m = 0xFFFF) : judgeHeader m = .blank := by
  unfold judgeHeader
  rw [if_pos h]

/-- Page 0 erased reads erased in its format word. -/
theorem headerFormat_erasePage {m : List Host.Cell} (h : Memory.wf m = true) :
    headerFormat (Memory.erasePage m 0) = 0xFFFF := by
  unfold headerFormat Memory.half
  rw [Memory.read_erasePage h, Memory.read_erasePage h, if_pos (by simp [pageBase]), if_pos (by simp [pageBase])]
  decide

/-- The format word rests on bytes 6 and 7 alone. -/
theorem headerFormat_congr {m m' : List Host.Cell} (h6 : Memory.read m 6 = Memory.read m' 6)
    (h7 : Memory.read m 7 = Memory.read m' 7) : headerFormat m = headerFormat m' := by
  unfold headerFormat Memory.half
  rw [h6, h7]

/-- A write to a page of the image leaves the format word as it was. -/
theorem headerFormat_writePage {m : List Host.Cell} (h : Memory.wf m = true) (k : Fin 256) (bs : List Byte)
    (hb : bs.length ≤ 256) (hk : 1 ≤ k.val) : headerFormat (Memory.writePage m k bs) = headerFormat m := by
  apply headerFormat_congr <;> rw [Memory.read_writePage h k bs _ hb, if_neg (by simp only [pageBase]; omega)]

/-- An erase of a page of the image leaves the format word as it was. -/
theorem headerFormat_erasePage_ne {m : List Host.Cell} (h : Memory.wf m = true) (k : Fin 256) (hk : 1 ≤ k.val) :
    headerFormat (Memory.erasePage m k) = headerFormat m := by
  apply headerFormat_congr <;> rw [Memory.read_erasePage h k, if_neg (by simp only [pageBase]; omega)]

/-- A header write cut short before its eighth byte leaves the format word as it was (R177, R181). -/
theorem headerFormat_cut {m : List Host.Cell} (h : Memory.wf m = true) (bs : List Byte) {placed : Nat}
    (hp : placed < 8) : headerFormat (Memory.writePage m 0 (bs.take (headerPlaced placed))) = headerFormat m := by
  have hl : (bs.take (headerPlaced placed)).length ≤ 6 := by
    rw [List.length_take]
    unfold headerPlaced
    rw [if_pos hp]
    omega
  apply headerFormat_congr <;>
    rw [Memory.read_writePage h 0 _ _ (by omega), if_neg (by simp only [pageBase, Fin.val_zero]; omega)]

/-! ## What a restart finds (R181) -/

/-- A restart leaves the store memory canonical. -/
theorem settledMemory_wf (r : RestartIn) (t : Store) (h : Memory.wf t.mem = true) :
    Memory.wf (settledMemory r t) = true := by
  unfold settledMemory
  split <;> first | exact h | exact Memory.erasePage_wf h _ | exact Memory.writePage_wf h _ _

/-- With no save or erase under way a restart finds the memory as it stands. -/
theorem settledMemory_idle (r : RestartIn) (t : Store) (h : t.writer = .idle) : settledMemory r t = t.mem := by
  unfold settledMemory
  rw [h]

theorem settledImage_idle (r : RestartIn) (t : Store) (h : t.writer = .idle) : settledImage r t = t.image := by
  unfold settledImage
  rw [h]

/-! ## The page writer (R179, R180) -/

/-- A page erase's completion touches the memory, the writer and, at the end of an erase or a failed save, the
status and the conditions; nothing else. -/
theorem eraseComplete_frame (s : State) :
    let t := eraseComplete s
    t.settings = s.settings ∧ t.staging = s.staging ∧ t.link = s.link ∧ t.clock = s.clock ∧ t.draws = s.draws
      ∧ t.pending = s.pending ∧ t.plant.cells = s.plant.cells ∧ t.plant.lanes = s.plant.lanes
      ∧ t.plant.dir = s.plant.dir ∧ t.plant.survey = s.plant.survey ∧ t.store.image = s.store.image
      ∧ t.store.capture = s.store.capture ∧ t.store.saveCount = s.store.saveCount
      ∧ t.store.failNoted = s.store.failNoted := by
  unfold eraseComplete
  dsimp only
  split <;> simp [failSave, State.raise, State.setStore, State.stage, Plant.raise]

/-- A page write's completion touches the memory, the image the pages spell, the writer, the count of verified pages
and, at the end of a save, the status, the save count and the conditions; nothing else. -/
theorem writeComplete_frame (flaws : Flaws) (s : State) :
    let t := writeComplete flaws s
    t.settings = s.settings ∧ t.staging = s.staging ∧ t.link = s.link ∧ t.clock = s.clock ∧ t.draws = s.draws
      ∧ t.pending = s.pending ∧ t.plant.cells = s.plant.cells ∧ t.plant.lanes = s.plant.lanes
      ∧ t.plant.dir = s.plant.dir ∧ t.plant.survey = s.plant.survey ∧ t.store.capture = s.store.capture
      ∧ t.store.failNoted = s.store.failNoted := by
  unfold writeComplete writePageDone writeHeaderDone
  dsimp only
  (repeat' split) <;> simp_all [failSave, finishSave, State.raise, State.setStore, State.stage, Plant.raise]

/-- Both completions keep the memory canonical. -/
theorem eraseComplete_wf (s : State) (h : Memory.wf s.store.mem = true) :
    Memory.wf (eraseComplete s).store.mem = true := by
  unfold eraseComplete
  dsimp only
  split <;> first | exact h | exact Memory.erasePage_wf h _

theorem writeComplete_wf (flaws : Flaws) (s : State) (h : Memory.wf s.store.mem = true) :
    Memory.wf (writeComplete flaws s).store.mem = true := by
  unfold writeComplete writePageDone writeHeaderDone
  dsimp only
  (repeat' split) <;> first | exact h | exact Memory.writePage_wf h _ _

end Sys2Proof.Machine
end

