-- ==== Sys2Proof/Tests/Slice0.lean ====
section
/-! SUPPORT. Tests: the check of well-formedness refuses an ill-formed term of each kind; values that the reference
works out by hand; and, for each obligation with hypotheses, operands and a state that meet them. -/

namespace Sys2Proof.Tests

open Sys2Proof Sys2Proof.Machine

set_option Elab.async false

/-! ## States -/

/-- A frame to strap address 31. -/
def to31 (p : List Byte) : Req := { addr := 31, tag := 0x2A, payload := p }

/-- The machine after a restart and start-up, listening; no raster. -/
def unit : State :=
  { State.reset with
    link := { State.reset.link with rx := .hunt }
    plant := { Plant.atRestart with notice := { Notice.atRestart with startUp := false } } }

/-- A cell of profile 0 and 8 MHz, with what its state needs. -/
def cell (freq : Nat) (k : CellState) (q : Option Nat) (fails : Nat) (due : Option Time) (l : Option Lane) : Cell :=
  { Cell.atRestart with
    defn := { freq := freq, bandwidth := 8, profile := 0 }, state := k, q := q, fails := fails, due := due, engaged := l }

/-- The default periods, latched. -/
def periods : Latched := { lock := 128, gap := some 512, dwell := 4096, interval := 200 }

/-- A lane in a stage of a visit, with what its state needs. -/
def lane (k : LaneState) (c : CellRef) (v : VisitClass) (terms : Option SpotTerms) : LaneRec :=
  { LaneRec.atRestart with
    state := k, cell := some c, cls := some v, terms := terms, latched := some periods
    start := if k = .held then none else some 900
    dwellTimer := if k = .held then none else some 4096
    lockTimer := if k = .tuning then some 128 else none
    measureTimer := if k = .measuring then some 200 else none
    refreshTimer := if k = .held then some 200 else none
    holdExpiry := if k = .held then some 1020 else none
    live := if k = .held then some { lock := true, level := none, mer := none, load := none, blocks := 3 } else none
    lockNoted := k == .trimming || k == .measuring || k == .reading
    trim := if k = .trimming then TrimUnit.begin Options.atRestart else TrimUnit.idle
    gathered := { n := 5, mer := 1420, level := 360, load := 685, blocks := 2 }
    meas := if k = .reading then some { level := 72, mer := 284, load := 137, blocks := 2 } else none
    trimResult := if k = .reading then some (.edges (-15) 12 (-1) 12) else none
    collector := if k = .reading then Collector.begin (some 512) else Collector.idle }

/-- The feed record of feed A in `busy`. -/
def feedA : FeedRec := { enable := true, priority := 4, w1 := ⟨470000, 694000⟩, w2 := ⟨0, 0⟩ }

def cellsA : List Cell :=
  [cell 474000 .lit (some 512) 0 (some 990) none, cell 722000 .barred none 0 none none,
    cell 482000 .part (some 300) 0 (some 1100) (some 2), cell 490000 .dark (some 120) 1 none (some 1),
    cell 498000 .lost (some 40) 3 none (some 3), cell 506000 .unseen none 0 none (some 4),
    cell 514000 .unseen none 0 none (some 5), cell 522000 .lit (some 600) 0 (some 1000) none]

def cellOf (c : CellRef) : Cell := cellsA.getD c.val Cell.atRestart

def lanesBusy : Vector LaneRec 8 :=
  #v[LaneRec.atRestart, lane .held 3 .spot (some ⟨true, 120, 9⟩), lane .reading 2 .watch none, lane .tuning 4 .sweep none,
    lane .trimming 5 .sweep none, lane .measuring 6 .spot (some ⟨true, 30, 8⟩),
    { LaneRec.atRestart with state := .parked }, { LaneRec.atRestart with state := .faulted }]

def slotLive : Slot :=
  { Slot.empty with
    state := .live, key := some ⟨4120, 101⟩, kind := some .tv, chosen := some 0, reason := some .newService
    reported := some 0, created := 5 }

def slotOrphan : Slot :=
  { Slot.empty with state := .orphan, key := some ⟨4120, 102⟩, kind := some .tv, orphanSince := some 10 }

def slotRetiring : Slot :=
  { Slot.empty with
    state := .retiring, key := some ⟨4120, 103⟩, kind := some .tv, reported := some 0, reason := some .serviceGone
    advice := .queued }

def slotProvisional : Slot := { Slot.empty with state := .provisional, key := some ⟨4120, 104⟩, kind := some .tv }

def sighting (n : SlotNo) (c : CellRef) : Sighting :=
  { slot := n, cell := c, stream := 7, scrambled := false, version := none, created := 5, confirmed := 5 }

def slotOf (n : SlotNo) : Slot := [slotLive, slotOrphan, slotRetiring, slotProvisional].getD n.val Slot.empty

def dirBusy : Dir :=
  { slots := table slotOf
    pool := [sighting 0 0, sighting 0 2, sighting 1 4]
    queue := [{ slot := 2, key := some ⟨4120, 103⟩, origin := some 0, target := none, reason := some .serviceGone, q := none }]
    grace := false }

/-- A running survey with a lane in every state, a cell in every state and a slot in every state. -/
def busy : State :=
  { unit with
    settings := { Settings.atRestart with feeds := put Settings.atRestart.feeds 0 feedA }
    plant :=
      { cells := table cellOf, lanes := lanesBusy, dir := dirBusy
        survey := { Survey.atRestart with state := .running, ticket := 1, spots := [⟨0, 7, true, 0⟩] }
        notice := unit.plant.notice }
    clock := 1000 }

@[simp] theorem busy_cell (c : CellRef) : look busy.plant.cells c = cellOf c := look_table cellOf c
@[simp] theorem busy_slot (n : SlotNo) : look busy.plant.dir.slots n = slotOf n := look_table slotOf n

theorem slotOf_rest {n : SlotNo} (h : 4 ≤ n.val) : slotOf n = Slot.empty := by
  rw [slotOf, List.getD_eq_default _ _ (by simp; omega)]

theorem slotOf_used {n : SlotNo} (h : (slotOf n).state ≠ .free) : n.val < 4 := by
  by_contra hn
  exact h (by rw [slotOf_rest (by omega)]; rfl)

/-- The first four slots. -/
def first (n : Fin 4) : SlotNo := Fin.castLE (by decide) n

/-- `busy` keeps the laws of the survey (and so those of every lane). -/
theorem test_busy_survey : SurveyLaw busy := by
  refine ⟨⟨?_, ?_, ?_⟩, ?_, ?_, ?_, ?_, ?_⟩
  · unfold SettingsRight; decide +kernel
  · unfold AddressesRight; decide +kernel
  · unfold SettingsRight AddressesRight; decide +kernel
  · unfold CellRight; simp only [busy_cell]; decide +kernel
  · unfold LaneRight; decide +kernel
  · unfold EngagementRight; simp only [busy_cell]; decide +kernel
  · simp only [busy_cell]; decide +kernel
  · unfold CollectorRight; decide +kernel

/-- `busy` keeps the laws of the directory. -/
theorem test_busy_directory : DirectoryRight busy.plant.cells busy.plant.dir := by
  refine ⟨⟨?_, ?_, ?_, ?_⟩, ?_, ?_, ?_, ?_, ?_, ?_, ?_, ?_⟩
  · decide +kernel
  · unfold Dir.sightings; decide +kernel
  · decide +kernel
  · simp only [busy_cell, busy_slot]; decide +kernel
  · have h4 : ∀ k : Fin 4, SlotRight busy.plant.cells busy.plant.dir (first k) (slotOf (first k)) := by
      unfold SlotRight Dir.sightings Dir.holds; simp only [busy_cell]; decide +kernel
    intro n
    rw [busy_slot]
    by_cases hn : n.val < 4
    · exact h4 ⟨n.val, hn⟩
    · rw [slotOf_rest (by omega)]
      simp [SlotRight, Slot.empty]
  · intro n m hn hm
    simp only [busy_slot] at hn hm ⊢
    have h4 : ∀ a b : Fin 4, (slotOf (first a)).key = (slotOf (first b)).key → a = b := by decide +kernel
    intro h
    have := h4 ⟨n.val, slotOf_used hn⟩ ⟨m.val, slotOf_used hm⟩ h
    exact Fin.ext (Fin.mk.inj_iff.mp this)
  · decide +kernel
  · decide +kernel
  · simp only [busy_slot]; decide +kernel
  · simp only [busy_slot]; decide +kernel
  · simp only [busy_slot]; decide +kernel
  · simp only [busy_slot]; decide +kernel

/-! ## WellFormed refuses an ill-formed term of each kind -/

/-- A payload of 241 bytes (Table 11.6: at most 240). -/
theorem test_wf_payload : (Instr.identify (to31 (List.replicate 241 0))).wf = false := by decide +kernel
theorem test_wf_unknown_catalogued : (Instr.unknownKind 0x3E (to31 [])).wf = false := by decide
theorem test_wf_unknown_reply : (Instr.unknownKind 0x80 (to31 [])).wf = false := by decide
theorem test_wf_unknown_broadcast : (Instr.unknownKind 0x09 { to31 [] with addr := 255 }).wf = false := by decide
theorem test_wf_reply_kind : (Instr.replyKindDiscarded 0x7F (to31 [])).wf = false := by decide
theorem test_wf_broadcast_addr : (Instr.broadcastDiscarded 0x02 (to31 [])).wf = false := by decide
theorem test_wf_foreign_length : (Instr.foreignFrame 1 (to31 []) (.badLength 240)).wf = false := by decide
theorem test_wf_foreign_stop : (Instr.foreignFrame 1 (to31 []) (.stopped [0, 1, 2, 3])).wf = false := by decide
theorem test_wf_foreign_whole : (Instr.foreignFrame 1 { to31 [] with addr := 255 } .whole).wf = false := by decide
theorem test_wf_check : (Instr.checkFault 1 0 (to31 (List.replicate 241 0))).wf = false := by decide +kernel
theorem test_wf_framing_length : (Instr.framingLengthFault 31 240).wf = false := by decide
theorem test_wf_framing_gap : (Instr.framingGapTimeout 31 [1, 2, 3, 4, 5]).wf = false := by decide
theorem test_wf_section : (Section.mk 1 1 0 0 0 (List.replicate 13 ⟨1, .tv, [], false⟩)).wf = false := by decide
theorem test_wf_name : (Section.mk 1 1 0 0 0 [⟨1, .tv, List.replicate 25 65, false⟩]).wf = false := by decide
theorem test_wf_restart : (Instr.powerOn ⟨0, false, 257, []⟩).wf = false := by decide
theorem test_wf_accepts : (Instr.rosterSection 0 ⟨1, 1, 0, 0, 0, [⟨1, .tv, List.replicate 24 65, false⟩]⟩).wf = true := by
  decide
/-- The table gives no row any bits. -/
theorem test_no_word_decodes : decodeTableWord 8 0x01 = none := rfl

/-! ## Values that the reference works out -/

/-- Section 4.2, "A carrier a little short of perfect". -/
theorem test_score_short :
    visitScore ⟨72, 284, 137, 2⟩ 180 45 85 12 = 320 ∧ visitScore ⟨72, 284, 137, 0⟩ 180 45 85 12 = 641
      ∧ visitScore ⟨72, 284, 137, 5⟩ 180 45 85 12 = 160 ∧ visitScore ⟨72, 284, 137, 16⟩ 180 45 85 12 = 0 := by decide
/-- Section 4.2, "A poor carrier", "An overdriven carrier" and "The limits". -/
theorem test_score_limits :
    visitScore ⟨38, 60, 1000, 0⟩ 180 45 85 0 = 60 ∧ termB 97 45 85 = 80 ∧ termB 105 45 85 = 0 ∧ termB 20 45 85 = 0
      ∧ visitScore ⟨60, 400, 3, 0⟩ 150 45 85 31 = 1000 ∧ visitScore ⟨60, 400, 3, 0⟩ 330 45 85 31 = 640
      ∧ visitScore ⟨60, 400, 3, 3⟩ 150 45 85 31 = 500 ∧ visitScore ⟨60, 400, 3, 15⟩ 150 45 85 31 = 250 := by decide
/-- Table 4.5, visits 3, 4, 8 and 9. -/
theorem test_smoothing :
    smooth .part (some 320) 648 = 402 ∧ smooth .lost (some 50) 80 = 80 ∧ smooth .lit (some 80) 641 = 220
      ∧ smooth .unseen none 320 = 320 := by decide
/-- Table 4.5, visits 4 and 6: Q halves, and the third failure loses the cell. -/
theorem test_no_lock :
    (afterNoLock Settings.atRestart (cell 1 .lit (some 402) 0 none none)).q = some 201
      ∧ (afterNoLock Settings.atRestart (cell 1 .dark (some 100) 2 none none)).state = .lost := by decide
/-- Section 3.10, Table 3.3: +9, -6, centre +1, margin 6. -/
theorem test_sweep_narrow :
    runSweep (fun k => if k = 10 then 9 else if k = -7 then 12 else 4) 63 (TrimUnit.begin ⟨.narrow, .one, 4⟩)
      = some (.edges (-6) 9 1 6) := by decide
/-- Section 3.10: a wide sweep with step 2 that passes everywhere has margin 31. -/
theorem test_sweep_wide :
    runSweep (fun _ => 0) 63 (TrimUnit.begin ⟨.wide, .two, 4⟩) = some (.edges (-30) 30 0 31) := by decide
/-- Section 3.10, the one-sided carrier with step 2 and limit 0. -/
theorem test_sweep_one_sided :
    runSweep (fun k => if k = 2 then 1 else 0) 63 (TrimUnit.begin ⟨.narrow, .two, 0⟩) = some (.edges (-14) 0 (-7) 0) := by
  decide
/-- Table 2.9: -15, +12, centre -1, margin 12. -/
theorem test_sweep_c8 :
    runSweep (fun k => if k = 13 then 5 else 0) 63 (TrimUnit.begin ⟨.narrow, .one, 4⟩) = some (.edges (-15) 12 (-1) 12) := by
  decide
/-- Section 3.10, "A failed centre". -/
theorem test_sweep_failed : runSweep (fun _ => 30) 63 (TrimUnit.begin ⟨.narrow, .one, 4⟩) = some .centreFailed := by decide
/-- Section 1.8: 722,000 kHz lies outside a window from 470,000 to 694,000, and its limit inside. -/
theorem test_admission :
    feedA.admits ⟨722000, 8, 2⟩ = false ∧ feedA.admits ⟨694000, 8, 2⟩ = true ∧ feedA.admits ⟨0, 8, 0⟩ = false := by decide
/-- Table 5.3 and section 5.6: one version change restarts the collector, a second ends READING UNSTABLE. -/
theorem test_version_change :
    let s (v : Fin 32) (n : Fin 16) : Section := ⟨4120, 7, v, n, 2, []⟩
    let c1 := (Collector.begin (some 512)).first (some 512) (s 6 1)
    let c2 := c1.take (some 512) (some .watch) Cell.atRestart (s 7 0)
    (∃ c, c2 = .goOn c ∧ c.held.map Prod.fst = [0] ∧ c.changes = 1
      ∧ c.take (some 512) (some .watch) Cell.atRestart (s 6 1) = .unstable) := by
  exact ⟨_, rfl, by decide, by decide, by decide⟩
/-- Table 11.6: the check byte makes the exclusive-OR of the frame 0. -/
theorem test_check_byte : checkSum 0x01 (xorBytes (frameOf 0x01 (to31 [])).body) (to31 []) = 0 := by decide

/-! ## Single steps -/

/-- The state after a command. -/
def after (i : Instr) (s : State) : State :=
  match exec i s with
  | .next t => t
  | .fault _ | .refused _ => s

/-- Section 11.9: in STRICT mode with a fault held, Take Advice is HALTED. -/
def heldUnit : State :=
  { unit with link := { unit.link with log := some ⟨.check, 31, some 1, some 0x3B, some 0x31, 4300⟩ } }

theorem test_take_advice_halted :
    (after (.takeAdvice (to31 [1])) heldUnit).link.answering.map (fun a => a.reply.payload) = some [Status.halted.code] := by
  decide +kernel
/-- R173: the identity that answers Identify. -/
theorem test_identify :
    (after (.identify (to31 [])) unit).link.answering.map (fun a => a.reply)
      = some ⟨31, 0x81, 0x2A, [0, 0x41, 0x2C, 0x86, 0, 1, 31, 8, 6, 0, 0]⟩ := by decide +kernel
/-- Section 6.11: a service is due to be forgotten at the forget time, 60 minutes, and not a second sooner. -/
theorem test_forget_due :
    ({ busy with clock := 3610 }.view.forgetDue slotOrphan = true)
      ∧ ({ busy with clock := 3609 }.view.forgetDue slotOrphan = false) := by decide +kernel
/-- R103, R104: slot 1 of `busy` is not known to the host, so forgetting it frees it; slot 0 retires. -/
theorem test_forget_service :
    (look (after (.forgetService (to31 [1, 0])) busy).plant.dir.slots 1).state = .free
      ∧ (look (after (.forgetService (to31 [0, 0])) busy).plant.dir.slots 0).state = .retiring := by decide +kernel
/-- R147: lane 0 of `busy`, the only IDLE one, takes the spot entry for A-7. -/
theorem test_grant :
    (look (after .grant busy).plant.lanes 0).cell = some 7 ∧ (after .grant busy).plant.survey.spots = [] := by decide +kernel
/-- Table 4.5, visit 2 against a Q of 300: S = 320 gives Q = 305. -/
theorem test_visit_end :
    (look (after (.gapTimerExpiry 2) busy).plant.cells 2).q = some ((3 * 300 + visitScore ⟨72, 284, 137, 2⟩ 150 45 85 12 + 2) / 4)
      := by decide +kernel
/-- Section 10.7, events 1, 3 and 5. -/
theorem test_attention :
    let n := unit.plant.notice.raise Condition.spotDone.bit
    n.attention = false ∧ (n.setMask 0x525#12).attention = true ∧ (n.setMask 0x525#12).clear.attention = false := by decide

/-! ## Witnesses: the hypotheses of each obligation are met

One theorem for each obligation with hypotheses: for each of its clauses, a state and operands that meet what the
clause assumes, at a boundary of the range where the clause has one. -/

/-! ### Link -/

/-- A receiver in QUIET. -/
def quiet : State := { unit with link := { unit.link with rx := .quiet } }
/-- A unit whose reply is being sent. -/
def answered : State := after (.identify (to31 [])) unit
/-- A unit whose reply to a Restart request is being sent. -/
def owing : State := after (.restart (to31 [])) unit
/-- A frame to every unit. -/
def toAll (p : List Byte) : Req := { addr := 255, tag := 0x2A, payload := p }
/-- A frame to another unit. -/
def to30 (p : List Byte) : Req := { addr := 30, tag := 0x2A, payload := p }
/-- A unit in LENIENT mode with a fault held. -/
def lenientUnit : State := { heldUnit with link := { heldUnit.link with mode := .lenient } }

theorem test_witness_StepExecutesTheFrontCommand : (busy.withPending [.grant]).pending = .grant :: [] := rfl

theorem test_witness_IdleStepCountsASecond : busy.pending = [] := rfl

theorem test_witness_RequestsAreGatedInOrder :
    (requestOf (.takeAdvice (to31 [1])) = some (0x3B, to31 [1]) ∧ heldUnit.hears (to31 [1]) ∧ heldUnit.held = true
      ∧ servedWhileHeld 0x3B = false)
    ∧ (requestOf (.setAcceptSet (to31 [1, 2, 3, 4])) = some (0x03, to31 [1, 2, 3, 4]) ∧ unit.hears (to31 [1, 2, 3, 4])
      ∧ unit.held = false ∧ lengthAllowed 0x03 4 = false)
    ∧ (requestOf (.readLinkLog (to31 [0])) = some (0x05, to31 [0]) ∧ heldUnit.hears (to31 [0])
      ∧ servedWhileHeld 0x05 = true ∧ lengthAllowed 0x05 1 = false)
    ∧ unit.hears (to31 []) ∧ catalogued 0x09 = false ∧ catalogued 0x7F = false ∧ catalogued 0x00 = false := by
  decide +kernel

theorem test_witness_BroadcastsActAsAddressedRequests :
    (requestOf (.startSurvey (toAll [])) = some (0x28, toAll []) ∧ requestOf (.startSurvey (to31 [])) = some (0x28, to31 [])
      ∧ broadcastKind 0x28 = true ∧ (toAll []).addr = 255 ∧ busy.hears (to31 []) ∧ busy.held = false)
    ∧ requestOf (.clearLinkFault (toAll [])) = some (0x06, toAll []) ∧ broadcastKind 0x06 = true
      ∧ heldUnit.hears (to31 []) ∧ heldUnit.held = true := by
  decide +kernel

theorem test_witness_FramesThatAreNotForTheUnit :
    State.reset.link.rx = .deaf ∧ quiet.link.rx = .quiet ∧ unit.link.rx = .hunt ∧ unit.link.judge 30 = .foreign
      ∧ broadcastKind 0x02 = false ∧ lengthAllowed 0x28 1 = false ∧ heldUnit.held = true ∧ heldUnit.link.rx = .hunt
      ∧ unit.link.judge 31 = .accepted ∧ 240 < (241#8).toNat ∧ cutShort [] = true
      ∧ cutShort (240#8 :: List.replicate 242 0#8) = true := by
  decide +kernel

theorem test_witness_LinkFaultsAreLogged :
    unit.link.rx = .hunt ∧ unit.link.judge 31 ≠ .foreign ∧ unit.link.judge 255 ≠ .foreign ∧ checkSum 0x3B 0 (to31 [1]) ≠ 0
      ∧ checkSum 0x3B 0 (toAll []) ≠ 0 ∧ 240 < (241#8).toNat ∧ cutShort [] = true ∧ cutShort [1, 0x3B, 0x31, 1] = true := by
  decide +kernel

theorem test_witness_RepliesEndOrAreOverrun :
    (∃ a, answered.link.answering = some a) ∧ answered.link.rx = .frame ∧ answered.link.restartOwed = false
      ∧ unit.link.answering = none ∧ requestOf (.identify (to31 [])) = some (0x01, to31 [])
      ∧ (∃ a, owing.link.answering = some a) ∧ owing.link.restartOwed = true := by
  exact ⟨⟨_, rfl⟩, by decide +kernel, by decide +kernel, rfl, rfl, ⟨_, rfl⟩, by decide +kernel⟩

theorem test_witness_IdentifyAndRestartAreAnswered : heldUnit.hears (to31 []) ∧ lenientUnit.serves (to31 []) := by
  decide +kernel

theorem test_witness_LinkSettingsAndLog :
    unit.serves (to31 [1, 31, 1]) ∧ (∀ a ∈ (to31 [1, 31, 1]).payload, a ≠ 0 ∧ a ≠ 255) ∧ unit.serves (to31 [254, 255])
      ∧ (∃ a ∈ (to31 [254, 255]).payload, a = 0 ∨ a = 255) ∧ (∃ a ∈ (to31 [0]).payload, a = 0 ∨ a = 255)
      ∧ unit.serves (to31 [2]) ∧ heldUnit.hears (to31 []) ∧ unit.link.log = none ∧ (∃ r, heldUnit.link.log = some r) := by
  exact ⟨by decide +kernel, by decide, by decide +kernel, by decide, by decide, by decide +kernel, by decide +kernel, rfl,
    ⟨_, rfl⟩⟩

theorem test_witness_ConditionsAreReadAndMasked :
    heldUnit.hears (to31 []) ∧ unit.serves (to31 [0xFF, 15]) ∧ (15#8).toNat < 16 ∧ 16 ≤ (16#8).toNat := by
  decide +kernel

theorem test_witness_ConditionsStaySetUntilRead :
    (∃ t, exec .grant busy = .next t) ∧ frameKind .grant ≠ some 0x07
      ∧ ∀ r, Instr.grant ≠ .powerOn r ∧ Instr.grant ≠ .restartLine r ∧ Instr.grant ≠ .restartReplySent r :=
  ⟨⟨_, rfl⟩, by decide, fun _ => ⟨Instr.noConfusion, Instr.noConfusion, Instr.noConfusion⟩⟩

/-- R174: the end of the reply to a Restart request, complete or overrun, restarts the controller at once. -/
theorem test_reply_sent_restarts : (after .replySent owing).plant.notice.startUp = true := by decide +kernel
theorem test_overrun_restarts : (after .overrun owing).link.rx = .deaf := by decide +kernel

/-! ### Feeds, raster, lanes -/

/-- Set Feed of feed A with window 1 from 470,000 to 506,000 kHz and window 2 the one frequency 722,000 kHz. -/
def narrowed : List Byte := [0, 1, 4] ++ b4 470000 ++ b4 506000 ++ b4 722000 ++ b4 722000
def narrowRec : FeedRec := { enable := true, priority := 4, w1 := ⟨470000, 506000⟩, w2 := ⟨722000, 722000⟩ }

/-- A payload of Set Feed with one byte replaced. -/
def narrowedBut (k : Nat) (b : Byte) : List Byte := narrowed.set k b

/-- Cell A-6 (lane 5 in a spot visit) and A-7 (a spot entry waits) are barred, A-1 admitted, and A-5, at the limit, is as
it was; no cell of feed B is barred. Then the four bad values: feed 6, enable 2, priority 8, and a limit of window 2 above
870,000. -/
theorem test_witness_SetFeedRejudgesItsCells :
    SurveyLaw busy ∧ busy.serves (to31 narrowed) ∧ narrowed.length = 19 ∧ feedAt narrowed 0 = some 0
      ∧ feedRecAt narrowed = some narrowRec ∧ look busy.settings.feeds 0 = feedA
      ∧ (feedA.admits (cellOf 6).defn = true ∧ narrowRec.admits (cellOf 6).defn = false ∧ (look busy.plant.lanes 5).cell = some 6)
      ∧ ((cellOf 1).state = .barred ∧ narrowRec.admits (cellOf 1).defn = true)
      ∧ feedA.admits (cellOf 5).defn = true ∧ narrowRec.admits (cellOf 5).defn = true
      ∧ ((look busy.plant.lanes 5).inVisit = true ∧ (look busy.plant.lanes 5).terms = some ⟨true, 30, 8⟩)
      ∧ (feedA.admits (cellOf 7).defn = true ∧ narrowRec.admits (cellOf 7).defn = false
        ∧ busy.plant.survey.spots = [⟨0, 7, true, 0⟩])
      ∧ (feedAt (narrowedBut 0 1) 0 = some 1 ∧ feedRecAt (narrowedBut 0 1) = some narrowRec ∧ (cellOf 96).defn.freq = 0)
      ∧ (busy.serves (to31 (narrowedBut 0 6)) ∧ 6 ≤ byteAt (narrowedBut 0 6) 0 ∧ 2 ≤ byteAt (narrowedBut 1 2) 1
        ∧ 8 ≤ byteAt (narrowedBut 2 8) 2 ∧ 870000 < wordAt (narrowedBut 17 13 |>.set 16 70 |>.set 15 113) 15) :=
  ⟨test_busy_survey, by decide +kernel⟩

/-- `busy` draining, with lane 3, in a SWEEP visit on A-4, stepped. -/
def busyStepped : State :=
  { busy with plant := { busy.plant with survey := { busy.plant.survey with state := .draining, stepped := 0x08 } } }

/-- Set Feed that disables feed A: the cells A-0, A-2 and A-4 are barred, on which slots 0 and 1 have sightings, and the
visit of the stepped lane 3 on A-4 ends. -/
theorem test_witness_SetFeedRejudgesItsCells_services :
    SurveyLaw busyStepped ∧ busyStepped.serves (to31 (narrowedBut 1 0)) ∧ (narrowedBut 1 0).length = 19
      ∧ feedAt (narrowedBut 1 0) 0 = some 0 ∧ feedRecAt (narrowedBut 1 0) = some { narrowRec with enable := false }
      ∧ (∀ c ∈ ([0, 2, 4] : List CellRef), feedA.admits (cellOf c).defn = true
        ∧ ({ narrowRec with enable := false } : FeedRec).admits (cellOf c).defn = false)
      ∧ dirBusy.holds 0 0 = true ∧ dirBusy.holds 0 2 = true ∧ dirBusy.holds 1 4 = true
      ∧ (look busyStepped.plant.lanes 3).surveying = true ∧ (look busyStepped.plant.lanes 3).cell = some 4
      ∧ busyStepped.plant.survey.stepped.getLsbD 3 = true ∧ busyStepped.plant.survey.state = .draining :=
  ⟨test_busy_survey, by decide +kernel⟩

theorem test_witness_ReadFeedReturnsRecordAndCounts :
    busy.serves (to31 [5]) ∧ (5#8).toNat = (5 : Feed).val ∧ 6 ≤ (6#8).toNat := by decide +kernel

theorem test_witness_ProfilesAndTimersAreSetAndRead :
    unit.serves (to31 [7, 50, 0]) ∧ (7#8).toNat = (7 : Fin 8).val ∧ 50 ≤ (50#8).toNat + 256 * (0#8).toNat
      ∧ (94#8).toNat + 256 * (1#8).toNat = 350 ∧ (49#8).toNat + 256 * (0#8).toNat < 50 ∧ 350 < (95#8).toNat + 256 * (1#8).toNat
      ∧ unit.serves (to31 [15, 15, 15, 0xD0, 7]) ∧ (0xD0#8).toNat + 256 * (7#8).toNat = 2000
      ∧ unit.serves (to31 [1, 0, 1, 50, 0]) ∧ 15 < (16#8).toNat ∧ unit.serves (to31 []) := by
  decide +kernel

/-- A unit with page A-0 open and 15 positions staged. -/
def staging15 : State :=
  { busy with staging := { page := some (0, 0), staged := List.replicate 15 CellDef.vacant } }

theorem test_witness_StagingIsOpenedFilledAndClosed :
    unit.serves (to31 [5, 5]) ∧ (5#8).toNat = (5 : Feed).val ∧ (5#8).toNat = (5 : Fin 6).val ∧ 6 ≤ (6#8).toNat
      ∧ unit.staging.page = none ∧ staging15.staging.page ≠ none ∧ staging15.serves (to31 []) ∧ unit.serves (to31 [])
      ∧ (let p := b4 45000 ++ [6, 0] ++ b4 870000 ++ [8, 7]
         defsOf p = [⟨45000, 6, 0⟩, ⟨870000, 8, 7⟩] ∧ p.length = 12 ∧ staging15.serves (to31 p)
          ∧ ∀ d ∈ defsOf p, d.valid = true)
      ∧ ∃ d ∈ defsOf (b4 44999 ++ [6, 0]), d.valid = false := by
  decide +kernel

/-- `busy` with page A-0 open: its first three definitions repeated, the rest vacant. -/
def staged3 : State :=
  { busy with staging := { page := some (0, 0), staged := [⟨474000, 8, 0⟩, ⟨722000, 8, 0⟩, ⟨482000, 8, 4⟩] } }
/-- The same with one frequency twice. -/
def staged2 : State :=
  { busy with staging := { page := some (0, 0), staged := [⟨474000, 8, 0⟩, ⟨474000, 8, 1⟩] } }

/-- The raster that a write of the open page 0 of feed A would leave. -/
def rasterAfter (s : State) (c : CellRef) : CellDef :=
  match (resultingPage 0 0 s.staging.staged).find? (fun e => e.1 == c) with
  | some e => e.2
  | none => (look s.plant.cells c).defn

theorem test_witness_WriteRasterPageRebuildsChangedCells :
    SurveyLaw busy ∧ SurveyLaw staged3 ∧ SurveyLaw staged2 ∧ busy.serves (to31 []) ∧ staged3.serves (to31 [])
      ∧ busy.staging.page = none ∧ staged3.staging.page = some (0, 0) ∧ noRepeat (feedFreqs (rasterAfter staged3) 0) = true
      ∧ noRepeat (feedFreqs (rasterAfter staged2) 0) = false :=
  ⟨test_busy_survey, test_busy_survey, test_busy_survey, by decide +kernel⟩

/-- `busy` with page A-0 open: its definitions repeated, but for a new frequency at A-6 and at A-7. -/
def stagedMoved : State :=
  { busy with staging := { page := some (0, 0), staged :=
      [⟨474000, 8, 0⟩, ⟨722000, 8, 0⟩, ⟨482000, 8, 0⟩, ⟨490000, 8, 0⟩, ⟨498000, 8, 0⟩, ⟨506000, 8, 0⟩, ⟨530000, 8, 0⟩,
        ⟨538000, 8, 0⟩] } }

/-- The spot visit of lane 5 is on A-6, and the spot entry waits for A-7: `staged3` makes both VACANT, `stagedMoved` leaves
both UNSEEN. -/
theorem test_witness_WriteRasterPageRebuildsChangedCells_spots :
    (SurveyLaw stagedMoved ∧ stagedMoved.serves (to31 []) ∧ stagedMoved.staging.page = some (0, 0))
    ∧ noRepeat (feedFreqs (rasterAfter stagedMoved) 0) = true
    ∧ ((cellOf 6).engaged = some 5 ∧ (look busy.plant.lanes 5).inVisit = true
      ∧ (look busy.plant.lanes 5).terms = some ⟨true, 30, 8⟩ ∧ busy.plant.survey.spots = [⟨0, 7, true, 0⟩])
    ∧ (rasterAfter staged3 6 = CellDef.vacant ∧ rasterAfter staged3 7 = CellDef.vacant)
    ∧ (rasterAfter stagedMoved 6 = ⟨530000, 8, 0⟩ ∧ rasterAfter stagedMoved 7 = ⟨538000, 8, 0⟩
      ∧ feedA.admits ⟨538000, 8, 0⟩ = true) :=
  ⟨⟨test_busy_survey, by decide +kernel⟩, by decide +kernel⟩

/-- `staged3` rebuilds A-2 and A-4, on which slots 0 and 1 have sightings. -/
theorem test_witness_WriteRasterPageRebuildsChangedCells_services :
    rasterAfter staged3 2 ≠ (cellOf 2).defn ∧ rasterAfter staged3 4 ≠ (cellOf 4).defn
      ∧ dirBusy.holds 0 2 = true ∧ dirBusy.holds 1 4 = true ∧ rasterAfter staged3 0 = (cellOf 0).defn := by
  decide +kernel

/-- Park Lane and a fault on the stepped lane 3, in a SWEEP visit of a draining survey, and on lane 5, in a SPOT visit. -/
theorem test_witness_ParkLaneEndsEverything_engine :
    busyStepped.serves (to31 [3]) ∧ (3#8).toNat = (3 : Lane).val ∧ busyStepped.serves (to31 [5])
      ∧ (5#8).toNat = (5 : Lane).val ∧ (look busyStepped.plant.lanes 3).inVisit = true
      ∧ (look busyStepped.plant.lanes 3).cell = some 4 ∧ (look busyStepped.plant.lanes 3).terms = none
      ∧ (look busyStepped.plant.lanes 5).inVisit = true ∧ (look busyStepped.plant.lanes 5).cell = some 6
      ∧ (look busyStepped.plant.lanes 5).terms = some ⟨true, 30, 8⟩ := by decide +kernel

theorem test_witness_FrontEndFaultTakesTheLaneDown_engine :
    LaneRight (look busyStepped.plant.lanes 3) ∧ LaneRight (look busyStepped.plant.lanes 5)
      ∧ LaneRight (look busyStepped.plant.lanes 0) ∧ (look busyStepped.plant.lanes 0).cell = none
      ∧ (look busyStepped.plant.lanes 3).state ≠ .parked ∧ (look busyStepped.plant.lanes 5).state ≠ .parked :=
  ⟨test_busy_survey.2.2.1 3, test_busy_survey.2.2.1 5, test_busy_survey.2.2.1 0, by decide +kernel⟩

theorem test_witness_ParkLaneEndsEverything :
    busy.serves (to31 [2]) ∧ (2#8).toNat = (2 : Lane).val ∧ (look busy.plant.lanes 2).inVisit = true
      ∧ (look busy.plant.lanes 2).cell = some 2 ∧ (look busy.plant.lanes 1).state = .held
      ∧ (look busy.plant.lanes 1).cell = some 3 ∧ busy.serves (to31 [1]) ∧ (1#8).toNat = (1 : Lane).val
      ∧ (look busy.plant.lanes 6).inVisit = false ∧ 8 ≤ (8#8).toNat := by decide +kernel

theorem test_witness_ParkedLanesAreConfiguredAndReturned :
    busy.serves (to31 [7]) ∧ (7#8).toNat = (7 : Lane).val ∧ (look busy.plant.lanes 7).state = .faulted
      ∧ (look busy.plant.lanes 6).state = .parked ∧ (look busy.plant.lanes 0).state = .idle ∧ 8 ≤ (8#8).toNat
      ∧ busy.serves (to31 [0xC0, 1, 2, 255]) ∧ (1#8).toNat = Reach.wide.code ∧ (2#8).toNat = TrimStep.two.size
      ∧ 3 ≤ (3#8).toNat := by decide +kernel

/-- `busy` with lane 3 in TUNING on a spot visit without trim. -/
def spotTuning : State :=
  { busy with plant := busy.plant.setLane 3 (lane .tuning 4 .spot (some ⟨false, 0, 8⟩)) }

theorem test_witness_LockAndProbesMoveTheVisit :
    ((look busy.plant.lanes 3).state = .tuning ∧ ∀ t ∈ (look busy.plant.lanes 3).terms, t.trim = true)
    ∧ ((look spotTuning.plant.lanes 3).state = .tuning ∧ (look spotTuning.plant.lanes 3).terms = some ⟨false, 0, 8⟩)
    ∧ (look busy.plant.lanes 1).state = .held ∧ (look busy.plant.lanes 0).state = .idle
    ∧ (look busy.plant.lanes 4).state = .trimming ∧ (∃ u, (look busy.plant.lanes 4).trim.windowExpiry 4 = .goOn u)
    ∧ (look busy.plant.lanes 4).trim.windowExpiry 5 = .sweepEnd .centreFailed := by
  refine ⟨by decide +kernel, by decide +kernel, by decide +kernel, by decide +kernel, by decide +kernel, ⟨_, rfl⟩, ?_⟩
  decide +kernel

theorem test_witness_SweepFindsThePassingRun :
    sweepSpec ⟨.wide, .two, 0⟩ (fun _ => true) = .edges (-30) 30 0 31 := by decide +kernel

theorem test_witness_ReadingsFormTheMeasurement :
    (look busy.plant.lanes 5).state = .measuring ∧ (look busy.plant.lanes 1).state = .held
      ∧ (look busy.plant.lanes 2).state = .reading ∧ (look busy.plant.lanes 5).measureTimer.isSome = true
      ∧ 1 ≤ (look busy.plant.lanes 5).gathered.n := by decide +kernel

/-- `busy` with section 1 of 0 to 2 of network 4120 held by lane 2. -/
def collecting : State :=
  { busy with plant := (busy.plant.setLane 2
      { lane .reading 2 .watch none with
        collector :=
          { collecting := true, ident := some ⟨4120, 7, 6, 2⟩, held := [(1, [])], changes := 0, gap := some 512 } }) }

/-- The same after one version change. -/
def collectingAgain : State :=
  { busy with plant := (busy.plant.setLane 2
      { lane .reading 2 .watch none with
        collector :=
          { collecting := true, ident := some ⟨4120, 7, 6, 2⟩, held := [(1, [])], changes := 1, gap := some 512 } }) }

/-- `busy` with A-2 LIT and its roster of version 6 known. -/
def rosterKnown : State :=
  { busy with plant := busy.plant.setCell 2 { cellOf 2 with state := .lit, roster := some ⟨4120, 7, 6⟩ } }

/-- A WATCH visit's first section: not matching on `busy`, matching on `rosterKnown`; then a version change with 0 and with
1 changes behind it; then a section that fails the test. -/
theorem test_witness_SectionsAreCollected_shortcut :
    ((look busy.plant.lanes 2).cls = some .watch ∧ (look busy.plant.lanes 2).collector.held = []
      ∧ (look busy.plant.cells 2).state ≠ .lit)
    ∧ ((look rosterKnown.plant.lanes 2).cls = some .watch ∧ (look rosterKnown.plant.lanes 2).collector.held = []
      ∧ (look rosterKnown.plant.cells 2).state = .lit ∧ (look rosterKnown.plant.cells 2).roster = some ⟨4120, 7, 6⟩)
    ∧ ((look collecting.plant.lanes 2).collector.ident ≠ some ⟨4120, 7, 7, 2⟩
      ∧ (look collecting.plant.lanes 2).collector.changes = 0)
    ∧ ((look collectingAgain.plant.lanes 2).collector.ident ≠ some ⟨4120, 7, 7, 2⟩
      ∧ (look collectingAgain.plant.lanes 2).collector.held ≠ []
      ∧ (look collectingAgain.plant.lanes 2).collector.changes ≠ 0)
    ∧ (2 : Fin 16) < 3 ∧ (0 : Half) = 0 := by
  simp only [rosterKnown, Plant.setCell_lanes, Plant.setCell_cells, look_put_self, busy_cell]
  decide +kernel

theorem test_witness_SectionsAreCollected :
    ((look collecting.plant.lanes 2).state = .reading ∧ (look collecting.plant.lanes 2).cell = some 2
      ∧ (look collecting.plant.lanes 2).collector.ident = some ⟨4120, 7, 6, 2⟩
      ∧ (look collecting.plant.lanes 2).collector.held ≠ [] ∧ (look collecting.plant.lanes 2).collector.has 1 = true
      ∧ (look collecting.plant.lanes 2).collector.has 0 = false ∧ (look collecting.plant.lanes 2).collector.has 2 = false)
    ∧ (look { busy with plant := busy.plant.setLane 2 (lane .reading 2 .sweep none) }.plant.lanes 2).collector.held = []
    ∧ (look { busy with plant := busy.plant.setLane 2 (lane .reading 2 .sweep none) }.plant.lanes 2).cls ≠ some .watch := by
  decide +kernel

/-- `rosterKnown` with lane 2 holding a section of version 5. -/
def changedBack : State :=
  { rosterKnown with plant := (rosterKnown.plant.setLane 2
      { lane .reading 2 .watch none with
        collector :=
          { collecting := true, ident := some ⟨4120, 7, 5, 2⟩, held := [(1, [])], changes := 0, gap := some 512 } }) }

/-- A WATCH visit to a LIT cell: a version change to the one section of the roster that the cell already stores. -/
theorem test_witness_SectionsAreCollected_changeBack :
    (look changedBack.plant.lanes 2).state = .reading ∧ (look changedBack.plant.lanes 2).cell = some 2
      ∧ (look changedBack.plant.lanes 2).cls = some .watch
      ∧ (look changedBack.plant.lanes 2).collector.held ≠ []
      ∧ (look changedBack.plant.lanes 2).collector.ident ≠ some ⟨4120, 7, 6, 0⟩
      ∧ (look changedBack.plant.lanes 2).collector.changes = 0
      ∧ (look changedBack.plant.cells 2).state = .lit
      ∧ (look changedBack.plant.cells 2).roster = some ⟨4120, 7, 6⟩ := by
  simp only [changedBack, rosterKnown, Plant.setCell_cells, Plant.setLane_cells, look_put_self]
  decide +kernel

/-- `busy` with lane 2 holding sections 0 and 1 of the roster of three that `collecting` collects. -/
def oneMissing : State :=
  { busy with plant := (busy.plant.setLane 2
      { lane .reading 2 .watch none with
        collector :=
          { collecting := true, ident := some ⟨4120, 7, 6, 2⟩, held := [(0, []), (1, [])], changes := 0
            gap := some 512 } }) }

/-- Section 2 is the last missing one. -/
theorem test_witness_SectionsAreCollected_completion :
    (look oneMissing.plant.lanes 2).state = .reading ∧ (look oneMissing.plant.lanes 2).cell = some 2
      ∧ (look oneMissing.plant.lanes 2).collector.ident = some ⟨4120, 7, 6, 2⟩
      ∧ CollectorRight (look oneMissing.plant.lanes 2).collector
      ∧ (look oneMissing.plant.lanes 2).collector.has 2 = false
      ∧ ∀ k : Fin 16, k ≤ 2 → k ≠ 2 → (look oneMissing.plant.lanes 2).collector.has k = true := by
  unfold CollectorRight
  decide +kernel

theorem test_witness_ScoredVisitEndUpdatesTheCell :
    (naturalEnd busy (.gapTimerExpiry 2) = some (2, .part) ∧ naturalEnd busy (.dwellLimitExpiry 2) = some (2, .cut)
      ∧ naturalEnd busy (.rosterSection 2 ⟨4120, 7, 6, 0, 0, []⟩) = some (2, .lit))
    ∧ (look busy.plant.lanes 2).state = .reading ∧ (look busy.plant.lanes 2).cell = some 2
    ∧ (look busy.plant.lanes 2).meas.isSome = true ∧ (look busy.plant.cells 2).defn.profile = (0 : Fin 8).val
    ∧ (look busy.plant.cells 2).q = some 300 ∧ (look busy.plant.cells 2).state ≠ .lost := by
  simp only [busy_cell]
  decide +kernel

theorem test_witness_VisitEndWithoutAScore :
    (naturalEnd busy (.lockTimerExpiry 3) = some (3, .dark) ∧ (look busy.plant.lanes 3).cell = some 4
      ∧ (look busy.plant.cells 4).q = some 40)
    ∧ (naturalEnd busy (.lockLoss 4) = some (4, .faded) ∧ (look busy.plant.lanes 4).cell = some 5
      ∧ (look busy.plant.cells 5).q = none)
    ∧ (naturalEnd busy (.dwellLimitExpiry 4) = some (4, .cut) ∧ (look busy.plant.lanes 4).state ≠ .reading)
    ∧ (look busy.plant.lanes 2).inVisit = true := by
  simp only [busy_cell]
  decide +kernel

/-- `busy` with a hold limit of 1, which lane 1's hold fills. -/
def holdsFull : State :=
  { busy with settings := { busy.settings with watch := { busy.settings.watch with holdLimit := 1 } } }
/-- `busy` draining, lane 3 stepped, and no other visit than lane 3's and the spot visit of lane 5. -/
def draining : State :=
  { busy with plant := { busy.plant with
      lanes := #v[LaneRec.atRestart, LaneRec.atRestart, LaneRec.atRestart, lane .tuning 4 .sweep none, LaneRec.atRestart,
        lane .measuring 6 .spot (some ⟨true, 30, 8⟩), LaneRec.atRestart, LaneRec.atRestart]
      survey := { busy.plant.survey with state := .draining, stepped := 0x08 } } }

theorem test_witness_VisitEndAtTheLaneAndTheEngine :
    (naturalEnd busy (.lockLoss 5) = some (5, .faded) ∧ (look busy.plant.lanes 5).cell = some 6
      ∧ (look busy.plant.lanes 5).terms = some ⟨true, 30, 8⟩
      ∧ ((List.finRange 8).filter (fun k => k != 5 && (look busy.plant.lanes k).state == .held)).length = 1
      ∧ busy.settings.watch.holdLimit = 2 ∧ holdsFull.settings.watch.holdLimit = 1
      ∧ naturalEnd holdsFull (.lockLoss 5) = some (5, .faded))
    ∧ (naturalEnd busy (.dwellLimitExpiry 5) = some (5, .cut) ∧ (look busy.plant.lanes 5).state = .measuring)
    ∧ (naturalEnd draining (.lockTimerExpiry 3) = some (3, .dark) ∧ (look draining.plant.lanes 3).terms = none
      ∧ draining.plant.survey.stepped.getLsbD 3 = true ∧ (look draining.plant.lanes 3).surveying = true
      ∧ ∀ k : Lane, k ≠ 3 → (look draining.plant.lanes k).surveying = false) := by
  decide +kernel

theorem test_witness_ReportsOutsideTheirStageAreDiscarded :
    (look busy.plant.lanes 0).state = .idle ∧ (look busy.plant.lanes 0).inVisit = false
      ∧ (look busy.plant.lanes 3).state = .tuning ∧ (look busy.plant.lanes 6).state = .parked := by decide +kernel

theorem test_witness_FrontEndFaultTakesTheLaneDown :
    LaneRight (look busy.plant.lanes 2) ∧ (look busy.plant.lanes 2).state ≠ .parked
      ∧ LaneRight (look busy.plant.lanes 1) ∧ (look busy.plant.lanes 1).state = .held
      ∧ (look busy.plant.lanes 1).cell = some 3 :=
  ⟨test_busy_survey.2.2.1 2, by decide +kernel, test_busy_survey.2.2.1 1, by decide +kernel⟩

theorem test_witness_HoldsAreRefreshedRenewedAndEnded :
    (look busy.plant.lanes 1).state = .held ∧ (look busy.plant.lanes 1).refreshTimer.isSome = true
      ∧ (look busy.plant.lanes 1).live.isSome = true ∧ 1 ≤ (look busy.plant.lanes 1).gathered.n
      ∧ (look busy.plant.lanes 1).cell = some 3 ∧ (look busy.plant.lanes 1).holdExpiry = some 1020
      ∧ busy.clock.toNat < (1020 : Time).toNat ∧ (1020 : Time).toNat ≤ { busy with clock := 1020 }.clock.toNat
      ∧ busy.serves (to31 [1, 0x58, 2]) ∧ (1#8).toNat = (1 : Lane).val ∧ (0x58#8).toNat + 256 * (2#8).toNat = 600
      ∧ busy.serves (to31 [1]) := by decide +kernel

/-- `busy` is HELD on lane 1 without lock through the interval so far; lane 0 is not HELD; lane 8 does not exist, and 0 and
601 seconds are out of range. -/
theorem test_witness_HoldsAreRefreshedRenewedAndEnded_refusals :
    (look busy.plant.lanes 1).lockHeld = false ∧ busy.serves (to31 [0, 1, 0]) ∧ (0#8).toNat = (0 : Lane).val
      ∧ (look busy.plant.lanes 0).state ≠ .held ∧ busy.serves (to31 [0]) ∧ 8 ≤ (8#8).toNat
      ∧ (0#8).toNat + 256 * (0#8).toNat = 0 ∧ 600 < (0x59#8).toNat + 256 * (2#8).toNat := by decide +kernel

/-! ### Directory, ranking, advice -/

theorem test_witness_AdmissionOfServices :
    unit.serves (to31 (List.replicate 16 0 ++ [8])) ∧ 8 ≤ byteAt (List.replicate 16 0#8 ++ [8#8]) 16
      ∧ unit.serves (to31 (bAdmission Settings.atRestart.admission)) ∧ unit.serves (to31 []) := by decide +kernel

/-- A roster whose first entry of service 5 is refused and whose first entry of service 6 is admitted. -/
theorem test_witness_AdmissionOfServices_entries :
    let es : List Entry := [⟨5, .data, [], false⟩, ⟨6, .tv, [], false⟩, ⟨5, .tv, [], false⟩]
    es.find? (fun e => e.service == 5) = some ⟨5, .data, [], false⟩
      ∧ es.find? (fun e => e.service == 6) = some ⟨6, .tv, [], false⟩
      ∧ Settings.atRestart.admission.admits 4120 ⟨5, .data, [], false⟩ = false
      ∧ Settings.atRestart.admission.admits 4120 ⟨6, .tv, [], false⟩ = true := by decide +kernel

theorem test_witness_CompleteRosterReplacesTheSightings :
    DirectoryRight busy.plant.cells busy.plant.dir ∧ (look busy.plant.cells 0).state.rankable = true
      ∧ naturalEnd busy (.rosterSection 2 ⟨4120, 7, 6, 0, 0, []⟩) = some (2, .lit)
      ∧ (look busy.plant.lanes 2).state = .reading ∧ (look busy.plant.lanes 2).cell = some 2 :=
  ⟨test_busy_directory, by rw [busy_cell]; decide, by rw [naturalEnd]; simp only [busy_cell]; decide +kernel,
    by decide +kernel, by decide +kernel⟩

/-- Visits that end before READING: DARK on A-4, on which slot 1 has a sighting; FADED on A-5, UNSEEN until then; CUT. -/
theorem test_witness_CompleteRosterReplacesTheSightings_early :
    (naturalEnd busy (.lockTimerExpiry 3) = some (3, .dark) ∧ (look busy.plant.lanes 3).state ≠ .reading
      ∧ (look busy.plant.lanes 3).cell = some 4 ∧ dirBusy.holds 1 4 = true)
    ∧ (naturalEnd busy (.lockLoss 4) = some (4, .faded) ∧ (look busy.plant.lanes 4).state ≠ .reading
      ∧ (look busy.plant.lanes 4).cell = some 5 ∧ (look busy.plant.cells 5).state = .unseen)
    ∧ naturalEnd busy (.dwellLimitExpiry 4) = some (4, .cut) := by
  unfold Dir.holds
  simp only [busy_cell]
  decide +kernel

/-- `busy` with service 101 in slot 0 seen on the eight cells A-0 to A-7, A-4 alone LOST, and its work begun. -/
def eight (x : Slot) (cs : List CellRef) : Work :=
  { Work.start busy.plant with
    dir := { dirBusy with slots := put dirBusy.slots 0 x, pool := cs.map (sighting 0) } }

/-- What the ranking unit reads in `busy`. -/
def busyView : View := { cells := busy.plant.cells, feeds := busy.settings.feeds, policy := busy.settings.policy, now := 1000 }

/-- One entry of service 101, whose key slot 0 alone holds, taken on cell A-9: with seven sightings there is room; of eight
the one on the LOST cell A-4 is evicted; of eight without a LOST one, a new one on a cell without a Q is dropped. On A-0
the sighting is confirmed. No slot holds the key of service 105, and slot 4 is the lowest FREE one; with no slot FREE the
entry is dropped. -/
theorem test_witness_CompleteRosterReplacesTheSightings_entries :
    limitsAnswer busyView (eight slotLive [0, 1, 2, 3, 4, 5, 6]).dir 0 9 .room
      ∧ limitsAnswer busyView (eight slotLive [0, 1, 2, 3, 4, 5, 6, 7]).dir 0 9 (.evict (sighting 0 4))
      ∧ limitsAnswer busyView (eight slotLive [0, 1, 2, 3, 8, 5, 6, 7]).dir 0 9 .drop
      ∧ (eight slotLive [0, 1]).dir.holds 0 9 = false ∧ (eight slotLive [0, 1]).dir.holds 0 0 = true
      ∧ { slotLive with state := .retiring }.state = .retiring := by
  refine ⟨by unfold limitsAnswer Dir.sightings; decide +kernel, ?_, ?_, by decide +kernel, by decide +kernel, rfl⟩
  · refine Or.inl ⟨by unfold Dir.sightings; decide +kernel, by decide +kernel, by unfold Dir.sightings; decide +kernel, Or.inl ⟨?_, ?_⟩⟩
    · simp only [View.state, busyView, busy_cell]; decide +kernel
    · unfold Dir.sightings; simp only [View.state, busyView, busy_cell]; decide +kernel
  · refine Or.inl ⟨by unfold Dir.sightings; decide +kernel, ?_, ?_⟩
    · unfold Dir.sightings; simp only [View.state, busyView, busy_cell]; decide +kernel
    · intro a _
      refine Or.inr (Or.inr ?_)
      simp [View.q, busyView, busy_cell, cellOf, cellsA, Cell.atRestart, qLess]

/-- Slots 0 to 3 of `busy` are in use with four keys, and slot 4 is the lowest FREE one. -/
theorem test_witness_CompleteRosterReplacesTheSightings_slots :
    (∀ m : SlotNo, (slotOf m).state ≠ .free → (slotOf m).key = some ⟨4120, 101⟩ → m = 0)
      ∧ (∀ m : SlotNo, ¬((slotOf m).state ≠ .free ∧ (slotOf m).key = some ⟨4120, 105⟩))
      ∧ slotOf 4 = Slot.empty ∧ (∀ m : SlotNo, m < 4 → (slotOf m).state ≠ .free) ∧ dirBusy.sightings 4 = []
      ∧ ∀ m : SlotNo, (look (Vector.replicate 512 slotLive) m).state ≠ .free := by
  decide +kernel

theorem test_witness_DirectoryIsRead :
    busy.serves (to31 [0xFF, 1, 8]) ∧ (0xFF#8).toNat + 256 * (1#8).toNat = 511 ∧ busy.serves (to31 [0, 2, 1])
      ∧ (0#8).toNat + 256 * (2#8).toNat = 512 ∧ (0#8).toNat = 0 ∧ 8 < (9#8).toNat ∧ busy.serves (to31 [0xFF, 1])
      ∧ busy.serves (to31 [0, 0, 4]) ∧ (slotOf 3).state ≠ .free ∧ (slotOf 4).state = .free := by
  decide +kernel

theorem test_witness_ServicesAreForgotten :
    busy.serves (to31 [0, 0]) ∧ (0#8).toNat + 256 * (0#8).toNat = (0 : SlotNo).val
      ∧ ((slotOf 0).state = .live ∧ (slotOf 0).reported = some 0 ∧ (slotOf 0).advice = .none)
      ∧ ((slotOf 1).state = .orphan ∧ (slotOf 1).reported = none ∧ (slotOf 1).advice ≠ .queued)
      ∧ (slotOf 2).state = .retiring ∧ (slotOf 4).state = .free
      ∧ busy.serves (to31 [0, 2]) ∧ 512 ≤ (0#8).toNat + 256 * (2#8).toNat
      ∧ (slotOf 1).pin = none ∧ (slotOf 1).orphanSince = some 10
      ∧ 60 * busy.settings.policy.forget ≤ ((3610 : Time) - 10).toNat := by decide +kernel

/-- `busy` with a waiting spot entry that asks to hold. -/
def holdWaits : State :=
  { busy with plant := { busy.plant with survey := { busy.plant.survey with spots := [⟨0, 7, true, 10⟩] } } }

theorem test_witness_PoliciesAreTakenWholeAndRead :
    busy.serves (to31 [0xF4, 1, 8, 15, 0xA0, 5, 109, 110]) ∧ halfAt [0xF4, 1] 0 = 500 ∧ halfAt [0xA0, 5] 0 = 1440
      ∧ 500 < halfAt [0xF5, 1] 0 ∧ busy.serves (to31 [5, 0, 30, 0, 1, 4]) ∧ busy.serves (to31 [0x58, 2, 0x10, 14, 15, 0])
      ∧ halfAt [0x58, 2] 0 = 600 ∧ halfAt [0x10, 14] 0 = 3600
      ∧ holdWaits.serves (to31 [5, 0, 30, 0, 1, 0]) ∧ holdWaits.plant.survey.spots.filter (fun e => decide (0 < e.hold)) ≠ []
      ∧ busy.plant.survey.spots.filter (fun e => decide (0 < e.hold)) = [] ∧ busy.serves (to31 []) := by
  decide +kernel

theorem test_witness_RankOrderFollowsItsKeys :
    busy.view.rankable 0 = true ∧ busy.view.rankable 4 = false ∧ busy.view.q 0 = some 512 ∧ busy.view.q 2 = some 300
      ∧ busy.view.rankable 2 = true ∧ busy.view.q 5 = none ∧ busy.view.q 6 = none
      ∧ busy.view.rankable 5 = busy.view.rankable 6 ∧ busy.view.q 4 = some 40
      ∧ busy.view.rankable 5 = busy.view.rankable 4 := by
  unfold View.rankable View.q View.state State.view
  simp only [busy_cell]
  decide +kernel

/-- `busy.plant.dir` with another record in slot 0. -/
def withSlot (x : Slot) : Books := { dir := busy.plant.dir.setSlot 0 x, raised := 0 }

/-- A service chosen on A-2 with A-0, ahead by 212, as the challenger, counted once: one below a confirm count of 2. -/
def challenged : Slot := { slotLive with chosen := some 2, challenger := some (0, 1) }

/-- A service chosen on A-0 whose pin, on the LOST cell A-4, is suspended. -/
def pinSuspended : Slot := { slotLive with pin := some 4, suspended := true }

/-- The directory of `busy` with one more sighting of slot 0, on the LOST cell A-4. -/
def dirPinned (x : Slot) : Dir := { busy.plant.dir.setSlot 0 x with pool := sighting 0 4 :: dirBusy.pool }

/-- A suspended pin with a chosen source that stands; a challenger one below the confirm count, and at it with a confirm
count of 3; a pin whose sighting is gone. -/
theorem test_witness_EvaluationMovesTheChosenSource_pin :
    ((dirPinned pinSuspended).holds 0 4 = true ∧ busy.view.rankable 4 = false ∧ (dirPinned pinSuspended).holds 0 0 = true
      ∧ busy.view.rankable 0 = true ∧ pinSuspended.pin = some 4 ∧ pinSuspended.chosen = some 0)
    ∧ (busy.plant.dir.holds 0 4 = false)
    ∧ (challenged.pin = none ∧ challenged.suspended = false ∧ challenged.chosen = some 2 ∧ busy.plant.dir.holds 0 2 = true
      ∧ busy.view.rankable 2 = true ∧ (busy.view.q 2).getD 0 + busy.view.policy.margin ≤ (busy.view.q 0).getD 0
      ∧ challenged.challenger = some (0, 1) ∧ busy.plant.dir.holds 0 0 = true
      ∧ busy.view.policy.confirm ≤ 1 + 1 ∧ 1 + 1 < { busy.view.policy with confirm := 3 }.confirm)
    ∧ topRankable busy.view busy.plant.dir 0 = some 0 := by
  refine ⟨?_, by decide +kernel, ?_, ?_⟩
  · unfold View.rankable View.state State.view Dir.holds; simp only [busy_cell]; decide +kernel
  · unfold View.rankable View.state View.q State.view Dir.holds; simp only [busy_cell]; decide +kernel
  · have hs : busy.plant.dir.sightings 0 = [sighting 0 0, sighting 0 2] := by unfold Dir.sightings; decide +kernel
    rw [topRankable, rankedOf, hs]
    simp only [ranked, insertRanked, rankLe, sighting, View.rankable, View.state, View.q, State.view, busy_cell]
    decide +kernel

/-- The slot records of the clauses: as it is; pinned on A-2; pinned on A-0's LOST state is slot 1's; counted. -/
theorem test_witness_EvaluationMovesTheChosenSource :
    (look busy.plant.dir.slots 0).state = .live ∧ busy.plant.dir.holds 0 2 = true ∧ busy.plant.dir.holds 0 0 = true
      ∧ busy.view.rankable 2 = true ∧ busy.view.rankable 0 = true ∧ (look busy.plant.dir.slots 0).chosen = some 0
      ∧ (look busy.plant.dir.slots 0).pin = none ∧ (look busy.plant.dir.slots 0).suspended = false
      ∧ (look busy.plant.dir.slots 1).state = .orphan ∧ busy.plant.dir.holds 1 4 = true ∧ busy.view.rankable 4 = false
      ∧ (look busy.plant.dir.slots 1).chosen = none ∧ (look busy.plant.dir.slots 3).state = .provisional := by
  unfold View.rankable View.state State.view Dir.holds
  simp only [busy_cell, busy_slot]
  decide +kernel

theorem test_witness_PinsAreSetAndRemoved :
    DirectoryRight busy.plant.cells busy.plant.dir ∧ busy.serves (to31 (b2 0 ++ bCell 2))
      ∧ busy.plant.dir.holds 0 2 = true ∧ (look busy.plant.cells 2).state.rankable = true
      ∧ busy.plant.dir.holds 0 7 = false ∧ busy.plant.dir.holds 1 4 = true ∧ (look busy.plant.cells 4).state.rankable = false
      ∧ busy.serves (to31 [0, 0]) ∧ (look busy.plant.dir.slots 0).state = .live
      ∧ (look busy.plant.dir.slots 2).state = .retiring := by
  refine ⟨test_busy_directory, ?_⟩
  unfold Dir.holds
  simp only [busy_cell, busy_slot]
  decide +kernel

/-- `busy` with slot 0 chosen on A-2: its top-ranked sighting, on A-0, is another, and ahead by the margin. -/
def chosenBelow : State :=
  { busy with plant := { busy.plant with dir := dirBusy.setSlot 0 { slotLive with chosen := some 2 } } }

/-- Slot 512, feed G, cell 96; and Unpin where another sighting ranks first: ahead by the margin of 40, and not ahead by one
of 500, with confirm counts of 1 and 2. -/
theorem test_witness_PinsAreSetAndRemoved_bounds :
    busy.serves (to31 [0, 2, 0, 0]) ∧ 512 ≤ halfAt [0, 2] 0 ∧ 6 ≤ byteAt [0, 0, 6] 2 ∧ 96 ≤ byteAt [0, 0, 0, 96] 3
      ∧ chosenBelow.serves (to31 [0, 0]) ∧ busy.settings.policy.confirm = 2
      ∧ ({ slotLive with chosen := some 2 } : Slot).challenger = none ∧ chosenBelow.plant.dir.holds 0 2 = true
      ∧ (chosenBelow.view.q 0).getD 0 = 512 ∧ (chosenBelow.view.q 2).getD 0 = 300 ∧ busy.settings.policy.margin = 40
      ∧ (look chosenBelow.plant.cells 2).state.rankable = true := by
  refine ⟨by decide +kernel, by decide, by decide, by decide, by decide +kernel, by decide +kernel, rfl, ?_, ?_, ?_, by decide +kernel, ?_⟩
  · unfold Dir.holds; decide +kernel
  all_goals (simp only [chosenBelow, View.q, State.view, busy_cell]; decide)

/-- A record for a full queue. -/
def record (n : Nat) : Advice :=
  { slot := Fin.ofNat 512 (n + 100), key := none, origin := none, target := some 0, reason := none, q := none }

theorem test_witness_DivergenceRule :
    (slotLive.chosen = slotLive.reported ∧ slotLive.advice = .none)
      ∧ ({ slotLive with chosen := some 2 }.chosen ≠ { slotLive with chosen := some 2 }.reported)
      ∧ busy.plant.dir.queue.length < 64 ∧ 64 ≤ ((List.range 64).map record).length
      ∧ ((look busy.plant.dir.slots 2).advice = .queued ∧ (∃ a ∈ busy.plant.dir.queue, a.slot = 2)
        ∧ ∀ a ∈ busy.plant.dir.queue, a.slot = 2 → a.origin = (look busy.plant.dir.slots 2).reported)
      ∧ { slotLive with advice := .owed }.advice = .owed := by
  simp only [busy_slot]
  decide +kernel

theorem test_witness_TakeAdviceReportsTheOldest :
    DirectoryRight busy.plant.cells busy.plant.dir ∧ busy.serves (to31 [1]) ∧ 1 ≤ (1#8).toNat ∧ (8#8).toNat ≤ 8
      ∧ 8 < (9#8).toNat :=
  ⟨test_busy_directory, by decide +kernel⟩

/-- `busy` with the host yet to hear of slot 0 (reported A-2, no place in the queue). -/
def owedSlot : Slot := { slotLive with reported := some 2, advice := .owed }
def dirOwed : Dir := { dirBusy with slots := table (fun n => if n = 0 then owedSlot else slotOf n) }

/-- One record is taken; the queue is emptied; the slot that owes fills the place. -/
theorem test_witness_TakeAdviceReportsTheOldest_refill :
    owedSlot.advice = .owed ∧ owedSlot.chosen ≠ owedSlot.reported ∧ dirOwed.queue.drop (1#8).toNat = []
      ∧ dirOwed.queue.take (1#8).toNat ≠ [] ∧ (look dirOwed.slots 0).advice = .owed := by decide +kernel

/-- The slot records that a removal meets: not QUEUED and never reported; NONE and reported; OWED and reported; QUEUED with
a "from" and without one; and the queue with and without room. -/
theorem test_witness_ServicesAreForgotten_queue :
    (slotOrphan.advice ≠ .queued ∧ slotOrphan.reported = none)
      ∧ (slotLive.advice = .none ∧ slotLive.reported = some 0 ∧ dirBusy.queue.length < 64
        ∧ 64 ≤ ((List.range 64).map record).length)
      ∧ (owedSlot.advice = .owed ∧ owedSlot.reported = some 2)
      ∧ (slotRetiring.advice = .queued ∧ ∀ a ∈ dirBusy.queue, a.slot = 2 → a.origin ≠ none)
      ∧ ∃ a ∈ [record 0], a.slot = 100 ∧ a.origin = none := by
  decide +kernel

/-- The orphan of `busy` is due at 3610 seconds. -/
theorem test_witness_ServicesAreForgotten_due :
    slotOrphan.state = .orphan ∧ slotOrphan.pin = none
      ∧ slotOrphan.orphanSince.any (fun at_ => decide (60 * busy.settings.policy.forget ≤ ((3610 : Time) - at_).toNat)) = true
      := by decide +kernel

/-! ### Survey, store, restart -/

def pausedUnit : State := { unit with plant := { unit.plant with survey := { unit.plant.survey with state := .paused } } }

theorem test_witness_SurveyStateRequests :
    busy.serves (to31 []) ∧ busy.plant.survey.state = .running
      ∧ busy.plant.lanes.toList.any (fun x => x.inVisit && x.cls != some .spot) = true
      ∧ pausedUnit.serves (to31 []) ∧ pausedUnit.plant.survey.state = .paused
      ∧ pausedUnit.plant.lanes.toList.any (fun x => x.inVisit && x.cls != some .spot) = false
      ∧ unit.plant.survey.state = .stopped ∧ unit.serves (to31 [1, 0]) ∧ 2 ≤ (2#8).toNat := by decide +kernel

theorem test_witness_ClearSurveyStartsOver :
    busy.serves (to31 []) ∧ (look busy.plant.lanes 2).inVisit = true ∧ (look busy.plant.lanes 1).state = .held
      ∧ (look busy.plant.lanes 2).cell = some 2
      ∧ (∀ l, (look busy.plant.lanes l).inVisit = true → (look busy.plant.lanes l).cell ≠ some 3)
      ∧ (cellOf 1).state = .barred ∧ (cellOf 0).state = .lit := by decide +kernel

def spotsFull : State :=
  { busy with plant := { busy.plant with survey := { busy.plant.survey with
      spots := [⟨0, 7, true, 0⟩, ⟨1, 7, true, 0⟩, ⟨2, 7, true, 0⟩, ⟨3, 7, true, 0⟩] } } }
def noHolds : State :=
  { busy with settings := { busy.settings with watch := { busy.settings.watch with holdLimit := 0 } } }

theorem test_witness_SpotMeasureQueuesASpot :
    busy.serves (to31 (bCell 0 ++ [1, 0x58, 2])) ∧ (0x58#8).toNat + 256 * (2#8).toNat = 600
      ∧ 600 < (0x59#8).toNat + 256 * (2#8).toNat ∧ (cellOf 0).state = .lit ∧ (cellOf 1).state = .barred
      ∧ (cellOf 8).state = .vacant ∧ noHolds.serves (to31 (bCell 0 ++ [0, 1, 0])) ∧ noHolds.settings.watch.holdLimit = 0
      ∧ spotsFull.serves (to31 (bCell 0 ++ [0, 0, 0])) ∧ 4 ≤ spotsFull.plant.survey.spots.length
      ∧ busy.plant.survey.spots.length < 4 := by decide +kernel

/-- The bad values of the first check: feed 6, cell 96, trim choice 2, and 601 seconds. -/
theorem test_witness_SpotMeasureQueuesASpot_values :
    busy.serves (to31 [6, 0, 0, 0, 0]) ∧ 6 ≤ byteAt [6, 0, 0, 0, 0] 0 ∧ 96 ≤ byteAt [0, 96, 0, 0, 0] 1
      ∧ 2 ≤ byteAt [0, 0, 2, 0, 0] 2 ∧ 600 < halfAt [0, 0, 0, 0x59, 2] 3 ∧ ¬ 600 < halfAt [0, 0, 0, 0x58, 2] 3 := by
  decide +kernel

theorem test_witness_LanesCellsAndSurveyAreRead :
    busy.serves (to31 [5, 95]) ∧ (5#8).toNat = (feedOf 575).val ∧ (95#8).toNat = (indexOf 575).val ∧ 96 ≤ (96#8).toNat
      ∧ busy.serves (to31 [7]) ∧ (7#8).toNat = (7 : Lane).val ∧ 8 ≤ (8#8).toNat ∧ busy.serves (to31 []) := by
  decide +kernel

/-- `busy` without a waiting spot entry; and with the share counter at the share. -/
def noSpots : State :=
  { busy with plant := { busy.plant with survey := { busy.plant.survey with spots := [] } } }
def shareUsed : State :=
  { busy with plant := { busy.plant with survey := { busy.plant.survey with spots := [], share := 3 } } }

theorem test_witness_GrantFollowsTheArbiter :
    idleLane busy.plant.lanes = some 0 ∧ busy.plant.survey.spots.find? (spotGrantable busy.settings busy.plant) = some ⟨0, 7, true, 0⟩
      ∧ noSpots.plant.survey.spots.find? (spotGrantable noSpots.settings noSpots.plant) = none
      ∧ noSpots.plant.survey.state = .running ∧ noSpots.plant.survey.share < noSpots.settings.watch.share
      ∧ dueAndFree 1000 noSpots.plant 0 = some 990 ∧ dueAndFree 1000 noSpots.plant 7 = some 1000
      ∧ shareUsed.settings.watch.share ≤ shareUsed.plant.survey.share ∧ sweepGrantable shareUsed.plant 0 = true
      ∧ idleLane (Vector.replicate 8 (lane .tuning 4 .sweep none)) = none := by
  decide +kernel

/-- The share is used, the survey steps, one sweep grant is left in the pass, and slot 3 waits for the end of the grace. -/
def lastOfPass : State :=
  { shareUsed with plant := { shareUsed.plant with
      survey := { shareUsed.plant.survey with stepMode := true, cursor := 575 }
      dir := { dirBusy with grace := true } } }

/-- The sweep cursor at F-95, where no cell is defined: the first grantable position, A-0, is one ahead, past the end. -/
theorem test_witness_GrantFollowsTheArbiter_pass :
    lastOfPass.plant.survey.state = .running ∧ lastOfPass.plant.survey.stepMode = true
      ∧ lastOfPass.settings.watch.share ≤ lastOfPass.plant.survey.share
      ∧ sweepGrantable lastOfPass.plant (ahead 575 0) = false ∧ sweepGrantable lastOfPass.plant (ahead 575 1) = true
      ∧ 576 ≤ (575 : CellRef).val + 1 + 1 ∧ lastOfPass.plant.dir.grace = true
      ∧ (look lastOfPass.plant.dir.slots 3).state = .provisional ∧ (look lastOfPass.plant.dir.slots 0).state ≠ .provisional := by
  decide +kernel

/-- A capture of one page. -/
def onePage : Capture := { image := Image.atRestart, bytes := List.replicate 256 1 }
/-- A save of one page at the given stage. -/
def savingAt (st : SaveStage) : State :=
  { unit with store := { unit.store with status := .saving, writer := .saving st, capture := some onePage } }
def erasing : State := { unit with store := { unit.store with writer := .erasing } }

theorem test_witness_StoreIsSavedErasedAndRead :
    unit.serves (to31 []) ∧ unit.store.writer = .idle ∧ erasing.serves (to31 []) ∧ erasing.store.writer = .erasing
      ∧ Memory.wf erasing.store.mem = true ∧ unit.store.status = .blank
      ∧ { unit.store with status := .valid }.status = .valid ∧ (savingAt .eraseHeader).store.status = .saving
      ∧ (savingAt .eraseHeader).store.capture = some onePage :=
  ⟨by decide +kernel, rfl, by decide +kernel, rfl, rfl, rfl, rfl, rfl, rfl⟩

theorem test_witness_PageWriterFollowsItsStages :
    (savingAt .eraseHeader).store.capture = some onePage ∧ (savingAt .eraseHeader).store.writer = .saving .eraseHeader
      ∧ (savingAt (.erasePage 1 true)).store.writer = .saving (.erasePage 1 true)
      ∧ (savingAt .eraseHeaderAgain).store.writer = .saving .eraseHeaderAgain
      ∧ (savingAt .eraseAfterFail).store.writer = .saving .eraseAfterFail
      ∧ (savingAt (.writePage 1 false)).store.writer = .saving (.writePage 1 false)
      ∧ (savingAt (.writeHeader true)).store.writer = .saving (.writeHeader true)
      ∧ Memory.wf (savingAt .eraseHeader).store.mem = true ∧ (onePage.page 1).length = 256 := by
  exact ⟨rfl, rfl, rfl, rfl, rfl, rfl, rfl, rfl, by decide +kernel⟩

/-- What a restart finds outside: straps 7, no write under way. -/
def found : RestartIn := { straps := 7, speed := false, placed := 7, flaws := [] }

theorem headerLaw_saving (k : Fin 256) (hk : k = 1) : HeaderLaw (savingAt (.erasePage k false)) := by
  subst hk
  refine ⟨⟨rfl, by decide, by decide, by decide, fun _ => rfl, ?_, ?_⟩, by decide, ?_⟩
  · rintro c ⟨⟩; decide +kernel
  · rintro k c ⟨⟩ ⟨⟩; decide +kernel
  · rintro c ⟨⟩; exact ⟨by decide, rfl⟩

theorem test_witness_RestartWithoutAnImageTakesTheDefaults :
    judgeHeader (settledMemory found unit.store) ≠ .valid ∧ HeaderLaw (savingAt (.erasePage 1 false))
      ∧ (savingAt (.erasePage 1 false)).store.writer ≠ .idle
      ∧ (∀ again, (savingAt (.erasePage 1 false)).store.writer = .saving (.writeHeader again) → found.placed < 8)
      ∧ { unit with link := { unit.link with restartOwed := true } }.link.restartOwed = true :=
  ⟨by decide, headerLaw_saving 1 rfl, by decide, fun _ _ => by decide, rfl⟩

/-- An image of feed A's raster with one service on A-0, pinned, and one that was reported there. -/
def savedImage : Image :=
  { Image.atRestart with
    raster := put Image.atRestart.raster 0 ⟨474000, 8, 0⟩
    services := [⟨some ⟨4120, 101⟩, some .tv, [], some 0, some 0⟩, ⟨some ⟨4120, 102⟩, some .tv, [], some 0, none⟩]
    sightings := [⟨0, 0, 7⟩, ⟨1, 0, 7⟩] }

/-- One page of bytes 0xFF, whose sum is 0xFF00, under a header with save count 11. -/
def savedMemory : List Host.Cell :=
  Memory.writePage [] 0 (headerPage 1 11 0xFF00)

/-- A store that holds `savedImage` in that page. -/
def savedStore : State :=
  { unit with store := { unit.store with
      mem := savedMemory, image := savedImage, status := .valid, saveCount := 11 } }

theorem test_witness_RestartRestoresTheImage : judgeHeader (settledMemory found savedStore.store) = .valid := by
  rw [settledMemory_idle found savedStore.store (by simp only [savedStore, unit, State.reset, Store.atRestart])]
  simp only [savedStore, savedMemory]
  have h1 : byteSum (Memory.readRun [] 256 (256 * 1)) = 0xFF00 := by decide +kernel
  exact judgeHeader_written (m := []) rfl 1 11 0xFF00 (by decide) (by decide) h1

/-- Of the image's two services the first is pinned on a sighting and the second reported on one; no third is saved. -/
theorem test_witness_RestartRestoresTheImage_services :
    (settledImage found savedStore.store).services[0]? = some ⟨some ⟨4120, 101⟩, some .tv, [], some 0, some 0⟩
      ∧ (settledImage found savedStore.store).services[1]? = some ⟨some ⟨4120, 102⟩, some .tv, [], some 0, none⟩
      ∧ (settledImage found savedStore.store).services[2]? = none
      ∧ (settledImage found savedStore.store).sightings = [⟨0, 0, 7⟩, ⟨1, 0, 7⟩] := by decide +kernel

theorem test_witness_StartUpEndOpensTheLink : State.reset.plant.notice.startUp = true := rfl

/-! ### The laws that every step keeps: a state in which work is under way keeps them, and a step follows -/

theorem test_witness_AttentionAndLinkStayRight :
    AttentionRight busy ∧ LinkRight busy ∧ ∃ t, step busy = .next t :=
  ⟨rfl, ⟨by decide +kernel, rfl, by decide +kernel⟩, ⟨_, rfl⟩⟩

theorem test_witness_SettingsSizesAndScoresStayInRange :
    SettingsLaw busy ∧ SizesLaw busy ∧ ScoresLaw busy ∧ ∃ t, step busy = .next t := by
  refine ⟨test_busy_survey.1, by unfold SizesLaw; decide +kernel, ⟨?_, ?_, ?_⟩, ⟨_, rfl⟩⟩
  · simp only [busy_cell]; decide +kernel
  · decide +kernel
  · decide +kernel

theorem rasterRight_vacant : RasterRight (look Image.atRestart.raster) := by
  have h : look Image.atRestart.raster = fun _ => CellDef.vacant := funext fun c => look_replicate CellDef.vacant c
  rw [h]
  exact ⟨fun _ => ⟨rfl, rfl⟩, fun f => by revert f; decide +kernel⟩

theorem test_witness_RasterStaysRight : RasterLaw busy ∧ ∃ t, step busy = .next t := by
  refine ⟨⟨⟨?_, ?_⟩, ?_, ?_⟩, ⟨_, rfl⟩⟩
  · simp only [busy_cell]; unfold CellDef.stored; decide +kernel
  · simp only [busy_cell]; decide +kernel
  · intro d hd
    exact absurd hd (List.not_mem_nil)
  · intro im him
    obtain rfl : im = Image.atRestart := by simpa [Store.images, busy, unit, State.reset, Store.atRestart] using him
    exact rasterRight_vacant

theorem test_witness_StoreHeaderStaysRight :
    HeaderLaw (savingAt (.erasePage 1 false)) ∧ ∃ t, step ((savingAt (.erasePage 1 false)).withPending [.pageEraseComplete]) = .next t :=
  ⟨headerLaw_saving 1 rfl, ⟨_, rfl⟩⟩

/-- The store under an erase, whose status is BLANK. -/
theorem test_witness_StoreHeaderStaysRight_erase :
    HeaderLaw erasing ∧ ∃ t, step (erasing.withPending [.pageEraseComplete]) = .next t := by
  refine ⟨⟨⟨rfl, by decide, by decide, by decide, fun h => absurd h (by decide), ?_, ?_⟩, by decide, ?_⟩, ⟨_, rfl⟩⟩
  · rintro c ⟨⟩
  · rintro k c - ⟨⟩
  · rintro c ⟨⟩

theorem test_witness_SurveyStaysRight : SurveyLaw busy ∧ ∃ t, step (busy.withPending [.grant]) = .next t :=
  ⟨test_busy_survey, ⟨_, rfl⟩⟩

theorem test_witness_DirectoryStaysRight : DirectoryLaw busy ∧ ∃ t, step (busy.withPending [.forgetCheck]) = .next t := by
  refine ⟨⟨test_busy_survey, test_busy_directory, ?_⟩, ⟨_, rfl⟩⟩
  intro im him
  obtain rfl : im = Image.atRestart := by simpa [Store.images, busy, unit, State.reset, Store.atRestart] using him
  simp [ImageRight, Image.atRestart]

end Sys2Proof.Tests
end

section
/-! SUPPORT. What every command can do to the survey's part of the machine, as one relation, `Moves`: the laws of the
cells, lanes and the survey engine are then each proved once, over its few constructors. -/

namespace Sys2Proof.Machine

/-! ## Tables, counted -/

theorem toList_eq_map_look {α : Type} {n : Nat} (v : Vector α n) : v.toList = (List.finRange n).map (look v) := by
  apply List.ext_getElem
  · simp
  · intro i h1 h2
    simp [look]

theorem countIn_eq {α : Type} {n : Nat} (v : Vector α n) (p : α → Bool) :
    countIn v p = (List.finRange n).countP (fun i => p (look v i)) := by
  rw [countIn, toList_eq_map_look, List.countP_map]
  rfl

theorem any_toList_iff {α : Type} {n : Nat} (v : Vector α n) (p : α → Bool) :
    v.toList.any p = true ↔ ∃ i, p (look v i) = true := by
  simp [toList_eq_map_look]

/-- The lanes HELD are at most one more than those other than a given one. -/
theorem heldLanes_le_heldOthers (lanes : Vector LaneRec 8) (l : Lane) : heldLanes lanes ≤ heldOthers lanes l + 1 := by
  have hsplit : ∀ ks : List Lane, ks.Nodup → ks.countP (fun k => (look lanes k).state == .held) ≤
      ks.countP (fun k => k != l && (look lanes k).state == .held) + 1 := by
    intro ks hks
    induction ks with
    | nil => simp
    | cons k ks ih =>
      rw [List.nodup_cons] at hks
      have := ih hks.2
      rw [List.countP_cons, List.countP_cons]
      by_cases hk : k = l
      · subst hk
        have hsame : ks.countP (fun j => j != k && (look lanes j).state == .held)
            = ks.countP (fun j => (look lanes j).state == .held) :=
          List.countP_congr (fun j hj => by simp [show j ≠ k from fun e => hks.1 (e ▸ hj)])
        rw [hsame]
        split <;> simp
      · simp only [bne_iff_ne, ne_eq, hk, not_false_eq_true, Bool.and_eq_true, true_and]
        omega
  unfold heldLanes heldOthers
  rw [countIn_eq]
  exact hsplit _ (List.nodup_finRange 8)

/-- Where no lane comes to be HELD, no more lanes are HELD. -/
theorem heldLanes_mono {v w : Vector LaneRec 8} (h : ∀ l, (look w l).state = .held → (look v l).state = .held) :
    heldLanes w ≤ heldLanes v := by
  unfold heldLanes
  rw [countIn_eq, countIn_eq]
  exact List.countP_mono_left (fun l _ hl => by simpa using h l (by simpa using hl))

/-! ## Lanes -/

/-- PARKED, IDLE or FAULTED: in no visit and no hold. -/
def LaneState.resting : LaneState → Bool
  | .parked | .idle | .faulted => true
  | .tuning | .trimming | .measuring | .reading | .held => false

/-- A lane record may become another one within a stage or from one stage to the next: the engaged cell and the last
record stay, no hold begins, and the laws of a lane are kept. -/
structure LaneRec.Turns (x y : LaneRec) : Prop where
  cell : y.cell = x.cell
  record : y.record = x.record
  held : y.state = .held → x.state = .held
  right : LaneRight x → LaneRight y
  collector : CollectorRight x.collector → CollectorRight y.collector

theorem LaneRec.Turns.refl (x : LaneRec) : x.Turns x := ⟨rfl, rfl, id, id, id⟩

theorem collectorRight_idle : CollectorRight Collector.idle := by
  simp [CollectorRight, Collector.idle]

theorem laneRight_leave (x : LaneRec) {next : LaneState} (h : next.resting = true) : LaneRight (x.leave next) := by
  cases next <;> simp_all [LaneState.resting, LaneRight, LaneRec.leave, LaneRec.stopUnits, LaneRec.inVisit, TrimUnit.idle,
    Collector.idle]

/-- An engaged lane is in a visit or HELD. -/
theorem LaneRight.engaged {x : LaneRec} (h : LaneRight x) (hc : x.cell.isSome = true) :
    x.inVisit = true ∨ x.state = .held := by
  have h1 := h.1
  rw [hc] at h1
  simpa using h1.symm

/-- A lane at rest has no engaged cell. -/
theorem LaneRight.cell_none {x : LaneRec} (h : LaneRight x) (hs : x.state.resting = true) : x.cell = none := by
  have hout : (x.inVisit || x.state == .held) = false := by
    revert hs
    unfold LaneRec.inVisit
    generalize x.state = k
    cases k <;> decide
  have h1 := h.1
  rw [hout] at h1
  simpa using h1

theorem laneRight_granted (x : LaneRec) (g : Settings) (now : Time) (c : CellRef) (k : VisitClass) (t : Option SpotTerms)
    (ht : t.isSome = (k == .spot)) : LaneRight (x.granted g now c k t) := by
  simp [LaneRight, LaneRec.granted, LaneRec.stopUnits, LaneRec.inVisit, TrimUnit.idle, Collector.idle, ht]

/-- A spot visit that ends in a hold. -/
theorem laneRight_hold {x : LaneRec} (h : LaneRight x) (ht : x.terms.isSome = true) (hc : x.cell.isSome = true)
    (now : Time) (seconds : Nat) (lock : Bool) (r : Option Record) :
    LaneRight { x.hold now seconds lock with record := r } := by
  obtain ⟨-, -, hterms, hlat, -⟩ := h
  have hspot : x.cls = some .spot := by rw [ht] at hterms; simpa using hterms.symm
  simp [LaneRight, LaneRec.hold, LaneRec.stopUnits, LaneRec.inVisit, TrimUnit.idle, Collector.idle, hc, hspot, ht,
    hlat]

/-! ## The moves -/

/-- What a command can do to the survey's part of the machine, apart from re-judging, rewriting and clearing cells: work of
the directory and conditions; the survey engine's own fields; lanes within their visits; the end of a visit or a hold; spot
entries removed and added; the start of a visit. -/
inductive Moves (g : Settings) (now : Time) : Plant → Plant → Prop where
  | refl (p : Plant) : Moves g now p p
  | trans {p q r : Plant} (h : Moves g now p q) (h' : Moves g now q r) : Moves g now p r
  | books (p : Plant) (d : Dir) (n : Notice) : Moves g now p { p with dir := d, notice := n }
  | engine (p : Plant) (v : Survey) (spots : v.spots.Sublist p.survey.spots) (results : v.results = p.survey.results)
      (share : p.survey.share ≤ 15 → v.share ≤ 15) : Moves g now p { p with survey := v }
  | lanes (p : Plant) (v : Vector LaneRec 8) (turns : ∀ l, (look p.lanes l).Turns (look v l)) :
      Moves g now p { p with lanes := v }
  | visitEnd (p : Plant) (l : Lane) (e : Ending) (rest : e.next.resting = true) : Moves g now p (visitEnd g now l e p)
  | holdEnd (p : Plant) (l : Lane) (next : LaneState) (setDue : Bool) (rest : next.resting = true) :
      Moves g now p (holdEnd g now l next setDue p)
  | dropSpots (p : Plant) (gone : SpotEntry → Bool) : Moves g now p (dropSpots now gone p)
  | addSpot (p : Plant) (c : CellRef) (trim : Bool) (hold : Nat) (opened : (look p.cells c).state.open = true)
      (room : p.survey.spots.length < 4) : Moves g now p { p with survey := addSpot c trim hold p.survey }
  | start (p : Plant) (l : Lane) (c : CellRef) (k : VisitClass) (t : Option SpotTerms)
      (idle : (look p.lanes l).state = .idle) (free : (look p.cells c).engaged = none)
      (opened : SurveyRight g p → (look p.cells c).state.open = true) (terms : t.isSome = (k == .spot)) :
      Moves g now p (startVisit g now l c k t p)

namespace Moves

variable {g : Settings} {now : Time}

/-- One lane's record changed. -/
theorem lane (p : Plant) (l : Lane) {y : LaneRec} (h : (look p.lanes l).Turns y) : Moves g now p (p.setLane l y) := by
  refine .lanes p (put p.lanes l y) (fun k => ?_)
  rw [look_put]
  split
  · next hk => exact hk ▸ h
  · exact .refl _

theorem raise (p : Plant) (m : Flags12) : Moves g now p (p.raise m) := .books p p.dir (p.notice.raise m)

end Moves

/-! ## What the moves keep of definitions -/

/-- A visit end changes no definition. -/
theorem visitEnd_defn (g : Settings) (now : Time) (l : Lane) (e : Ending) (p : Plant) (c : CellRef) :
    (look (visitEnd g now l e p).cells c).defn = (look p.cells c).defn := by
  cases h : (look p.lanes l).cell with
  | none => rw [visitEnd_none h]
  | some k =>
    obtain ⟨others, -, -, -, ⟨rf, ro, own, -⟩, -⟩ := visitEnd_spec (g := g) (now := now) (e := e) h
    by_cases hk : c = k
    · subst hk
      rw [own]
      exact (cellEnd_spec _ _ _ _).1
    · rw [others c hk]

/-- The end of a hold changes of the cells only an engagement and a due time. -/
theorem holdEnd_cell (g : Settings) (now : Time) (l : Lane) (next : LaneState) (setDue : Bool) (p : Plant) (c : CellRef) :
    ∃ d e, look (holdEnd g now l next setDue p).cells c = { look p.cells c with due := d, engaged := e } := by
  cases h : (look p.lanes l).cell with
  | none => exact ⟨_, _, by simp [holdEnd, h]; rfl⟩
  | some k =>
    rw [holdEnd_some h]
    simp only [Plant.setCell_cells, Plant.setLane_cells, look_put]
    split
    · next hk => exact ⟨_, _, by rw [hk]⟩
    · exact ⟨_, _, rfl⟩

/-- No move changes a definition. -/
theorem Moves.defn {g : Settings} {now : Time} {p q : Plant} (h : Moves g now p q) (c : CellRef) :
    (look q.cells c).defn = (look p.cells c).defn := by
  induction h with
  | refl | books | engine | lanes | addSpot => rfl
  | trans _ _ ih ih' => exact ih'.trans ih
  | visitEnd p l e => exact visitEnd_defn g now l e p c
  | holdEnd p l next setDue =>
    obtain ⟨d, e, h⟩ := holdEnd_cell g now l next setDue p c
    rw [h]
  | dropSpots p gone => rw [(dropSpots_spec now gone p).1]
  | start p l k =>
    simp only [startVisit, Plant.setCell_cells, Plant.setLane_cells, look_put]
    split
    · next hk => rw [hk]
    · rfl

end Sys2Proof.Machine
end

section
/-! SUPPORT. The laws of the survey under the moves. -/

namespace Sys2Proof.Machine

/-! ## The laws by their parts -/

section
variable {r : FeedRec} {x : Cell} {g : Settings} {p : Plant}

theorem CellRight.vacant (h : CellRight r x) : x.state = .vacant ↔ x.defn.freq = 0 := h.1
theorem CellRight.barred (h : CellRight r x) : x.state = .barred ↔ x.defn.freq ≠ 0 ∧ r.admits x.defn = false := h.2.1
theorem CellRight.q (h : CellRight r x) : x.q.isSome = x.state.scored := h.2.2.1
theorem CellRight.fails (h : CellRight r x) : x.q = none → x.fails = 0 := h.2.2.2.1
theorem CellRight.due (h : CellRight r x) : x.due.isSome = true → x.state.rankable = true := h.2.2.2.2.1
theorem CellRight.engaged (h : CellRight r x) : x.engaged.isSome = true → x.state.open = true := h.2.2.2.2.2

theorem SurveyRight.cells (h : SurveyRight g p) (c : CellRef) :
    CellRight (look g.feeds (feedOf c)) (look p.cells c) := h.1 c
theorem SurveyRight.lanes (h : SurveyRight g p) (l : Lane) : LaneRight (look p.lanes l) := h.2.1 l
theorem SurveyRight.engagement (h : SurveyRight g p) : EngagementRight p := h.2.2.1
theorem SurveyRight.spots (h : SurveyRight g p) {e : SpotEntry} (he : e ∈ p.survey.spots) :
    (look p.cells e.cell).state.open = true := h.2.2.2.1 e he
theorem SurveyRight.held (h : SurveyRight g p) : heldLanes p.lanes ≤ 4 := h.2.2.2.2.1
theorem SurveyRight.collectors (h : SurveyRight g p) (l : Lane) : CollectorRight (look p.lanes l).collector :=
  h.2.2.2.2.2 l

end

/-! ## Cells -/

theorem FeedRec.admits_freq {r : FeedRec} {d : CellDef} (h : r.admits d = true) : d.freq ≠ 0 := by
  simp only [FeedRec.admits, Bool.and_eq_true, bne_iff_ne] at h
  exact h.1.1

/-- An open cell's definition is admitted (R7). -/
theorem CellRight.admitted {r : FeedRec} {x : Cell} (h : CellRight r x) (ho : x.state.open = true) :
    r.admits x.defn = true := by
  simp only [CellState.open, Bool.and_eq_true, bne_iff_ne] at ho
  by_contra hn
  exact ho.2 (h.barred.mpr ⟨fun hf => ho.1 (h.vacant.mpr hf), by simpa using hn⟩)

/-- The laws of a cell whose state is open. -/
theorem cellRight_of_open {r : FeedRec} {x : Cell} (ha : r.admits x.defn = true) (ho : x.state.open = true)
    (hq : x.q.isSome = x.state.scored) (hf : x.q = none → x.fails = 0)
    (hd : x.due.isSome = true → x.state.rankable = true) : CellRight r x := by
  have hfreq := FeedRec.admits_freq ha
  have hstate := ho
  simp only [CellState.open, Bool.and_eq_true, bne_iff_ne] at hstate
  exact ⟨⟨fun h => absurd h hstate.1, fun h => absurd h hfreq⟩,
    ⟨fun h => absurd h hstate.2, fun h => by simp [ha] at h⟩, hq, hf, hd, fun _ => ho⟩

theorem CellState.rankable_open {k : CellState} (h : k.rankable = true) : k.open = true := by
  cases k <;> simp_all [CellState.rankable, CellState.open]

/-- A cell with a due time is open (R145). -/
theorem CellRight.due_open {r : FeedRec} {x : Cell} (h : CellRight r x) (hd : x.due.isSome = true) :
    x.state.open = true := CellState.rankable_open (h.due hd)

theorem cellEnd_engaged (g : Settings) (t : Treatment) (r : Record) (x : Cell) :
    (cellEnd g t r x).1.engaged = x.engaged := by
  obtain ⟨-, -, -, -, -, -, heng, -⟩ := cellEnd_spec g t r x
  exact heng

/-- A visit end leaves an open cell open, with a Q exactly in the scored states and a fail count only with a Q (R62 to
R65). -/
theorem cellEnd_open (g : Settings) (t : Treatment) (r : Record) {x : Cell} (ho : x.state.open = true)
    (hq : x.q.isSome = x.state.scored) (hf : x.q = none → x.fails = 0) :
    let y := (cellEnd g t r x).1
    y.state.open = true ∧ y.q.isSome = y.state.scored ∧ (y.q = none → y.fails = 0) := by
  cases t with
  | scored =>
    have hs : (scoredState r.outcome).open = true ∧ (scoredState r.outcome).scored = true := by
      unfold scoredState; split <;> decide
    exact ⟨hs.1, hs.2.symm, fun h => by simp [cellEnd] at h⟩
  | noLock =>
    cases hqx : x.q with
    | none =>
      simp only [cellEnd, afterNoLock, hqx]
      exact ⟨rfl, rfl, fun _ => hf hqx⟩
    | some q =>
      simp only [cellEnd, afterNoLock, hqx]
      split
      · exact ⟨rfl, rfl, fun h => by simp at h⟩
      · exact ⟨rfl, rfl, fun h => by simp at h⟩
  | unscored => exact ⟨ho, hq, hf⟩

theorem dueTime_rankable {g : Settings} {now : Time} {d : Dir} {c : CellRef} {x : Cell}
    (h : (dueTime g now d c x).isSome = true) : x.state.rankable = true := by
  unfold dueTime at h
  split at h
  · assumption
  · simp at h

/-- The laws of a cell after the end of a visit on it. -/
theorem cellRight_cellEnd {rec : FeedRec} {x : Cell} (h : CellRight rec x) (ho : x.state.open = true) (g : Settings)
    (now : Time) (d : Dir) (c : CellRef) (t : Treatment) (r : Record) (rf : Nat) (ro : Option RosterTag)
    (e : Option Lane) :
    let y := (cellEnd g t r x).1
    CellRight rec { y with refused := rf, roster := ro, due := dueTime g now d c y, engaged := e } := by
  intro y
  have ha := h.admitted ho
  obtain ⟨ho', hq', hf'⟩ := cellEnd_open g t r ho h.q h.fails
  have hdefn : y.defn = x.defn := (cellEnd_spec g t r x).1
  exact cellRight_of_open (by rw [hdefn]; exact ha) ho' hq' hf' dueTime_rankable

/-! ## The laws, move by move -/

section
variable {g : Settings} {p : Plant}

theorem SurveyRight.cell_open (h : SurveyRight g p) {c : CellRef} (hc : (look p.cells c).engaged.isSome = true) :
    (look p.cells c).state.open = true := (h.cells c).engaged hc

/-- The laws do not speak of the directory, of the conditions, nor of most of the survey engine. -/
theorem SurveyRight.of_spots (h : SurveyRight g p) {q : Plant} (hc : q.cells = p.cells) (hl : q.lanes = p.lanes)
    (hs : ∀ e ∈ q.survey.spots, (look p.cells e.cell).state.open = true) : SurveyRight g q := by
  obtain ⟨hcells, hlanes, heng, -, hheld, hcoll⟩ := h
  refine ⟨fun c => by rw [hc]; exact hcells c, fun l => by rw [hl]; exact hlanes l, ?_, ?_, by rw [hl]; exact hheld,
    fun l => by rw [hl]; exact hcoll l⟩
  · intro c l; rw [hc, hl]; exact heng c l
  · intro e he; rw [hc]; exact hs e he

/-- Lanes that turn keep the laws. -/
theorem SurveyRight.turn (h : SurveyRight g p) {v : Vector LaneRec 8} (ht : ∀ l, (look p.lanes l).Turns (look v l)) :
    SurveyRight g { p with lanes := v } := by
  obtain ⟨hcells, hlanes, heng, hspots, hheld, hcoll⟩ := h
  refine ⟨hcells, fun l => (ht l).right (hlanes l), fun c l => ?_, hspots,
    (heldLanes_mono (fun l => (ht l).held)).trans hheld, fun l => (ht l).collector (hcoll l)⟩
  show _ ↔ (look v l).cell = some c
  rw [(ht l).cell]
  exact heng c l

/-- The laws after lane l, engaged on cell c, got the record y and the cell the record x: y is right and stays on c
exactly if the cell stays engaged by l. -/
theorem SurveyRight.disengage (h : SurveyRight g p) {q : Plant} {l : Lane} {c : CellRef}
    (hc : (look p.lanes l).cell = some c)
    (cells : ∀ k, k ≠ c → look q.cells k = look p.cells k) (lanes : ∀ k, k ≠ l → look q.lanes k = look p.lanes k)
    (spots : q.survey.spots = p.survey.spots)
    (cell : CellRight (look g.feeds (feedOf c)) (look q.cells c)) (opened : (look q.cells c).state.open = true)
    (lane : LaneRight (look q.lanes l)) (coll : CollectorRight (look q.lanes l).collector)
    (held : heldLanes q.lanes ≤ 4)
    (eng : (look q.cells c).engaged = some l ∧ (look q.lanes l).cell = some c
      ∨ (look q.cells c).engaged = none ∧ (look q.lanes l).cell = none) : SurveyRight g q := by
  obtain ⟨hcells, hlanes, heng, hspots, -, hcoll⟩ := h
  refine ⟨fun k => ?_, fun k => ?_, fun k j => ?_, fun e he => ?_, held, fun k => ?_⟩
  · by_cases hk : k = c
    · exact hk ▸ cell
    · rw [cells k hk]; exact hcells k
  · by_cases hk : k = l
    · exact hk ▸ lane
    · rw [lanes k hk]; exact hlanes k
  · have hown := heng c l
    have hkj := heng k j
    have hkl := heng k l
    have hcj := heng c j
    by_cases hk : k = c
    · subst hk
      by_cases hj : j = l
      · subst hj
        rcases eng with ⟨e1, e2⟩ | ⟨e1, e2⟩ <;> simp [e1, e2]
      · rw [lanes j hj]
        have hne : (look p.lanes j).cell ≠ some k := fun hjc => by
          rw [← hcj, hown.mpr hc] at hjc
          exact hj (Option.some.inj hjc).symm
        rcases eng with ⟨e1, -⟩ | ⟨e1, -⟩ <;> simp [e1, hne, Ne.symm hj]
    · rw [cells k hk]
      by_cases hj : j = l
      · subst hj
        rw [hkl, hc]
        rcases eng with ⟨-, e2⟩ | ⟨-, e2⟩ <;> simp [e2, Ne.symm hk]
      · rw [lanes j hj]; exact hkj
  · rw [spots] at he
    by_cases hk : e.cell = c
    · rw [hk]; exact opened
    · rw [cells _ hk]; exact hspots e he
  · by_cases hk : k = l
    · exact hk ▸ coll
    · rw [lanes k hk]; exact hcoll k

/-- The lanes HELD after one lane's record changed. -/
theorem heldLanes_le_of_others {v w : Vector LaneRec 8} {l : Lane} (h : ∀ k, k ≠ l → look w k = look v k)
    (hl : (look w l).state = .held → (look v l).state = .held ∨ heldOthers v l < 4) (hv : heldLanes v ≤ 4) :
    heldLanes w ≤ 4 := by
  by_cases hs : (look w l).state = .held
  · rcases hl hs with hx | hx
    · refine (heldLanes_mono (v := v) (fun k hk => ?_)).trans hv
      by_cases hkl : k = l
      · exact hkl ▸ hx
      · rw [← h k hkl]; exact hk
    · have hw : heldOthers w l = heldOthers v l :=
        List.countP_congr (fun k _ => by
          by_cases hkl : k = l
          · simp [hkl]
          · rw [h k hkl])
      have := heldLanes_le_heldOthers w l
      omega
  · refine (heldLanes_mono (v := v) (fun k hk => ?_)).trans hv
    have hkl : k ≠ l := fun e => hs (e ▸ hk)
    rw [← h k hkl]; exact hk

/-- A hold is taken only under the hold limit, by a spot visit (R34). -/
theorem holdNote_taken {lanes : Vector LaneRec 8} {l : Lane} {o : VisitOutcome} (h : holdNote g lanes l o = .taken) :
    (look lanes l).terms.isSome = true ∧ heldOthers lanes l < g.watch.holdLimit := by
  unfold holdNote at h
  cases ht : (look lanes l).terms with
  | none => simp [ht] at h
  | some t =>
    simp only [ht] at h
    split at h
    · simp at h
    · split at h
      · next hlt => exact ⟨rfl, hlt⟩
      · simp at h

theorem surveyEnd_spots (l : Lane) (x : LaneRec) (r : Record) (lanes : Vector LaneRec 8) (v : Survey) :
    (surveyEnd l x r lanes v).1.spots = v.spots := by
  unfold surveyEnd pushResult
  dsimp only
  cases x.terms <;> dsimp only <;> split <;> split <;> rfl

theorem SurveyRight.visitEnd (h : SurveyRight g p) (hlimit : g.watch.holdLimit ≤ 4) (now : Time) (l : Lane) {e : Ending}
    (rest : e.next.resting = true) : SurveyRight g (visitEnd g now l e p) := by
  cases hc : (look p.lanes l).cell with
  | none => rw [visitEnd_none hc]; exact h
  | some c =>
    have heng : (look p.cells c).engaged = some l := (h.engagement c l).mpr hc
    have hopen := h.cell_open (c := c) (by rw [heng]; rfl)
    have hcells := h.cells
    have hlanes := h.lanes
    have hheld := h.held
    obtain ⟨cells, lanes, taken, left, ⟨rf, ro, own, -⟩, survey, -, -⟩ := visitEnd_spec (g := g) (now := now) (e := e) hc
    have hce := cellRight_cellEnd (hcells c) hopen g now (Machine.visitEnd g now l e p).dir c
    have hce' := fun t r => cellEnd_open g t r hopen (hcells c).q (hcells c).fails
    refine h.disengage hc cells lanes (by rw [survey, surveyEnd_spots]) (by rw [own]; exact hce _ _ rf ro _)
      (by rw [own]; exact (hce' _ _).1) ?_ ?_ ?_ ?_
    · by_cases hn : holdNote g p.lanes l e.outcome = .taken
      · rw [taken hn]
        exact laneRight_hold (hlanes l) (holdNote_taken hn).1 (by rw [hc]; rfl) _ _ _ _
      · rw [left hn]
        exact laneRight_leave (look p.lanes l) rest
    · by_cases hn : holdNote g p.lanes l e.outcome = .taken
      · rw [taken hn]; exact collectorRight_idle
      · rw [left hn]; exact collectorRight_idle
    · refine heldLanes_le_of_others lanes (fun hs => ?_) hheld
      by_cases hn : holdNote g p.lanes l e.outcome = .taken
      · exact .inr ((holdNote_taken hn).2.trans_le hlimit)
      · rw [left hn] at hs
        exact absurd (show e.next = .held from hs) (fun he => by rw [he] at rest; cases rest)
    · by_cases hn : holdNote g p.lanes l e.outcome = .taken
      · refine .inl ⟨?_, by rw [taken hn]; exact hc⟩
        rw [own]
        simp only [if_pos hn]
        rw [cellEnd_engaged, heng]
      · refine .inr ⟨?_, by rw [left hn]; rfl⟩
        rw [own]
        simp only [if_neg hn]

theorem SurveyRight.holdEnd (h : SurveyRight g p) (now : Time) (l : Lane) {next : LaneState} (setDue : Bool)
    (rest : next.resting = true) : SurveyRight g (holdEnd g now l next setDue p) := by
  have hnot : ((look p.lanes l).leave next).state ≠ .held := fun hs => by
    rw [show next = .held from hs] at rest; cases rest
  cases hc : (look p.lanes l).cell with
  | none =>
    have heq : Machine.holdEnd g now l next setDue p = p.setLane l ((look p.lanes l).leave next) := by
      simp [Machine.holdEnd, hc]
    rw [heq]
    refine h.turn (fun k => ?_)
    rw [look_put]
    split
    · next hk =>
      subst hk
      exact ⟨hc.symm ▸ rfl, rfl, fun hs => absurd hs hnot, fun _ => laneRight_leave _ rest, fun _ => collectorRight_idle⟩
    · exact .refl _
  | some c =>
    have heng : (look p.cells c).engaged = some l := (h.engagement c l).mpr hc
    have hopen := h.cell_open (c := c) (by rw [heng]; rfl)
    have hcells := h.cells
    have hlanes := h.lanes
    have hheld := h.held
    have hx := hcells c
    rw [holdEnd_some hc]
    refine h.disengage hc (fun k hk => look_put_ne _ _ hk) (fun k hk => look_put_ne _ _ hk) rfl ?_ ?_ ?_ ?_ ?_ ?_
    · simp only [Plant.setCell_cells, look_put_self]
      refine cellRight_of_open (hx.admitted hopen) hopen hx.q hx.fails ?_
      cases setDue
      · exact hx.due
      · exact dueTime_rankable
    · simpa using hopen
    · simpa using laneRight_leave (look p.lanes l) rest
    · simpa [LaneRec.leave, LaneRec.stopUnits] using collectorRight_idle
    · refine heldLanes_le_of_others (fun k hk => look_put_ne _ _ hk) (fun hs => ?_) hheld
      simp only [Plant.setCell_lanes, Plant.setLane_lanes, look_put_self] at hs
      exact absurd hs hnot
    · exact .inr ⟨by simp, by simp [LaneRec.leave]⟩

theorem SurveyRight.start (h : SurveyRight g p) (now : Time) {l : Lane} {c : CellRef} {k : VisitClass}
    {t : Option SpotTerms} (idle : (look p.lanes l).state = .idle) (free : (look p.cells c).engaged = none)
    (opened : (look p.cells c).state.open = true) (terms : t.isSome = (k == .spot)) :
    SurveyRight g (startVisit g now l c k t p) := by
  obtain ⟨hl, lanes, hx, cells, -, survey, -⟩ := startVisit_spec g now l c k t p
  obtain ⟨hcells, hlanes, heng, hspots, hheld, hcoll⟩ := h
  have hnone := (hlanes l).cell_none (by rw [idle]; rfl)
  refine ⟨fun j => ?_, fun j => ?_, fun j i => ?_, fun e he => ?_, ?_, fun j => ?_⟩
  · by_cases hj : j = c
    · subst hj
      obtain ⟨h1, h2, h3, h4, h5, -⟩ := hcells j
      rw [hx]
      exact ⟨h1, h2, h3, h4, h5, fun _ => opened⟩
    · rw [cells j hj]; exact hcells j
  · by_cases hj : j = l
    · rw [hj, hl]; exact laneRight_granted _ g now c k t terms
    · rw [lanes j hj]; exact hlanes j
  · have hli := heng j l
    have hci := heng c i
    rw [free] at hci
    rw [hnone] at hli
    by_cases hj : j = c
    · subst hj
      by_cases hi : i = l
      · subst hi; rw [hx, hl]; simp [LaneRec.granted]
      · rw [hx, lanes i hi, ← hci]
        simp [Ne.symm hi]
    · rw [cells j hj]
      by_cases hi : i = l
      · subst hi
        rw [hl, hli]
        simp [LaneRec.granted, Ne.symm hj]
      · rw [lanes i hi]; exact heng j i
  · rw [survey] at he
    have ho := hspots e he
    by_cases hj : e.cell = c
    · rw [hj, hx]; exact opened
    · rw [cells _ hj]; exact ho
  · refine heldLanes_le_of_others lanes (fun hs => ?_) hheld
    rw [hl] at hs
    simp [LaneRec.granted] at hs
  · by_cases hj : j = l
    · rw [hj, hl]; exact collectorRight_idle
    · rw [lanes j hj]; exact hcoll j

end

/-- Every move keeps the laws of the survey. -/
theorem Moves.surveyRight {g : Settings} {now : Time} {p q : Plant} (h : Moves g now p q)
    (hlimit : g.watch.holdLimit ≤ 4) (hp : SurveyRight g p) : SurveyRight g q := by
  induction h with
  | refl => exact hp
  | trans _ _ ih ih' => exact ih' (ih hp)
  | books p d n => exact hp.of_spots rfl rfl (fun e => hp.spots)
  | engine p v spots => exact hp.of_spots rfl rfl (fun e he => hp.spots (spots.subset he))
  | lanes p v turns => exact hp.turn turns
  | visitEnd p l e rest => exact hp.visitEnd hlimit now l rest
  | holdEnd p l next setDue rest => exact hp.holdEnd now l setDue rest
  | dropSpots p gone =>
    obtain ⟨cells, lanes, -, survey, -⟩ := dropSpots_spec now gone p
    refine hp.of_spots cells lanes (fun e he => hp.spots ?_)
    rw [survey] at he
    exact List.mem_of_mem_filter he
  | addSpot p c trim hold opened =>
    refine hp.of_spots rfl rfl (fun e he => ?_)
    rcases List.mem_append.mp he with he | he
    · exact hp.spots he
    · rw [List.mem_singleton.mp he]; exact opened
  | start p l c k t idle free opened terms => exact hp.start now idle free (opened hp) terms

end Sys2Proof.Machine
end

section
/-! SUPPORT. Every event of the lanes, every grant, and the requests that reach a lane or the survey engine, as moves. -/

namespace Sys2Proof.Machine

/-! ## Lanes within a visit (R26 to R28, R44, R73, R151) -/

theorem laneState_beq (a b : LaneState) : (a == b) = decide (a = b) := rfl
theorem laneState_bne (a b : LaneState) : (a != b) = !decide (a = b) := rfl

section
variable {x : LaneRec}

theorem turns_locked (hs : x.state = .tuning) : x.Turns x.locked := by
  unfold LaneRec.locked
  split
  · refine ⟨rfl, rfl, fun h => by simp [LaneRec.measure] at h, fun h => ?_, id⟩
    unfold LaneRight at *
    simp_all [LaneRec.measure, LaneRec.inVisit, laneState_beq, laneState_bne]
  · refine ⟨rfl, rfl, fun h => by simp at h, fun h => ?_, id⟩
    unfold LaneRight at *
    simp_all [TrimUnit.begin, LaneRec.inVisit]

theorem turns_heldLock (hs : x.state = .held) : x.Turns x.heldLock := by
  refine ⟨rfl, rfl, fun _ => hs, fun h => ?_, id⟩
  unfold LaneRight at *
  simp_all [LaneRec.heldLock, LaneRec.liveLock, LaneRec.inVisit]

theorem turns_heldLoss (hs : x.state = .held) : x.Turns x.heldLoss := by
  refine ⟨rfl, rfl, fun _ => hs, fun h => ?_, id⟩
  unfold LaneRight at *
  simp_all [LaneRec.heldLoss, LaneRec.liveLock, LaneRec.inVisit]

/-- A sweep that goes on is in no idle phase. -/
theorem windowExpiry_phase {u v : TrimUnit} {errors : Nat} (hu : u.phase ≠ .idle)
    (h : u.windowExpiry errors = .goOn v) : v.phase ≠ .idle := by
  unfold TrimUnit.windowExpiry at h
  split at h
  · unfold probeStep at h
    dsimp only at h
    split at h
    · next hp => exact absurd hp hu
    · split at h
      · cases h; simp
      · cases h
    · next hp =>
      split at h
      · split at h <;> cases h <;> simp [TrimUnit.turnDown, hp]
      · cases h; simp [TrimUnit.turnDown]
    · next hp =>
      split at h
      · split at h
        · cases h
        · cases h; simp [hp]
      · cases h
  · cases h; exact hu

theorem turns_probe {u : TrimUnit} {errors : Nat} (hs : x.state = .trimming)
    (hu : x.trim.windowExpiry errors = .goOn u) : x.Turns { x with trim := u } := by
  refine ⟨rfl, rfl, id, fun h => ?_, id⟩
  have hphase : x.trim.phase ≠ .idle := by
    unfold LaneRight at h
    simp_all
  have := windowExpiry_phase hphase hu
  unfold LaneRight at *
  simp_all [LaneRec.inVisit]

theorem turns_swept (r : TrimResult) (hs : x.state = .trimming) : x.Turns (x.swept r) := by
  refine ⟨rfl, rfl, fun h => by simp [LaneRec.swept, LaneRec.measure] at h, fun h => ?_, id⟩
  unfold LaneRight at *
  simp_all [LaneRec.swept, LaneRec.measure, LaneRec.inVisit, TrimUnit.idle, laneState_beq, laneState_bne]

theorem turns_gathered (v : Gathered) : x.Turns { x with gathered := v } := ⟨rfl, rfl, id, id, id⟩

theorem turns_measured (m : Measurement) (hs : x.state = .measuring) : x.Turns (x.measured m) := by
  refine ⟨rfl, rfl, fun h => by simp [LaneRec.measured] at h, fun h => ?_, fun _ => collectorRight_idle⟩
  unfold LaneRight at *
  simp_all [LaneRec.measured, LaneRec.inVisit, Collector.begin, laneState_beq, laneState_bne]

theorem turns_refreshStep (m : Measurement) (hs : x.state = .held) : x.Turns (x.refreshStep m) := by
  refine ⟨rfl, rfl, fun _ => hs, fun h => ?_, id⟩
  unfold LaneRight at *
  simp_all [LaneRec.refreshStep, LaneRec.inVisit]

theorem turns_holdExpiry (t : Time) (hs : x.state = .held) : x.Turns { x with holdExpiry := some t } := by
  refine ⟨rfl, rfl, id, fun h => ?_, id⟩
  unfold LaneRight at *
  simp_all [LaneRec.inVisit]

theorem turns_fault (f : Option (LaneFaultCause × Time)) : x.Turns { x with fault := f } := ⟨rfl, rfl, id, id, id⟩

theorem turns_pendingOpts (o : Option Options) : x.Turns { x with pendingOpts := o } := ⟨rfl, rfl, id, id, id⟩

/-- A lane at rest taken to another state of rest. -/
theorem turns_rest {next : LaneState} (hs : x.state.resting = true) (hn : next.resting = true) :
    x.Turns { x with state := next } := by
  refine ⟨rfl, rfl, fun h => ?_, fun h => ?_, id⟩
  · rw [show next = .held from h] at hn; cases hn
  · unfold LaneRight LaneRec.inVisit at *
    cases hx : x.state <;> cases next <;> simp_all [LaneState.resting, laneState_beq, laneState_bne]

theorem turns_unparked (hs : x.state.resting = true) : x.Turns x.unparked := by
  obtain ⟨h1, h2, h3, h4, h5⟩ := turns_rest (next := .idle) hs rfl
  exact ⟨h1, h2, h3, h4, h5⟩

/-- A lane that leaves a visit in which it is engaged on no cell. -/
theorem turns_leave {next : LaneState} (hc : x.cell = none) (hn : next.resting = true) {y : LaneRec}
    (hy : y = x.leave next) : x.Turns y := by
  subst hy
  refine ⟨hc.symm, rfl, fun h => ?_, fun _ => laneRight_leave x hn, fun _ => collectorRight_idle⟩
  rw [show next = .held from h] at hn; cases hn

end

/-! ## The roster collector (R74 to R77) -/

theorem insertHeld_mem {n : Fin 16} {es : List Entry} {hs : List (Fin 16 × List Entry)} {a : Fin 16 × List Entry} :
    a ∈ insertHeld n es hs ↔ a = (n, es) ∨ a ∈ hs := by
  induction hs with
  | nil => simp [insertHeld]
  | cons b rest ih =>
    simp only [insertHeld]
    split
    · simp
    · simp only [List.mem_cons, ih]; tauto

/-- A section joins the sections held in its place. -/
theorem insertHeld_sorted {n : Fin 16} {es : List Entry} {hs : List (Fin 16 × List Entry)}
    (h : (hs.map Prod.fst).Pairwise (· < ·)) (hn : ∀ a ∈ hs, a.1 ≠ n) :
    ((insertHeld n es hs).map Prod.fst).Pairwise (· < ·) := by
  induction hs with
  | nil => simp [insertHeld]
  | cons b rest ih =>
    obtain ⟨m, fs⟩ := b
    rw [List.map_cons, List.pairwise_cons] at h
    simp only [insertHeld]
    split
    · next hlt =>
      rw [List.map_cons, List.pairwise_cons]
      refine ⟨fun k hk => ?_, List.pairwise_cons.mpr h⟩
      rcases List.mem_cons.mp hk with rfl | hk
      · exact hlt
      · exact hlt.trans (h.1 k hk)
    · next hge =>
      rw [List.map_cons, List.pairwise_cons]
      refine ⟨fun k hk => ?_, ih h.2 (fun a ha => hn a (List.mem_cons_of_mem _ ha))⟩
      obtain ⟨a, ha, rfl⟩ := List.mem_map.mp hk
      rcases insertHeld_mem.mp ha with rfl | ha
      · exact lt_of_le_of_ne (not_lt.mp hge) (hn (m, fs) List.mem_cons_self)
      · exact h.1 _ (List.mem_map_of_mem ha)

theorem collectorRight_first (c : Collector) (gap : Option Nat) {sec : Section} (hp : passesTest sec = true) :
    CollectorRight (c.first gap sec) := by
  simp only [passesTest, Bool.and_eq_true, decide_eq_true_eq] at hp
  simp [CollectorRight, Collector.first, identOf, hp.2]

/-- A section after which the collection goes on leaves a right collector, collecting as before. -/
theorem take_goOn {c k : Collector} {gap : Option Nat} {cls : Option VisitClass} {cell : Cell} {sec : Section}
    (hp : passesTest sec = true) (h : c.take gap cls cell sec = .goOn k) :
    k.collecting = c.collecting ∧ (CollectorRight c → CollectorRight k) := by
  have tested_goOn : ∀ j : Collector, tested j = .goOn k → j = k := fun j hj => by
    unfold tested at hj
    split at hj
    · cases hj
    · exact SectionStep.goOn.inj hj
  unfold Collector.take at h
  split at h
  · split at h
    · cases h
    · exact tested_goOn _ h ▸ ⟨rfl, fun _ => collectorRight_first c gap hp⟩
  · next hne =>
    split at h
    · next hid =>
      split at h
      · cases h; exact ⟨rfl, id⟩
      · next hhas =>
        refine tested_goOn _ h ▸ ⟨rfl, fun hr => ?_⟩
        obtain ⟨hsort, -, hlast⟩ := hr
        simp only [Collector.has, List.any_eq_true, beq_iff_eq, not_exists, not_and] at hhas
        refine ⟨insertHeld_sorted hsort hhas, ?_, fun i hi a ha => ?_⟩
        · simp only [hid, reduceCtorEq, false_iff]
          intro he
          have : (sec.number, sec.entries) ∈ insertHeld sec.number sec.entries c.held := insertHeld_mem.mpr (.inl rfl)
          simp [he] at this
        · rcases insertHeld_mem.mp ha with rfl | ha
          · simp only [passesTest, Bool.and_eq_true, decide_eq_true_eq] at hp
            rw [show c.ident = some i from hi] at hid
            rw [Option.some.inj hid]
            exact hp.2
          · exact hlast i hi a ha
    · split at h
      · exact tested_goOn _ h ▸ ⟨rfl, fun _ => collectorRight_first _ gap hp⟩
      · cases h

theorem turns_collector {x : LaneRec} {k : Collector} {gap : Option Nat} {cls : Option VisitClass} {cell : Cell}
    {sec : Section} (hp : passesTest sec = true) (h : x.collector.take gap cls cell sec = .goOn k) :
    x.Turns { x with collector := k } := by
  obtain ⟨hk, hr⟩ := take_goOn hp h
  refine ⟨rfl, rfl, id, fun hx => ?_, hr⟩
  unfold LaneRight at *
  rw [← hk] at hx
  exact hx

/-! ## The events of the lanes -/

section
variable (g : Settings) (now : Time) (l : Lane) (p : Plant)

theorem moves_lockArrives : Moves g now p (lockArrives l p) := by
  unfold lockArrives
  dsimp only
  split
  · next hs => exact .lane p l (turns_locked hs)
  · next hs => exact .lane p l (turns_heldLock hs)
  all_goals exact .refl p

theorem moves_lockTimeout : Moves g now p (lockTimeout l g now p) := by
  unfold lockTimeout
  dsimp only
  split
  · exact .visitEnd p l _ rfl
  · exact .refl p

theorem moves_probeExpires (errors : Nat) : Moves g now p (probeExpires l errors p) := by
  unfold probeExpires
  dsimp only
  split
  · next hs =>
    split
    · next u hu => exact .lane p l (turns_probe hs hu)
    · next r _ => exact .lane p l (turns_swept r hs)
  · exact .refl p

theorem moves_readingArrives (mer level : Int) (load : Fin 1001) (blocks : Nat) :
    Moves g now p (readingArrives l mer level load blocks p) := by
  unfold readingArrives
  dsimp only
  split
  · exact .lane p l (turns_gathered _)
  · exact .refl p

theorem moves_lockLost : Moves g now p (lockLost l g now p) := by
  unfold lockLost
  dsimp only
  split
  · exact .visitEnd p l _ rfl
  · exact .visitEnd p l _ rfl
  · exact .visitEnd p l _ rfl
  · next hs => exact .lane p l (turns_heldLoss hs)
  all_goals exact .refl p

theorem moves_sectionArrives (sec : Section) : Moves g now p (sectionArrives l sec g now p) := by
  unfold sectionArrives
  dsimp only
  split
  · exact .refl p
  · split
    · next h =>
      unfold sectionTaken
      split
      · next k hk => exact .lane p l (turns_collector h.2 hk)
      · exact .visitEnd p l _ rfl
      · exact .visitEnd p l _ rfl
      · exact .visitEnd p l _ rfl
    · exact .refl p

theorem moves_gapTimeout : Moves g now p (gapTimeout l g now p) := by
  unfold gapTimeout
  dsimp only
  split
  · exact .visitEnd p l _ rfl
  · exact .refl p

theorem moves_dwellTimeout : Moves g now p (dwellTimeout l g now p) := by
  unfold dwellTimeout
  dsimp only
  split
  · refine .visitEnd p l _ ?_
    unfold cutEnd
    split <;> rfl
  · exact .refl p

/-- A lane that is in no visit and not HELD is at rest. -/
theorem resting_of_not {x : LaneRec} (hv : ¬ x.inVisit = true) (hh : x.state ≠ .held) : x.state.resting = true := by
  unfold LaneRec.inVisit at hv
  cases hx : x.state <;> simp_all [LaneState.resting]

theorem moves_faultArrives (cause : LaneFaultCause) : Moves g now p (faultArrives l cause g now p) := by
  have hends : Moves g now p (faultEnds l g now p) := by
    unfold faultEnds
    dsimp only
    split
    · split
      · exact .visitEnd p l _ rfl
      · next hc => exact .lane p l (turns_leave hc rfl rfl)
    · next hv =>
      split
      · exact .holdEnd p l _ true rfl
      · next hh => exact .lane p l (turns_rest (resting_of_not hv hh) rfl)
  unfold faultArrives
  dsimp only
  split
  · exact .refl p
  · exact (hends.trans (.lane _ l (turns_fault _))).trans (.raise _ _)

theorem moves_parkLane : Moves g now p (parkLane g now l p) := by
  unfold parkLane abandon
  dsimp only
  split
  · split
    · exact .visitEnd p l _ rfl
    · next hc => exact .lane p l (turns_leave hc rfl rfl)
  · next hv =>
    split
    · exact .holdEnd p l _ true rfl
    · next hh => exact .lane p l (turns_rest (resting_of_not hv hh) rfl)

theorem moves_holdTimeout : Moves g now p (holdTimeout l g now p) := by
  unfold holdTimeout
  split
  · exact (Moves.holdEnd p l .idle true rfl).trans (.raise _ _)
  · exact .refl p

theorem moves_giveOptions (m : BitVec 8) (o : Options) : Moves g now p { p with lanes := giveOptions m o p.lanes } := by
  refine .lanes p _ (fun k => ?_)
  unfold giveOptions
  rw [look_table]
  dsimp only
  split
  · exact turns_pendingOpts _
  · exact .refl _

/-! ## Grants (R146 to R149) -/

theorem moves_completePass : Moves g now p (completePass g now p) :=
  (Moves.engine p { p.survey with passes := p.survey.passes + 1 } (List.Sublist.refl _) rfl id).trans
    (.books _ (completePass g now p).dir (completePass g now p).notice)

theorem satAdd_le (limit a b : Nat) : satAdd limit a b ≤ limit := Nat.min_le_left _ _

theorem stepGrant_spots (v : Survey) : (stepGrant l v).spots = v.spots := by unfold stepGrant; split <;> rfl
theorem stepGrant_results (v : Survey) : (stepGrant l v).results = v.results := by unfold stepGrant; split <;> rfl
theorem stepGrant_share (v : Survey) : (stepGrant l v).share = v.share := by unfold stepGrant; split <;> rfl

theorem moves_grantSpot (e : SpotEntry) (idle : (look p.lanes l).state = .idle) (hm : e ∈ p.survey.spots)
    (free : (look p.cells e.cell).engaged = none) : Moves g now p (grantSpot g now l e p) :=
  (Moves.start p l e.cell .spot (some { trim := e.trim, hold := e.hold, ticket := e.ticket }) idle free
    (fun h => h.spots hm) rfl).trans
    (.engine _ { p.survey with spots := p.survey.spots.erase e } List.erase_sublist rfl id)

/-- A watch or sweep grant: a visit starts, and the engine counts and may pause. -/
theorem moves_surveyGrant {c : CellRef} {k : VisitClass} (v : Survey) (idle : (look p.lanes l).state = .idle)
    (free : (look p.cells c).engaged = none) (opened : SurveyRight g p → (look p.cells c).state.open = true)
    (hk : k ≠ .spot) (spots : v.spots = p.survey.spots) (results : v.results = p.survey.results)
    (share : p.survey.share ≤ 15 → v.share ≤ 15) :
    Moves g now p (startVisit g now l c k none { p with survey := stepGrant l v }) :=
  (Moves.start p l c k none idle free opened (by simpa using hk)).trans
    (.engine _ (stepGrant l v) (by rw [stepGrant_spots, spots]; exact List.Sublist.refl _)
      (by rw [stepGrant_results]; exact results) (by rw [stepGrant_share]; exact share))

theorem moves_grantWatch (c : CellRef) (idle : (look p.lanes l).state = .idle) (h : watchOffer now p = some c) :
    Moves g now p (grantWatch g now l c p) := by
  unfold watchOffer at h
  obtain ⟨⟨k, t⟩, hb, rfl⟩ := Option.map_eq_some_iff.mp h
  obtain ⟨k', -, hk⟩ := List.mem_filterMap.mp (best_mem hb)
  obtain ⟨t', hd, he⟩ := Option.map_eq_some_iff.mp hk
  obtain ⟨rfl, rfl⟩ := Prod.mk.inj he
  unfold dueAndFree at hd
  dsimp only at hd
  split at hd
  · next hfree =>
    obtain ⟨hdue, -⟩ := Option.filter_eq_some_iff.mp hd
    exact moves_surveyGrant g now l p _ idle hfree (fun hr => (hr.cells k').due_open (by rw [hdue]; rfl)) (by decide) rfl
      rfl (fun _ => satAdd_le _ _ _)
  · cases hd

theorem moves_grantSweep (k : Nat) (idle : (look p.lanes l).state = .idle) (h : sweepOffer p = some k) :
    Moves g now p (grantSweep g now l k p) := by
  have hg : sweepGrantable p (ahead p.survey.cursor k) = true := by
    unfold sweepOffer at h
    generalize List.range 576 = ks at h
    exact List.find?_some (p := fun k => sweepGrantable p (ahead p.survey.cursor k)) h
  simp only [sweepGrantable, Bool.and_eq_true, beq_iff_eq] at hg
  obtain ⟨hopen, hfree⟩ := hg
  have hstart := moves_surveyGrant g now l p (c := ahead p.survey.cursor k) (k := .sweep)
    { p.survey with share := 0, cursor := ahead p.survey.cursor (k + 1) } idle hfree
    (fun _ => by simpa [CellState.open] using hopen) (by decide) rfl rfl (fun _ => Nat.zero_le _)
  unfold grantSweep
  dsimp only
  split
  · exact hstart.trans (moves_completePass g now _)
  · exact hstart

theorem moves_grantOne : Moves g now p (grantOne g now p) := by
  unfold grantOne
  split
  · exact .refl p
  · next l hl =>
    obtain ⟨idle, -⟩ := idleLane_some hl
    split
    · next e he =>
      have hfree := List.find?_some he
      simp only [spotGrantable, Bool.and_eq_true, beq_iff_eq] at hfree
      exact moves_grantSpot g now l p e idle (List.mem_of_find?_eq_some he) hfree.1
    · split
      · unfold grantSurvey
        split
        · next hw hs =>
          split
          · exact moves_grantSweep g now l p _ idle hs
          · exact moves_grantWatch g now l p _ idle hw
        · next hw _ => exact moves_grantWatch g now l p _ idle hw
        · next _ hs => exact moves_grantSweep g now l p _ idle hs
        · exact .refl p
      · exact .refl p

end

end Sys2Proof.Machine
end

section
/-! SUPPORT. What one step of the machine can do, said once: `Effect` lists the changes that commands make to the parts of the
machine, and every step is a run of such changes. A law of the machine is kept by every step when each change keeps it. -/

namespace Sys2Proof.Machine

/-- The staging buffer in its bounds: its pointer at most 16, and nothing staged without an open page (R11). -/
def Staging.Right (g : Staging) : Prop := g.staged.length ≤ 16 ∧ (g.page = none → g.staged = [])

/-- The ranges of a feed record (R3). -/
def FeedRec.InRange (r : FeedRec) : Prop :=
  r.priority ≤ 7 ∧ r.w1.base ≤ 870000 ∧ r.w1.limit ≤ 870000 ∧ r.w2.base ≤ 870000 ∧ r.w2.limit ≤ 870000

/-- The changes that a step is made of. -/
inductive Effect : State → State → Prop where
  | refl (s : State) : Effect s s
  | trans {s t u : State} (h : Effect s t) (h' : Effect t u) : Effect s u
  | link (s : State) (k : Link) (added : AddressesRight s.link.added → AddressesRight k.added) :
      Effect s { s with link := k }
  | store (s : State) (t : Store) (images : ∀ im ∈ t.images, im ∈ s.store.images ∨ im = imageOf s) :
      Effect s { s with store := t }
  | time (s : State) (clock : Time) (draws : Nat) (pending : List Instr) :
      Effect s { s with clock := clock, draws := draws, pending := pending }
  | staging (s : State) (g : Staging) (right : s.staging.Right → g.Right)
      (stored : (∀ d ∈ s.staging.staged, d.stored) → ∀ d ∈ g.staged, d.stored) : Effect s { s with staging := g }
  | settings (s : State) (g : Settings) (feeds : g.feeds = s.settings.feeds)
      (right : SettingsRight s.settings → SettingsRight g) : Effect s { s with settings := g }
  | moves (s : State) {q : Plant} (h : Moves s.settings s.clock s.plant q) : Effect s { s with plant := q }
  | feed (s : State) (f : Feed) (r : FeedRec) (range : r.InRange) :
      Effect s
        { s with
          settings := s.settings.setFeed f r
          plant := changeFeed (s.settings.setFeed f r) s.clock (look s.settings.feeds f) r f s.plant }
  | page (s : State) (f : Feed) (k : Fin 6)
      (clear : pageClear s.plant.cells f (resultingPage f k s.staging.staged) = true) :
      Effect s { s with plant := writePage s.settings s.clock (resultingPage f k s.staging.staged) s.plant }
  | clear (s : State) : Effect s { s with plant := clearSurvey s.clock s.plant }
  | restart (r : RestartIn) (s : State) : Effect s (restart r s)

namespace Effect

/-- The changes of the link that leave the accept set alone. -/
theorem link_same (s : State) {k : Link} (h : k.added = s.link.added := by rfl) : Effect s { s with link := k } :=
  .link s k (fun ha => h ▸ ha)

theorem notice (s : State) (n : Notice) : Effect s { s with plant := { s.plant with notice := n } } :=
  .moves s (.books s.plant s.plant.dir n)

theorem raised {s t : State} (h : Effect s t) (m : Flags12) : Effect s (t.raise m) :=
  h.trans (.notice t (t.plant.notice.raise m))

theorem enter (s : State) (b : Books) : Effect s (s.enter b) :=
  .moves s (.books s.plant b.dir (s.plant.notice.raise b.raised))

/-- A change of the survey engine that leaves its spot queue, its results and its share counter alone. -/
theorem survey (s : State) {v : Survey} (spots : v.spots = s.plant.survey.spots := by rfl)
    (results : v.results = s.plant.survey.results := by rfl) (share : v.share = s.plant.survey.share := by rfl) : Effect s (s.setSurvey v) :=
  .moves s (.engine s.plant v (by rw [spots]) results share.le.trans)

theorem store_same (s : State) {t : Store} (image : t.image = s.store.image := by rfl)
    (capture : t.capture = s.store.capture := by rfl) :
    Effect s (s.setStore t) :=
  .store s t (fun im h => .inl (by simpa [Store.images, image, capture] using h))

end Effect

/-! ## Requests, one by one -/

section
variable (p : List Byte) (s : State)

theorem effect_runSetAcceptSet (hl : p.length ≤ 3) : Effect s (runSetAcceptSet p s).state := by
  have hlen : ∀ (seen as : List Byte), (heldOnce seen as).length ≤ as.length := by
    intro seen as
    induction as generalizing seen with
    | nil => simp [heldOnce]
    | cons a as ih =>
      simp only [heldOnce]
      split
      · exact (ih seen).trans (by simp)
      · simpa using ih (a :: seen)
  have hmem : ∀ (seen as : List Byte), ∀ a ∈ heldOnce seen as, a ∈ as := by
    intro seen as
    induction as generalizing seen with
    | nil => simp [heldOnce]
    | cons b as ih =>
      intro a ha
      simp only [heldOnce] at ha
      split at ha
      · exact List.mem_cons_of_mem _ (ih seen a ha)
      · rcases List.mem_cons.mp ha with rfl | ha
        · exact List.mem_cons_self
        · exact List.mem_cons_of_mem _ (ih _ a ha)
  unfold runSetAcceptSet
  split
  · exact .refl s
  · next hp =>
    refine .link s _ (fun _ => ⟨(hlen _ _).trans hl, fun a ha => ?_⟩)
    simp only [List.any_eq_true, Bool.or_eq_true, beq_iff_eq, not_exists, not_and, not_or] at hp
    exact hp a (hmem _ _ a ha)

theorem effect_runSetLinkMode : Effect s (runSetLinkMode p s).state := by
  unfold runSetLinkMode
  split
  · exact .link_same s
  · exact .refl s

theorem effect_runSetNoticeMask : Effect s (runSetNoticeMask p s).state := by
  unfold runSetNoticeMask
  split
  · exact .refl s
  · exact .notice s _

theorem feedRecAt_inRange {r : FeedRec} (h : feedRecAt p = some r) : r.InRange := by
  unfold feedRecAt at h
  split at h
  · cases h
  · split at h
    · next hr => exact Option.some.inj h ▸ hr
    · cases h

theorem effect_runSetFeed : Effect s (runSetFeed p s).state := by
  unfold runSetFeed
  split
  · next f r _ hr => exact .feed s f r (feedRecAt_inRange p hr)
  · exact .refl s

theorem effect_runReadFeed : Effect s (runReadFeed p s).state := by
  unfold runReadFeed; split <;> exact .refl s

theorem effect_runSetProfile : Effect s (runSetProfile p s).state := by
  unfold runSetProfile
  split
  · next h =>
    split
    · next hr =>
      refine .settings s _ rfl (fun hs => ?_)
      obtain ⟨h1, hprof, h3⟩ := hs
      refine ⟨h1, fun k => ?_, h3⟩
      dsimp only
      rw [look_put]
      split
      · exact hr
      · exact hprof k
    · exact .refl s
  · exact .refl s

/-- A change of the staging buffer. -/
theorem effect_runOpenRasterPage : Effect s (runOpenRasterPage p s).state := by
  unfold runOpenRasterPage
  split
  · split
    · exact .staging s _ (fun _ => ⟨Nat.zero_le _, fun h => by cases h⟩) (fun _ d hd => by cases hd)
    · exact .refl s
  · exact .refl s

/-- A valid definition, put in its one form, is stored as R10 says. -/
theorem stored_normal {d : CellDef} (h : d.valid = true) : d.normal.stored := by
  unfold CellDef.stored
  by_cases hf : d.freq = 0
  · have hn : d.normal = CellDef.vacant := if_pos hf
    rw [hn]
    exact ⟨rfl, rfl⟩
  · have hn : d.normal = d := if_neg hf
    rw [hn]
    exact ⟨h, hn⟩

theorem effect_runPutCells : Effect s (runPutCells p s).state := by
  unfold runPutCells
  split
  · exact .refl s
  · next hopen =>
    split
    · next hvalid =>
      refine .staging s _ (fun hr => ⟨?_, fun h => absurd h hopen⟩) (fun hst d hd => ?_)
      · simp only [List.length_append, List.length_take]
        have := hr.1
        omega
      · rcases List.mem_append.mp hd with hd | hd
        · exact hst d hd
        · obtain ⟨e, he, rfl⟩ := List.mem_map.mp (List.mem_of_mem_take hd)
          exact stored_normal (List.all_eq_true.mp hvalid e he)
    · exact .refl s

/-- Closing the staging buffer. -/
theorem effect_close : Effect s { s with staging := Staging.atRestart } :=
  .staging s _ (fun _ => ⟨Nat.zero_le _, fun _ => rfl⟩) (fun _ d hd => by cases hd)

theorem effect_runWriteRasterPage : Effect s (runWriteRasterPage p s).state := by
  unfold runWriteRasterPage
  split
  · exact .refl s
  · next f k _ =>
    dsimp only
    split
    · next hc => exact (Effect.page s f k hc).trans (effect_close _)
    · exact .refl s

theorem effect_runCloseRasterPage : Effect s (runCloseRasterPage p s).state := by
  show Effect s (if s.staging.page = none then s else { s with staging := Staging.atRestart })
  split
  · exact .refl s
  · exact effect_close s

theorem effect_runReadCell : Effect s (runReadCell p s).state := by
  unfold runReadCell; split <;> exact .refl s

theorem effect_runSetAdmission : Effect s (runSetAdmission p s).state := by
  unfold runSetAdmission
  split
  · exact .refl s
  · exact .settings s _ rfl id

theorem effect_runParkLane : Effect s (runParkLane p s).state := by
  unfold runParkLane
  split
  · next l _ => exact .moves s (moves_parkLane s.settings s.clock l s.plant)
  · exact .refl s

theorem effect_runUnparkLane : Effect s (runUnparkLane p s).state := by
  unfold runUnparkLane
  split
  · next l _ =>
    dsimp only
    split
    · next h => exact .moves s (.lane _ l (turns_unparked (by rcases h with h | h <;> rw [h] <;> rfl)))
    · exact .refl s
  · exact .refl s

theorem effect_runSetLaneOptions : Effect s (runSetLaneOptions p s).state := by
  unfold runSetLaneOptions
  split
  · exact .moves s (moves_giveOptions _ _ _ _ _)
  · exact .refl s

theorem effect_runSetTimers : Effect s (runSetTimers p s).state := by
  unfold runSetTimers
  split
  · next t ht =>
    refine .settings s _ rfl (fun hs => ?_)
    obtain ⟨h1, h2, -, h4⟩ := hs
    refine ⟨h1, h2, ?_, h4⟩
    unfold timersAt at ht
    split at ht
    · next hr => exact Option.some.inj ht ▸ hr
    · cases ht
  · exact .refl s

theorem effect_runReadLane : Effect s (runReadLane p s).state := by
  unfold runReadLane; split <;> exact .refl s

theorem effect_runSetSurveyMode : Effect s (runSetSurveyMode p s).state := by
  unfold runSetSurveyMode
  split
  · exact .survey s
  · exact .refl s

theorem effect_runContinue : Effect s (runContinue p s).state := by
  unfold runContinue
  split
  · exact .survey s
  · exact .refl s

theorem effect_runSetWatchPolicy : Effect s (runSetWatchPolicy p s).state := by
  unfold runSetWatchPolicy
  split
  · next w hw =>
    have hset : Effect s { s with settings := { s.settings with watch := w } } := by
      refine .settings s _ rfl (fun hs => ?_)
      obtain ⟨h1, h2, h3, -, h5⟩ := hs
      refine ⟨h1, h2, h3, ?_, h5⟩
      unfold watchPolicyAt at hw
      split at hw
      · next hr => exact Option.some.inj hw ▸ hr
      · cases hw
    refine hset.trans (.moves _ ?_)
    unfold afterWatchPolicy
    split
    · exact .dropSpots _ _
    · exact .refl _
  · exact .refl s

theorem effect_runSpotMeasure : Effect s (runSpotMeasure p s).state := by
  unfold runSpotMeasure
  split
  · next c trim _ _ =>
    dsimp only
    split
    · exact .refl s
    · split
      · exact .refl s
      · next hopen =>
        split
        · exact .refl s
        · split
          · exact .refl s
          · next hfull =>
            rw [not_or] at hopen
            exact .moves s (.addSpot s.plant c trim _ (by simpa [CellState.open] using hopen) (by omega))
  · exact .refl s

theorem effect_runRenewHold : Effect s (runRenewHold p s).state := by
  unfold runRenewHold
  split
  · exact .refl s
  · next l _ =>
    split
    · dsimp only
      split
      · next h => exact .moves s (.lane _ l (turns_holdExpiry _ h))
      · exact .refl s
    · exact .refl s

theorem effect_runReleaseHold : Effect s (runReleaseHold p s).state := by
  unfold runReleaseHold
  split
  · exact .refl s
  · split
    · exact .moves s (.holdEnd _ _ _ _ rfl)
    · exact .refl s

theorem effect_runListServices : Effect s (runListServices p s).state := by
  unfold runListServices; split <;> exact .refl s

theorem effect_runReadService : Effect s (runReadService p s).state := by
  unfold runReadService; split <;> exact .refl s

theorem effect_runForgetService : Effect s (runForgetService p s).state := by
  unfold runForgetService
  split
  · exact .refl s
  · split
    · exact .refl s
    · exact .refl s
    all_goals exact .enter s _

theorem effect_runSetRankingPolicy : Effect s (runSetRankingPolicy p s).state := by
  unfold runSetRankingPolicy
  split
  · next x hx =>
    refine .settings s _ rfl (fun hs => ?_)
    obtain ⟨h1, h2, h3, h4, -⟩ := hs
    refine ⟨h1, h2, h3, h4, ?_⟩
    unfold policyAt at hx
    split at hx
    · next hr => exact Option.some.inj hx ▸ hr
    · cases hx
  · exact .refl s

theorem effect_runPinSource : Effect s (runPinSource p s).state := by
  unfold runPinSource
  split
  · split
    · split
      · exact .enter s _
      · exact .refl s
    · exact .refl s
  · exact .refl s

theorem effect_runUnpin : Effect s (runUnpin p s).state := by
  unfold runUnpin
  split
  · exact .refl s
  · split
    · exact .refl s
    · exact .refl s
    all_goals exact .enter s _

theorem effect_runTakeAdvice : Effect s (runTakeAdvice p s).state := by
  unfold runTakeAdvice
  split
  · exact .enter s _
  · exact .refl s

theorem effect_runSaveSnapshot : Effect s (runSaveSnapshot p s).state := by
  unfold runSaveSnapshot
  split
  · refine (Effect.store s (beginSave s).store (fun im him => ?_)).trans (.time _ s.clock (s.draws + 1) s.pending)
    simp only [Store.images, beginSave, Option.map_some, Option.toList_some, List.mem_cons, List.not_mem_nil, or_false]
      at him
    rcases him with h | h
    · exact .inl (by simp [Store.images, h])
    · exact .inr h
  · exact .refl s

theorem effect_runEraseStore : Effect s (runEraseStore p s).state := by
  unfold runEraseStore
  split
  · exact .store_same s
  · exact .refl s

end

/-- Every request of Table 11.5, given a payload of a length that it allows. -/
theorem effect_run {v : Service} (hv : v ∈ catalogue) (p : List Byte) (s : State) (hl : v.lengthOk p.length = true) :
    Effect s (v.run p s).state := by
  simp only [catalogue, List.mem_append, List.mem_cons, List.not_mem_nil, or_false] at hv
  rcases hv with ((rfl | rfl | rfl | rfl | rfl | rfl | rfl | rfl | rfl | rfl | rfl | rfl | rfl | rfl | rfl | rfl) |
    (rfl | rfl | rfl | rfl | rfl | rfl | rfl | rfl | rfl | rfl | rfl | rfl | rfl | rfl | rfl | rfl)) |
    (rfl | rfl | rfl | rfl | rfl | rfl | rfl | rfl | rfl | rfl | rfl | rfl | rfl | rfl | rfl | rfl)
  · exact .refl s
  · exact .link_same s
  · exact effect_runSetAcceptSet p s (of_decide_eq_true hl)
  · exact effect_runSetLinkMode p s
  · exact .refl s
  · exact .link_same s
  · exact .notice s _
  · exact effect_runSetNoticeMask p s
  · exact effect_runSetFeed p s
  · exact effect_runReadFeed p s
  · exact effect_runSetProfile p s
  · exact .refl s
  · exact effect_runOpenRasterPage p s
  · exact effect_runPutCells p s
  · exact effect_runWriteRasterPage p s
  · exact effect_runCloseRasterPage p s
  · exact effect_runReadCell p s
  · exact effect_runSetAdmission p s
  · exact .refl s
  · exact effect_runParkLane p s
  · exact effect_runUnparkLane p s
  · exact effect_runSetLaneOptions p s
  · exact effect_runSetTimers p s
  · exact .refl s
  · exact effect_runReadLane p s
  · exact .survey s
  · exact .survey s
  · exact effect_runSetSurveyMode p s
  · exact effect_runContinue p s
  · exact .clear s
  · exact .refl s
  · exact effect_runSetWatchPolicy p s
  · exact .refl s
  · exact effect_runSpotMeasure p s
  · exact effect_runRenewHold p s
  · exact effect_runReleaseHold p s
  · exact .refl s
  · exact effect_runListServices p s
  · exact effect_runReadService p s
  · exact effect_runForgetService p s
  · exact effect_runSetRankingPolicy p s
  · exact .refl s
  · exact effect_runPinSource p s
  · exact effect_runUnpin p s
  · exact effect_runTakeAdvice p s
  · exact effect_runSaveSnapshot p s
  · exact effect_runEraseStore p s
  · exact .refl s

/-! ## The link -/

section
variable (s : State)

theorem effect_takeFault {s t : State} (h : Effect s t) (r : LinkFault) (rx : Receiver) :
    Effect s (takeFault r rx t) :=
  (h.raised Condition.linkFault.bit).trans
    (.link_same _ (k := { t.link with rx := rx, log := some (t.link.log.getD r) }))

theorem effect_owedRestart : Effect s (owedRestart s) :=
  (Effect.time s s.clock (s.draws + 1) s.pending).trans (.restart _ _)

theorem effect_overrunNow : Effect s (overrunNow s) := by
  rcases overrunNow_cases s with h | ⟨-, -, h⟩ | ⟨a, -, -, h⟩
  · rw [h]; exact .refl s
  · rw [h]; exact effect_owedRestart s
  · rw [h]; exact effect_takeFault (.link_same s) _ _

theorem effect_whenHunting {k : State → State} (h : Effect s (k s)) : Effect s (whenHunting k s) := by
  rcases whenHunting_cases k s with e | e | ⟨-, e⟩
  · rw [e]; exact .refl s
  · rw [e]; exact effect_overrunNow s
  · rw [e]; exact h

theorem effect_lengthFault (a n : Byte) : Effect s (lengthFault a n s) := by
  rcases lengthFault_cases a n s with h | ⟨r, h⟩
  · rw [h]; exact .link_same s
  · rw [h]; exact effect_takeFault (.refl s) _ _

theorem effect_gapFault (a : Byte) (got : List Byte) : Effect s (gapFault a got s) := by
  unfold gapFault
  split
  · exact .link_same s
  all_goals exact effect_takeFault (.refl s) _ _

theorem effect_badCheck (k : Byte) (f : Req) : Effect s (badCheck k f s) := by
  unfold badCheck
  split
  · exact .refl s
  all_goals exact effect_takeFault (.refl s) _ _

theorem effect_answer (f : Frame) {r : Served} (h : Effect s r.state) : Effect s (answer f r) :=
  h.trans (.link_same _)

theorem effect_frame {v : Service} (run : ∀ p s, v.lengthOk p.length = true → Effect s (v.run p s).state) (f : Req) :
    Effect s (v.frame f s) := by
  unfold Service.frame
  split
  · exact .refl s
  · split
    · next h =>
      rw [Bool.and_eq_true] at h
      exact run _ _ h.2
    · exact .refl s
  · refine effect_answer s _ ?_
    rcases Service.respond_cases v f.payload s with h | h | ⟨-, hl, h⟩
    · rw [h]; exact .refl s
    · rw [h]; exact .refl s
    · rw [h]; exact run _ _ hl

theorem effect_serve {v : Service} (hv : v ∈ catalogue) (f : Req) : Effect s (serve v f s) := by
  refine effect_whenHunting s ?_
  split
  · exact effect_lengthFault s _ _
  · exact effect_frame s (effect_run hv) f

theorem effect_frameByKind (kind : Byte) (f : Req) : Effect s (frameByKind catalogue kind f s) := by
  unfold frameByKind
  split
  · exact .refl s
  · split
    · next v hv => exact effect_frame s (effect_run (List.mem_of_find?_eq_some hv)) f
    · exact effect_frame s (v := unknownService kind) (fun _ _ _ => .refl _) f

theorem effect_frameArrives (kind : Byte) (f : Req) : Effect s (frameArrives kind f s) := by
  unfold frameArrives deliver
  refine effect_whenHunting s ?_
  split
  · exact effect_lengthFault s _ _
  · exact effect_frameByKind s kind f

theorem effect_lengthArrives (a n : Byte) : Effect s (lengthArrives a n s) := by
  refine effect_whenHunting s ?_
  split
  · exact effect_lengthFault s _ _
  · exact .refl s

theorem effect_bytesStop (a : Byte) (got : List Byte) : Effect s (bytesStop a got s) := by
  refine effect_whenHunting s ?_
  split
  · exact effect_gapFault s _ _
  · exact .refl s

theorem effect_checkFault (kind check : Byte) (f : Req) {t : State} (h : exec (.checkFault kind check f) s = .next t) :
    Effect s t := by
  refine Host.Outcome.next.inj h ▸ effect_whenHunting s ?_
  split
  · exact effect_lengthFault s _ _
  · split
    · exact effect_frameByKind s kind f
    · exact effect_badCheck s kind f

theorem effect_foreignFrame (kind : Byte) (f : Req) (e : FrameEnd) {t : State}
    (h : exec (.foreignFrame kind f e) s = .next t) : Effect s t := by
  cases e with
  | whole => exact Host.Outcome.next.inj h ▸ effect_frameArrives s kind f
  | badLength n => exact Host.Outcome.next.inj h ▸ effect_lengthArrives s f.addr n
  | stopped got => exact Host.Outcome.next.inj h ▸ effect_bytesStop s f.addr got

theorem effect_replySent : Effect s (replySent s) := by
  unfold replySent
  split
  · exact .refl s
  · split
    · exact effect_owedRestart s
    · exact .link_same s

theorem effect_quietEnds : Effect s (quietEnds s) := by
  unfold quietEnds
  split
  · exact .link_same s
  · exact .refl s

/-! ## The page writer, timers and start-up -/

theorem effect_failSave {s t : State} (h : Effect s t) : Effect s (failSave t) :=
  .raised (h.trans (.store_same t)) _

theorem effect_eraseComplete : Effect s (eraseComplete s) := by
  unfold eraseComplete
  dsimp only
  split
  · exact .refl s
  · exact .raised (.store_same s) _
  · exact .store_same s
  · exact .store_same s
  · exact .store_same s
  · exact effect_failSave (.store_same s)
  · exact .refl s
  · exact .refl s

theorem effect_writePageDone (c : Capture) (k : Fin 256) (again : Bool) (flaws : Flaws) :
    Effect s (writePageDone s c k again flaws) := by
  have h : Effect s (s.setStore { s.store with
      mem := Memory.writePage s.store.mem k (takenBytes (c.page k) flaws) }) := .store_same s
  unfold writePageDone
  dsimp only
  split
  · exact (h.trans (.store_same _)).trans (.store_same _)
  · split
    · exact effect_failSave h
    · exact h.trans (.store_same _)

theorem effect_writeHeaderDone {c : Capture} (hc : s.store.capture = some c) (again : Bool) (flaws : Flaws) :
    Effect s (writeHeaderDone s c again flaws) := by
  have h : Effect s (s.setStore { s.store with
      mem := Memory.writePage s.store.mem 0 (takenBytes (savedHeader s.store c) flaws), image := c.image }) := by
    refine .store s _ (fun im him => .inl ?_)
    have : im = c.image := by simpa [Store.images, hc] using him
    simp [Store.images, hc, this]
  unfold writeHeaderDone
  dsimp only
  split
  · exact .raised (h.trans (.store_same _)) _
  · exact h.trans (.store_same _)

theorem effect_writeComplete (flaws : Flaws) : Effect s (writeComplete flaws s) := by
  unfold writeComplete
  split
  · exact .refl s
  · next c hc =>
    split
    · exact effect_writePageDone s c _ _ flaws
    · exact effect_writeHeaderDone s hc _ flaws
    all_goals exact .refl s

theorem effect_measureTimeout (l : Lane) : Effect s (measureTimeout l s) := by
  unfold measureTimeout
  dsimp only
  split
  · next h =>
    exact (Effect.moves s (.lane s.plant l (turns_measured _ h.1))).trans (.time _ s.clock _ s.pending)
  · exact .refl s

theorem effect_refreshTimeout (l : Lane) : Effect s (refreshTimeout l s) := by
  unfold refreshTimeout
  dsimp only
  split
  · next h =>
    exact (Effect.moves s (.lane s.plant l (turns_refreshStep _ h.1))).trans (.time _ s.clock _ s.pending)
  · exact .refl s

theorem effect_endStartUp : Effect s (endStartUp s) :=
  ((Effect.moves s ((Moves.engine s.plant { s.plant.survey with state := resumedState s.plant } (List.Sublist.refl _) rfl
      id).trans (.books _ s.plant.dir (s.plant.notice.endStartUp (startUpFlags s.store.failNoted))))).trans
    (.link_same _ (k := { s.link with rx := .hunt }))).trans
    (.store_same _ (t := { s.store with failNoted := false }))

end

/-! ## Every command, every step -/

/-- A request row brings a frame of its kind to one service of the catalogue. -/
theorem exec_request {i : Instr} {k : Byte} {f : Req} (h : requestOf i = some (k, f)) (s : State) :
    ∃ v ∈ catalogue, exec i s = .next (serve v f s) := by
  cases i <;> simp only [requestOf, reduceCtorEq, Option.some.injEq, Prod.mk.injEq] at h <;> obtain ⟨-, rfl⟩ := h <;>
    refine ⟨_, ?_, rfl⟩ <;> simp only [catalogue, List.mem_append, List.mem_cons, true_or, or_true]

theorem exec_effect (i : Instr) {s t : State} (h : exec i s = .next t) : Effect s t := by
  cases hr : requestOf i with
  | some kf =>
    obtain ⟨v, hv, he⟩ := exec_request hr s
    rw [he] at h
    exact Host.Outcome.next.inj h ▸ effect_serve s hv kf.2
  | none =>
    have hinj : ∀ {u : State}, (.next u : Result) = .next t → u = t := fun h => Host.Outcome.next.inj h
    cases i <;> simp only [requestOf, reduceCtorEq] at hr
    case restartReplySent r =>
      refine hinj h ▸ ?_
      split
      · exact .restart r s
      · exact .refl s
    case unknownKind k f => exact hinj h ▸ effect_frameArrives s k f
    case replyKindDiscarded k f => exact hinj h ▸ effect_frameArrives s k f
    case broadcastDiscarded k f => exact hinj h ▸ effect_frameArrives s k f
    case foreignFrame k f e => exact effect_foreignFrame s k f e h
    case checkFault k c f => exact effect_checkFault s k c f h
    case framingLengthFault a n => exact hinj h ▸ effect_lengthArrives s a n
    case framingGapTimeout a got => exact hinj h ▸ effect_bytesStop s a got
    case addressWaitTimeout => exact hinj h ▸ effect_whenHunting s (.refl s)
    case quietSilenceEnd => exact hinj h ▸ effect_quietEnds s
    case overrun => exact hinj h ▸ effect_overrunNow s
    case grant => exact hinj h ▸ .moves s (moves_grantOne _ _ _)
    case watchDue c => exact hinj h ▸ .refl s
    case lockArrival l => exact hinj h ▸ .moves s (moves_lockArrives _ _ l _)
    case lockTimerExpiry l => exact hinj h ▸ .moves s (moves_lockTimeout _ _ l _)
    case probeWindowExpiry l e => exact hinj h ▸ .moves s (moves_probeExpires _ _ l _ e)
    case frontEndReading l m v d b => exact hinj h ▸ .moves s (moves_readingArrives _ _ l _ m v d b)
    case measureTimerExpiry l => exact hinj h ▸ effect_measureTimeout s l
    case lockLoss l => exact hinj h ▸ .moves s (moves_lockLost _ _ l _)
    case rosterSection l sec => exact hinj h ▸ .moves s (moves_sectionArrives _ _ l _ sec)
    case gapTimerExpiry l => exact hinj h ▸ .moves s (moves_gapTimeout _ _ l _)
    case dwellLimitExpiry l => exact hinj h ▸ .moves s (moves_dwellTimeout _ _ l _)
    case frontEndFault l c => exact hinj h ▸ .moves s (moves_faultArrives _ _ l _ c)
    case holdRefreshExpiry l => exact hinj h ▸ effect_refreshTimeout s l
    case holdExpiry l => exact hinj h ▸ .moves s (moves_holdTimeout _ _ l _)
    case forgetCheck => exact hinj h ▸ .enter s _
    case pageEraseComplete => exact hinj h ▸ effect_eraseComplete s
    case pageWriteComplete flaws => exact hinj h ▸ effect_writeComplete s flaws
    case powerOn r => exact hinj h ▸ .restart r s
    case restartLine r => exact hinj h ▸ .restart r s
    case startUpEnd =>
      refine hinj h ▸ ?_
      split
      · exact effect_endStartUp s
      · exact .refl s
    case replySent => exact hinj h ▸ effect_replySent s

/-- Every step of the machine is a run of the changes that `Effect` lists. -/
theorem step_effect {s t : State} (h : step s = .next t) : Effect s t := by
  unfold step at h
  split at h
  · exact Host.Outcome.next.inj h ▸ .time s (s.clock + 1) s.draws s.pending
  · next rest _ => exact (Effect.time s s.clock s.draws rest).trans (exec_effect _ h)

end Sys2Proof.Machine
end

section
/-! SUPPORT. Ranges, sizes, scores and definitions under the changes of a step; the statements about them. -/

namespace Sys2Proof.Machine

/-! ## A restart -/

theorem settledImage_mem (r : RestartIn) (t : Store) : settledImage r t ∈ t.images := by
  unfold settledImage
  split
  · next c _ hc =>
    split
    · exact List.mem_cons_self
    · simp [Store.images, hc]
  · exact List.mem_cons_self

/-- What a restart leaves: the restart values, or what an image of the store holds. -/
theorem restart_spec (r : RestartIn) (s : State) :
    (restart r s).staging = Staging.atRestart
      ∧ (∀ im ∈ (restart r s).store.images, im ∈ s.store.images)
      ∧ ((restart r s).settings = Settings.atRestart ∧ (restart r s).plant = Plant.atRestart
            ∧ (restart r s).link.added = []
          ∨ ∃ im ∈ s.store.images, (restart r s).settings = im.settings ∧ (restart r s).plant = restoredPlant im
              ∧ (restart r s).link.added = im.added) := by
  have himages : ∀ im ∈ (freshState r s).store.images, im ∈ s.store.images := fun im h => by
    obtain rfl : im = settledImage r s.store := by
      simpa [Store.images, freshState, Store.atRestart] using h
    exact settledImage_mem r s.store
  unfold restart judgeStore
  split
  · exact ⟨rfl, himages, .inl ⟨rfl, rfl, rfl⟩⟩
  · exact ⟨rfl, himages, .inl ⟨rfl, rfl, rfl⟩⟩
  · exact ⟨rfl, himages, .inr ⟨settledImage r s.store, settledImage_mem r s.store, rfl, rfl, rfl⟩⟩

/-! ## Settings -/

theorem settingsRight_atRestart : SettingsRight Settings.atRestart := by
  refine ⟨fun f => ?_, ?_, ?_, ?_, ?_⟩
  · simp [Settings.atRestart, FeedRec.atRestart]
  · decide
  all_goals simp [Settings.atRestart]

/-- The hold limit lies from 0 to 4 (R144). -/
theorem SettingsRight.holdLimit_le {g : Settings} (h : SettingsRight g) : g.watch.holdLimit ≤ 4 := by
  obtain ⟨-, -, -, ⟨-, -, -, -, -, -, hlimit⟩, -⟩ := h
  exact hlimit

theorem SettingsRight.setFeed {g : Settings} (h : SettingsRight g) (f : Feed) {r : FeedRec} (hr : r.InRange) :
    SettingsRight (g.setFeed f r) := by
  obtain ⟨hfeeds, hrest⟩ := h
  refine ⟨fun k => ?_, hrest⟩
  simp only [Settings.setFeed, look_put]
  split
  · exact hr
  · exact hfeeds k

theorem addressesRight_nil : AddressesRight [] := ⟨Nat.zero_le _, fun _ h => by cases h⟩

/-- The law of the settings speaks of the settings, the added addresses and the images only. -/
theorem SettingsLaw.congr {s t : State} (hs : SettingsLaw s) (settings : t.settings = s.settings)
    (added : t.link.added = s.link.added) (images : t.store.images = s.store.images) : SettingsLaw t := by
  unfold SettingsLaw at *
  rw [settings, added, images]
  exact hs

/-- Every change keeps the settings and added addresses in their ranges, and those a restart may bring back. -/
theorem Effect.settingsLaw {s t : State} (h : Effect s t) (hs : SettingsLaw s) : SettingsLaw t := by
  induction h with
  | refl => exact hs
  | time | staging | moves | page | clear => exact hs.congr rfl rfl rfl
  | trans _ _ ih ih' => exact ih' (ih hs)
  | link s k added =>
    obtain ⟨hset, hadd, himg⟩ := hs
    exact ⟨hset, added hadd, himg⟩
  | store s t images =>
    obtain ⟨hset, hadd, himg⟩ := hs
    refine ⟨hset, hadd, fun im him => ?_⟩
    rcases images im him with him | rfl
    · exact himg im him
    · exact ⟨hset, hadd⟩
  | settings s g feeds right =>
    obtain ⟨hset, hrest⟩ := hs
    exact ⟨right hset, hrest⟩
  | feed s f r range =>
    obtain ⟨hset, hrest⟩ := hs
    exact ⟨hset.setFeed f range, hrest⟩
  | restart r s =>
    obtain ⟨-, -, himg⟩ := hs
    obtain ⟨-, hkept, ⟨hset, -, hadd⟩ | ⟨im, him, hset, -, hadd⟩⟩ := restart_spec r s
    · refine ⟨?_, ?_, fun im h => himg im (hkept im h)⟩
      · rw [hset]; exact settingsRight_atRestart
      · rw [hadd]; exact addressesRight_nil
    · refine ⟨?_, ?_, fun im h => himg im (hkept im h)⟩
      · rw [hset]; exact (himg im him).1
      · rw [hadd]; exact (himg im him).2

/-! ## Scores -/

/-- The visit score lies from 0 to 1000 (R60). -/
theorem visitScore_le (m : Measurement) (mreq lvmin lvmax margin : Nat) :
    visitScore m mreq lvmin lvmax margin ≤ 1000 := by
  have hA : termA m.mer mreq ≤ 500 := Nat.min_le_left _ _
  have hB : termB m.level lvmin lvmax ≤ 200 := by unfold termB; split <;> [omega; split <;> omega]
  have hC : termC m.load ≤ 200 := Nat.sub_le _ _
  have hD : termD margin ≤ 100 := by unfold termD; omega
  have hpen : ∀ sum, penalise sum m.blocks ≤ sum := fun sum => by
    unfold penalise
    split
    · exact le_refl _
    · split <;> [omega; split <;> omega]
  exact (hpen _).trans (by omega)

theorem smooth_le (k : CellState) {q : Option Nat} {v : Nat} (hq : ∀ a ∈ q, a ≤ 1000) (hv : v ≤ 1000) :
    smooth k q v ≤ 1000 := by
  unfold smooth
  cases q with
  | none => exact hv
  | some a =>
    have := hq a rfl
    dsimp only
    split <;> omega

/-- The scores and counts of a cell in their ranges (R60, R65, R82). -/
def Cell.InRange (x : Cell) : Prop :=
  (∀ q ∈ x.q, q ≤ 1000) ∧ (∀ v ∈ x.lastScore, v ≤ 1000) ∧ x.fails ≤ 15 ∧ x.refused ≤ 255

/-- The score of a record in its range (R60). -/
def Record.InRange (r : Record) : Prop := ∀ v ∈ r.score, v ≤ 1000

/-- A visit end's score, and the scores and counts it leaves in the cell, lie in their ranges. -/
theorem cellEnd_inRange (g : Settings) (t : Treatment) (r : Record) {x : Cell} (h : x.InRange) :
    (cellEnd g t r x).1.InRange := by
  obtain ⟨hq, hv, hf, hr⟩ := h
  cases t with
  | scored =>
    have hs := visitScore_le
    refine ⟨fun a ha => ?_, fun a ha => ?_, Nat.zero_le _, hr⟩
    · rw [← Option.some.inj ha]; exact smooth_le x.state hq (hs _ _ _ _ _)
    · rw [← Option.some.inj ha]; exact hs _ _ _ _ _
  | noLock =>
    cases hqx : x.q with
    | none => simpa [cellEnd, afterNoLock, hqx, Cell.InRange] using ⟨hv, hf, hr⟩
    | some q =>
      have hq' : q ≤ 1000 := hq q hqx
      simp only [cellEnd, afterNoLock, hqx]
      refine ⟨fun a ha => ?_, hv, Nat.min_le_left _ _, hr⟩
      rw [← Option.some.inj ha]; omega
  | unscored => exact ⟨hq, hv, hf, hr⟩

theorem cellEnd_score_le (g : Settings) (t : Treatment) (r : Record) (x : Cell) : ∀ v ∈ (cellEnd g t r x).2, v ≤ 1000 := by
  cases t with
  | scored => intro v hv; rw [← Option.some.inj hv]; exact visitScore_le _ _ _ _ _
  | noLock => intro v hv; cases hv
  | unscored => intro v hv; cases hv

/-! ## The refused-entry count (R82) -/

/-- One entry changes of the cells at most the refused count of the cell of the roster. -/
theorem takeEntry_cells (g : Settings) (r : Reading) (w : Work) (e : Entry) :
    (takeEntry g r w e).cells = w.cells ∨ (takeEntry g r w e).cells = addRefused r.cell 1 w.cells := by
  unfold takeEntry
  split
  · next n _ =>
    split
    · exact .inl rfl
    · have hm := (makeRoom_sheds g r.now n r.cell w).cells
      unfold createFor
      split <;> next hw => rw [hw] at hm; exact .inl hm
  · split
    · next n _ =>
      have hm := (makeRoom_sheds g r.now n r.cell { w with dir := w.dir.setSlot n (newSlot r e) }).cells
      unfold createService
      split <;> next hw => rw [hw] at hm; exact .inl hm
    · exact .inr rfl

theorem addRefused_le (c : CellRef) (k : Nat) (cells : Vector Cell 576) : (look (addRefused c k cells) c).refused ≤ 255 := by
  simp only [addRefused, look_put_self]
  exact Nat.min_le_left _ _

/-- The processing of a roster result keeps the refused count within 255. -/
theorem processRoster_refused (g : Settings) (now : Time) (c : CellRef) (rr : RosterResult) {w : Work}
    (h : (look w.cells c).refused ≤ 255) : (look (processRoster g now c rr w).cells c).refused ≤ 255 := by
  have entries : ∀ (r : Reading) (complete : Bool) (es : List Entry), r.cell = c →
      (look (processEntries g r complete es w).cells c).refused ≤ 255 := by
    rintro r complete es rfl
    unfold processEntries storeRoster
    dsimp only
    rw [look_put_self]
    refine takeEntries_induct (P := fun u => (look u.cells r.cell).refused ≤ 255) (fun u e hu => ?_) ?_ _
    · rcases takeEntry_cells g r u e with he | he
      · rw [he]; exact hu
      · rw [he]; exact addRefused_le _ _ _
    · split
      · rw [(removeOnCell_spec _ _ _).1]; exact addRefused_le _ _ _
      · exact addRefused_le _ _ _
  unfold processRoster
  split
  · exact h
  · exact entries _ _ _ rfl
  · exact entries _ _ _ rfl
  · exact h

theorem cellEnd_refused (g : Settings) (t : Treatment) (r : Record) (x : Cell) :
    (cellEnd g t r x).1.refused = x.refused := by
  obtain ⟨-, -, -, -, href, -⟩ := cellEnd_spec g t r x
  exact href

theorem visitEnd_refused (g : Settings) (now : Time) (l : Lane) (e : Ending) {p : Plant} {c : CellRef}
    (hc : (look p.lanes l).cell = some c) (h : (look p.cells c).refused ≤ 255) :
    (look (visitEnd g now l e p).cells c).refused ≤ 255 := by
  have hmark : ∀ (t : Treatment) (moved : Bool) (w : Work),
      (if t = .unscored then w else markVisited c moved w).cells = w.cells := fun t moved w => by split <;> rfl
  simp only [visitEnd, hc, look_put_self, visitDirectory, hmark]
  refine processRoster_refused g now c e.roster ?_
  have hstart : ∀ x : Cell, x.refused ≤ 255 → (look (Work.start (p.setCell c x)).cells c).refused ≤ 255 := fun x hx => by
    simpa [Work.start] using hx
  split
  · rw [(removeOnCell_spec _ _ _).1]
    exact hstart _ ((cellEnd_refused _ _ _ _).trans_le h)
  · exact hstart _ ((cellEnd_refused _ _ _ _).trans_le h)

/-! ## Sizes and scores under the moves -/

/-- From p to q no score or count leaves its range, and no size its bound. -/
structure Plant.Within (p q : Plant) : Prop where
  cells : ∀ c, (look p.cells c).InRange → (look q.cells c).InRange
  records : ∀ l, ∀ r ∈ (look q.lanes l).record, r ∈ (look p.lanes l).record ∨ r.InRange
  results : ∀ e ∈ q.survey.results, e ∈ p.survey.results ∨ ∀ r ∈ e.record, r.InRange
  spotCount : p.survey.spots.length ≤ 4 → q.survey.spots.length ≤ 4
  resultCount : p.survey.results.length ≤ 4 → q.survey.results.length ≤ 4
  share : p.survey.share ≤ 15 → q.survey.share ≤ 15

namespace Plant.Within

theorem refl (p : Plant) : p.Within p := ⟨fun _ => id, fun _ _ => .inl, fun _ => .inl, id, id, id⟩

theorem trans {p q r : Plant} (h : p.Within q) (h' : q.Within r) : p.Within r where
  cells := fun c hc => h'.cells c (h.cells c hc)
  records := fun l x hx => (h'.records l x hx).elim (h.records l x) .inr
  results := fun e he => (h'.results e he).elim (h.results e) .inr
  spotCount := fun hp => h'.spotCount (h.spotCount hp)
  resultCount := fun hp => h'.resultCount (h.resultCount hp)
  share := fun hp => h'.share (h.share hp)

/-- A change of the directory, of the conditions and of the cells. -/
theorem of_cells {p q : Plant} (lanes : q.lanes = p.lanes) (survey : q.survey = p.survey)
    (cells : ∀ c, (look p.cells c).InRange → (look q.cells c).InRange) : p.Within q where
  cells := cells
  records := fun l r hr => .inl (by rw [← lanes]; exact hr)
  results := fun e he => .inl (by rw [← survey]; exact he)
  spotCount := fun hp => by rw [survey]; exact hp
  resultCount := fun hp => by rw [survey]; exact hp
  share := fun hp => by rw [survey]; exact hp

theorem setCell (p : Plant) (c : CellRef) {x : Cell} (h : (look p.cells c).InRange → x.InRange) :
    p.Within (p.setCell c x) :=
  of_cells rfl rfl (fun k hk => by
    simp only [Plant.setCell_cells, look_put]
    split
    · next e => subst e; exact h hk
    · exact hk)

end Plant.Within

/-- The new results of a run of removed entries, cut to four. -/
theorem mem_take_append {α : Type} {a : α} {xs ys : List α} {n : Nat} (h : a ∈ (xs ++ ys).take n) : a ∈ xs ∨ a ∈ ys :=
  List.mem_append.mp (List.mem_of_mem_take h)

theorem dropSpots_within (now : Time) (gone : SpotEntry → Bool) (p : Plant) : p.Within (dropSpots now gone p) := by
  obtain ⟨cells, lanes, -, survey, none, some, -⟩ := dropSpots_spec now gone p
  have hspots : (dropSpots now gone p).survey.spots = p.survey.spots.filter (fun e => !gone e) := by rw [survey]
  have hshare : (dropSpots now gone p).survey.share = p.survey.share := by rw [survey]
  refine ⟨fun c hc => by rw [cells]; exact hc, fun l r hr => .inl (by rw [← lanes]; exact hr), fun e he => ?_,
    fun h => ?_, fun h => ?_, fun h => by rw [hshare]; exact h⟩
  · by_cases ho : p.survey.spots.filter gone = []
    · rw [none ho] at he; exact .inl he
    · rw [some ho] at he
      rcases mem_take_append he with he | he
      · obtain ⟨x, -, rfl⟩ := List.mem_map.mp he
        exact .inr (fun r hr => by cases hr)
      · exact .inl he
  · rw [hspots]; exact (List.length_filter_le _ _).trans h
  · by_cases ho : p.survey.spots.filter gone = []
    · rw [none ho]; exact h
    · rw [some ho]; exact List.length_take_le _ _

/-- What a visit end adds to the spot results: at most one, with the record of the visit. -/
theorem surveyEnd_results (l : Lane) (x : LaneRec) (r : Record) (lanes : Vector LaneRec 8) (v : Survey) :
    (surveyEnd l x r lanes v).1.results = v.results
      ∨ ∃ e : SpotResult, e.record = some r ∧ (surveyEnd l x r lanes v).1.results = (e :: v.results).take 4 := by
  unfold surveyEnd pushResult
  dsimp only
  cases x.terms with
  | none => dsimp only; split <;> split <;> exact .inl rfl
  | some t => dsimp only; split <;> split <;> exact .inr ⟨_, rfl, rfl⟩

theorem surveyEnd_share (l : Lane) (x : LaneRec) (r : Record) (lanes : Vector LaneRec 8) (v : Survey) :
    (surveyEnd l x r lanes v).1.share = v.share := by
  unfold surveyEnd pushResult
  dsimp only
  cases x.terms <;> dsimp only <;> split <;> split <;> rfl

theorem visitEnd_within (g : Settings) (now : Time) (l : Lane) (e : Ending) (p : Plant) :
    p.Within (visitEnd g now l e p) := by
  cases hc : (look p.lanes l).cell with
  | none => rw [visitEnd_none hc]; exact .refl p
  | some c =>
    obtain ⟨cells, lanes, taken, left, ⟨rf, ro, own, -⟩, survey, -, -⟩ := visitEnd_spec (g := g) (now := now) (e := e) hc
    have hscore := fun t r => cellEnd_score_le g t r (look p.cells c)
    refine ⟨fun k hk => ?_, fun k r hr => ?_, fun x hx => ?_, fun h => ?_, fun h => ?_, fun h => ?_⟩
    · by_cases hkc : k = c
      · subst hkc
        have href := visitEnd_refused g now l e hc hk.2.2.2
        rw [own] at href ⊢
        obtain ⟨h1, h2, h3, -⟩ := cellEnd_inRange g (treatment e.outcome ((look p.lanes l).state == .reading))
          (recordOf l (look p.lanes l) k now e (holdNote g p.lanes l e.outcome)) hk
        exact ⟨h1, h2, h3, href⟩
      · rw [cells k hkc]; exact hk
    · by_cases hkl : k = l
      · subst hkl
        right
        by_cases hn : holdNote g p.lanes k e.outcome = .taken
        · rw [taken hn] at hr
          exact Option.some.inj hr ▸ hscore _ _
        · rw [left hn] at hr
          exact Option.some.inj hr ▸ hscore _ _
      · rw [lanes k hkl] at hr; exact .inl hr
    · rw [survey] at hx
      rcases surveyEnd_results l (look p.lanes l) _ _ p.survey with h | ⟨y, hy, h⟩
      · rw [h] at hx; exact .inl hx
      · rw [h] at hx
        rcases List.mem_cons.mp (List.mem_of_mem_take hx) with rfl | hx
        · right
          intro r hr
          rw [hy] at hr
          exact Option.some.inj hr ▸ hscore _ _
        · exact .inl hx
    · rw [survey, surveyEnd_spots]; exact h
    · rw [survey]
      rcases surveyEnd_results l (look p.lanes l) _ _ p.survey with h' | ⟨y, -, h'⟩
      · rw [h']; exact h
      · rw [h']; exact List.length_take_le _ _
    · rw [survey, surveyEnd_share]; exact h

theorem holdEnd_within (g : Settings) (now : Time) (l : Lane) (next : LaneState) (setDue : Bool) (p : Plant) :
    p.Within (holdEnd g now l next setDue p) := by
  have hsurvey : (holdEnd g now l next setDue p).survey = p.survey := by
    unfold holdEnd; dsimp only; split <;> rfl
  have hlane : ∀ k, (look (holdEnd g now l next setDue p).lanes k).record = (look p.lanes k).record := fun k => by
    have hput : (holdEnd g now l next setDue p).lanes = put p.lanes l ((look p.lanes l).leave next) := by
      unfold holdEnd; dsimp only; split <;> rfl
    rw [hput, look_put]
    split
    · next h => subst h; rfl
    · rfl
  refine ⟨fun c hc => ?_, fun k r hr => .inl (by rw [← hlane]; exact hr), fun x hx => .inl (by rw [← hsurvey]; exact hx),
    fun h => by rw [hsurvey]; exact h, fun h => by rw [hsurvey]; exact h, fun h => by rw [hsurvey]; exact h⟩
  obtain ⟨d, e, he⟩ := holdEnd_cell g now l next setDue p c
  rw [he]
  exact hc

/-- Every move keeps scores and sizes in their bounds. -/
theorem Moves.within {g : Settings} {now : Time} {p q : Plant} (h : Moves g now p q) : p.Within q := by
  induction h with
  | refl => exact .refl _
  | trans _ _ ih ih' => exact ih.trans ih'
  | books p => exact .of_cells rfl rfl (fun _ => id)
  | engine p v spots results share =>
    exact ⟨fun _ => id, fun _ _ => .inl, fun e he => .inl (by rw [← results]; exact he),
      fun h => spots.length_le.trans h, fun h => by rw [results]; exact h, share⟩
  | lanes p v turns =>
    exact ⟨fun _ => id, fun l r hr => .inl (by rw [← (turns l).record]; exact hr), fun _ => .inl, id, id, id⟩
  | visitEnd p l e => exact visitEnd_within g now l e p
  | holdEnd p l next setDue => exact holdEnd_within g now l next setDue p
  | dropSpots p gone => exact dropSpots_within now gone p
  | addSpot p c trim hold _ room =>
    exact ⟨fun _ => id, fun _ _ => .inl, fun _ => .inl, fun _ => by simpa [Machine.addSpot] using room, id, id⟩
  | start p l c k t =>
    refine ⟨fun j hj => ?_, fun j r hr => .inl ?_, fun _ => .inl, id, id, id⟩
    · simp only [startVisit, Plant.setCell_cells, Plant.setLane_cells, look_put]
      split
      · next h => subst h; exact hj
      · exact hj
    · simp only [startVisit, Plant.setCell_lanes, Plant.setLane_lanes, look_put] at hr
      split at hr
      · next h => subst h; exact hr
      · exact hr

/-! ## Barring, rebuilding and clearing cells -/

/-- What holds between the plants of every step of a run over many cells holds from its start to its end. -/
theorem foldl_plant {α : Type} {R : Plant → Plant → Prop} (refl : ∀ p, R p p) (trans : ∀ {p q r}, R p q → R q r → R p r)
    {f : Reshape → α → Reshape} (step : ∀ r a, R r.plant (f r a).plant) (as : List α) (r : Reshape) :
    R r.plant (as.foldl f r).plant := by
  induction as generalizing r with
  | nil => exact refl _
  | cons a as ih => exact trans (step r a) (ih (f r a))

/-- The end of a cell's engagement is a move, or only takes off an engagement that no lane has. -/
theorem endEngagement_cases (g : Settings) (now : Time) (c : CellRef) (p : Plant) :
    Moves g now p (endEngagement g now c p)
      ∨ endEngagement g now c p = p.setCell c { look p.cells c with engaged := none } := by
  unfold endEngagement abandon
  split
  · exact .inl (.refl p)
  · dsimp only
    split
    · exact .inl (.visitEnd p _ _ rfl)
    · split
      · exact .inl (.holdEnd p _ _ _ rfl)
      · exact .inr rfl

theorem endEngagement_within (g : Settings) (now : Time) (c : CellRef) (p : Plant) :
    p.Within (endEngagement g now c p) := by
  rcases endEngagement_cases g now c p with h | h
  · exact h.within
  · rw [h]; exact .setCell p c id

theorem setCell_defn (p : Plant) (c k : CellRef) {x : Cell} (h : x.defn = (look p.cells c).defn := by rfl) :
    (look (p.setCell c x).cells k).defn = (look p.cells k).defn := by
  simp only [Plant.setCell_cells, look_put]
  split
  · next e => subst e; exact h
  · rfl

theorem endEngagement_defn (g : Settings) (now : Time) (c : CellRef) (p : Plant) (k : CellRef) :
    (look (endEngagement g now c p).cells k).defn = (look p.cells k).defn := by
  rcases endEngagement_cases g now c p with h | h
  · exact h.defn k
  · rw [h]; exact setCell_defn p c k

theorem finish_cells (g : Settings) (now : Time) (r : Reshape) : (r.finish g now).cells = r.plant.cells := by
  simp only [Reshape.finish]
theorem finish_lanes (g : Settings) (now : Time) (r : Reshape) : (r.finish g now).lanes = r.plant.lanes := by
  simp only [Reshape.finish]
theorem finish_survey (g : Settings) (now : Time) (r : Reshape) : (r.finish g now).survey = r.plant.survey := by
  simp only [Reshape.finish]

theorem finish_within (g : Settings) (now : Time) (r : Reshape) : r.plant.Within (r.finish g now) :=
  .of_cells (finish_lanes g now r) (finish_survey g now r) (fun c => by rw [finish_cells]; exact id)

theorem disengage_within (g : Settings) (now : Time) (c : CellRef) (p : Plant) : p.Within (disengage g now c p) := by
  unfold disengage
  split
  · exact .refl p
  · exact (endEngagement_within g now c p).trans (.setCell _ c id)

theorem disengage_defn (g : Settings) (now : Time) (c : CellRef) (p : Plant) (k : CellRef) :
    (look (disengage g now c p).cells k).defn = (look p.cells k).defn := by
  unfold disengage
  split
  · rfl
  · exact (setCell_defn (endEngagement g now c p) c k).trans (endEngagement_defn g now c p k)

theorem barCell_within (g : Settings) (now : Time) (c : CellRef) (r : Reshape) :
    r.plant.Within (barCell g now c r).plant := by
  have hbarred : ∀ x : Cell, x.InRange → x.barred.InRange := fun x ⟨_, hv, _, hr⟩ =>
    ⟨fun _ h => (by cases h), hv, Nat.zero_le _, hr⟩
  have h1 := disengage_within g now c r.plant
  have h2 := Plant.Within.setCell (disengage g now c r.plant) c (hbarred _)
  exact ((h1.trans h2).trans (dropSpots_within now (fun e => e.cell == c) _)).trans (.of_cells rfl rfl (fun _ => id))

theorem barCell_defn (g : Settings) (now : Time) (c : CellRef) (r : Reshape) (k : CellRef) :
    (look (barCell g now c r).plant.cells k).defn = (look r.plant.cells k).defn :=
  (setCell_defn (disengage g now c r.plant) c k (x := (look (disengage g now c r.plant).cells c).barred)).trans
    (disengage_defn g now c r.plant k)

theorem changeFeed_within (g : Settings) (now : Time) (before after : FeedRec) (f : Feed) (p : Plant) :
    p.Within (changeFeed g now before after f p) := by
  unfold changeFeed
  generalize feedCells f = cs
  refine (foldl_plant (R := Plant.Within) .refl .trans (fun r c => ?_) cs { plant := p, marked := [], release := [] }).trans
    (finish_within g now _)
  unfold rejudgeCell
  dsimp only
  split
  · exact barCell_within g now c r
  · split
    · exact .setCell _ c id
    · exact .refl _

theorem changeFeed_defn (g : Settings) (now : Time) (before after : FeedRec) (f : Feed) (p : Plant) (k : CellRef) :
    (look (changeFeed g now before after f p).cells k).defn = (look p.cells k).defn := by
  unfold changeFeed
  generalize feedCells f = cs
  rw [finish_cells]
  refine foldl_plant (R := fun p q => (look q.cells k).defn = (look p.cells k).defn) (fun _ => rfl)
    (fun h h' => h'.trans h) (fun r c => ?_) cs { plant := p, marked := [], release := [] }
  unfold rejudgeCell
  dsimp only
  split
  · exact barCell_defn g now c r k
  · split
    · exact setCell_defn r.plant c k
    · rfl

theorem rebuiltCell_inRange (f : FeedRec) (d : CellDef) : (rebuiltCell f d).InRange := by
  simp [Cell.InRange, rebuiltCell, Cell.atRestart]

theorem rebuildCell_within (g : Settings) (now : Time) (d : CellDef) (c : CellRef) (r : Reshape) :
    r.plant.Within (rebuildCell g now d c r).plant := by
  have h1 := endEngagement_within g now c r.plant
  have h2 := Plant.Within.setCell (endEngagement g now c r.plant) c (fun _ => rebuiltCell_inRange (look g.feeds (feedOf c)) d)
  have h3 : ∀ (b : Prop) [Decidable b] (p : Plant), p.Within (if b then p else dropSpots now (fun e => e.cell == c) p) :=
    fun b _ p => by
      split
      · exact .refl p
      · exact dropSpots_within now _ p
  exact ((h1.trans h2).trans (h3 _ _)).trans (.of_cells rfl rfl (fun _ => id))

/-- A rebuilt cell has its new definition, and no other definition changes. -/
theorem rebuildCell_defn (g : Settings) (now : Time) (d : CellDef) (c : CellRef) (r : Reshape) (k : CellRef) :
    (look (rebuildCell g now d c r).plant.cells k).defn = if k = c then d else (look r.plant.cells k).defn := by
  have hcells : (rebuildCell g now d c r).plant.cells
      = put (endEngagement g now c r.plant).cells c (rebuiltCell (look g.feeds (feedOf c)) d) := by
    unfold rebuildCell Reshape.clearSightings
    dsimp only
    split <;> rfl
  rw [hcells, look_put]
  split
  · rfl
  · exact endEngagement_defn g now c r.plant k

theorem writeCell_within (g : Settings) (now : Time) (r : Reshape) (e : CellRef × CellDef) :
    r.plant.Within (writeCell g now r e).plant := by
  unfold writeCell
  split
  · exact .refl _
  · exact rebuildCell_within g now e.2 e.1 r

theorem writePage_within (g : Settings) (now : Time) (page : List (CellRef × CellDef)) (p : Plant) :
    p.Within (writePage g now page p) := by
  unfold writePage
  exact (foldl_plant (R := Plant.Within) .refl .trans (writeCell_within g now) page
    { plant := p, marked := [], release := [] }).trans (finish_within g now _)

/-- One lane cleared: of the cells only a last outcome and a last time change. -/
theorem clearLane_cell (now : Time) (p : Plant) (l : Lane) (c : CellRef) :
    ∃ o t, look (clearLane now p l).cells c = { look p.cells c with lastOutcome := o, lastTime := t } := by
  unfold clearLane
  dsimp only
  split
  · simp only [Plant.setCell_cells, Plant.setLane_cells, look_put]
    split
    · next e => exact ⟨_, _, by rw [e]⟩
    · exact ⟨_, _, rfl⟩
  · exact ⟨_, _, rfl⟩
  · split <;> exact ⟨_, _, rfl⟩

theorem clearLane_survey (now : Time) (p : Plant) (l : Lane) : (clearLane now p l).survey = p.survey := by
  unfold clearLane
  dsimp only
  split
  · rfl
  · rfl
  · split <;> rfl

/-- One lane cleared, by what its record was: a visit or a hold has ended, any other lane is as it was. -/
theorem clearLane_lane (now : Time) (p : Plant) (l k : Lane) :
    look (clearLane now p l).lanes k =
      if k = l then
        (match (look p.lanes l).inVisit, (look p.lanes l).cell with
          | true, some c =>
            { (look p.lanes l).leave .idle with record := some (clearedRecord now l c (look p.lanes l)) }
          | true, none => (look p.lanes l).leave .idle
          | false, _ => if (look p.lanes l).state = .held then (look p.lanes l).leave .idle else look p.lanes l)
      else look p.lanes k := by
  unfold clearLane
  dsimp only
  cases (look p.lanes l).inVisit with
  | true => cases (look p.lanes l).cell with
    | some c => dsimp only; rw [Plant.setCell_lanes, Plant.setLane_lanes, look_put]
    | none => dsimp only; rw [Plant.setLane_lanes, look_put]
  | false =>
    dsimp only
    split
    · rw [Plant.setLane_lanes, look_put]
    · split
      · next e => rw [e]
      · rfl

theorem clearLane_within (now : Time) (p : Plant) (l : Lane) : p.Within (clearLane now p l) := by
  have hsurvey := clearLane_survey now p l
  refine ⟨fun c hc => ?_, fun k r hr => ?_, fun x hx => .inl (by rw [← hsurvey]; exact hx),
    fun h => by rw [hsurvey]; exact h, fun h => by rw [hsurvey]; exact h, fun h => by rw [hsurvey]; exact h⟩
  · obtain ⟨o, t, he⟩ := clearLane_cell now p l c
    rw [he]; exact hc
  · rw [clearLane_lane] at hr
    split at hr
    · next e =>
      subst e
      split at hr
      · right; intro v hv; rw [← Option.some.inj hr] at hv; cases hv
      · exact .inl hr
      · split at hr <;> exact .inl hr
    · exact .inl hr

theorem foldl_clearLane {R : Plant → Plant → Prop} (refl : ∀ p, R p p) (trans : ∀ {p q r}, R p q → R q r → R p r)
    {now : Time} (step : ∀ p l, R p (clearLane now p l)) (ls : List Lane) (p : Plant) :
    R p (ls.foldl (clearLane now) p) := by
  induction ls generalizing p with
  | nil => exact refl _
  | cons l ls ih => exact trans (step p l) (ih _)

theorem cleared_inRange {x : Cell} (h : x.InRange) : x.cleared.InRange := by
  unfold Cell.cleared
  split
  · exact h
  · exact ⟨fun _ hq => (by cases hq), h.2.1, Nat.zero_le _, h.2.2.2⟩

theorem clearSurvey_within (now : Time) (p : Plant) : p.Within (clearSurvey now p) := by
  unfold clearSurvey
  have hlanes := foldl_clearLane (R := Plant.Within) .refl .trans (clearLane_within now) (List.finRange 8) p
  generalize (List.finRange 8).foldl (clearLane now) p = q at hlanes
  refine hlanes.trans ⟨fun c hc => ?_, fun l r hr => .inl hr, fun x hx => (by cases hx), fun _ => Nat.zero_le _,
    fun _ => Nat.zero_le _, fun _ => Nat.zero_le _⟩
  rw [look_table]
  exact cleared_inRange hc

theorem cleared_defn (x : Cell) : x.cleared.defn = x.defn := by unfold Cell.cleared; split <;> rfl

theorem clearSurvey_defn (now : Time) (p : Plant) (c : CellRef) :
    (look (clearSurvey now p).cells c).defn = (look p.cells c).defn := by
  rw [clearSurvey, look_table, cleared_defn]
  refine foldl_clearLane (R := fun p q => (look q.cells c).defn = (look p.cells c).defn) (fun _ => rfl)
    (fun h h' => h'.trans h) (fun p l => ?_) (List.finRange 8) p
  obtain ⟨o, t, he⟩ := clearLane_cell now p l c
  rw [he]

/-! ## Sizes and scores under every change -/

/-- The sizes of the survey engine in their bounds (R142, R149, R154). -/
def Survey.Sized (v : Survey) : Prop := v.spots.length ≤ 4 ∧ v.results.length ≤ 4 ∧ v.share ≤ 15

theorem sizesLaw_iff (s : State) : SizesLaw s ↔ s.staging.Right ∧ s.plant.survey.Sized := by
  unfold SizesLaw Staging.Right Survey.Sized; tauto

theorem Plant.Within.sized {p q : Plant} (h : p.Within q) (hp : p.survey.Sized) : q.survey.Sized :=
  ⟨h.spotCount hp.1, h.resultCount hp.2.1, h.share hp.2.2⟩

theorem Effect.sizesLaw {s t : State} (h : Effect s t) (hs : SizesLaw s) : SizesLaw t := by
  induction h with
  | refl | link | store | time | settings => exact hs
  | trans _ _ ih ih' => exact ih' (ih hs)
  | staging s g right =>
    rw [sizesLaw_iff] at hs ⊢
    exact ⟨right hs.1, hs.2⟩
  | moves s h =>
    rw [sizesLaw_iff] at hs ⊢
    exact ⟨hs.1, h.within.sized hs.2⟩
  | feed s f r =>
    rw [sizesLaw_iff] at hs ⊢
    exact ⟨hs.1, (changeFeed_within _ _ _ _ _ _).sized hs.2⟩
  | page s f k =>
    rw [sizesLaw_iff] at hs ⊢
    exact ⟨hs.1, (writePage_within _ _ _ _).sized hs.2⟩
  | clear s =>
    rw [sizesLaw_iff] at hs ⊢
    exact ⟨hs.1, (clearSurvey_within _ _).sized hs.2⟩
  | restart r s =>
    rw [sizesLaw_iff]
    obtain ⟨hstage, -, ⟨-, hplant, -⟩ | ⟨im, -, -, hplant, -⟩⟩ := restart_spec r s
    · rw [hstage, hplant]; exact ⟨⟨Nat.zero_le _, fun _ => rfl⟩, by decide, by decide, by decide⟩
    · rw [hstage, hplant]; exact ⟨⟨Nat.zero_le _, fun _ => rfl⟩, Nat.zero_le _, Nat.zero_le _, Nat.zero_le _⟩

/-- Every score and count of the survey's part of the machine in its range: `ScoresLaw` of its state. -/
def Plant.Scored (p : Plant) : Prop :=
  (∀ c, (look p.cells c).InRange) ∧ (∀ l, ∀ r ∈ (look p.lanes l).record, r.InRange)
    ∧ ∀ e ∈ p.survey.results, ∀ r ∈ e.record, r.InRange

theorem scoresLaw_iff (s : State) : ScoresLaw s ↔ s.plant.Scored := Iff.rfl

theorem Plant.Within.scored {p q : Plant} (h : p.Within q) (hp : p.Scored) : q.Scored :=
  ⟨fun c => h.cells c (hp.1 c), fun l r hr => (h.records l r hr).elim (hp.2.1 l r) id,
    fun e he => (h.results e he).elim (hp.2.2 e) id⟩

theorem scored_atRestart : Plant.atRestart.Scored := by
  refine ⟨fun c => ?_, fun l r hr => ?_, fun e he => by cases he⟩
  · simp [Plant.atRestart, Cell.InRange, Cell.atRestart]
  · simp [Plant.atRestart, LaneRec.atRestart] at hr

theorem scored_restored (im : Image) : (restoredPlant im).Scored := by
  refine ⟨fun c => ?_, fun l r hr => ?_, fun e he => by cases he⟩
  · rw [restoredPlant, restoredCells, look_table]; exact rebuiltCell_inRange _ _
  · simp [restoredPlant, restoredLanes, LaneRec.atRestart] at hr

theorem Effect.scoresLaw {s t : State} (h : Effect s t) (hs : ScoresLaw s) : ScoresLaw t := by
  induction h with
  | refl | link | store | time | settings | staging => exact hs
  | trans _ _ ih ih' => exact ih' (ih hs)
  | moves s h => exact h.within.scored hs
  | feed s f r => exact (changeFeed_within _ _ _ _ _ _).scored hs
  | page s f k => exact (writePage_within _ _ _ _).scored hs
  | clear s => exact (clearSurvey_within _ _).scored hs
  | restart r s =>
    rw [scoresLaw_iff]
    obtain ⟨-, -, ⟨-, hplant, -⟩ | ⟨im, -, -, hplant, -⟩⟩ := restart_spec r s
    · rw [hplant]; exact scored_atRestart
    · rw [hplant]; exact scored_restored im

/-! ## The raster -/

theorem feedOf_cellAt (f : Feed) (i : Fin 96) : feedOf (cellAt f i) = f := by
  have := i.isLt
  exact Fin.ext (show (f.val * 96 + i.val) / 96 = f.val by omega)

theorem indexOf_cellAt (f : Feed) (i : Fin 96) : indexOf (cellAt f i) = i := by
  have := i.isLt
  exact Fin.ext (show (f.val * 96 + i.val) % 96 = i.val by omega)

theorem cellAt_feedOf (c : CellRef) : cellAt (feedOf c) (indexOf c) = c :=
  Fin.ext (show c.val / 96 * 96 + c.val % 96 = c.val by omega)

theorem mem_feedCells {f : Feed} {c : CellRef} : c ∈ feedCells f ↔ feedOf c = f := by
  simp only [feedCells, List.mem_map, List.mem_finRange, true_and]
  constructor
  · rintro ⟨i, rfl⟩; exact feedOf_cellAt f i
  · rintro rfl; exact ⟨indexOf c, cellAt_feedOf c⟩

theorem cellAt_injective (f : Feed) : Function.Injective (cellAt f) := fun i j h => by
  rw [← indexOf_cellAt f i, h, indexOf_cellAt]

theorem feedCells_nodup (f : Feed) : (feedCells f).Nodup := (List.nodup_finRange 96).map (cellAt_injective f)

theorem feedOf_pageCell (f : Feed) (k : Fin 6) (i : Fin 16) : feedOf (pageCell f k i) = f := feedOf_cellAt f _

theorem pageCell_injective (f : Feed) (k : Fin 6) : Function.Injective (pageCell f k) := fun i j h => by
  have he := congrArg Fin.val (cellAt_injective f h)
  have h' : k.val * 16 + i.val = k.val * 16 + j.val := he
  exact Fin.ext (by omega)

/-- The positions of a resulting page are 16 cells of its feed, each once. -/
theorem resultingPage_keys (f : Feed) (k : Fin 6) (staged : List CellDef) :
    ((resultingPage f k staged).map Prod.fst).Nodup ∧ ∀ e ∈ resultingPage f k staged, feedOf e.1 = f := by
  constructor
  · have hmap : (resultingPage f k staged).map Prod.fst = (List.finRange 16).map (pageCell f k) := by
      rw [resultingPage, List.map_map]; rfl
    rw [hmap]
    exact (List.nodup_finRange 16).map (pageCell_injective f k)
  · intro e he
    obtain ⟨i, -, rfl⟩ := List.mem_map.mp he
    exact feedOf_pageCell f k i

/-- The raster after a page write (R14): the page's definitions, elsewhere those that stand. -/
def rasterOver (cells : Vector Cell 576) (page : List (CellRef × CellDef)) (c : CellRef) : CellDef :=
  match page.find? (fun e => e.1 == c) with
  | some e => e.2
  | none => (look cells c).defn

theorem resultingFreq_eq (cells : Vector Cell 576) (page : List (CellRef × CellDef)) (c : CellRef) :
    resultingFreq cells page c = (rasterOver cells page c).freq := by
  unfold resultingFreq rasterOver
  cases page.find? (fun e => e.1 == c) <;> rfl

theorem pageClear_eq (cells : Vector Cell 576) (f : Feed) (page : List (CellRef × CellDef)) :
    pageClear cells f page = noRepeat (feedFreqs (rasterOver cells page) f) := by
  unfold pageClear feedFreqs
  rw [List.map_congr_left (fun c _ => resultingFreq_eq cells page c)]

/-- A position of the page holds the page's definition. -/
theorem rasterOver_mem {cells : Vector Cell 576} {page : List (CellRef × CellDef)} (hn : (page.map Prod.fst).Nodup)
    {e : CellRef × CellDef} (he : e ∈ page) : rasterOver cells page e.1 = e.2 := by
  unfold rasterOver
  cases hf : page.find? (fun x => x.1 == e.1) with
  | none => exact absurd (List.find?_eq_none.mp hf e he) (by simp)
  | some x =>
    have hx := List.mem_of_find?_eq_some hf
    have hk : x.1 = e.1 := by simpa using List.find?_some hf
    rw [List.inj_on_of_nodup_map hn hx he hk]

theorem rasterOver_not_mem {cells : Vector Cell 576} {page : List (CellRef × CellDef)} {c : CellRef}
    (h : ∀ e ∈ page, e.1 ≠ c) : rasterOver cells page c = (look cells c).defn := by
  have hf : page.find? (fun x => x.1 == c) = none := List.find?_eq_none.mpr (fun e he => by simpa using h e he)
  rw [rasterOver, hf]

theorem writeCell_defn (g : Settings) (now : Time) (r : Reshape) (e : CellRef × CellDef) (k : CellRef) :
    (look (writeCell g now r e).plant.cells k).defn = if k = e.1 then e.2 else (look r.plant.cells k).defn := by
  unfold writeCell
  split
  · next h =>
    split
    · next hk => rw [hk]; exact h
    · rfl
  · exact rebuildCell_defn g now e.2 e.1 r k

theorem foldl_writeCell_defn (g : Settings) (now : Time) (page : List (CellRef × CellDef)) (k : CellRef) (r : Reshape)
    (hn : (page.map Prod.fst).Nodup) :
    (look (page.foldl (writeCell g now) r).plant.cells k).defn = rasterOver r.plant.cells page k := by
  induction page generalizing r with
  | nil => rfl
  | cons e page ih =>
    rw [List.map_cons, List.nodup_cons] at hn
    rw [List.foldl_cons, ih _ hn.2]
    by_cases hk : k = e.1
    · subst hk
      have hout : ∀ x ∈ page, x.1 ≠ e.1 := fun x hx he => hn.1 (List.mem_map.mpr ⟨x, hx, he⟩)
      rw [rasterOver_not_mem hout, writeCell_defn, if_pos rfl]
      exact (rasterOver_mem (page := e :: page) (by rw [List.map_cons, List.nodup_cons]; exact hn) List.mem_cons_self).symm
    · have hskip : (e :: page).find? (fun x => x.1 == k) = page.find? (fun x => x.1 == k) :=
        List.find?_cons_of_neg (by simpa using Ne.symm hk)
      unfold rasterOver
      rw [hskip, writeCell_defn, if_neg hk]

/-- The definitions after a page write are the resulting raster (R14, R15). -/
theorem writePage_defn (g : Settings) (now : Time) {page : List (CellRef × CellDef)} (p : Plant) (k : CellRef)
    (hn : (page.map Prod.fst).Nodup) :
    (look (writePage g now page p).cells k).defn = rasterOver p.cells page k := by
  rw [writePage, finish_cells]
  exact foldl_writeCell_defn g now page k { plant := p, marked := [], release := [] } hn

theorem vacant_stored : CellDef.vacant.stored := ⟨rfl, rfl⟩

theorem noRepeat_zero {xs : List Nat} (h : ∀ x ∈ xs, x = 0) : noRepeat xs = true := by
  induction xs with
  | nil => rfl
  | cons x xs ih =>
    rw [noRepeat, h x List.mem_cons_self, ih (fun y hy => h y (List.mem_cons_of_mem _ hy))]
    rfl

theorem rasterRight_allVacant : RasterRight (fun _ => CellDef.vacant) := by
  refine ⟨fun _ => vacant_stored, fun f => noRepeat_zero (fun x hx => ?_)⟩
  obtain ⟨c, -, rfl⟩ := List.mem_map.mp hx
  rfl

/-- The raster after a page write that passes the check of R14. -/
theorem rasterRight_page {cells : Vector Cell 576} (h : RasterRight (fun c => (look cells c).defn)) {f : Feed} {k : Fin 6}
    {staged : List CellDef} (hs : ∀ d ∈ staged, d.stored) (hc : pageClear cells f (resultingPage f k staged) = true) :
    RasterRight (rasterOver cells (resultingPage f k staged)) := by
  obtain ⟨hnodup, hfeed⟩ := resultingPage_keys f k staged
  obtain ⟨hstored, hfreqs⟩ := h
  refine ⟨fun c => ?_, fun f' => ?_⟩
  · unfold rasterOver
    split
    · next e he =>
      obtain ⟨i, -, rfl⟩ := List.mem_map.mp (List.mem_of_find?_eq_some he)
      dsimp only
      rw [List.getD_eq_getElem?_getD]
      cases hi : staged[i.val]? with
      | none => exact vacant_stored
      | some d => exact hs d (List.mem_of_getElem? hi)
    · exact hstored c
  · by_cases hf : f' = f
    · rw [hf, ← pageClear_eq]; exact hc
    · have hsame : feedFreqs (rasterOver cells (resultingPage f k staged)) f'
          = feedFreqs (fun c => (look cells c).defn) f' := by
        refine List.map_congr_left (fun c hc' => ?_)
        rw [rasterOver_not_mem]
        rintro e he rfl
        exact hf ((mem_feedCells.mp hc').symm.trans (hfeed e he))
      rw [hsame]
      exact hfreqs f'

theorem RasterRight.congr {v w : CellRef → CellDef} (h : RasterRight v) (hw : ∀ c, w c = v c) : RasterRight w :=
  (funext hw : w = v) ▸ h

/-- Every change keeps the raster, the staged definitions and the rasters a restart may bring back right. -/
theorem Effect.rasterLaw {s t : State} (h : Effect s t) (hs : RasterLaw s) : RasterLaw t := by
  induction h with
  | refl | link | time | settings => exact hs
  | trans _ _ ih ih' => exact ih' (ih hs)
  | store s t images =>
    obtain ⟨hras, hst, himg⟩ := hs
    refine ⟨hras, hst, fun im him => ?_⟩
    rcases images im him with him | rfl
    · exact himg im him
    · exact hras.congr (fun c => look_table _ c)
  | staging s g _ stored =>
    obtain ⟨hras, hst, himg⟩ := hs
    exact ⟨hras, stored hst, himg⟩
  | moves s h =>
    obtain ⟨hras, hrest⟩ := hs
    exact ⟨hras.congr h.defn, hrest⟩
  | feed s f r =>
    obtain ⟨hras, hrest⟩ := hs
    exact ⟨hras.congr (changeFeed_defn _ _ _ _ _ _), hrest⟩
  | page s f k clear =>
    obtain ⟨hras, hst, himg⟩ := hs
    exact ⟨(rasterRight_page hras hst clear).congr (fun c => writePage_defn _ _ _ c (resultingPage_keys f k _).1), hst, himg⟩
  | clear s =>
    obtain ⟨hras, hrest⟩ := hs
    exact ⟨hras.congr (clearSurvey_defn _ _), hrest⟩
  | restart r s =>
    obtain ⟨-, -, himg⟩ := hs
    obtain ⟨hstage, hkept, hplant⟩ := restart_spec r s
    refine ⟨?_, fun d hd => ?_, fun im h => himg im (hkept im h)⟩
    · rcases hplant with ⟨-, hplant, -⟩ | ⟨im, him, -, hplant, -⟩
      · rw [hplant]
        exact rasterRight_allVacant.congr (fun c => by simp [Plant.atRestart, Cell.atRestart])
      · rw [hplant]
        exact (himg im him).congr (fun c => by simp [restoredPlant, restoredCells, rebuiltCell])
    · rw [hstage] at hd; cases hd

/-! ## The statements -/

/-- Settles O57: each change that a step is made of keeps the raster right. -/
theorem rasterStaysRight : Obligations.RasterStaysRight := by
  unfold Obligations.RasterStaysRight
  exact fun s t hs h => (step_effect h).rasterLaw hs

/-- Settles O56: each change that a step is made of keeps the ranges, the sizes and the scores. -/
theorem settingsSizesAndScoresStayInRange : Obligations.SettingsSizesAndScoresStayInRange := by
  unfold Obligations.SettingsSizesAndScoresStayInRange
  exact ⟨fun s t hs h => (step_effect h).settingsLaw hs, fun s t hs h => (step_effect h).sizesLaw hs,
    fun s t hs h => (step_effect h).scoresLaw hs⟩

end Sys2Proof.Machine
end

section
/-! SUPPORT. The requests of the raster, the profiles and the timers, and the reads of lanes, cells and the survey: what each
answers. The state after reset. -/

namespace Sys2Proof.Machine

/-! ## Requests by their payload -/

/-- A request row served on a payload that stands written out. -/
theorem next_served_at {v : Service} {f : Req} {p : List Byte} {s t : State} {st : Status} {vs : List Byte}
    (hs : s.serves f) (hp : f.payload = p) (hl : v.lengthOk p.length = true) (h240 : p.length ≤ 240)
    (hr : v.run p s = { state := t, status := st, body := vs }) :
    (.next (serve v f s) : Result) = .next (replied v.kind f st vs t) := by
  subst hp
  exact next_served hs h240 hl hr

theorem feedAt_refused {p : List Byte} {i : Nat} (h : 6 ≤ byteAt p i) : feedAt p i = none := dif_neg (by omega)

theorem feedAt_eq {p : List Byte} {i : Nat} {f : Feed} (h : byteAt p i = f.val) : feedAt p i = some f := by
  have hlt : byteAt p i < 6 := h ▸ f.isLt
  rw [feedAt, dif_pos hlt]
  exact congrArg some (Fin.ext h)

theorem laneAt_refused {p : List Byte} {i : Nat} (h : 8 ≤ byteAt p i) : laneAt p i = none := dif_neg (by omega)

theorem laneAt_eq {p : List Byte} {i : Nat} {l : Lane} (h : byteAt p i = l.val) : laneAt p i = some l := by
  have hlt : byteAt p i < 8 := h ▸ l.isLt
  rw [laneAt, dif_pos hlt]
  exact congrArg some (Fin.ext h)

theorem cellRefAt_refused {p : List Byte} {i : Nat} (h : 6 ≤ byteAt p i ∨ 96 ≤ byteAt p (i + 1)) : cellRefAt p i = none := by
  unfold cellRefAt
  split
  · rw [dif_neg (by omega)]
  · rfl

theorem cellRefAt_eq {p : List Byte} {i : Nat} {c : CellRef} (hf : byteAt p i = (feedOf c).val)
    (hc : byteAt p (i + 1) = (indexOf c).val) : cellRefAt p i = some c := by
  have hf' : byteAt p i < 6 := hf ▸ (feedOf c).isLt
  have hc' : byteAt p (i + 1) < 96 := hc ▸ (indexOf c).isLt
  rw [cellRefAt, dif_pos hf', dif_pos hc']
  have hfeed : (⟨byteAt p i, hf'⟩ : Feed) = feedOf c := Fin.ext hf
  have hindex : (⟨byteAt p (i + 1), hc'⟩ : Fin 96) = indexOf c := Fin.ext hc
  rw [hfeed, hindex, cellAt_feedOf]

/-! ## Definitions and admission -/

theorem valid_iff (d : CellDef) :
    d.valid = true ↔ (d.freq = 0 ∨ (45000 ≤ d.freq ∧ d.freq ≤ 870000))
      ∧ (d.bandwidth = 6 ∨ d.bandwidth = 7 ∨ d.bandwidth = 8) ∧ d.profile ≤ 7 := by
  simp [CellDef.valid, and_assoc, or_assoc]

theorem normal_of_zero {d : CellDef} (h : d.freq = 0) : d.normal = CellDef.vacant := if_pos h

theorem normal_of_ne {d : CellDef} (h : d.freq ≠ 0) : d.normal = d := if_neg h

theorem cellDef_eq_iff (d e : CellDef) : d = e ↔ d.freq = e.freq ∧ d.bandwidth = e.bandwidth ∧ d.profile = e.profile := by
  cases d; cases e; simp

/-- Two definitions are stored alike when both are vacant, or neither is and they agree. -/
theorem normal_eq_iff (d e : CellDef) :
    d.normal = e.normal ↔ (d.freq = 0 ∧ e.freq = 0)
      ∨ (d.freq ≠ 0 ∧ d.freq = e.freq ∧ d.bandwidth = e.bandwidth ∧ d.profile = e.profile) := by
  by_cases hd : d.freq = 0 <;> by_cases he : e.freq = 0
  · simp [normal_of_zero hd, normal_of_zero he, hd, he]
  · rw [normal_of_zero hd, normal_of_ne he]
    exact ⟨fun h => absurd (congrArg CellDef.freq h).symm he, fun h => by omega⟩
  · rw [normal_of_ne hd, normal_of_zero he]
    exact ⟨fun h => absurd (congrArg CellDef.freq h) hd, fun h => by omega⟩
  · rw [normal_of_ne hd, normal_of_ne he, cellDef_eq_iff]
    simp [hd]

theorem enabled_iff (w : Window) : w.enabled = true ↔ w.base ≠ 0 ∨ w.limit ≠ 0 := by simp [Window.enabled]

theorem window_admits_iff (w : Window) (f : Nat) :
    w.admits f = true ↔ (w.base ≠ 0 ∨ w.limit ≠ 0) ∧ w.base ≤ f ∧ f ≤ w.limit := by
  simp [Window.admits, enabled_iff, and_assoc]

theorem disabled_iff (w : Window) : w.enabled = false ↔ w.base = 0 ∧ w.limit = 0 := by simp [Window.enabled]

theorem admits_iff (r : FeedRec) (d : CellDef) :
    r.admits d = true ↔ d.freq ≠ 0 ∧ r.enable = true
      ∧ ((r.w1.base = 0 ∧ r.w1.limit = 0 ∧ r.w2.base = 0 ∧ r.w2.limit = 0)
        ∨ ((r.w1.base ≠ 0 ∨ r.w1.limit ≠ 0) ∧ r.w1.base ≤ d.freq ∧ d.freq ≤ r.w1.limit)
        ∨ ((r.w2.base ≠ 0 ∨ r.w2.limit ≠ 0) ∧ r.w2.base ≤ d.freq ∧ d.freq ≤ r.w2.limit)) := by
  simp only [FeedRec.admits, Bool.and_eq_true, Bool.or_eq_true, Bool.not_eq_true', bne_iff_ne, disabled_iff,
    window_admits_iff, and_assoc, or_assoc]

/-- Settles O13. -/
theorem definitionsAndAdmission : Obligations.DefinitionsAndAdmission := by
  unfold Obligations.DefinitionsAndAdmission
  exact ⟨fun d e => ⟨valid_iff d, normal_of_zero, normal_eq_iff d e⟩, admits_iff⟩

/-! ## Read Feed -/

/-- Each element of a list has one of the eight reception states. -/
theorem sum_countP_state {α : Type} (k : α → CellState) (xs : List α) :
    (allCellStates.map (fun v => xs.countP (fun x => k x == v))).sum = xs.length := by
  simp only [allCellStates, List.map_cons, List.map_nil, List.sum_cons, List.sum_nil]
  induction xs with
  | nil => rfl
  | cons x xs ih =>
    simp only [List.countP_cons, List.length_cons]
    cases k x <;> simp <;> omega

theorem feedCells_length (f : Feed) : (feedCells f).length = 96 := by
  rw [feedCells, List.length_map, List.length_finRange]

/-- Settles O15: the counts sum to the length of the list of the feed's cells. -/
theorem readFeedReturnsRecordAndCounts : Obligations.ReadFeedReturnsRecordAndCounts := by
  unfold Obligations.ReadFeedReturnsRecordAndCounts
  intro f b s hs hp
  refine ⟨fun hb => ?_, fun fd hb => ⟨?_, ?_⟩⟩
  · have hrun : svcReadFeed.run [b] s = refuse s .badValue := by
      simp only [svcReadFeed, runReadFeed, feedAt_refused (p := [b]) (i := 0) hb]
    exact next_served_at hs hp rfl (by simp) hrun
  · have hrun : svcReadFeed.run [b] s = ok s (bFeedRec (look s.settings.feeds fd)
        ++ (allCellStates.map (fun k => b1 (stateCount fd s.plant.cells k))).flatten) := by
      simp only [svcReadFeed, runReadFeed, feedAt_eq (p := [b]) (i := 0) hb]
    exact next_served_at hs hp rfl (by simp) hrun
  · exact (sum_countP_state _ _).trans (feedCells_length fd)

/-! ## Profiles and timers -/

theorem runSetProfile_refused {k lo hi : Byte} {s : State}
    (h : 8 ≤ k.toNat ∨ lo.toNat + 256 * hi.toNat < 50 ∨ 350 < lo.toNat + 256 * hi.toNat) :
    runSetProfile [k, lo, hi] s = refuse s .badValue := by
  unfold runSetProfile
  split
  · next hk =>
    have hk' : k.toNat < 8 := hk
    rw [if_neg]
    change ¬ (50 ≤ lo.toNat + 256 * hi.toNat ∧ lo.toNat + 256 * hi.toNat ≤ 350)
    omega
  · rfl

theorem runSetProfile_ok {k lo hi : Byte} {n : Fin 8} (s : State) (hk : k.toNat = n.val)
    (hmin : 50 ≤ lo.toNat + 256 * hi.toNat) (hmax : lo.toNat + 256 * hi.toNat ≤ 350) :
    runSetProfile [k, lo, hi] s = ok { s with settings :=
      { s.settings with profiles := put s.settings.profiles n (lo.toNat + 256 * hi.toNat) } } [] := by
  have hlt : byteAt [k, lo, hi] 0 < 8 := hk.trans_lt n.isLt
  have hn : (⟨byteAt [k, lo, hi] 0, hlt⟩ : Fin 8) = n := Fin.ext hk
  unfold runSetProfile
  rw [dif_pos hlt, if_pos ⟨hmin, hmax⟩, hn]
  rfl

theorem timersAt_refused {lock gap dwell lo hi : Byte}
    (h : lock.toNat = 0 ∨ 15 < lock.toNat ∨ 15 < gap.toNat ∨ dwell.toNat = 0 ∨ 15 < dwell.toNat
      ∨ lo.toNat + 256 * hi.toNat < 50 ∨ 2000 < lo.toNat + 256 * hi.toNat) :
    timersAt [lock, gap, dwell, lo, hi] = none := by
  refine if_neg ?_
  change ¬ (1 ≤ lock.toNat ∧ lock.toNat ≤ 15 ∧ gap.toNat ≤ 15 ∧ 1 ≤ dwell.toNat ∧ dwell.toNat ≤ 15
    ∧ 50 ≤ lo.toNat + 256 * hi.toNat ∧ lo.toNat + 256 * hi.toNat ≤ 2000)
  omega

theorem timersAt_eq {lock gap dwell lo hi : Byte} (h1 : 1 ≤ lock.toNat) (h2 : lock.toNat ≤ 15) (h3 : gap.toNat ≤ 15)
    (h4 : 1 ≤ dwell.toNat) (h5 : dwell.toNat ≤ 15) (h6 : 50 ≤ lo.toNat + 256 * hi.toNat)
    (h7 : lo.toNat + 256 * hi.toNat ≤ 2000) :
    timersAt [lock, gap, dwell, lo, hi] = some
      { lock := lock.toNat, gap := gap.toNat, dwell := dwell.toNat, interval := lo.toNat + 256 * hi.toNat } :=
  if_pos ⟨h1, h2, h3, h4, h5, h6, h7⟩

theorem flagBytes_false : flagBytes [false] = [0#8] := by decide

theorem flagBytes_true : flagBytes [true] = [1#8] := by decide

/-- The values of Read Timers, by whether the gap timer is enabled (R24). -/
theorem bTimers_eq (t : TimerSet) :
    bTimers t = [if t.gap = 0 then 0 else 1] ++ b1 t.lock ++ b1 t.gap ++ b1 t.dwell ++ b2 t.interval
      ++ b2 (2 ^ (t.lock - 1)) ++ (if t.gap = 0 then [0, 0] else b2 (2 ^ (t.gap - 1))) ++ b2 (2 ^ (t.dwell - 1)) := by
  unfold bTimers gapPeriod
  by_cases hg : t.gap = 0
  · simp only [if_pos hg, Option.isSome_none, flagBytes_false]; rfl
  · simp only [if_neg hg, Option.isSome_some, flagBytes_true]; rfl

/-- Settles O16. -/
theorem profilesAndTimersAreSetAndRead : Obligations.ProfilesAndTimersAreSetAndRead := by
  unfold Obligations.ProfilesAndTimersAreSetAndRead
  refine ⟨fun f s hs => ⟨fun k lo hi hp => ⟨fun h => ?_, fun n hk hmin hmax => ?_⟩, fun hp => ?_⟩,
    fun f lock gap dwell lo hi s hs hp => ⟨fun h => ?_, fun h1 h2 h3 h4 h5 h6 h7 => ?_⟩, fun f s hs hp => ?_⟩
  · exact next_served_at (v := svcSetProfile) hs hp rfl (by simp) (runSetProfile_refused h)
  · exact next_served_at (v := svcSetProfile) hs hp rfl (by simp) (runSetProfile_ok s hk hmin hmax)
  · exact next_served_at (v := svcReadProfiles) hs hp rfl (by simp) rfl
  · have hrun : svcSetTimers.run [lock, gap, dwell, lo, hi] s = refuse s .badValue := by
      simp only [svcSetTimers, runSetTimers, timersAt_refused h]
    exact next_served_at hs hp rfl (by simp) hrun
  · have hrun : svcSetTimers.run [lock, gap, dwell, lo, hi] s = ok { s with settings := { s.settings with timers :=
        { lock := lock.toNat, gap := gap.toNat, dwell := dwell.toNat, interval := lo.toNat + 256 * hi.toNat } } } [] := by
      simp only [svcSetTimers, runSetTimers, timersAt_eq h1 h2 h3 h4 h5 h6 h7]
    exact next_served_at hs hp rfl (by simp) hrun
  · have hrun : svcReadTimers.run [] s = ok s (bTimers s.settings.timers) := rfl
    rw [bTimers_eq] at hrun
    exact next_served_at hs hp rfl (by simp) hrun

/-! ## The staging buffer -/

theorem runOpenRasterPage_ok {b k : Byte} {f : Feed} {page : Fin 6} (s : State) (hb : b.toNat = f.val)
    (hk : k.toNat = page.val) :
    runOpenRasterPage [b, k] s = ok { s with staging := { page := some (f, page), staged := [] } } [] := by
  have hlt : byteAt [b, k] 1 < 6 := hk.trans_lt page.isLt
  have hpage : (⟨byteAt [b, k] 1, hlt⟩ : Fin 6) = page := Fin.ext hk
  simp only [runOpenRasterPage, feedAt_eq (p := [b, k]) (i := 0) hb]
  rw [dif_pos hlt, hpage]

theorem runOpenRasterPage_refused {b k : Byte} (s : State) (h : 6 ≤ b.toNat ∨ 6 ≤ k.toNat) :
    runOpenRasterPage [b, k] s = refuse s .badValue := by
  unfold runOpenRasterPage
  rcases h with h | h
  · simp only [feedAt_refused (p := [b, k]) (i := 0) h]
  · have hge : ¬ byteAt [b, k] 1 < 6 := Nat.not_lt.mpr h
    cases feedAt [b, k] 0 with
    | none => rfl
    | some f => exact dif_neg hge

/-- What Put Cells appends fills the staging up to position 16. -/
theorem staged_take {xs ys : List CellDef} {n : Nat} (h : xs.length ≤ n) :
    xs ++ ys.take (n - xs.length) = (xs ++ ys).take n := by
  rw [List.take_append, List.take_of_length_le h]

theorem runPutCells_ok {p : List Byte} {s : State} (h : s.staging.page ≠ none) (hd : ∀ d ∈ defsOf p, d.valid = true)
    (hst : s.staging.staged.length ≤ 16) :
    runPutCells p s = ok { s with staging := { s.staging with
          staged := (s.staging.staged ++ (defsOf p).map CellDef.normal).take 16 } }
        (b1 (min (defsOf p).length (16 - s.staging.staged.length))
          ++ b1 (min (s.staging.staged.length + (defsOf p).length) 16)) := by
  have hall : (defsOf p).all CellDef.valid = true := List.all_eq_true.mpr hd
  unfold runPutCells
  rw [if_neg h, if_pos hall]
  dsimp only
  rw [staged_take hst, List.length_take, List.length_take, List.length_append, List.length_map,
    min_comm (16 - _), min_comm 16]

/-- Settles O17. -/
theorem stagingIsOpenedFilledAndClosed : Obligations.StagingIsOpenedFilledAndClosed := by
  unfold Obligations.StagingIsOpenedFilledAndClosed
  intro f s hs
  refine ⟨fun b k fd page hp hb hk => ?_, fun b k hp h => ?_, fun ds hmin hmax hds hlen => ?_, fun hp h => ?_, fun hp h => ?_⟩
  · exact next_served_at (v := svcOpenRasterPage) hs hp rfl (by simp) (runOpenRasterPage_ok s hb hk)
  · exact next_served_at (v := svcOpenRasterPage) hs hp rfl (by simp) (runOpenRasterPage_refused s h)
  · subst hds
    have h240 : f.payload.length ≤ 240 := by omega
    have hl : svcPutCells.lengthOk f.payload.length = true := by
      simp only [svcPutCells, Bool.and_eq_true, decide_eq_true_eq, beq_iff_eq]
      omega
    refine ⟨fun h => ?_, fun h hd => ?_, fun h hd hst => ?_⟩
    · exact next_served (v := svcPutCells) hs h240 hl (if_pos h)
    · have hall : ¬ (defsOf f.payload).all CellDef.valid = true := by
        obtain ⟨d, hd, hv⟩ := hd
        exact fun hall => by rw [List.all_eq_true.mp hall d hd] at hv; cases hv
      exact next_served (v := svcPutCells) hs h240 hl ((if_neg h).trans (if_neg hall))
    · exact next_served (v := svcPutCells) hs h240 hl (runPutCells_ok h hd hst)
  · have hrun : svcCloseRasterPage.run [] s = ok { s with staging := { page := none, staged := [] } } [] := by
      simp only [svcCloseRasterPage, runCloseRasterPage, if_neg h, Staging.atRestart]
    exact next_served_at hs hp rfl (by simp) hrun
  · have hrun : svcCloseRasterPage.run [] s = ok s [] := by
      simp only [svcCloseRasterPage, runCloseRasterPage, if_pos h]
    exact next_served_at hs hp rfl (by simp) hrun

/-! ## The reads of cells, lanes and the survey -/

/-- Settles O45. -/
theorem lanesCellsAndSurveyAreRead : Obligations.LanesCellsAndSurveyAreRead := by
  unfold Obligations.LanesCellsAndSurveyAreRead
  refine ⟨fun f a b s hs hp => ⟨fun h => ?_, fun c ha hb => ?_⟩,
    fun f s hs => ⟨fun b l hp hb => ?_, fun b hp hb => ?_, fun hp => ⟨?_, ?_⟩⟩⟩
  · have hrun : svcReadCell.run [a, b] s = refuse s .badValue := by
      simp only [svcReadCell, runReadCell, cellRefAt_refused (p := [a, b]) (i := 0) h]
    exact next_served_at hs hp rfl (by simp) hrun
  · have hrun : svcReadCell.run [a, b] s = ok s (bCellRecord c (look s.plant.cells c) (sightingCount s.plant.dir c)) := by
      simp only [svcReadCell, runReadCell, cellRefAt_eq (p := [a, b]) (i := 0) ha hb]
    exact next_served_at hs hp rfl (by simp) hrun
  · have hrun : svcReadLane.run [b] s = ok s (bLane (look s.plant.lanes l)) := by
      simp only [svcReadLane, runReadLane, laneAt_eq (p := [b]) (i := 0) hb]
    exact next_served_at hs hp rfl (by simp) hrun
  · have hrun : svcReadLane.run [b] s = refuse s .badValue := by
      simp only [svcReadLane, runReadLane, laneAt_refused (p := [b]) (i := 0) hb]
    exact next_served_at hs hp rfl (by simp) hrun
  · exact next_served_at (v := svcReadSpotResults) hs hp rfl (by simp) rfl
  · exact next_served_at (v := svcReadSurvey) hs hp rfl (by simp) rfl

/-! ## The state after reset -/

theorem reset_cell (c : CellRef) : look State.reset.plant.cells c = Cell.atRestart := look_replicate _ c

theorem reset_lane (l : Lane) : look State.reset.plant.lanes l = LaneRec.atRestart := look_replicate _ l

theorem reset_slot (n : SlotNo) : look State.reset.plant.dir.slots n = Slot.empty := look_replicate _ n

theorem reset_feed (f : Feed) : look State.reset.settings.feeds f = FeedRec.atRestart := look_replicate _ f

/-- Settles O53. -/
theorem resetHoldsTheStatedValues : Obligations.ResetHoldsTheStatedValues := by
  unfold Obligations.ResetHoldsTheStatedValues
  refine ⟨reset_feed, rfl, rfl, rfl, rfl, rfl, rfl, rfl, ?_, reset_cell, fun l => ?_, fun n => ?_, rfl, rfl, rfl, rfl, rfl,
    by decide, rfl, rfl, rfl, rfl, rfl, rfl, rfl, rfl, rfl, rfl, rfl, rfl, rfl⟩
  · have hranges : State.reset.settings.admission.ranges = [⟨0, 0⟩, ⟨0, 0⟩, ⟨0, 0⟩, ⟨0, 0⟩] := rfl
    simp [hranges]
  · rw [reset_lane]; exact ⟨rfl, rfl, rfl, rfl, rfl, rfl, rfl, rfl, rfl, rfl, rfl, rfl, rfl, ⟨rfl, rfl, rfl, rfl, rfl⟩, rfl⟩
  · dsimp only
    rw [reset_slot]; exact ⟨rfl, rfl, rfl, rfl, rfl, rfl, rfl, rfl, rfl⟩

theorem cellRight_atRestart (r : FeedRec) : CellRight r Cell.atRestart := by
  simp [CellRight, Cell.atRestart, CellDef.vacant, CellState.scored, CellState.rankable]

theorem laneRight_atRestart : LaneRight LaneRec.atRestart := by unfold LaneRight; decide

theorem surveyRight_atRestart : SurveyRight Settings.atRestart Plant.atRestart := by
  have hcell : ∀ c, look Plant.atRestart.cells c = Cell.atRestart := reset_cell
  have hlane : ∀ l, look Plant.atRestart.lanes l = LaneRec.atRestart := reset_lane
  refine ⟨fun c => ?_, fun l => ?_, fun c l => ?_, fun e he => (by cases he), by decide, fun l => ?_⟩
  · rw [hcell]; exact cellRight_atRestart _
  · rw [hlane]; exact laneRight_atRestart
  · rw [hcell, hlane]; exact ⟨fun h => (by cases h), fun h => (by cases h)⟩
  · rw [hlane]; exact collectorRight_idle

/-- An empty directory keeps its laws. -/
theorem directoryRight_atRestart (cells : Vector Cell 576) : DirectoryRight cells Dir.atRestart := by
  have hslot : ∀ n, look Dir.atRestart.slots n = Slot.empty := look_replicate _
  refine ⟨⟨Nat.zero_le _, fun _ => Nat.zero_le _, List.nodup_nil, fun g hg => (by cases hg)⟩, fun n => ?_, fun n m h => ?_,
    Nat.zero_le _, List.nodup_nil, fun n => ?_, fun a ha => (by cases ha), fun n => ?_, fun n => ?_⟩
  · rw [hslot]
    simp [SlotRight, Slot.empty]
  · rw [hslot] at h
    exact absurd rfl h
  all_goals rw [hslot]; simp [Slot.empty, Dir.atRestart]

theorem imageRight_atRestart : ImageRight Image.atRestart :=
  ⟨Nat.zero_le _, fun _ h => (by cases h), List.nodup_nil, Nat.zero_le _, List.nodup_nil, fun _ => Nat.zero_le _,
    fun _ h => (by cases h), fun _ _ h => (by cases h)⟩

theorem linkRight_reset : LinkRight State.reset := by unfold LinkRight; decide

theorem storeLaw_reset : StoreLaw State.reset :=
  ⟨rfl, fun _ h => (by cases h), by decide, fun _ => rfl, fun h => (by cases h), fun _ h => (by cases h),
    fun _ _ h => (by cases h)⟩

theorem settingsLaw_reset : SettingsLaw State.reset := by
  refine ⟨settingsRight_atRestart, addressesRight_nil, fun im him => ?_⟩
  obtain rfl : im = Image.atRestart := List.mem_singleton.mp him
  exact ⟨settingsRight_atRestart, addressesRight_nil⟩

theorem rasterLaw_reset : RasterLaw State.reset := by
  refine ⟨rasterRight_allVacant.congr (fun c => ?_), fun d hd => (by cases hd), fun im him => ?_⟩
  · rw [reset_cell]; rfl
  · obtain rfl : im = Image.atRestart := List.mem_singleton.mp him
    exact rasterRight_allVacant.congr (look_replicate _)

/-- Settles O54: law by law. -/
theorem resetIsSafe : Obligations.ResetIsSafe := by
  unfold Obligations.ResetIsSafe
  refine ⟨⟨rfl, linkRight_reset, storeLaw_reset, ⟨Nat.zero_le _, fun _ => rfl, Nat.zero_le _, Nat.zero_le _, Nat.zero_le _⟩,
    scored_atRestart, rasterLaw_reset, ⟨settingsLaw_reset, surveyRight_atRestart⟩, directoryRight_atRestart _, fun im him => ?_⟩,
    storeLaw_reset, fun h => (by cases h), fun _ h => (by cases h)⟩
  obtain rfl : im = Image.atRestart := List.mem_singleton.mp him
  exact imageRight_atRestart

end Sys2Proof.Machine
end

section
/-! SUPPORT. What barring and rebuilding many cells in one request can do (Machine/Raster.lean): `Swept` says of the plant in
progress which engagements have ended, which spot entries have been removed, which sightings are gone and what the spot
results and the survey engine have taken; each operation on one cell advances it, and Set Feed and Write Raster Page are
runs of them. -/

namespace Sys2Proof.Machine

/-! ## Bits and flags -/

theorem laneBit_eq (l : Lane) : laneBit l = BitVec.twoPow 8 l.val := rfl

theorem and_laneBit_ne_zero (b : BitVec 8) (l : Lane) : (b &&& laneBit l != 0) = b.getLsbD l.val := by
  have hne : BitVec.twoPow 8 l.val ≠ 0#8 := by revert l; decide
  rw [laneBit_eq, BitVec.and_twoPow]
  cases b.getLsbD l.val
  · simp
  · simpa using hne

/-- A lane leaves the stepped set, and no other does. -/
theorem getLsbD_clear_laneBit (b : BitVec 8) (l k : Lane) :
    (b &&& ~~~laneBit l).getLsbD k.val = (b.getLsbD k.val && !(k == l)) := by
  have hk := k.isLt
  by_cases h : k = l
  · subst h; simp [laneBit_eq]
  · have hv : l.val ≠ k.val := fun e => h (Fin.ext e.symm)
    have hb : (k == l) = decide (k.val = l.val) := by rw [Bool.eq_iff_iff, beq_iff_eq, decide_eq_true_iff, Fin.ext_iff]
    simp [laneBit_eq, hb]

theorem clear_laneBit_of_not (b : BitVec 8) {l : Lane} (h : b.getLsbD l.val = false) : b &&& ~~~laneBit l = b := by
  refine BitVec.eq_of_getLsbD_eq (fun i hi => ?_)
  have := getLsbD_clear_laneBit b l ⟨i, hi⟩
  rw [show (⟨i, hi⟩ : Lane).val = i from rfl] at this
  rw [this]
  by_cases hil : (⟨i, hi⟩ : Lane) = l
  · rw [← hil] at h
    simp [show b.getLsbD i = false from h]
  · simp [hil]

theorem Notice.raise_raise (n : Notice) (a b : Flags12) : (n.raise a).raise b = n.raise (a ||| b) := by
  simp only [Notice.raise, Notice.judge, Notice.due, BitVec.or_assoc]

/-- SPOT_DONE and STEP_HALT, each or not. -/
def endFlags (spot step : Bool) : Flags12 := (if spot then 0x004#12 else 0) ||| (if step then 0x010#12 else 0)

theorem endFlags_or (a b a' b' : Bool) : endFlags (a || a') (b || b') = endFlags a b ||| endFlags a' b' := by
  revert a b a' b'; decide

/-! ## Spot results in a row -/

/-- The spot results after some more, given in this order: the four newest. -/
def pushAll (given rs : List SpotResult) : List SpotResult := given.foldl (fun rs r => (r :: rs).take 4) rs

theorem pushAll_append (a b rs : List SpotResult) : pushAll (a ++ b) rs = pushAll b (pushAll a rs) := List.foldl_append

theorem pushAll_eq {given : List SpotResult} (rs : List SpotResult) (h : given ≠ []) :
    pushAll given rs = (given.reverse ++ rs).take 4 := by
  induction given generalizing rs with
  | nil => exact absurd rfl h
  | cons r given ih =>
    show pushAll given ((r :: rs).take 4) = _
    by_cases hg : given = []
    · subst hg; rfl
    · have hlen : 1 ≤ given.reverse.length := by
        rw [List.length_reverse]; exact List.length_pos_iff.mpr hg
      rw [ih _ hg, List.reverse_cons, List.append_assoc, List.singleton_append, List.take_append, List.take_append,
        List.take_take]
      congr 2
      omega

/-! ## The end of one engagement, exactly -/

theorem put_put {α : Type} {n : Nat} (v : Vector α n) (i : Fin n) (a b : α) : put (put v i a) i b = put v i b :=
  table_ext (fun j => by simp only [look_put]; split <;> rfl)

theorem evaluateMarked_nil (v : View) (b : Books) : evaluateMarked v [] [] b = b := by
  unfold evaluateMarked
  generalize List.finRange 512 = ns
  induction ns with
  | nil => rfl
  | cons n ns ih => exact ih

/-- The spot result that a visit of this lane leaves when it ends from outside. -/
def visitResults (x : LaneRec) (r : Record) : List SpotResult :=
  x.terms.toList.map (fun m => SpotResult.mk m.ticket r.cell m.trim m.hold r.outcome r.stop (some r))

theorem visitResults_isEmpty (x : LaneRec) (r : Record) : (!(visitResults x r).isEmpty) = x.terms.isSome := by
  unfold visitResults; cases x.terms <;> rfl

/-- Steps 2 to 4 of R150 as one record. -/
theorem surveyEnd_eq (l : Lane) (x : LaneRec) (r : Record) (lanes : Vector LaneRec 8) (v : Survey) :
    surveyEnd l x r lanes v =
      ({ v with
          results := pushAll (visitResults x r) v.results
          stepped := v.stepped &&& ~~~laneBit l
          state := if v.state = .draining ∧ x.surveying = true ∧ lanes.toList.any LaneRec.surveying = false then .stopped
            else v.state },
        endFlags x.terms.isSome (v.stepped.getLsbD l.val)) := by
  unfold surveyEnd visitResults
  simp only [and_laneBit_ne_zero]
  by_cases hd : v.state = .draining ∧ x.surveying = true ∧ lanes.toList.any LaneRec.surveying = false
  · cases hb : v.stepped.getLsbD l.val with
    | true => cases x.terms <;> simp only [pushResult, reduceIte, if_pos hd] <;> rfl
    | false =>
      rw [clear_laneBit_of_not _ hb]
      cases x.terms <;> simp only [pushResult, reduceIte, Bool.false_eq_true, if_pos hd] <;> rfl
  · cases hb : v.stepped.getLsbD l.val with
    | true => cases x.terms <;> simp only [pushResult, reduceIte, if_neg hd] <;> rfl
    | false =>
      rw [clear_laneBit_of_not _ hb]
      cases x.terms <;> simp only [pushResult, reduceIte, Bool.false_eq_true, if_neg hd] <;> rfl

/-- A visit ended from outside, whole: the cell is stamped and freed, the lane leaves with its record, the survey engine
takes the end; the directory stays (R35). -/
theorem abandon_eq {g : Settings} {now : Time} {l : Lane} {next : LaneState} {p : Plant} {c : CellRef}
    (h : (look p.lanes l).cell = some c) :
    let x := look p.lanes l
    let r := clearedRecord now l c x
    let lanes := put p.lanes l { x.leave next with record := some r }
    ∃ due, abandon g now l next p =
      { cells := put p.cells c
          { look p.cells c with lastOutcome := some .abandoned, lastTime := now, due := due, engaged := none }
        lanes := lanes
        dir := p.dir
        survey := (surveyEnd l x r lanes p.survey).1
        notice := p.notice.raise (surveyEnd l x r lanes p.survey).2 } := by
  intro x r lanes
  have hdir : ∀ old new : Cell, visitDirectory g now c .unscored .none old new p =
      ((p.setCell c new).cells, { dir := p.dir, raised := 0 }) := fun old new => by
    simp only [visitDirectory, reduceCtorEq, false_and, if_false, if_true, processRoster, Work.finish, Work.start,
      evaluateMarked_nil, Plant.setCell_dir]
  refine ⟨dueTime g now p.dir c { look p.cells c with lastOutcome := some .abandoned, lastTime := now }, ?_⟩
  simp only [abandon, visitEnd, h, abandon_note, treatment, hdir, cellEnd, marginAfter, reduceCtorEq, if_false,
    Plant.setCell_cells, look_put_self, put_put]
  exact Plant.mk.injEq .. ▸ ⟨rfl, rfl, rfl, rfl, congrArg p.notice.raise BitVec.zero_or⟩

/-! ## What a run over cells has done so far -/

/-- Lane l's visit ends when the engagement of these cells ends. -/
def endsOn (p : Plant) (ended : CellRef → Bool) (l : Lane) : Bool :=
  (look p.lanes l).inVisit && (look p.lanes l).cell.any ended

/-- A lane freed from its cell c by a barring or a rebuild (R5, R16). -/
def freedLane (now : Time) (l : Lane) (c : CellRef) (x : LaneRec) : LaneRec :=
  if x.inVisit then { x.leave .idle with record := some (clearedRecord now l c x) } else x.leave .idle

/-- A lane after the engagement of these cells has ended. -/
def sweptLane (now : Time) (ended : CellRef → Bool) (l : Lane) (x : LaneRec) : LaneRec :=
  match x.cell with
  | some c => if ended c then freedLane now l c x else x
  | none => x

/-- The spot results that the end of a cell's engagement gives. -/
def endedOn (now : Time) (p : Plant) (c : CellRef) : List SpotResult :=
  (look p.cells c).engaged.toList.flatMap (fun l =>
    if (look p.lanes l).inVisit then visitResults (look p.lanes l) (clearedRecord now l c (look p.lanes l)) else [])

/-- The spot results that the removal of the entries waiting for a cell gives. -/
def waitedFor (now : Time) (p : Plant) (c : CellRef) : List SpotResult :=
  (p.survey.spots.filter (fun e => e.cell == c)).map (removedResult now)

/-- One more cell. -/
def plusCell (f : CellRef → Bool) (c : CellRef) : CellRef → Bool := fun k => f k || k == c

/-- One cell's record replaced. -/
def withCell (cell : CellRef → Cell) (c : CellRef) (x : Cell) : CellRef → Cell := fun k => if k = c then x else cell k

/-- The survey's settings, its cursor and its counters are as they were. -/
def Survey.Kept (v w : Survey) : Prop :=
  w.stepMode = v.stepMode ∧ w.autoResume = v.autoResume ∧ w.cursor = v.cursor ∧ w.passes = v.passes
    ∧ w.share = v.share ∧ w.ticket = v.ticket

/-- The survey engine's state after these visits have ended: a draining survey is STOPPED when no WATCH or SWEEP visit is
left (R139). -/
def drained (v : SurveyState) (ends surveying : Lane → Bool) : SurveyState :=
  if v = .draining ∧ (∃ l : Lane, ends l = true ∧ surveying l = true) ∧ (∀ l : Lane, surveying l = true → ends l = true)
  then .stopped else v

/-- One more visit end. -/
theorem drained_step (v : SurveyState) (ends surveying : Lane → Bool) (l : Lane) :
    (if drained v ends surveying = .draining ∧ surveying l = true
        ∧ (∀ k : Lane, surveying k = true → (ends k || k == l) = true) then .stopped else drained v ends surveying)
      = drained v (fun k => ends k || k == l) surveying := by
  by_cases hd : v = .draining
  · by_cases hcur : (∃ k : Lane, ends k = true ∧ surveying k = true) ∧ ∀ k : Lane, surveying k = true → ends k = true
    · have hnow : drained v ends surveying = .stopped := if_pos ⟨hd, hcur⟩
      obtain ⟨⟨k, hk, hs⟩, hall⟩ := hcur
      have hthen : drained v (fun k => ends k || k == l) surveying = .stopped :=
        if_pos ⟨hd, ⟨k, by simp [hk], hs⟩, fun j hj => by simp [hall j hj]⟩
      rw [hnow, hthen, ite_self]
    · have hnow : drained v ends surveying = v := if_neg (fun h => hcur h.2)
      rw [hnow]
      refine if_congr ⟨fun ⟨_, hs, hall⟩ => ⟨hd, ⟨l, by simp, hs⟩, hall⟩, fun ⟨_, ⟨k, hk, hsk⟩, hall⟩ => ⟨hd, ?_, hall⟩⟩ rfl rfl
      by_contra hsl
      have hkeep : ∀ j : Lane, surveying j = true → ends j = true := fun j hj => by
        have hjl : j ≠ l := fun e => hsl (e ▸ hj)
        simpa [hjl] using hall j hj
      exact hcur ⟨⟨k, hkeep k hsk, hsk⟩, hkeep⟩
  · have hnow : ∀ e : Lane → Bool, drained v e surveying = v := fun e => if_neg (fun h => hd h.1)
    rw [hnow, hnow, if_neg (fun h => hd h.1)]

/-- The reshape r of the plant p, in progress: the engagements of the cells `ended` are over, the spot entries for the cells
`dropped` and the sightings on the cells `bared` are removed, the cells are as `cell` says, and these spot results were
given. -/
structure Swept (now : Time) (p : Plant) (ended dropped bared : CellRef → Bool) (cell : CellRef → Cell)
    (given : List SpotResult) (r : Reshape) : Prop where
  cells : ∀ c, look r.plant.cells c = cell c
  lanes : ∀ l, look r.plant.lanes l = sweptLane now ended l (look p.lanes l)
  dir : r.plant.dir = { p.dir with pool := p.dir.pool.filter (fun g => !bared g.cell) }
  kept : p.survey.Kept r.plant.survey
  spots : r.plant.survey.spots = p.survey.spots.filter (fun e => !dropped e.cell)
  results : r.plant.survey.results = pushAll given p.survey.results
  stepped : ∀ l : Lane, r.plant.survey.stepped.getLsbD l.val = (p.survey.stepped.getLsbD l.val && !endsOn p ended l)
  state : r.plant.survey.state = drained p.survey.state (endsOn p ended) (fun l => (look p.lanes l).surveying)
  notice : ∀ m, r.plant.notice.raise m = p.notice.raise
    (endFlags (!given.isEmpty) (decide (∃ l : Lane, endsOn p ended l = true ∧ p.survey.stepped.getLsbD l.val = true)) ||| m)
  marked : ∀ n, n ∈ r.marked ↔ ∃ c, bared c = true ∧ p.dir.holds n c = true
  release : ∀ n, n ∈ r.release ↔ ∃ c, bared c = true ∧ p.dir.holds n c = true
    ∧ (look p.dir.slots n).state = .provisional ∧ (look p.dir.slots n).chosen = some c

theorem sweptLane_nowhere (now : Time) (l : Lane) (x : LaneRec) : sweptLane now (fun _ => false) l x = x := by
  unfold sweptLane
  split <;> simp

/-- Nothing has been done. -/
theorem Swept.start (now : Time) (p : Plant) :
    Swept now p (fun _ => false) (fun _ => false) (fun _ => false) (look p.cells) []
      { plant := p, marked := [], release := [] } where
  cells := fun _ => rfl
  lanes := fun l => (sweptLane_nowhere now l _).symm
  dir := by simp
  kept := ⟨rfl, rfl, rfl, rfl, rfl, rfl⟩
  spots := by simp
  results := rfl
  stepped := by simp [endsOn]
  state := by simp [endsOn, drained]
  notice := fun m => by simp [endsOn, endFlags]
  marked := by simp
  release := by simp

namespace Swept

variable {g : Settings} {now : Time} {p : Plant} {ended dropped bared : CellRef → Bool} {cell : CellRef → Cell}
  {given : List SpotResult} {r : Reshape}

/-- One cell's record replaced. -/
theorem setCell (h : Swept now p ended dropped bared cell given r) (c : CellRef) (x : Cell) :
    Swept now p ended dropped bared (withCell cell c x) given { r with plant := r.plant.setCell c x } where
  cells := fun k => by
    simp only [Plant.setCell_cells, look_put, withCell]
    split
    · rfl
    · exact h.cells k
  lanes := h.lanes
  dir := h.dir
  kept := h.kept
  spots := h.spots
  results := h.results
  stepped := h.stepped
  state := h.state
  notice := h.notice
  marked := h.marked
  release := h.release

/-- The sightings on one more cell removed (R5 step 4, R16 step 5). -/
theorem clearSightings (h : Swept now p ended dropped bared cell given r) {c : CellRef} (hc : bared c = false) :
    Swept now p ended dropped (plusCell bared c) cell given (r.clearSightings c) := by
  obtain ⟨-, -, hdir, hmark, -, hrel⟩ := removeOnCell_spec c (fun _ => true)
    { Work.start r.plant with marked := r.marked, release := r.release }
  have hholds : ∀ n, r.plant.dir.holds n c = p.dir.holds n c := fun n => by
    rw [Bool.eq_iff_iff, holds_iff, holds_iff]
    simp only [mem_sightings, h.dir, List.mem_filter]
    constructor
    · rintro ⟨s, ⟨⟨hs, -⟩, hn⟩, rfl⟩; exact ⟨s, ⟨hs, hn⟩, rfl⟩
    · rintro ⟨s, ⟨hs, hn⟩, rfl⟩; exact ⟨s, ⟨⟨hs, by simp [hc]⟩, hn⟩, rfl⟩
  have hslots : r.plant.dir.slots = p.dir.slots := by rw [h.dir]
  have hpool : r.plant.dir.pool.filter (fun s => !(s.cell == c && true))
      = p.dir.pool.filter (fun s => !plusCell bared c s.cell) := by
    rw [h.dir, List.filter_filter]
    exact List.filter_congr (fun s _ => by rw [Bool.and_true, plusCell, Bool.not_or, Bool.and_comm])
  refine ⟨h.cells, h.lanes, ?_, h.kept, h.spots, h.results, h.stepped, h.state, h.notice, fun n => ?_, fun n => ?_⟩
  · refine hdir.trans ?_
    show ({ r.plant.dir with pool := r.plant.dir.pool.filter (fun s => !(s.cell == c && true)) } : Dir) = _
    rw [hpool, h.dir]
  · refine (hmark n).trans ?_
    show n ∈ r.marked ∨ _ ∧ r.plant.dir.holds n c = true ↔ _
    rw [h.marked n, hholds]
    simp only [plusCell, Bool.or_eq_true, beq_iff_eq, true_and]
    constructor
    · rintro (⟨k, hk, hn⟩ | hn)
      · exact ⟨k, .inl hk, hn⟩
      · exact ⟨c, .inr rfl, hn⟩
    · rintro ⟨k, hk | rfl, hn⟩
      · exact .inl ⟨k, hk, hn⟩
      · exact .inr hn
  · refine (hrel n).trans ?_
    show n ∈ r.release ∨ _ ∧ r.plant.dir.holds n c = true ∧ (look r.plant.dir.slots n).state = _
      ∧ (look r.plant.dir.slots n).chosen = _ ↔ _
    rw [h.release n, hholds, hslots]
    simp only [plusCell, Bool.or_eq_true, beq_iff_eq, true_and]
    constructor
    · rintro (⟨k, hk, hn⟩ | hn)
      · exact ⟨k, .inl hk, hn⟩
      · exact ⟨c, .inr rfl, hn⟩
    · rintro ⟨k, hk | rfl, hn⟩
      · exact .inl ⟨k, hk, hn⟩
      · exact .inr hn

/-- The spot entries for one more cell removed (R143). -/
theorem dropSpots (h : Swept now p ended dropped bared cell given r) {c : CellRef} (hc : dropped c = false) :
    Swept now p ended (plusCell dropped c) bared cell (given ++ waitedFor now p c)
      { r with plant := Machine.dropSpots now (fun e => e.cell == c) r.plant } := by
  obtain ⟨cells, lanes, dir, survey, none, some, notice⟩ := dropSpots_spec now (fun e => e.cell == c) r.plant
  have hout : r.plant.survey.spots.filter (fun e => e.cell == c) = p.survey.spots.filter (fun e => e.cell == c) := by
    rw [h.spots, List.filter_filter]
    exact List.filter_congr (fun e _ => by
      by_cases he : e.cell = c
      · simp [he, hc]
      · simp [he])
  rw [hout] at none some notice
  have hempty : (waitedFor now p c).isEmpty = (p.survey.spots.filter (fun e => e.cell == c)).isEmpty := by
    simp [waitedFor]
  have hresults : (Machine.dropSpots now (fun e => e.cell == c) r.plant).survey.results
      = pushAll (given ++ waitedFor now p c) p.survey.results := by
    rw [pushAll_append, ← h.results]
    by_cases ho : p.survey.spots.filter (fun e => e.cell == c) = []
    · rw [none ho, waitedFor, ho]; rfl
    · rw [some ho, pushAll_eq _ (by simpa [waitedFor] using ho), waitedFor, List.map_reverse]
  refine ⟨fun k => by rw [cells]; exact h.cells k, fun l => by rw [lanes]; exact h.lanes l, by rw [dir]; exact h.dir,
    ?_, ?_, hresults, fun l => ?_, ?_, fun m => ?_, h.marked, h.release⟩
  · show p.survey.Kept (Machine.dropSpots now (fun e => e.cell == c) r.plant).survey
    rw [survey]; exact h.kept
  · show (Machine.dropSpots now (fun e => e.cell == c) r.plant).survey.spots = _
    rw [survey]
    show r.plant.survey.spots.filter _ = _
    rw [h.spots, List.filter_filter]
    exact List.filter_congr (fun e _ => by rw [plusCell, Bool.not_or, Bool.and_comm])
  · show (Machine.dropSpots now (fun e => e.cell == c) r.plant).survey.stepped.getLsbD _ = _
    rw [survey]; exact h.stepped l
  · show (Machine.dropSpots now (fun e => e.cell == c) r.plant).survey.state = _
    rw [survey]; exact h.state
  · show (Machine.dropSpots now (fun e => e.cell == c) r.plant).notice.raise m = _
    rw [notice, Notice.raise_raise, h.notice, ← BitVec.or_assoc]
    have hflag : (if p.survey.spots.filter (fun e => e.cell == c) = [] then (0 : Flags12) else Condition.spotDone.bit)
        = endFlags (!(waitedFor now p c).isEmpty) false := by
      rw [hempty]
      cases p.survey.spots.filter (fun e => e.cell == c) with
      | nil => rfl
      | cons e es => 
        rw [if_neg (List.cons_ne_nil e es)]
        exact (by decide : Condition.spotDone.bit = endFlags true false)
    have hsome : (!(given ++ waitedFor now p c).isEmpty) = (!given.isEmpty || !(waitedFor now p c).isEmpty) := by
      cases given <;> rfl
    rw [hflag, ← endFlags_or, Bool.or_false, hsome]

/-- The engagement of a cell that no lane is on. -/
theorem endNone (h : Swept now p ended dropped bared cell given r) {c : CellRef}
    (hc : ∀ l, (look p.lanes l).cell ≠ some c) : Swept now p (plusCell ended c) dropped bared cell given r := by
  have hany : ∀ l, (look p.lanes l).cell.any (plusCell ended c) = (look p.lanes l).cell.any ended := fun l => by
    have hl := hc l
    cases hx : (look p.lanes l).cell with
    | none => rfl
    | some k => simp [plusCell, show k ≠ c from fun e => hl (by rw [hx, e])]
  have hends : endsOn p (plusCell ended c) = endsOn p ended := funext fun l => by simp only [endsOn, hany]
  have hlane : ∀ l, sweptLane now (plusCell ended c) l (look p.lanes l) = sweptLane now ended l (look p.lanes l) :=
    fun l => by
      have hl := hc l
      unfold sweptLane
      split
      · next k hk => simp [plusCell, show k ≠ c from fun e => hl (by rw [hk, e])]
      · rfl
  exact ⟨h.cells, fun l => (h.lanes l).trans (hlane l).symm, h.dir, h.kept, h.spots, h.results, by rw [hends]; exact h.stepped,
    by rw [hends]; exact h.state, by rw [hends]; exact h.notice, h.marked, h.release⟩

/-- The lanes after the engagement of c, which lane l alone is on, has ended too. -/
theorem lanes_plus (h : Swept now p ended dropped bared cell given r) {c : CellRef} {l : Lane}
    (only : ∀ k, (look p.lanes k).cell = some c ↔ k = l) {y : LaneRec} (hy : y = freedLane now l c (look p.lanes l))
    (k : Lane) : look (put r.plant.lanes l y) k = sweptLane now (plusCell ended c) k (look p.lanes k) := by
  rw [look_put]
  by_cases hk : k = l
  · subst hk
    rw [if_pos rfl, hy, sweptLane, (only k).mpr rfl]
    simp [plusCell]
  · rw [if_neg hk, h.lanes k]
    have hne : (look p.lanes k).cell ≠ some c := fun e => hk ((only k).mp e)
    unfold sweptLane
    split
    · next j hj => simp [plusCell, show j ≠ c from fun e => hne (by rw [hj, e])]
    · rfl

/-- The lanes still surveying are those whose visit has not ended. -/
theorem surveying_eq (h : Swept now p ended dropped bared cell given r) (l : Lane) :
    (look r.plant.lanes l).surveying = ((look p.lanes l).surveying && !endsOn p ended l) := by
  rw [h.lanes l]
  unfold sweptLane endsOn
  cases hc : (look p.lanes l).cell with
  | none => simp
  | some c =>
    dsimp only
    cases he : ended c
    · simp [he]
    · have hidle : (freedLane now l c (look p.lanes l)).surveying = false := by
        unfold freedLane; split <;> rfl
      rw [if_pos rfl, hidle, Option.any_some, he, Bool.and_true, LaneRec.surveying]
      cases (look p.lanes l).inVisit <;> simp

theorem endsOn_plus {c : CellRef} {l : Lane} (only : ∀ k, (look p.lanes k).cell = some c ↔ k = l) (k : Lane) :
    endsOn p (plusCell ended c) k = (endsOn p ended k || (k == l && (look p.lanes k).inVisit)) := by
  unfold endsOn
  cases hx : (look p.lanes k).cell with
  | none =>
    have : k ≠ l := fun e => by have := (only k).mpr e; rw [hx] at this; cases this
    simp [this]
  | some j =>
    have hj : (j == c) = (k == l) := by
      rw [Bool.eq_iff_iff, beq_iff_eq, beq_iff_eq, ← only k, hx, Option.some.injEq]
    simp only [Option.any_some, plusCell, hj]
    cases (look p.lanes k).inVisit <;> simp

/-- The engagement of a cell that a HELD lane is on (R5, R16): the hold ends, the survey engine takes nothing. -/
theorem endHold (h : Swept now p ended dropped bared cell given r) {c : CellRef} {l : Lane}
    (only : ∀ k, (look p.lanes k).cell = some c ↔ k = l) (hc : ended c = false)
    (hvisit : (look p.lanes l).inVisit = false) :
    ∃ due, Swept now p (plusCell ended c) dropped bared (withCell cell c { cell c with engaged := none, due := due }) given
      { r with plant := holdEnd g now l .idle false r.plant } := by
  have hl : look r.plant.lanes l = look p.lanes l := by
    rw [h.lanes l, sweptLane, (only l).mpr rfl]
    simp [hc]
  have hends : endsOn p (plusCell ended c) = endsOn p ended := funext fun k => by
    rw [endsOn_plus only]
    by_cases hk : k = l
    · subst hk; simp [hvisit]
    · simp [hk]
  refine ⟨(cell c).due, ?_⟩
  rw [holdEnd_some (by rw [hl]; exact (only l).mpr rfl), hl]
  refine ⟨fun k => ?_, h.lanes_plus only (by simp [freedLane, hvisit]), h.dir, h.kept, h.spots, h.results, by rw [hends]; exact h.stepped,
    by rw [hends]; exact h.state, by rw [hends]; exact h.notice, h.marked, h.release⟩
  simp only [Plant.setCell_cells, Plant.setLane_cells, look_put, withCell, Bool.false_eq_true, if_false]
  split
  · rw [h.cells c]
  · exact h.cells k

/-- The engagement of a cell that a lane in a visit is on: the visit is ABANDONED, the survey engine takes its end. -/
theorem endVisit (h : Swept now p ended dropped bared cell given r) {c : CellRef} {l : Lane}
    (only : ∀ k, (look p.lanes k).cell = some c ↔ k = l) (hc : ended c = false)
    (hvisit : (look p.lanes l).inVisit = true) :
    ∃ due, Swept now p (plusCell ended c) dropped bared
      (withCell cell c { cell c with lastOutcome := some .abandoned, lastTime := now, due := due, engaged := none })
      (given ++ visitResults (look p.lanes l) (clearedRecord now l c (look p.lanes l)))
      { r with plant := abandon g now l .idle r.plant } := by
  have hl : look r.plant.lanes l = look p.lanes l := by
    rw [h.lanes l, sweptLane, (only l).mpr rfl]
    simp [hc]
  have hends : ∀ k, endsOn p (plusCell ended c) k = (endsOn p ended k || k == l) := fun k => by
    rw [endsOn_plus only]
    by_cases hk : k = l
    · subst hk; simp [hvisit]
    · rw [beq_false_of_ne hk, Bool.false_and]
  have hnot : endsOn p ended l = false := by simp [endsOn, (only l).mpr rfl, hc]
  obtain ⟨due, habandon⟩ := abandon_eq (g := g) (now := now) (next := .idle) (p := r.plant) (l := l) (c := c)
    (by rw [hl]; exact (only l).mpr rfl)
  rw [hl, surveyEnd_eq] at habandon
  have hlanes := h.lanes_plus only
    (y := { (look p.lanes l).leave .idle with record := some (clearedRecord now l c (look p.lanes l)) })
    (by simp [freedLane, hvisit])
  refine ⟨due, ?_⟩
  rw [habandon]
  refine ⟨fun k => ?_, hlanes, h.dir, h.kept, h.spots, ?_, fun k => ?_, ?_, fun m => ?_, h.marked, h.release⟩
  · simp only [look_put, withCell]
    split
    · rw [h.cells c]
    · exact h.cells k
  · rw [pushAll_append, ← h.results]
  · dsimp only
    rw [getLsbD_clear_laneBit, h.stepped, hends, Bool.not_or, Bool.and_assoc]
  · dsimp only
    have hany : (put r.plant.lanes l { (look p.lanes l).leave .idle with
        record := some (clearedRecord now l c (look p.lanes l)) }).toList.any LaneRec.surveying = false ↔
        ∀ k, (look p.lanes k).surveying = true → endsOn p (plusCell ended c) k = true := by
      rw [← Bool.not_eq_true, any_toList_iff, not_exists]
      refine forall_congr' (fun k => ?_)
      rw [look_put, hends]
      by_cases hk : k = l
      · subst hk; simp [LaneRec.leave, LaneRec.surveying, LaneRec.inVisit]
      · rw [if_neg hk, h.surveying_eq k]; simp [hk]
    have hplus : endsOn p (plusCell ended c) = fun k => endsOn p ended k || k == l := funext hends
    rw [hplus] at hany ⊢
    rw [h.state]
    exact (if_congr (by rw [hany]) rfl rfl).trans (drained_step _ _ _ l)
  · dsimp only
    rw [Notice.raise_raise, h.notice, ← BitVec.or_assoc, ← endFlags_or]
    congr 3
    · rw [← visitResults_isEmpty _ (clearedRecord now l c (look p.lanes l))]
      cases given <;> rfl
    · rw [h.stepped, hnot, Bool.not_false, Bool.and_true]
      by_cases hex : ∃ k : Lane, endsOn p ended k = true ∧ p.survey.stepped.getLsbD k.val = true
      · obtain ⟨k, hk, hs⟩ := hex
        rw [decide_eq_true (⟨k, hk, hs⟩ : ∃ k : Lane, endsOn p ended k = true ∧ p.survey.stepped.getLsbD k.val = true)]
        exact (decide_eq_true ⟨k, by rw [hends, hk]; rfl, hs⟩).symm
      · rw [decide_eq_false hex, Bool.false_or, Bool.eq_iff_iff, decide_eq_true_iff]
        constructor
        · exact fun hs => ⟨l, by rw [hends]; simp, hs⟩
        · rintro ⟨k, hk, hs⟩
          rw [hends, Bool.or_eq_true, beq_iff_eq] at hk
          rcases hk with hk | rfl
          · exact absurd ⟨k, hk, hs⟩ hex
          · exact hs

end Swept

end Sys2Proof.Machine
end

section
/-! SUPPORT. Barring and rebuilding one cell as one advance of `Swept`, and a run of them over many cells: what Set Feed and
Write Raster Page leave, their evaluations made. -/

namespace Sys2Proof.Machine

/-! ## The end of one cell's engagement -/

theorem endEngagement_none {g : Settings} {now : Time} {c : CellRef} {p : Plant} (h : (look p.cells c).engaged = none) :
    endEngagement g now c p = p := by
  unfold endEngagement
  rw [h]

theorem endEngagement_visit {g : Settings} {now : Time} {c : CellRef} {p : Plant} {l : Lane}
    (h : (look p.cells c).engaged = some l) (hv : (look p.lanes l).inVisit = true) :
    endEngagement g now c p = abandon g now l .idle p := by
  unfold endEngagement
  rw [h]
  exact if_pos hv

theorem endEngagement_held {g : Settings} {now : Time} {c : CellRef} {p : Plant} {l : Lane}
    (h : (look p.cells c).engaged = some l) (hv : (look p.lanes l).inVisit = false) (hh : (look p.lanes l).state = .held) :
    endEngagement g now c p = holdEnd g now l .idle false p := by
  unfold endEngagement
  rw [h]
  exact (if_neg (by rw [hv]; exact Bool.false_ne_true)).trans (if_pos hh)

theorem withCell_self (cell : CellRef → Cell) (c : CellRef) : withCell cell c (cell c) = cell := by
  funext k
  unfold withCell
  split
  · next h => rw [h]
  · rfl

theorem withCell_withCell (cell : CellRef → Cell) (c : CellRef) (x y : Cell) :
    withCell (withCell cell c x) c y = withCell cell c y := by
  funext k
  unfold withCell
  split <;> rfl

theorem withCell_same (cell : CellRef → Cell) (c : CellRef) (x : Cell) : withCell cell c x c = x := if_pos rfl

namespace Swept

variable {g : Settings} {now : Time} {p : Plant} {ended dropped bared : CellRef → Bool} {cell : CellRef → Cell}
  {given : List SpotResult} {r : Reshape}

/-- The engagement of one more cell ended (R5 step 1, R16 step 1): of the cell's record only the due time, the last outcome
and its time can have changed. -/
theorem endEngagement (h : Swept now p ended dropped bared cell given r) (he : EngagementRight p)
    (hl : ∀ l, LaneRight (look p.lanes l)) {c : CellRef} (hc : ended c = false)
    (hcell : (cell c).engaged = (look p.cells c).engaged) :
    ∃ o t due, Swept now p (plusCell ended c) dropped bared
      (withCell cell c { cell c with lastOutcome := o, lastTime := t, due := due, engaged := none })
      (given ++ endedOn now p c) { r with plant := Machine.endEngagement g now c r.plant } := by
  have hnow : (look r.plant.cells c).engaged = (look p.cells c).engaged := by rw [h.cells c, hcell]
  cases heng : (look p.cells c).engaged with
  | none =>
    have hno : ∀ l, (look p.lanes l).cell ≠ some c := fun l hlc => by
      rw [(he c l).mpr hlc] at heng; cases heng
    refine ⟨(cell c).lastOutcome, (cell c).lastTime, (cell c).due, ?_⟩
    have hsame : ({ cell c with engaged := none } : Cell) = cell c := by rw [← heng, ← hcell]
    rw [hsame, withCell_self, endEngagement_none (hnow.trans heng), endedOn, heng]
    simpa using h.endNone hno
  | some l =>
    have only : ∀ k, (look p.lanes k).cell = some c ↔ k = l := fun k => by
      rw [← he c k, heng, Option.some.injEq, eq_comm]
    have hlane : look r.plant.lanes l = look p.lanes l := by
      rw [h.lanes l, sweptLane, (only l).mpr rfl]
      simp [hc]
    rw [endedOn, heng]
    cases hv : (look p.lanes l).inVisit with
    | true =>
      rw [endEngagement_visit (hnow.trans heng) (by rw [hlane, hv])]
      obtain ⟨due, hs⟩ := h.endVisit (g := g) only hc hv
      exact ⟨_, _, due, by simpa [hv] using hs⟩
    | false =>
      have hheld : (look p.lanes l).state = .held := by
        simpa [hv] using (hl l).engaged (by rw [(only l).mpr rfl]; rfl)
      rw [endEngagement_held (hnow.trans heng) (by rw [hlane, hv]) (by rw [hlane, hheld])]
      obtain ⟨due, hs⟩ := h.endHold (g := g) only hc hv
      exact ⟨(cell c).lastOutcome, (cell c).lastTime, due, by simpa [hv] using hs⟩

end Swept

/-- A cell's record after its barring (R5; a HELD cell records ABANDONED too, log 15). -/
def Cell.afterBarring (now : Time) (x : Cell) : Cell :=
  { x with state := .barred, q := none, fails := 0, due := none, engaged := none
           lastOutcome := if x.engaged.isSome then some .abandoned else x.lastOutcome
           lastTime := if x.engaged.isSome then now else x.lastTime }

namespace Swept

variable {g : Settings} {now : Time} {p : Plant} {ended dropped bared : CellRef → Bool} {cell : CellRef → Cell}
  {given : List SpotResult} {r : Reshape}

/-- Steps 1 and 2 of R5. -/
theorem disengage (h : Swept now p ended dropped bared cell given r) (he : EngagementRight p)
    (hl : ∀ l, LaneRight (look p.lanes l)) {c : CellRef} (hc : ended c = false) (hcell : cell c = look p.cells c) :
    Swept now p (plusCell ended c) dropped bared (withCell cell c ((look p.cells c).afterBarring now))
      (given ++ endedOn now p c)
      { r with
        plant := (Machine.disengage g now c r.plant).setCell c (look (Machine.disengage g now c r.plant).cells c).barred } := by
  have hnow : look r.plant.cells c = look p.cells c := by rw [h.cells c, hcell]
  cases heng : (look p.cells c).engaged with
  | none =>
    have hstay : Machine.disengage g now c r.plant = r.plant := if_pos (by rw [hnow, heng])
    have hno : ∀ l, (look p.lanes l).cell ≠ some c := fun l hlc => by
      rw [(he c l).mpr hlc] at heng; cases heng
    have hx : (look p.cells c).afterBarring now = (look r.plant.cells c).barred := by
      simp only [Cell.afterBarring, Cell.barred, heng, hnow, Option.isSome_none, Bool.false_eq_true, if_false]
    rw [hstay, hx, endedOn, heng]
    simpa using (h.endNone hno).setCell c _
  | some l =>
    have hgo : Machine.disengage g now c r.plant = (Machine.endEngagement g now c r.plant).setCell c
        { look (Machine.endEngagement g now c r.plant).cells c with lastOutcome := some .abandoned, lastTime := now } :=
      if_neg (by rw [hnow, heng]; exact Option.some_ne_none l)
    obtain ⟨o, t, due, hs⟩ := h.endEngagement (g := g) he hl hc (by rw [hcell])
    have hnew := hs.cells c
    dsimp only at hnew
    rw [withCell_same, hcell] at hnew
    have hx : (look (Machine.disengage g now c r.plant).cells c).barred = (look p.cells c).afterBarring now := by
      rw [hgo, Plant.setCell_cells, look_put_self, hnew]
      simp only [Cell.afterBarring, Cell.barred, heng, Option.isSome_some, if_true]
    rw [hx, hgo]
    have hthen := (hs.setCell c { look (Machine.endEngagement g now c r.plant).cells c with
      lastOutcome := some .abandoned, lastTime := now }).setCell c ((look p.cells c).afterBarring now)
    rwa [withCell_withCell, withCell_withCell] at hthen

/-- One more cell barred (R5). -/
theorem bar (h : Swept now p ended dropped bared cell given r) (he : EngagementRight p)
    (hl : ∀ l, LaneRight (look p.lanes l)) {c : CellRef} (hc : ended c = false) (hd : dropped c = false)
    (hb : bared c = false) (hcell : cell c = look p.cells c) :
    Swept now p (plusCell ended c) (plusCell dropped c) (plusCell bared c)
      (withCell cell c ((look p.cells c).afterBarring now)) (given ++ (endedOn now p c ++ waitedFor now p c))
      (barCell g now c r) := by
  rw [← List.append_assoc]
  exact ((h.disengage (g := g) he hl hc hcell).dropSpots hd).clearSightings hb

/-- One more cell rebuilt (R16); the spot entries for it stay when it has become UNSEEN (R143). -/
theorem rebuild (h : Swept now p ended dropped bared cell given r) (he : EngagementRight p)
    (hl : ∀ l, LaneRight (look p.lanes l)) {c : CellRef} (d : CellDef) (hc : ended c = false) (hd : dropped c = false)
    (hb : bared c = false) (hcell : cell c = look p.cells c) :
    let x := rebuiltCell (look g.feeds (feedOf c)) d
    Swept now p (plusCell ended c) (if x.state = .unseen then dropped else plusCell dropped c) (plusCell bared c)
      (withCell cell c x) (given ++ (endedOn now p c ++ if x.state = .unseen then [] else waitedFor now p c))
      (rebuildCell g now d c r) := by
  intro x
  obtain ⟨o, t, due, hs⟩ := h.endEngagement (g := g) he hl hc (by rw [hcell])
  have hset := hs.setCell c x
  rw [withCell_withCell] at hset
  unfold rebuildCell
  by_cases hx : x.state = .unseen
  · rw [if_pos hx, if_pos hx, List.append_nil]
    have hgo := hset.clearSightings hb
    simpa only [x, if_pos hx] using hgo
  · rw [if_neg hx, if_neg hx, ← List.append_assoc]
    have hgo := (hset.dropSpots hd).clearSightings hb
    simpa only [x, if_neg hx] using hgo

end Swept

end Sys2Proof.Machine
end

section
/-! SUPPORT. A run of barrings or rebuildings over many cells, and what it leaves with its evaluations made. -/

namespace Sys2Proof.Machine

/-! ## Runs over many cells -/

/-- The test, on the cells of this list. -/
def among (done : List CellRef) (hit : CellRef → Bool) : CellRef → Bool := fun k => done.contains k && hit k

theorem among_eq_true {done : List CellRef} {hit : CellRef → Bool} {c : CellRef} :
    among done hit c = true ↔ c ∈ done ∧ hit c = true := by simp [among]

theorem among_not_mem {done : List CellRef} (hit : CellRef → Bool) {c : CellRef} (h : c ∉ done) : among done hit c = false := by
  simp [among, h]

theorem among_snoc_hit (done : List CellRef) {hit : CellRef → Bool} {c : CellRef} (h : hit c = true) :
    among (done ++ [c]) hit = plusCell (among done hit) c := by
  funext k
  by_cases hk : k = c
  · subst hk; simp [among, plusCell, h]
  · simp [among, plusCell, hk]

theorem among_snoc_miss (done : List CellRef) {hit : CellRef → Bool} {c : CellRef} (h : hit c = false) :
    among (done ++ [c]) hit = among done hit := by
  funext k
  by_cases hk : k = c
  · subst hk; simp [among, h]
  · simp [among, hk]

/-- The cells of a plant, those of this list replaced. -/
def cellsOver (p : Plant) (new : CellRef → Cell) (done : List CellRef) : CellRef → Cell :=
  fun c => if c ∈ done then new c else look p.cells c

theorem cellsOver_snoc (p : Plant) (new : CellRef → Cell) (done : List CellRef) (c : CellRef) :
    cellsOver p new (done ++ [c]) = withCell (cellsOver p new done) c (new c) := by
  funext k
  unfold cellsOver withCell
  by_cases hk : k = c
  · subst hk; simp
  · simp [hk]

/-- The spot results that barring or rebuilding a cell gives; `drop` says whether the entries for it are removed. -/
def resultsOn (now : Time) (p : Plant) (drop : CellRef → Bool) (c : CellRef) : List SpotResult :=
  endedOn now p c ++ if drop c then waitedFor now p c else []

/-- The cells of this list have been taken in turn: those that `hit` names lost their engagement and their sightings, those
that `drop` names their spot entries, and each has become what `new` says. -/
def SweptBy (now : Time) (p : Plant) (hit drop : CellRef → Bool) (new : CellRef → Cell) (done : List CellRef)
    (r : Reshape) : Prop :=
  Swept now p (among done hit) (among done drop) (among done hit) (cellsOver p new done)
    ((done.filter hit).flatMap (resultsOn now p drop)) r

theorem SweptBy.start (now : Time) (p : Plant) (hit drop : CellRef → Bool) (new : CellRef → Cell) :
    SweptBy now p hit drop new [] { plant := p, marked := [], release := [] } := by
  have hcells : cellsOver p new [] = look p.cells := funext fun c => if_neg List.not_mem_nil
  unfold SweptBy
  rw [hcells]
  exact Swept.start now p

/-- One cell after another. -/
theorem SweptBy.foldl {now : Time} {p : Plant} {hit drop : CellRef → Bool} {new : CellRef → Cell}
    {step : Reshape → CellRef → Reshape}
    (hstep : ∀ r c done, SweptBy now p hit drop new done r → c ∉ done → SweptBy now p hit drop new (done ++ [c]) (step r c))
    {cs done : List CellRef} {r : Reshape} (h : SweptBy now p hit drop new done r) (hn : (done ++ cs).Nodup) :
    SweptBy now p hit drop new (done ++ cs) (cs.foldl step r) := by
  induction cs generalizing done r with
  | nil => rwa [List.append_nil]
  | cons c cs ih =>
    have hout : c ∉ done := fun hc => (List.disjoint_of_nodup_append hn) hc List.mem_cons_self
    have hsnoc : done ++ c :: cs = (done ++ [c]) ++ cs := by simp
    rw [hsnoc] at hn ⊢
    exact ih (hstep r c done h hout) hn

section
variable {g : Settings} {now : Time} {p : Plant} {hit drop : CellRef → Bool} {new : CellRef → Cell} {done : List CellRef}
  {r : Reshape} {c : CellRef}

theorem filter_snoc_hit (f : CellRef → List SpotResult) (h : hit c = true) :
    ((done ++ [c]).filter hit).flatMap f = (done.filter hit).flatMap f ++ f c := by
  simp [List.filter_append, h]

theorem filter_snoc_miss (h : hit c = false) : (done ++ [c]).filter hit = done.filter hit := by
  simp [List.filter_append, h]

/-- A cell that keeps its engagement gets another record. -/
theorem SweptBy.set (h : SweptBy now p hit drop new done r) (hh : hit c = false) (hd : drop c = false) :
    SweptBy now p hit drop new (done ++ [c]) { r with plant := r.plant.setCell c (new c) } := by
  unfold SweptBy
  rw [among_snoc_miss done hh, among_snoc_miss done hd, filter_snoc_miss hh, cellsOver_snoc]
  exact Swept.setCell h c (new c)

/-- A cell that stays. -/
theorem SweptBy.skip (h : SweptBy now p hit drop new done r) (hc : c ∉ done) (hh : hit c = false) (hd : drop c = false)
    (hnew : new c = look p.cells c) : SweptBy now p hit drop new (done ++ [c]) r := by
  have hsame : new c = cellsOver p new done c := by rw [hnew]; exact (if_neg hc).symm
  unfold SweptBy
  rw [among_snoc_miss done hh, among_snoc_miss done hd, filter_snoc_miss hh, cellsOver_snoc, hsame, withCell_self]
  exact h

theorem SweptBy.cell_eq (h : SweptBy now p hit drop new done r) (hc : c ∉ done) : look r.plant.cells c = look p.cells c :=
  (Swept.cells h c).trans (if_neg hc)

/-- A cell that is barred. -/
theorem SweptBy.bar (h : SweptBy now p hit drop new done r) (he : EngagementRight p) (hl : ∀ l, LaneRight (look p.lanes l))
    (hc : c ∉ done) (hh : hit c = true) (hd : drop c = true) (hnew : new c = (look p.cells c).afterBarring now) :
    SweptBy now p hit drop new (done ++ [c]) (barCell g now c r) := by
  unfold SweptBy
  rw [among_snoc_hit done hh, among_snoc_hit done hd, filter_snoc_hit _ hh, cellsOver_snoc, resultsOn, if_pos hd, hnew]
  exact Swept.bar h he hl (among_not_mem hit hc) (among_not_mem drop hc) (among_not_mem hit hc) (if_neg hc)

/-- A cell that is rebuilt. -/
theorem SweptBy.rebuild (h : SweptBy now p hit drop new done r) (he : EngagementRight p)
    (hl : ∀ l, LaneRight (look p.lanes l)) (hc : c ∉ done) (hh : hit c = true) {d : CellDef}
    (hnew : new c = rebuiltCell (look g.feeds (feedOf c)) d) (hd : drop c = ((new c).state != .unseen)) :
    SweptBy now p hit drop new (done ++ [c]) (rebuildCell g now d c r) := by
  have hgo := Swept.rebuild (g := g) h he hl d (among_not_mem hit hc) (among_not_mem drop hc) (among_not_mem hit hc) (if_neg hc)
  dsimp only at hgo
  rw [← hnew] at hgo
  unfold SweptBy
  rw [among_snoc_hit done hh, filter_snoc_hit _ hh, cellsOver_snoc, resultsOn]
  by_cases hs : (new c).state = .unseen
  · have hdrop : drop c = false := by rw [hd, hs]; rfl
    rw [if_pos hs, if_pos hs] at hgo
    rw [among_snoc_miss done hdrop, hdrop]
    simpa only [Bool.false_eq_true, if_false] using hgo
  · have hdrop : drop c = true := by rw [hd]; exact bne_iff_ne.mpr hs
    rw [if_neg hs, if_neg hs] at hgo
    rw [among_snoc_hit done hdrop, if_pos hdrop]
    exact hgo

end

/-! ## The feed's cells re-judged, the page's cells rewritten -/

/-- Set Feed bars the cell: it was admitted and is no longer (R4). -/
def feedBars (p : Plant) (before after : FeedRec) (c : CellRef) : Bool :=
  before.admits (look p.cells c).defn && !after.admits (look p.cells c).defn

/-- What Set Feed makes of a cell of the feed (R4). -/
def rejudged (now : Time) (before after : FeedRec) (p : Plant) (c : CellRef) : Cell :=
  let x := look p.cells c
  if feedBars p before after c then x.afterBarring now
  else if x.state = .barred ∧ after.admits x.defn = true then { x with state := .unseen }
  else x

theorem SweptBy.rejudge {g : Settings} {now : Time} {before after : FeedRec} {p : Plant} {done : List CellRef} {r : Reshape}
    {c : CellRef} (he : EngagementRight p) (hl : ∀ l, LaneRight (look p.lanes l)) (hc : c ∉ done)
    (h : SweptBy now p (feedBars p before after) (feedBars p before after) (rejudged now before after p) done r) :
    SweptBy now p (feedBars p before after) (feedBars p before after) (rejudged now before after p) (done ++ [c])
      (rejudgeCell g now before after r c) := by
  unfold rejudgeCell
  rw [h.cell_eq hc]
  dsimp only
  by_cases hb : feedBars p before after c = true
  · have hb' : before.admits (look p.cells c).defn = true ∧ after.admits (look p.cells c).defn = false := by
      simpa [feedBars] using hb
    rw [if_pos hb']
    exact h.bar he hl hc hb hb (if_pos hb)
  · have hb' : ¬ (before.admits (look p.cells c).defn = true ∧ after.admits (look p.cells c).defn = false) := by
      simpa [feedBars] using hb
    have hmiss : feedBars p before after c = false := by simpa using hb
    rw [if_neg hb']
    split
    · next ha =>
      have hnew : rejudged now before after p c = { look p.cells c with state := .unseen } := (if_neg hb).trans (if_pos ha)
      rw [← hnew]
      exact h.set hmiss hmiss
    · next ha => exact h.skip hc hmiss hmiss ((if_neg hb).trans (if_neg ha))

/-- Set Feed on the cells of a feed. -/
theorem changeFeed_swept (g : Settings) (now : Time) (before after : FeedRec) (f : Feed) {p : Plant}
    (he : EngagementRight p) (hl : ∀ l, LaneRight (look p.lanes l)) :
    ∃ r, changeFeed g now before after f p = r.finish g now
      ∧ SweptBy now p (feedBars p before after) (feedBars p before after) (rejudged now before after p) (feedCells f) r :=
  ⟨_, rfl, SweptBy.foldl (fun _ _ _ h hc => h.rejudge he hl hc) (.start now p _ _ _) (feedCells_nodup f)⟩

/-- A page write changes the cell's definition (R15). -/
def pageChanges (p : Plant) (raster : CellRef → CellDef) (c : CellRef) : Bool := (look p.cells c).defn != raster c

/-- What a page write makes of a cell (R15, R16). -/
def rewritten (g : Settings) (raster : CellRef → CellDef) (p : Plant) (c : CellRef) : Cell :=
  if pageChanges p raster c then rebuiltCell (look g.feeds (feedOf c)) (raster c) else look p.cells c

/-- A page write removes the spot entries for the cell: it has become VACANT or BARRED (R143). -/
def pageDrops (g : Settings) (raster : CellRef → CellDef) (p : Plant) (c : CellRef) : Bool :=
  pageChanges p raster c && (rewritten g raster p c).state != .unseen

theorem SweptBy.write {g : Settings} {now : Time} {raster : CellRef → CellDef} {p : Plant} {done : List CellRef}
    {r : Reshape} {c : CellRef} (he : EngagementRight p) (hl : ∀ l, LaneRight (look p.lanes l)) (hc : c ∉ done)
    (h : SweptBy now p (pageChanges p raster) (pageDrops g raster p) (rewritten g raster p) done r) :
    SweptBy now p (pageChanges p raster) (pageDrops g raster p) (rewritten g raster p) (done ++ [c])
      (writeCell g now r (c, raster c)) := by
  unfold writeCell
  dsimp only
  rw [h.cell_eq hc]
  by_cases hd : (look p.cells c).defn = raster c
  · have hmiss : pageChanges p raster c = false := by simp [pageChanges, hd]
    have hkeep : pageDrops g raster p c = false := by rw [pageDrops, hmiss, Bool.false_and]
    rw [if_pos hd]
    exact h.skip hc hmiss hkeep (if_neg (by rw [hmiss]; exact Bool.false_ne_true))
  · have hhit : pageChanges p raster c = true := by simp [pageChanges, hd]
    rw [if_neg hd]
    exact h.rebuild he hl hc hhit (if_pos hhit) (by rw [pageDrops, hhit, Bool.true_and])

/-- Write Raster Page on the cells of a page. -/
theorem writePage_swept (g : Settings) (now : Time) {page : List (CellRef × CellDef)} {p : Plant}
    (hn : (page.map Prod.fst).Nodup) (he : EngagementRight p) (hl : ∀ l, LaneRight (look p.lanes l)) :
    let raster := rasterOver p.cells page
    ∃ r, writePage g now page p = r.finish g now
      ∧ SweptBy now p (pageChanges p raster) (pageDrops g raster p) (rewritten g raster p) (page.map Prod.fst) r := by
  intro raster
  have hpage : page = (page.map Prod.fst).map (fun c => (c, raster c)) := by
    rw [List.map_map]
    refine (List.map_id page).symm.trans (List.map_congr_left (fun e he => ?_))
    exact Prod.ext rfl (rasterOver_mem hn he).symm
  refine ⟨page.foldl (writeCell g now) { plant := p, marked := [], release := [] }, rfl, ?_⟩
  conv => arg 7; rw [hpage, List.foldl_map]
  exact SweptBy.foldl (fun _ _ _ h hc => h.write he hl hc) (.start now p _ _ _) hn

end Sys2Proof.Machine
end

section
/-! SUPPORT. The laws of the survey under barring, rebuilding, clearing and restarts; the statement that every step keeps
them. -/

namespace Sys2Proof.Machine

/-! ## Lanes freed -/

theorem laneRight_freed (now : Time) (l : Lane) (c : CellRef) (x : LaneRec) : LaneRight (freedLane now l c x) := by
  unfold freedLane
  split
  · exact laneRight_leave x (next := .idle) rfl
  · exact laneRight_leave x rfl

theorem freedLane_rest (now : Time) (l : Lane) (c : CellRef) (x : LaneRec) :
    (freedLane now l c x).state = .idle ∧ (freedLane now l c x).cell = none
      ∧ (freedLane now l c x).collector = Collector.idle := by
  unfold freedLane
  split <;> exact ⟨rfl, rfl, rfl⟩

/-- A lane is as it was unless the engagement of its cell has ended. -/
theorem sweptLane_of_not {now : Time} {ended : CellRef → Bool} {x : LaneRec} (l : Lane)
    (h : ∀ c ∈ x.cell, ended c = false) : sweptLane now ended l x = x := by
  unfold sweptLane
  split
  · next c hc => rw [if_neg (by rw [h c hc]; exact Bool.false_ne_true)]
  · rfl

theorem sweptLane_of_ended {now : Time} {ended : CellRef → Bool} {x : LaneRec} (l : Lane) {c : CellRef}
    (hc : x.cell = some c) (h : ended c = true) : sweptLane now ended l x = freedLane now l c x := by
  simp only [sweptLane, hc, h, if_true]

/-- What the end of these engagements makes of a lane: nothing, or a lane at rest. -/
theorem sweptLane_cases (now : Time) (ended : CellRef → Bool) (l : Lane) (x : LaneRec) :
    sweptLane now ended l x = x ∧ (∀ c ∈ x.cell, ended c = false)
      ∨ ∃ c, x.cell = some c ∧ ended c = true ∧ sweptLane now ended l x = freedLane now l c x := by
  cases hx : x.cell with
  | none => exact .inl ⟨sweptLane_of_not l (by simp [hx]), fun c hc => (by cases hc)⟩
  | some c =>
    cases he : ended c with
    | true => exact .inr ⟨c, rfl, he, sweptLane_of_ended l hx he⟩
    | false =>
      have hno : ∀ k ∈ some c, ended k = false := fun k hk => by rw [← Option.some.inj hk]; exact he
      exact .inl ⟨sweptLane_of_not l (hx ▸ hno), hno⟩

/-! ## Cells judged -/

theorem cellRight_rebuilt (r : FeedRec) (d : CellDef) : CellRight r (rebuiltCell r d) := by
  by_cases hf : d.freq = 0
  · simp [CellRight, rebuiltCell, Cell.atRestart, FeedRec.judge, hf, CellState.scored, CellState.rankable]
  · cases ha : r.admits d <;>
      simp [CellRight, rebuiltCell, Cell.atRestart, FeedRec.judge, hf, ha, CellState.scored, CellState.rankable]

theorem cellRight_afterBarring {r : FeedRec} {x : Cell} (now : Time) (hf : x.defn.freq ≠ 0) (ha : r.admits x.defn = false) :
    CellRight r (x.afterBarring now) := by
  simp [CellRight, Cell.afterBarring, hf, ha, CellState.scored, CellState.rankable]

/-- A BARRED cell that its feed's new record admits. -/
theorem cellRight_unbarred {r r' : FeedRec} {x : Cell} (h : CellRight r x) (hs : x.state = .barred)
    (ha : r'.admits x.defn = true) : CellRight r' { x with state := .unseen } := by
  have hq : x.q = none := Option.not_isSome_iff_eq_none.mp (by rw [h.q, hs]; decide)
  have hdue : x.due = none := by simpa [hs, CellState.rankable] using h.due
  exact cellRight_of_open ha rfl (by rw [hq]; rfl) h.fails (by rw [hdue]; exact fun e => (by cases e))

/-- A cell that its feed's new record leaves alone. -/
theorem cellRight_kept {r r' : FeedRec} {x : Cell} (h : CellRight r x)
    (hb : ¬ (r.admits x.defn = true ∧ r'.admits x.defn = false)) (hu : ¬ (x.state = .barred ∧ r'.admits x.defn = true)) :
    CellRight r' x := by
  refine ⟨h.vacant, ⟨fun hs => ?_, fun ⟨hf, ha⟩ => ?_⟩, h.q, h.fails, h.due, h.engaged⟩
  · exact ⟨(h.barred.mp hs).1, by simpa using fun ha => hu ⟨hs, ha⟩⟩
  · exact h.barred.mpr ⟨hf, by simpa using fun hbefore => hb ⟨hbefore, ha⟩⟩

/-! ## The laws after a run over many cells -/

/-- The laws hold after a run, under other settings too, when each cell fits its feed's record, is no longer engaged if its
engagement ended, and is open while a spot entry waits for it. -/
theorem Swept.surveyRight {g g' g'' : Settings} {now : Time} {p : Plant} {ended dropped bared : CellRef → Bool}
    {cell : CellRef → Cell} {given : List SpotResult} {r : Reshape}
    (h : Swept now p ended dropped bared cell given r) (hp : SurveyRight g p)
    (hcell : ∀ c, CellRight (look g'.feeds (feedOf c)) (cell c))
    (heng : ∀ c, (cell c).engaged = if ended c then none else (look p.cells c).engaged)
    (hspots : ∀ e ∈ p.survey.spots, dropped e.cell = false → (cell e.cell).state.open = true) :
    SurveyRight g' (r.finish g'' now) := by
  have hlanes : ∀ l, look (r.finish g'' now).lanes l = sweptLane now ended l (look p.lanes l) := fun l => by
    rw [finish_lanes]; exact h.lanes l
  have hcells : ∀ c, look (r.finish g'' now).cells c = cell c := fun c => by rw [finish_cells]; exact h.cells c
  refine ⟨fun c => ?_, fun l => ?_, fun c l => ?_, fun e he => ?_, ?_, fun l => ?_⟩
  · rw [hcells]; exact hcell c
  · rw [hlanes]
    rcases sweptLane_cases now ended l (look p.lanes l) with ⟨hk, -⟩ | ⟨c, -, -, hk⟩ <;> rw [hk]
    · exact hp.lanes l
    · exact laneRight_freed now l c _
  · rw [hcells, hlanes, heng]
    have hold := hp.engagement c l
    rcases sweptLane_cases now ended l (look p.lanes l) with ⟨hk, hnot⟩ | ⟨k, hkc, hke, hk⟩ <;> rw [hk]
    · split
      · next hc =>
        exact ⟨fun e => (by cases e), fun e => by rw [hnot c e] at hc; cases hc⟩
      · exact hold
    · rw [(freedLane_rest now l k _).2.1]
      refine ⟨fun e => ?_, fun e => (by cases e)⟩
      split at e
      · cases e
      · next hc =>
        rw [hold, hkc] at e
        exact absurd hke (by rw [Option.some.inj e]; exact hc)
  · rw [finish_survey, h.spots, List.mem_filter] at he
    rw [hcells]
    exact hspots e he.1 (by simpa using he.2)
  · refine (heldLanes_mono (fun l hl => ?_)).trans hp.held
    rw [hlanes] at hl
    rcases sweptLane_cases now ended l (look p.lanes l) with ⟨hk, -⟩ | ⟨c, -, -, hk⟩ <;> rw [hk] at hl
    · exact hl
    · rw [(freedLane_rest now l c _).1] at hl; cases hl
  · rw [hlanes]
    rcases sweptLane_cases now ended l (look p.lanes l) with ⟨hk, -⟩ | ⟨c, -, -, hk⟩ <;> rw [hk]
    · exact hp.collectors l
    · rw [(freedLane_rest now l c _).2.2]; exact collectorRight_idle

/-! ## Set Feed -/

theorem rejudged_engaged {now : Time} {before after : FeedRec} {p : Plant} (c : CellRef) :
    (rejudged now before after p c).engaged = if feedBars p before after c then none else (look p.cells c).engaged := by
  unfold rejudged
  dsimp only
  split
  · rfl
  · split <;> rfl

theorem rejudged_right {now : Time} {before after : FeedRec} {p : Plant} {c : CellRef} (h : CellRight before (look p.cells c)) :
    CellRight after (rejudged now before after p c) := by
  unfold rejudged
  dsimp only
  split
  · next hb =>
    have hb' : before.admits (look p.cells c).defn = true ∧ after.admits (look p.cells c).defn = false := by
      simpa [feedBars] using hb
    exact cellRight_afterBarring now (FeedRec.admits_freq hb'.1) hb'.2
  · next hb =>
    split
    · next hu => exact cellRight_unbarred h hu.1 hu.2
    · next hu => exact cellRight_kept h (by simpa [feedBars] using hb) hu

theorem rejudged_open {now : Time} {before after : FeedRec} {p : Plant} {c : CellRef}
    (h : (look p.cells c).state.open = true) (hb : feedBars p before after c = false) :
    (rejudged now before after p c).state.open = true := by
  unfold rejudged
  dsimp only
  rw [if_neg (by rw [hb]; exact Bool.false_ne_true)]
  split
  · rfl
  · exact h

theorem changeFeed_surveyRight {g : Settings} (now : Time) (f : Feed) (r : FeedRec) {p : Plant} (hp : SurveyRight g p) :
    SurveyRight (g.setFeed f r) (changeFeed (g.setFeed f r) now (look g.feeds f) r f p) := by
  obtain ⟨u, hu, hs⟩ := changeFeed_swept (g.setFeed f r) now (look g.feeds f) r f hp.engagement hp.lanes
  rw [hu]
  refine Swept.surveyRight hs hp (fun c => ?_) (fun c => ?_) (fun e he hd => ?_)
  · unfold cellsOver
    simp only [mem_feedCells, Settings.setFeed, look_put]
    split
    · next hc => exact rejudged_right (hc ▸ hp.cells c)
    · exact hp.cells c
  · unfold cellsOver among
    by_cases hc : c ∈ feedCells f
    · rw [if_pos hc, rejudged_engaged, List.contains_iff_mem.mpr hc, Bool.true_and]
    · rw [if_neg hc]; simp [hc]
  · unfold cellsOver
    split
    · next hc =>
      refine rejudged_open (hp.spots he) ?_
      rwa [among, List.contains_iff_mem.mpr hc, Bool.true_and] at hd
    · exact hp.spots he

/-! ## Write Raster Page -/

theorem writePage_surveyRight {g : Settings} (now : Time) {page : List (CellRef × CellDef)} {p : Plant}
    (hn : (page.map Prod.fst).Nodup) (hp : SurveyRight g p) : SurveyRight g (writePage g now page p) := by
  obtain ⟨u, hu, hs⟩ := writePage_swept g now hn hp.engagement hp.lanes
  rw [hu]
  generalize rasterOver p.cells page = raster at hs
  generalize page.map Prod.fst = keys at hs
  refine Swept.surveyRight hs hp (fun c => ?_) (fun c => ?_) (fun e he hd => ?_)
  · unfold cellsOver rewritten
    split
    · split
      · exact cellRight_rebuilt _ _
      · exact hp.cells c
    · exact hp.cells c
  · unfold cellsOver among rewritten
    by_cases hc : c ∈ keys
    · rw [if_pos hc, List.contains_iff_mem.mpr hc, Bool.true_and]
      split <;> rfl
    · rw [if_neg hc]; simp [hc]
  · unfold cellsOver
    split
    · next hc =>
      rw [among, List.contains_iff_mem.mpr hc, Bool.true_and, pageDrops] at hd
      cases hch : pageChanges p raster e.cell with
      | true =>
        have hunseen : (rewritten g raster p e.cell).state = .unseen := by simpa [hch] using hd
        rw [hunseen]; rfl
      | false =>
        have hsame : rewritten g raster p e.cell = look p.cells e.cell := if_neg (by rw [hch]; exact Bool.false_ne_true)
        rw [hsame]; exact hp.spots he
    · exact hp.spots he

/-! ## Clear Survey -/

/-- A lane whose record and collector are right. -/
def LaneRec.Sound (x : LaneRec) : Prop := LaneRight x ∧ CollectorRight x.collector

theorem sound_leave (x : LaneRec) : (x.leave .idle).Sound := ⟨laneRight_leave x rfl, collectorRight_idle⟩

/-- One lane cleared is sound and engaged on no cell; the others are as they were. -/
theorem clearLane_frees (now : Time) {p : Plant} (l : Lane) (h : ∀ k, (look p.lanes k).Sound) :
    (∀ k, (look (clearLane now p l).lanes k).Sound) ∧ (look (clearLane now p l).lanes l).cell = none
      ∧ ∀ k, k ≠ l → look (clearLane now p l).lanes k = look p.lanes k := by
  have hothers : ∀ k, k ≠ l → look (clearLane now p l).lanes k = look p.lanes k := fun k hk => by
    rw [clearLane_lane, if_neg hk]
  have hown : (look (clearLane now p l).lanes l).Sound ∧ (look (clearLane now p l).lanes l).cell = none := by
    rw [clearLane_lane, if_pos rfl]
    cases hv : (look p.lanes l).inVisit with
    | true => cases (look p.lanes l).cell with
      | some c => exact ⟨⟨laneRight_leave (look p.lanes l) (next := .idle) rfl, collectorRight_idle⟩, rfl⟩
      | none => exact ⟨sound_leave _, rfl⟩
    | false =>
      dsimp only
      split
      · exact ⟨sound_leave _, rfl⟩
      · next hh =>
        have hcell := (h l).1.1
        rw [hv, laneState_beq, decide_eq_false hh] at hcell
        exact ⟨h l, by simpa using hcell⟩
  refine ⟨fun k => ?_, hown.2, hothers⟩
  by_cases hk : k = l
  · exact hk ▸ hown.1
  · rw [hothers k hk]; exact h k

/-- All lanes of a list cleared. -/
theorem foldl_clearLane_frees (now : Time) (ls : List Lane) {p : Plant} (h : ∀ k, (look p.lanes k).Sound) :
    (∀ k, (look (ls.foldl (clearLane now) p).lanes k).Sound)
      ∧ ∀ k, k ∈ ls ∨ (look p.lanes k).cell = none → (look (ls.foldl (clearLane now) p).lanes k).cell = none := by
  induction ls generalizing p with
  | nil => exact ⟨h, fun k hk => hk.resolve_left List.not_mem_nil⟩
  | cons l ls ih =>
    obtain ⟨hsound, hfree, hothers⟩ := clearLane_frees now l h
    obtain ⟨hsound', hfree'⟩ := ih hsound
    refine ⟨hsound', fun k hk => hfree' k ?_⟩
    by_cases hkl : k = l
    · exact .inr (hkl ▸ hfree)
    · rcases hk with hk | hk
      · exact .inl ((List.mem_cons.mp hk).resolve_left hkl)
      · exact .inr (by rw [hothers k hkl]; exact hk)

theorem cellRight_cleared {r : FeedRec} {x : Cell} (h : CellRight r x) :
    CellRight r x.cleared ∧ x.cleared.engaged = none := by
  unfold Cell.cleared
  split
  · next hs =>
    refine ⟨h, ?_⟩
    have hclosed : x.state.open = false := by rcases hs with hs | hs <;> rw [hs] <;> rfl
    simpa [hclosed] using h.engaged
  · next hs =>
    have hopen : x.state.open = true := by
      simp only [CellState.open, Bool.and_eq_true, bne_iff_ne]
      exact ⟨fun e => hs (.inl e), fun e => hs (.inr e)⟩
    exact ⟨cellRight_of_open (x := { x with state := .unseen, q := none, fails := 0, roster := none, due := none, engaged := none })
      (h.admitted hopen) rfl rfl (fun _ => rfl) (fun e => (by cases e)), rfl⟩

theorem clearSurvey_surveyRight {g : Settings} (now : Time) {p : Plant} (hp : SurveyRight g p) :
    SurveyRight g (clearSurvey now p) := by
  obtain ⟨hsound, hfree⟩ := foldl_clearLane_frees now (List.finRange 8) (fun k => ⟨hp.lanes k, hp.collectors k⟩)
  have hcells : ∀ c, CellRight (look g.feeds (feedOf c)) (look ((List.finRange 8).foldl (clearLane now) p).cells c) :=
    fun c => foldl_clearLane
      (R := fun p q => CellRight (look g.feeds (feedOf c)) (look p.cells c) → CellRight (look g.feeds (feedOf c)) (look q.cells c))
      (fun _ => id) (fun h h' => h' ∘ h)
      (fun q l hq => by obtain ⟨o, t, he⟩ := clearLane_cell now q l c; rw [he]; exact hq) (List.finRange 8) p (hp.cells c)
  have hnone : ∀ k, (look ((List.finRange 8).foldl (clearLane now) p).lanes k).cell = none :=
    fun k => hfree k (.inl (List.mem_finRange k))
  unfold clearSurvey
  generalize (List.finRange 8).foldl (clearLane now) p = q at *
  refine ⟨fun c => ?_, fun l => (hsound l).1, fun c l => ?_, fun e he => (by cases he), ?_, fun l => (hsound l).2⟩
  · rw [look_table]; exact (cellRight_cleared (hcells c)).1
  · rw [look_table, (cellRight_cleared (hcells c)).2]
    show _ ↔ (look q.lanes l).cell = some c
    rw [hnone l]
    exact ⟨fun e => (by cases e), fun e => (by cases e)⟩
  · refine (heldLanes_mono (v := p.lanes) (fun l hl => ?_)).trans hp.held
    have hcell := (hsound l).1.1
    rw [hnone l, show (look q.lanes l).state = .held from hl] at hcell
    simp at hcell

/-! ## A restart -/

theorem surveyRight_restored (im : Image) : SurveyRight im.settings (restoredPlant im) := by
  have hcell : ∀ c, look (restoredPlant im).cells c = rebuiltCell (look im.settings.feeds (feedOf c)) (look im.raster c) :=
    look_table _
  have hlane : ∀ l, look (restoredPlant im).lanes l = { LaneRec.atRestart with options := look im.options l } := look_table _
  refine ⟨fun c => ?_, fun l => ?_, fun c l => ?_, fun e he => (by cases he), ?_, fun l => ?_⟩
  · rw [hcell]; exact cellRight_rebuilt _ _
  · rw [hlane]; exact laneRight_atRestart
  · rw [hcell, hlane]; exact ⟨fun h => (by cases h), fun h => (by cases h)⟩
  · refine (heldLanes_mono (v := Plant.atRestart.lanes) (fun l hl => ?_)).trans surveyRight_atRestart.held
    rw [hlane] at hl
    cases hl
  · rw [hlane]; exact collectorRight_idle

/-! ## The statement -/

/-- The laws speak of the settings only through the feed records. -/
theorem SurveyRight.congr_feeds {g g' : Settings} {p : Plant} (h : SurveyRight g p) (hg : g'.feeds = g.feeds) :
    SurveyRight g' p := by
  obtain ⟨hcells, hrest⟩ := h
  exact ⟨fun c => by rw [hg]; exact hcells c, hrest⟩

/-- Every change keeps the laws of the survey. -/
theorem Effect.surveyLaw {s t : State} (h : Effect s t) (hs : SurveyLaw s) : SurveyLaw t := by
  refine ⟨h.settingsLaw hs.1, ?_⟩
  induction h with
  | refl | link | store | time | staging => exact hs.2
  | trans h _ ih ih' => exact ih' ⟨h.settingsLaw hs.1, ih hs⟩
  | settings s g feeds right => exact hs.2.congr_feeds feeds
  | moves s h => exact h.surveyRight hs.1.1.holdLimit_le hs.2
  | feed s f r => exact changeFeed_surveyRight s.clock f r hs.2
  | page s f k =>
    have hn := (resultingPage_keys f k s.staging.staged).1
    generalize resultingPage f k s.staging.staged = page at hn
    exact writePage_surveyRight s.clock hn hs.2
  | clear s => exact clearSurvey_surveyRight s.clock hs.2
  | restart r s =>
    obtain ⟨-, -, ⟨hset, hplant, -⟩ | ⟨im, -, hset, hplant, -⟩⟩ := restart_spec r s
    · rw [hset, hplant]; exact surveyRight_atRestart
    · rw [hset, hplant]; exact surveyRight_restored im

/-- Settles O59: each change that a step is made of keeps the laws of the survey. -/
theorem surveyStaysRight : Obligations.SurveyStaysRight := by
  unfold Obligations.SurveyStaysRight
  exact fun s t hs h => (step_effect h).surveyLaw hs

end Sys2Proof.Machine
end

section
/-! SUPPORT. What Set Feed and Write Raster Page leave in the whole machine, in the words of their statements; the two
statements. -/

namespace Sys2Proof.Machine

/-! ## The evaluations and the conditions of a run -/

theorem finish_dir (g : Settings) (now : Time) (r : Reshape) :
    (r.finish g now).dir = (evaluateMarked { cells := r.plant.cells, feeds := g.feeds, policy := g.policy, now := now }
      r.marked r.release { dir := r.plant.dir, raised := 0 }).dir := by
  simp only [Reshape.finish]

theorem finish_notice (g : Settings) (now : Time) (r : Reshape) :
    (r.finish g now).notice = r.plant.notice.raise (evaluateMarked
      { cells := r.plant.cells, feeds := g.feeds, policy := g.policy, now := now }
      r.marked r.release { dir := r.plant.dir, raised := 0 }).raised := by
  simp only [Reshape.finish]

theorem finish_pool (g : Settings) (now : Time) (r : Reshape) : (r.finish g now).dir.pool = r.plant.dir.pool := by
  rw [finish_dir, evaluateMarked_pool]

/-- A run evaluates the services that the removal of its sightings concerns (R99, R100, R114, R120). -/
theorem Swept.evaluations {now : Time} {p : Plant} {ended dropped bared : CellRef → Bool} {cell : CellRef → Cell}
    {given : List SpotResult} {r : Reshape} (h : Swept now p ended dropped bared cell given r) (v : View) :
    evaluateMarked v r.marked r.release { dir := r.plant.dir, raised := 0 } = removalEvaluations v p.dir r.plant.dir := by
  have hholds : ∀ n c, r.plant.dir.holds n c = (p.dir.holds n c && !bared c) := fun n c => by
    rw [Bool.eq_iff_iff, Bool.and_eq_true, holds_iff, holds_iff]
    simp only [mem_sightings, h.dir, List.mem_filter]
    constructor
    · rintro ⟨s, ⟨⟨hs, hb⟩, hn⟩, rfl⟩; exact ⟨⟨s, ⟨hs, hn⟩, rfl⟩, hb⟩
    · rintro ⟨⟨s, ⟨hs, hn⟩, rfl⟩, hb⟩; exact ⟨s, ⟨⟨hs, hb⟩, hn⟩, rfl⟩
  have hslots : r.plant.dir.slots = p.dir.slots := by rw [h.dir]
  rw [evaluateMarked_eq, removalEvaluations]
  refine evaluationsOf_congr ⟨fun _ => rfl, fun _ => rfl, rfl, rfl, rfl⟩ (fun n => ?_) (fun n _ => ?_) _
  · rw [Bool.eq_iff_iff, List.contains_iff_mem, h.release]
    unfold unseated
    simp only [hslots, hholds, Bool.and_eq_true, beq_iff_eq, Option.any_eq_true]
    constructor
    · rintro ⟨c, hb, hh, hs, hc⟩; exact ⟨hs, c, hc, by simp [hb, hh]⟩
    · rintro ⟨hs, c, hc, hh, hlost⟩
      exact ⟨c, by simpa [hh] using hlost, hh, hs, hc⟩
  · rw [Bool.eq_iff_iff, List.contains_iff_mem, h.marked]
    unfold bereft
    simp only [List.any_eq_true, hholds, holds_iff]
    constructor
    · rintro ⟨c, hb, s, hs, rfl⟩; exact ⟨s, hs, by simp [hb]⟩
    · rintro ⟨s, hs, hh⟩
      have hheld : p.dir.holds n s.cell = true := holds_iff.mpr ⟨s, hs, rfl⟩
      exact ⟨s.cell, by simpa [hheld] using hh, s, hs, rfl⟩

theorem endFlags_eq (given : List SpotResult) (P : Prop) [Decidable (given = [])] [Decidable P] :
    endFlags (!given.isEmpty) (decide P) = (if given = [] then 0 else 0x004#12) ||| (if P then 0x010#12 else 0) := by
  have hempty : given.isEmpty = decide (given = []) := by cases given <;> simp
  rw [hempty, endFlags]
  by_cases h : given = [] <;> by_cases hP : P <;> simp [h, hP]

/-- A condition among those raised is set. -/
theorem raised_and_ne_zero {m k : Flags12} (n : Notice) (h : m &&& k ≠ 0) : (n.raise m).conds &&& k ≠ 0 := by
  rw [Notice.raise_conds]
  intro e
  refine h (BitVec.eq_of_getLsbD_eq (fun i hi => ?_))
  have hi' := congrArg (fun v : Flags12 => v.getLsbD i) e
  simp only [BitVec.getLsbD_and, BitVec.getLsbD_or] at hi' ⊢
  revert hi'
  cases m.getLsbD i <;> cases k.getLsbD i <;> simp

/-- The machine after a run with its evaluations made: spot results, survey engine, directory and conditions. -/
theorem Swept.finished {s t : State} {ended dropped bared : CellRef → Bool} {cell : CellRef → Cell} {given : List SpotResult}
    {r : Reshape} (h : Swept s.clock s.plant ended dropped bared cell given r) (hclock : t.clock = s.clock)
    (hplant : t.plant = r.finish t.settings s.clock) {given' : List SpotResult} (hgiven : given' = given)
    {ends : Lane → Bool} (hends : ∀ l, ends l = endsOn s.plant ended l) [Decidable (given' = [])]
    [Decidable (∃ l : Lane, ends l = true ∧ s.plant.survey.stepped.getLsbD l.val = true)] :
    let b := removalEvaluations t.view s.plant.dir { s.plant.dir with pool := t.plant.dir.pool }
    (given' = [] → t.plant.survey.results = s.plant.survey.results)
      ∧ (given' ≠ [] → t.plant.survey.results = (given'.reverse ++ s.plant.survey.results).take 4
          ∧ t.plant.notice.conds &&& 0x004#12 ≠ 0)
      ∧ EngineTakesEnds s t ends
      ∧ t.plant.dir = b.dir
      ∧ t.plant.notice = s.plant.notice.raise ((if given' = [] then 0 else 0x004#12)
          ||| (if ∃ l : Lane, ends l = true ∧ s.plant.survey.stepped.getLsbD l.val = true then 0x010#12 else 0)
          ||| b.raised) := by
  intro b
  obtain rfl : ends = endsOn s.plant ended := funext hends
  subst hgiven
  have hsurvey : t.plant.survey = r.plant.survey := by rw [hplant, finish_survey]
  have hview : t.view = { cells := r.plant.cells, feeds := t.settings.feeds, policy := t.settings.policy, now := s.clock } := by
    rw [State.view, hplant, finish_cells, hclock]
  have hdir : ({ s.plant.dir with pool := t.plant.dir.pool } : Dir) = r.plant.dir := by
    rw [hplant, finish_pool, h.dir]
  have hb : evaluateMarked { cells := r.plant.cells, feeds := t.settings.feeds, policy := t.settings.policy, now := s.clock }
      r.marked r.release { dir := r.plant.dir, raised := 0 } = b := by
    rw [h.evaluations, ← hview, ← hdir]
  have hnotice : t.plant.notice = s.plant.notice.raise ((if given' = [] then 0 else 0x004#12)
      ||| (if ∃ l : Lane, endsOn s.plant ended l = true ∧ s.plant.survey.stepped.getLsbD l.val = true then 0x010#12 else 0)
      ||| b.raised) := by
    have hraised := h.notice b.raised
    rw [endFlags_eq] at hraised
    rw [hplant, finish_notice, hb, hraised]
    congr
  refine ⟨fun hg => ?_, fun hg => ⟨?_, ?_⟩, ⟨fun l => ?_, fun l hl hs => ?_, ?_, ?_⟩, ?_, hnotice⟩
  · rw [hsurvey, h.results, hg]; rfl
  · rw [hsurvey, h.results, pushAll_eq _ hg]
  · rw [hnotice, if_neg hg]
    refine raised_and_ne_zero _ (fun e => ?_)
    have hbit := congrArg (fun v : Flags12 => v.getLsbD 2) e
    simp at hbit
  · rw [hsurvey]; exact h.stepped l
  · rw [hnotice, if_pos (⟨l, hl, hs⟩ : ∃ l : Lane, endsOn s.plant ended l = true ∧ s.plant.survey.stepped.getLsbD l.val = true)]
    refine raised_and_ne_zero _ (fun e => ?_)
    have hbit := congrArg (fun v : Flags12 => v.getLsbD 4) e
    simp at hbit
  · rw [hsurvey]; exact h.state
  · rw [hsurvey]; exact h.kept
  · rw [hplant, finish_dir, hb]

/-! ## The spot results of ended engagements -/

/-- The spot result of a visit that ended carries the record that its lane then holds. -/
theorem endedOn_eq {now : Time} {p q : Plant} {ended : CellRef → Bool} (he : EngagementRight p)
    (hlanes : ∀ l, look q.lanes l = sweptLane now ended l (look p.lanes l)) {c : CellRef} (hc : ended c = true) :
    (look p.cells c).engaged.toList.flatMap (fun l =>
      if (look p.lanes l).inVisit then
        (look p.lanes l).terms.toList.map (fun m =>
          SpotResult.mk m.ticket c m.trim m.hold .abandoned now (look q.lanes l).record)
      else []) = endedOn now p c := by
  refine List.flatMap_congr (fun l hl => ?_)
  have hcell : (look p.lanes l).cell = some c := (he c l).mp (by simpa using hl)
  cases hv : (look p.lanes l).inVisit with
  | false => rfl
  | true =>
    have hrec : (look q.lanes l).record = some (clearedRecord now l c (look p.lanes l)) := by
      rw [hlanes, sweptLane_of_ended l hcell hc, freedLane, if_pos hv]
    rw [hrec]
    rfl

/-! ## Set Feed -/

theorem among_feedBars {p : Plant} {before after : FeedRec} {f : Feed} {c : CellRef} :
    among (feedCells f) (feedBars p before after) c = true ↔ feedOf c = f
      ∧ before.admits (look p.cells c).defn = true ∧ after.admits (look p.cells c).defn = false := by
  rw [among_eq_true, mem_feedCells]
  simp [feedBars]

theorem runSetFeed_ok {p : List Byte} {fd : Feed} {r : FeedRec} (s : State) (hf : feedAt p 0 = some fd)
    (hr : feedRecAt p = some r) :
    runSetFeed p s = ok
      { s with
        settings := s.settings.setFeed fd r
        plant := changeFeed (s.settings.setFeed fd r) s.clock (look s.settings.feeds fd) r fd s.plant }
      (b1 (barredBy (look s.settings.feeds fd) r fd s.plant.cells) ++ b1 (admittedBy r fd s.plant.cells)) := by
  simp only [runSetFeed, hf, hr]

theorem runSetFeed_refused {p : List Byte} (s : State)
    (h : 6 ≤ byteAt p 0 ∨ 2 ≤ byteAt p 1 ∨ 8 ≤ byteAt p 2 ∨ ∃ k ∈ [3, 7, 11, 15], 870000 < wordAt p k) :
    runSetFeed p s = refuse s .badValue := by
  have hnone : feedAt p 0 = none ∨ feedRecAt p = none := by
    by_cases hf : 6 ≤ byteAt p 0
    · exact .inl (feedAt_refused hf)
    · right
      unfold feedRecAt
      by_cases hy : 2 ≤ byteAt p 1
      · have : yesNoAt p 1 = none := by rw [yesNoAt, if_neg (by omega), if_neg (by omega)]
        rw [this]
      · have hout : ¬ (byteAt p 2 ≤ 7 ∧ wordAt p 3 ≤ 870000 ∧ wordAt p 7 ≤ 870000 ∧ wordAt p 11 ≤ 870000
            ∧ wordAt p 15 ≤ 870000) := by
          simp only [List.mem_cons, List.not_mem_nil, or_false, exists_eq_or_imp, exists_eq_left] at h
          omega
        cases yesNoAt p 1 with
        | none => rfl
        | some e => exact if_neg hout
  unfold runSetFeed
  split
  · next hf hr => exact absurd hnone (by simp [hf, hr])
  · rfl

/-- What Set Feed answers and leaves when its values are in range, as a run over the cells of the feed. -/
theorem exec_setFeed_ok {f : Req} {fd : Feed} {r : FeedRec} {s : State} (hlaw : SurveyLaw s) (hs : s.serves f)
    (hlen : f.payload.length = 19) (hf : feedAt f.payload 0 = some fd) (hr : feedRecAt f.payload = some r) :
    ∃ (t : State) (u : Reshape), exec (.setFeed f) s = .next (replied 0x10 f .ok
          (b1 (barredBy (look s.settings.feeds fd) r fd s.plant.cells) ++ b1 (admittedBy r fd s.plant.cells)) t)
      ∧ t = { s with settings := s.settings.setFeed fd r, plant := u.finish (s.settings.setFeed fd r) s.clock }
      ∧ SweptBy s.clock s.plant (feedBars s.plant (look s.settings.feeds fd) r) (feedBars s.plant (look s.settings.feeds fd) r)
          (rejudged s.clock (look s.settings.feeds fd) r s.plant) (feedCells fd) u := by
  have hexec := next_served (v := svcSetFeed) hs (by omega) (by rw [hlen]; rfl) (runSetFeed_ok s hf hr)
  obtain ⟨u, hu, hsw⟩ := changeFeed_swept (s.settings.setFeed fd r) s.clock (look s.settings.feeds fd) r fd
    hlaw.2.engagement hlaw.2.lanes
  rw [hu] at hexec
  exact ⟨_, u, hexec, rfl, hsw⟩

/-- Settles O14: Set Feed is a run over the cells of the feed, taken in turn. -/
theorem setFeedRejudgesItsCells : Obligations.SetFeedRejudgesItsCells := by
  unfold Obligations.SetFeedRejudgesItsCells
  refine ⟨fun f s hs hlen h => ?_, fun f fd r s hlaw hs hlen hf hr => ?_⟩
  · exact next_served (v := svcSetFeed) hs (by omega) (by rw [hlen]; rfl) (runSetFeed_refused s h)
  obtain ⟨t, u, hexec, ht, hsw⟩ := exec_setFeed_ok hlaw hs hlen hf hr
  have he := hlaw.2.engagement
  have hplant : t.plant = u.finish t.settings s.clock := by rw [ht]
  have hclock : t.clock = s.clock := by rw [ht]
  have hcells : ∀ c, look t.plant.cells c
      = cellsOver s.plant (rejudged s.clock (look s.settings.feeds fd) r s.plant) (feedCells fd) c := fun c => by
    rw [hplant, finish_cells]; exact Swept.cells hsw c
  have hlanes : ∀ l, look t.plant.lanes l = sweptLane s.clock
      (among (feedCells fd) (feedBars s.plant (look s.settings.feeds fd) r)) l (look s.plant.lanes l) := fun l => by
    rw [hplant, finish_lanes]; exact Swept.lanes hsw l
  refine ⟨t, hexec, by rw [ht]; rfl, by rw [ht], by rw [ht], by rw [ht], hclock, by rw [ht], fun c hc => ?_, ?_, fun c hc => ?_⟩
  · rw [hcells]; exact if_neg (fun h => hc (mem_feedCells.mp h))
  · intro bars
    have hbars : ∀ c, among (feedCells fd) (feedBars s.plant (look s.settings.feeds fd) r) c = true ↔ bars c := fun c =>
      among_feedBars
    refine ⟨fun g => ?_, fun e => ?_, ?_, fun l => ⟨fun h => ?_, fun c hc h => ?_⟩⟩
    · rw [hplant, finish_pool, Swept.dir hsw, ← hbars]
      simp
    · rw [hplant, finish_survey, Swept.spots hsw, ← hbars]
      simp
    · intro ended waited given ends b
      refine Swept.finished hsw hclock hplant (List.flatMap_congr (fun c hc => ?_)) (fun l => ?_)
      · have hb : feedBars s.plant (look s.settings.feeds fd) r c = true := (List.mem_filter.mp hc).2
        have hfeed : c ∈ feedCells fd := (List.mem_filter.mp hc).1
        rw [resultsOn, if_pos hb, ← endedOn_eq he hlanes (among_eq_true.mpr ⟨hfeed, hb⟩)]
        rfl
      · have hany : (fun c => feedOf c == fd && (look s.settings.feeds fd).admits (look s.plant.cells c).defn
            && !r.admits (look s.plant.cells c).defn) = among (feedCells fd) (feedBars s.plant (look s.settings.feeds fd) r) := by
          funext c
          rw [Bool.eq_iff_iff, among_feedBars]
          simp [and_assoc]
        show ((look s.plant.lanes l).inVisit && (look s.plant.lanes l).cell.any (fun c => feedOf c == fd
            && (look s.settings.feeds fd).admits (look s.plant.cells c).defn && !r.admits (look s.plant.cells c).defn)) = _
        rw [hany]
        rfl
    · rw [hlanes, sweptLane_of_not l (fun c hc => by
        rw [Bool.eq_false_iff, ne_eq, hbars]; exact h c hc)]
    · rw [hlanes, sweptLane_of_ended l hc ((hbars c).mpr h)]
      exact ⟨(freedLane_rest s.clock l c _).1, (freedLane_rest s.clock l c _).2.1⟩
  · intro x y
    have hy : y = rejudged s.clock (look s.settings.feeds fd) r s.plant c := (hcells c).trans (if_pos (mem_feedCells.mpr hc))
    have hright : CellRight (look s.settings.feeds fd) x := hc ▸ hlaw.2.cells c
    refine ⟨fun h h' => ?_, fun h h' => ?_, fun h => ?_⟩
    · exact hy.trans (if_pos (by simpa [feedBars] using ⟨h, h'⟩))
    · refine hy.trans ((if_neg ?_).trans (if_pos ⟨h, h'⟩))
      rw [feedBars, show r.admits (look s.plant.cells c).defn = true from h']
      simp
    · refine hy.trans ((if_neg ?_).trans (if_neg ?_))
      · rw [feedBars, show (look s.settings.feeds fd).admits (look s.plant.cells c).defn = r.admits (look s.plant.cells c).defn from h]
        simp
      · rintro ⟨hs, ha⟩
        have hno := (hright.barred.mp hs).2
        rw [h, show r.admits x.defn = true from ha] at hno
        cases hno

/-! ## Write Raster Page -/

theorem runWriteRasterPage_closed {s : State} (p : List Byte) (h : s.staging.page = none) :
    runWriteRasterPage p s = refuse s .wrongState := by
  unfold runWriteRasterPage
  rw [h]

theorem runWriteRasterPage_repeat {s : State} {fd : Feed} {k : Fin 6} (p : List Byte) (h : s.staging.page = some (fd, k))
    (hc : pageClear s.plant.cells fd (resultingPage fd k s.staging.staged) = false) :
    runWriteRasterPage p s = refuse s .badValue := by
  unfold runWriteRasterPage
  rw [h]
  exact if_neg (by rw [hc]; exact Bool.false_ne_true)

theorem runWriteRasterPage_ok {s : State} {fd : Feed} {k : Fin 6} (p : List Byte) (h : s.staging.page = some (fd, k))
    (hc : pageClear s.plant.cells fd (resultingPage fd k s.staging.staged) = true) :
    runWriteRasterPage p s = ok
      { s with
        plant := writePage s.settings s.clock (resultingPage fd k s.staging.staged) s.plant, staging := Staging.atRestart }
      (b1 (rebuiltCount s.plant.cells (resultingPage fd k s.staging.staged))) := by
  unfold runWriteRasterPage
  rw [h]
  exact if_pos hc

/-- The page's definitions change nothing outside its positions. -/
theorem among_pageChanges {p : Plant} {page : List (CellRef × CellDef)} :
    among (page.map Prod.fst) (pageChanges p (rasterOver p.cells page)) = pageChanges p (rasterOver p.cells page) := by
  funext c
  by_cases hc : c ∈ page.map Prod.fst
  · rw [among, List.contains_iff_mem.mpr hc, Bool.true_and]
  · have hsame : rasterOver p.cells page c = (look p.cells c).defn :=
      rasterOver_not_mem (fun e he hk => hc (List.mem_map.mpr ⟨e, he, hk⟩))
    rw [among_not_mem _ hc, pageChanges, hsame]
    simp

/-- A test that names changed cells only does not depend on the list of positions. -/
theorem among_of_changes {p : Plant} {page : List (CellRef × CellDef)} (test : CellRef → Bool) :
    among (page.map Prod.fst) (fun c => pageChanges p (rasterOver p.cells page) c && test c)
      = fun c => pageChanges p (rasterOver p.cells page) c && test c := by
  funext c
  rw [← congrFun among_pageChanges c]
  simp only [among]
  cases (page.map Prod.fst).contains c <;> simp

theorem cellsOver_rewritten {g : Settings} {p : Plant} {page : List (CellRef × CellDef)} :
    cellsOver p (rewritten g (rasterOver p.cells page) p) (page.map Prod.fst) = rewritten g (rasterOver p.cells page) p := by
  funext c
  unfold cellsOver
  split
  · rfl
  · next hc =>
    have hno : pageChanges p (rasterOver p.cells page) c = false := by
      rw [← congrFun among_pageChanges c]; exact among_not_mem _ hc
    exact (if_neg (by rw [hno]; exact Bool.false_ne_true)).symm

/-- Write Raster Page, said without the list of positions but for the order of its spot results. -/
theorem writePage_changes (g : Settings) (now : Time) {page : List (CellRef × CellDef)} {p : Plant}
    (hn : (page.map Prod.fst).Nodup) (he : EngagementRight p) (hl : ∀ l, LaneRight (look p.lanes l)) :
    let raster := rasterOver p.cells page
    ∃ u, writePage g now page p = u.finish g now
      ∧ Swept now p (pageChanges p raster) (pageDrops g raster p) (pageChanges p raster) (rewritten g raster p)
          ((page.filter (fun e => (look p.cells e.1).defn != e.2)).flatMap
            (fun e => resultsOn now p (pageDrops g raster p) e.1)) u := by
  intro raster
  obtain ⟨u, hu, hs⟩ := writePage_swept g now hn he hl
  have hdrops : among (page.map Prod.fst) (pageDrops g raster p) = pageDrops g raster p :=
    among_of_changes (fun c => (rewritten g raster p c).state != .unseen)
  have hgiven : ((page.map Prod.fst).filter (pageChanges p raster)).flatMap (resultsOn now p (pageDrops g raster p))
      = (page.filter (fun e => (look p.cells e.1).defn != e.2)).flatMap
          (fun e => resultsOn now p (pageDrops g raster p) e.1) := by
    rw [List.filter_map, List.flatMap_map]
    congr 1
    refine List.filter_congr (fun e hmem => ?_)
    show ((look p.cells e.1).defn != raster e.1) = _
    rw [show raster e.1 = e.2 from rasterOver_mem hn hmem]
  unfold SweptBy at hs
  rw [among_pageChanges, hdrops, cellsOver_rewritten, hgiven] at hs
  exact ⟨u, hu, hs⟩

/-- What Write Raster Page answers and leaves when the page passes its check. -/
theorem exec_writeRasterPage_ok {f : Req} {fd : Feed} {k : Fin 6} {s : State} (hlaw : SurveyLaw s) (hs : s.serves f)
    (hp : f.payload = []) (h : s.staging.page = some (fd, k))
    (hc : pageClear s.plant.cells fd (resultingPage fd k s.staging.staged) = true) :
    let page := resultingPage fd k s.staging.staged
    let raster := rasterOver s.plant.cells page
    ∃ (t : State) (u : Reshape), exec (.writeRasterPage f) s = .next (replied 0x16 f .ok
          (b1 (page.countP (fun e => (look s.plant.cells e.1).defn != e.2))) t)
      ∧ t = { s with plant := u.finish s.settings s.clock, staging := Staging.atRestart }
      ∧ Swept s.clock s.plant (pageChanges s.plant raster) (pageDrops s.settings raster s.plant)
          (pageChanges s.plant raster) (rewritten s.settings raster s.plant)
          ((page.filter (fun e => (look s.plant.cells e.1).defn != e.2)).flatMap
            (fun e => resultsOn s.clock s.plant (pageDrops s.settings raster s.plant) e.1)) u := by
  intro page raster
  have hexec := next_served_at (v := svcWriteRasterPage) hs hp rfl (by simp) (runWriteRasterPage_ok [] h hc)
  obtain ⟨u, hu, hsw⟩ := writePage_changes s.settings s.clock (resultingPage_keys fd k s.staging.staged).1
    hlaw.2.engagement hlaw.2.lanes
  rw [hu] at hexec
  exact ⟨_, u, hexec, rfl, hsw⟩

/-- Settles O18: a page write is a run over the cells of the page, in order of their positions. -/
theorem writeRasterPageRebuildsChangedCells : Obligations.WriteRasterPageRebuildsChangedCells := by
  unfold Obligations.WriteRasterPageRebuildsChangedCells
  intro f s hlaw hs hp
  refine ⟨fun h => ?_, fun fd k h => ?_⟩
  · exact next_served_at (v := svcWriteRasterPage) hs hp rfl (by simp) (runWriteRasterPage_closed [] h)
  intro page raster
  have hraster : raster = rasterOver s.plant.cells page := by
    funext c
    show (match page.find? (fun e => e.1 == c) with | some e => e.2 | none => (look s.plant.cells c).defn) = _
    unfold rasterOver
    cases page.find? (fun e => e.1 == c) <;> rfl
  have hclear : pageClear s.plant.cells fd (resultingPage fd k s.staging.staged) = noRepeat (feedFreqs raster fd) := by
    rw [hraster]; exact pageClear_eq _ _ _
  refine ⟨fun hbad => ?_, fun hgood => ?_⟩
  · exact next_served_at (v := svcWriteRasterPage) hs hp rfl (by simp)
      (runWriteRasterPage_repeat [] h (hclear.trans hbad))
  obtain ⟨t, u, hexec, ht, hsw⟩ := exec_writeRasterPage_ok hlaw hs hp h (hclear.trans hgood)
  rw [show rasterOver s.plant.cells (resultingPage fd k s.staging.staged) = raster from hraster.symm] at hsw
  have he := hlaw.2.engagement
  have hplant : t.plant = u.finish t.settings s.clock := by rw [ht]
  have hclock : t.clock = s.clock := by rw [ht]
  have hcells : ∀ c, look t.plant.cells c = rewritten s.settings raster s.plant c := fun c => by
    rw [hplant, finish_cells]; exact hsw.cells c
  have hlanes : ∀ l, look t.plant.lanes l = sweptLane s.clock (pageChanges s.plant raster) l (look s.plant.lanes l) :=
    fun l => by rw [hplant, finish_lanes]; exact hsw.lanes l
  have hchanges : ∀ c, pageChanges s.plant raster c = true ↔ (look s.plant.cells c).defn ≠ raster c := fun c => bne_iff_ne
  refine ⟨t, hexec, by rw [ht]; rfl, by rw [ht], by rw [ht], by rw [ht], hclock, by rw [ht], fun g => ?_, ?_, ?_,
    fun l => ⟨fun h => ?_, fun c hc h => ?_⟩, fun c => ?_⟩
  · rw [hplant, finish_pool, hsw.dir]
    simp [pageChanges]
  · rw [hplant, finish_survey, hsw.spots]
    refine List.filter_congr (fun e _ => ?_)
    rw [finish_cells, hsw.cells, pageDrops, pageChanges, Bool.not_and]
    simp only [bne, Bool.not_not]
  · intro ended waited given ends b
    refine hsw.finished hclock hplant (List.flatMap_congr (fun e hmem => ?_)) (fun l => rfl)
    obtain ⟨hin, hdiff⟩ := List.mem_filter.mp hmem
    have hnew : raster e.1 = e.2 := by
      rw [hraster]; exact rasterOver_mem (resultingPage_keys fd k s.staging.staged).1 hin
    have hhit : pageChanges s.plant raster e.1 = true := by rw [pageChanges, hnew]; exact hdiff
    have hdrop : pageDrops s.settings raster s.plant e.1 = ((look t.plant.cells e.1).state != .unseen) := by
      rw [pageDrops, hhit, Bool.true_and, hcells]
    have hwaited : waited e.1 = if pageDrops s.settings raster s.plant e.1 then waitedFor s.clock s.plant e.1 else [] := by
      show (if (look t.plant.cells e.1).state = .unseen then [] else waitedFor s.clock s.plant e.1) = _
      rw [hdrop]
      by_cases hst : (look t.plant.cells e.1).state = .unseen
      · rw [if_pos hst, if_neg (by simp [hst])]
      · rw [if_neg hst, if_pos (bne_iff_ne.mpr hst)]
    rw [resultsOn, ← hwaited, ← endedOn_eq he hlanes hhit]
  · rw [hlanes, sweptLane_of_not l (fun c hc => by
      rw [Bool.eq_false_iff, ne_eq, hchanges, not_not]; exact h c hc)]
  · rw [hlanes, sweptLane_of_ended l hc ((hchanges c).mpr h)]
    exact ⟨(freedLane_rest s.clock l c _).1, (freedLane_rest s.clock l c _).2.1⟩
  · rw [hcells, rewritten]
    by_cases hd : (look s.plant.cells c).defn = raster c
    · rw [if_pos hd, if_neg (by rw [hchanges]; exact fun h => h hd)]
    · rw [if_neg hd, if_pos ((hchanges c).mpr hd)]
      rfl

end Sys2Proof.Machine
end

section
/-! SUPPORT. What the survey engine takes of a visit's end (R139, R140, R145, R150), and the events that end a visit by
stage and outcome. -/

namespace Sys2Proof.Machine

/-! ## Conditions and due times -/

theorem flags_sub_and_ne_zero {f m k : Flags12} (h : f &&& m = f) (hk : f &&& k ≠ 0) : m &&& k ≠ 0 :=
  fun e => hk (by rw [← h, BitVec.and_assoc, e]; exact BitVec.and_zero)

theorem endFlags_spot (step : Bool) : endFlags true step &&& 0x004#12 ≠ 0 := by revert step; decide

theorem endFlags_step (spot : Bool) : endFlags spot true &&& 0x010#12 ≠ 0 := by revert spot; decide

/-- A cell's due time as a visit end or a hold end sets it is the one that R145 gives. -/
theorem WatchScheduled.of_dueTime {s t : State} {c : CellRef} {y : Cell} (hy : y.state = (look t.plant.cells c).state)
    (h : (look t.plant.cells c).due = dueTime s.settings s.clock t.plant.dir c y) : WatchScheduled s t c := by
  unfold dueTime at h
  rw [hy] at h
  refine ⟨fun hr => ?_, fun hr => ?_⟩
  · rw [h, hr]; rfl
  · rw [h, if_pos hr, watchGap, hy]; rfl

/-! ## The survey engine at a visit end -/

/-- The plant p shows the visit end on lane l that led to q: it differs from q at most in other fields of its lanes and
in further conditions. -/
structure EndStands (l : Lane) (q p : Plant) : Prop where
  cells  : p.cells = q.cells
  dir    : p.dir = q.dir
  survey : p.survey = q.survey
  record : (look p.lanes l).record = (look q.lanes l).record
  conds  : ∀ k : Flags12, q.notice.conds &&& k ≠ 0 → p.notice.conds &&& k ≠ 0

theorem EndStands.refl (l : Lane) (p : Plant) : EndStands l p p := ⟨rfl, rfl, rfl, rfl, fun _ h => h⟩

/-- No visit has ended: the survey engine is as it was. -/
theorem EngineTakesEnds.of_none {s t : State} {ends : Lane → Bool} (h : t.plant.survey = s.plant.survey)
    (hends : ∀ l, ends l = false) : EngineTakesEnds s t ends := by
  refine ⟨fun l => ?_, fun l hl => ?_, ?_, ?_⟩
  · rw [h, hends, Bool.not_false, Bool.and_true]
  · rw [hends] at hl; cases hl
  · rw [h, if_neg]
    rintro ⟨-, ⟨l, hl, -⟩, -⟩
    rw [hends] at hl
    cases hl
  · rw [h]; exact ⟨rfl, rfl, rfl, rfl, rfl, rfl⟩

/-- A lane whose visit has ended is in no visit. -/
theorem visitEnd_inVisit {g : Settings} {now : Time} {l : Lane} {e : Ending} {p : Plant} {c : CellRef}
    (h : (look p.lanes l).cell = some c) (hn : e.next.resting = true) :
    (look (visitEnd g now l e p).lanes l).inVisit = false := by
  obtain ⟨-, -, taken, left, -⟩ := visitEnd_spec (g := g) (now := now) (e := e) h
  by_cases ht : holdNote g p.lanes l e.outcome = .taken
  · rw [taken ht]; rfl
  · rw [left ht]
    revert hn
    simp only [LaneRec.leave, LaneRec.inVisit]
    cases e.next <;> simp [LaneState.resting]

/-- After a visit end, no lane surveys any more exactly when no other lane did. -/
theorem visitEnd_surveying {g : Settings} {now : Time} {l : Lane} {e : Ending} {p : Plant} {c : CellRef}
    (h : (look p.lanes l).cell = some c) (hn : e.next.resting = true) :
    (visitEnd g now l e p).lanes.toList.any LaneRec.surveying = false
      ↔ ∀ k, (look p.lanes k).surveying = true → (k == l) = true := by
  obtain ⟨-, others, -⟩ := visitEnd_spec (g := g) (now := now) (e := e) h
  rw [← Bool.not_eq_true, any_toList_iff, not_exists]
  refine forall_congr' (fun k => ?_)
  by_cases hk : k = l
  · subst hk
    simp [LaneRec.surveying, visitEnd_inVisit h hn]
  · rw [others k hk]
    simp [hk]

/-- What the survey engine takes of the end of a lane's visit: the cell's due time, the spot result, the stepped set, the
end of draining (R139, R140, R145, R150). -/
theorem visitEnd_engine {s t : State} {l : Lane} {e : Ending} {c : CellRef} (h : (look s.plant.lanes l).cell = some c)
    (hn : e.next.resting = true) (ht : EndStands l (visitEnd s.settings s.clock l e s.plant) t.plant) :
    WatchScheduled s t c ∧ SpotReported s t l c e.outcome ∧ EngineTakesEnds s t (fun k => k == l)
      ∧ t.plant.survey.spots = s.plant.survey.spots := by
  obtain ⟨-, -, taken, left, ⟨rf, ro, own, -⟩, hsurvey, ⟨m, hnotice, hm⟩, -⟩ :=
    visitEnd_spec (g := s.settings) (now := s.clock) (e := e) h
  rw [surveyEnd_eq] at hsurvey hm
  have hrecord : ∃ r, (look t.plant.lanes l).record = some r ∧ r.cell = c ∧ r.outcome = e.outcome ∧ r.stop = s.clock
      ∧ t.plant.survey.results = pushAll (visitResults (look s.plant.lanes l) r) s.plant.survey.results := by
    refine ⟨_, ht.record.trans ?_, rfl, rfl, rfl, by rw [ht.survey, hsurvey]⟩
    by_cases hnote : holdNote s.settings s.plant.lanes l e.outcome = .taken
    · rw [taken hnote]
    · rw [left hnote]
  have hflag : ∀ k : Flags12,
      endFlags (look s.plant.lanes l).terms.isSome (s.plant.survey.stepped.getLsbD l.val) &&& k ≠ 0 →
      t.plant.notice.conds &&& k ≠ 0 := fun k hk => by
    refine ht.conds k ?_
    rw [hnotice]
    exact raised_and_ne_zero _ (flags_sub_and_ne_zero hm hk)
  refine ⟨.of_dueTime (y := look t.plant.cells c) rfl ?_, ⟨fun hterms => ?_, fun k hk => ⟨?_, ?_⟩⟩,
    ⟨fun k => ?_, fun k hk hs => ?_, ?_, ?_⟩, by rw [ht.survey, hsurvey]⟩
  · rw [ht.cells, ht.dir, own]; rfl
  · obtain ⟨r, -, -, -, -, hres⟩ := hrecord
    rw [hres, visitResults, hterms]; rfl
  · obtain ⟨r, hr, rfl, ho, hstop, hres⟩ := hrecord
    rw [hres, visitResults, hk, hr, ← ho, ← hstop]; rfl
  · exact hflag _ (by rw [hk]; exact endFlags_spot _)
  · rw [ht.survey, hsurvey]
    exact getLsbD_clear_laneBit _ _ _
  · obtain rfl : k = l := by simpa using hk
    exact hflag _ (by rw [hs]; exact endFlags_step _)
  · rw [ht.survey, hsurvey]
    refine if_congr (and_congr_right fun _ => and_congr ?_ (visitEnd_surveying h hn)) rfl rfl
    exact ⟨fun hs => ⟨l, beq_self_eq_true l, hs⟩, fun ⟨k, hk, hs⟩ => (beq_iff_eq.mp hk) ▸ hs⟩
  · rw [ht.survey, hsurvey]
    exact ⟨rfl, rfl, rfl, rfl, rfl, rfl⟩

/-! ## Events by stage and outcome -/

theorem sectionOutcome_cases {k : SectionStep} {o : VisitOutcome} (h : sectionOutcome k = some o) :
    o = .lit ∨ o = .unstable := by
  cases k <;> simp only [sectionOutcome, Option.some.injEq, reduceCtorEq] at h
  · exact .inl h.symm
  · exact .inl h.symm
  · exact .inr h.symm

/-- The outcomes that an event can bring, by the stage in which it ends the visit (Table 2.5): in TUNING, in TRIMMING and
MEASURING, in READING, and the dwell limit in each of them. -/
theorem naturalEnd_stage {s : State} {i : Instr} {l : Lane} {o : VisitOutcome} (h : naturalEnd s i = some (l, o)) :
    let k := (look s.plant.lanes l).state
    (o = .cut ∧ i = .dwellLimitExpiry l)
      ∨ (o = .dark ∧ k = .tuning ∧ i = .lockTimerExpiry l)
      ∨ (o = .faded ∧ k ≠ .reading ∧ i = .lockLoss l)
      ∨ (o = .part ∧ k = .reading ∧ (i = .lockLoss l ∨ i = .gapTimerExpiry l))
      ∨ ((o = .lit ∨ o = .unstable) ∧ k = .reading ∧ ∃ sec, i = .rosterSection l sec) := by
  cases i <;> simp only [naturalEnd, reduceCtorEq] at h
  case lockTimerExpiry k =>
    split at h
    · next hc => cases h; exact .inr (.inl ⟨rfl, hc.1, rfl⟩)
    · cases h
  case lockLoss k =>
    split at h
    · next hc => cases h; exact .inr (.inr (.inl ⟨rfl, by simp [hc], rfl⟩))
    · next hc => cases h; exact .inr (.inr (.inl ⟨rfl, by simp [hc], rfl⟩))
    · next hc => cases h; exact .inr (.inr (.inr (.inl ⟨rfl, hc, .inl rfl⟩)))
    · cases h
  case gapTimerExpiry k =>
    split at h
    · next hc => cases h; exact .inr (.inr (.inr (.inl ⟨rfl, hc.1, .inr rfl⟩)))
    · cases h
  case dwellLimitExpiry k =>
    split at h
    · cases h; exact .inl ⟨rfl, rfl⟩
    · cases h
  case rosterSection k sec =>
    split at h
    · split at h
      · next hc =>
        obtain ⟨o', ho, he⟩ := Option.map_eq_some_iff.mp h
        cases he
        exact .inr (.inr (.inr (.inr ⟨sectionOutcome_cases ho, hc.1, sec, rfl⟩)))
      · cases h
    · cases h

theorem naturalEnd_mayHold {s : State} {i : Instr} {l : Lane} {o : VisitOutcome} (h : naturalEnd s i = some (l, o)) :
    mayHold o = true := by
  rcases naturalEnd_stage h with ⟨rfl, -⟩ | ⟨rfl, -⟩ | ⟨rfl, -⟩ | ⟨rfl, -⟩ | ⟨rfl | rfl, -⟩ <;> rfl

/-- An event that ends a visit from READING scores it (R32). -/
theorem naturalEnd_scored {s : State} {i : Instr} {l : Lane} {o : VisitOutcome} (h : naturalEnd s i = some (l, o))
    (hs : (look s.plant.lanes l).state = .reading) : treatment o true = .scored := by
  rcases naturalEnd_stage h with ⟨rfl, -⟩ | ⟨rfl, hk, -⟩ | ⟨rfl, hk, -⟩ | ⟨rfl, -⟩ | ⟨rfl | rfl, -⟩
  · rfl
  · rw [hs] at hk; cases hk
  · exact absurd hs hk
  all_goals rfl

/-- A visit that an event ends DARK or FADED has not reached READING. -/
theorem naturalEnd_noLock {s : State} {i : Instr} {l : Lane} {o : VisitOutcome} (h : naturalEnd s i = some (l, o))
    (ho : o = .dark ∨ o = .faded) : (look s.plant.lanes l).state ≠ .reading := by
  rcases naturalEnd_stage h with ⟨rfl, -⟩ | ⟨rfl, hk, -⟩ | ⟨rfl, hk, -⟩ | ⟨rfl, -⟩ | ⟨rfl | rfl, -⟩
  · simp at ho
  · rw [hk]; simp
  · exact hk
  all_goals simp at ho

end Sys2Proof.Machine
end

section
/-! SUPPORT. What a visit's end leaves in its cell and in its lane's record: the statement of the scored end. -/

namespace Sys2Proof.Machine

/-! ## The record and the cell -/

/-- The record that a visit end leaves in its lane, whether or not the lane then holds (R36). -/
theorem visitEnd_record {g : Settings} {now : Time} {l : Lane} {e : Ending} {p : Plant} {c : CellRef}
    (h : (look p.lanes l).cell = some c) :
    let x := look p.lanes l
    let r := recordOf l x c now e (holdNote g p.lanes l e.outcome)
    (look (visitEnd g now l e p).lanes l).record =
      some { r with score := (cellEnd g (treatment e.outcome (x.state == .reading)) r (look p.cells c)).2 } := by
  intro x r
  obtain ⟨-, -, taken, left, -⟩ := visitEnd_spec (g := g) (now := now) (e := e) h
  by_cases hn : holdNote g p.lanes l e.outcome = .taken
  · rw [taken hn]
  · rw [left hn]

/-- The margin that a scored or a no-lock visit end leaves (R54). -/
theorem marginAfter_eq (x : Cell) {t : Treatment} (trim : Option TrimResult) (ht : t ≠ .unscored) :
    marginAfter x t trim = (trim.map TrimResult.margin).orElse (fun _ => x.margin) := by
  cases t
  · cases trim <;> rfl
  · cases trim <;> rfl
  · exact absurd rfl ht

/-- The score of a visit that carries a measurement, on a cell with a profile of the table (R57). -/
theorem scoreOf_eq (g : Settings) {x : Cell} {r : Record} {m : Measurement} {k : Fin 8} (margin : Option Nat)
    (hm : r.meas = some m) (hk : x.defn.profile = k.val) :
    scoreOf g { x with margin := margin } r =
      visitScore m (look g.profiles k) g.policy.lvmin g.policy.lvmax (margin.getD 0) := by
  have hprofile : g.profiles.toList.getD x.defn.profile 0 = look g.profiles k := by
    rw [hk]
    simp [look]
  rw [scoreOf, scoredMeasurement, hm, hprofile]
  rfl

theorem smooth_outright {before : CellState} {q : Option Nat} (score : Nat) (h : q = none ∨ before = .lost) :
    smooth before q score = score := by
  rcases h with rfl | rfl
  · rfl
  · cases q <;> rfl

theorem smooth_mean {before : CellState} (q score : Nat) (h : before ≠ .lost) :
    smooth before (some q) score = (3 * q + score + 2) / 4 := if_neg h

/-- Settles O26: the event is the end of the visit, and the end is scored because it comes from READING. -/
theorem scoredVisitEndUpdatesTheCell : Obligations.ScoredVisitEndUpdatesTheCell := by
  unfold Obligations.ScoredVisitEndUpdatesTheCell
  intro i l o c m k s hi hstate hcell hmeas hprofile
  obtain ⟨e, ⟨rfl, -⟩, hexec⟩ := naturalEnd_exec hi
  have ht : treatment e.outcome ((look s.plant.lanes l).state == .reading) = .scored := by
    rw [hstate]; exact naturalEnd_scored hi hstate
  obtain ⟨cells, lanes, -, -, ⟨rf, ro, own, -⟩, -⟩ := visitEnd_spec (g := s.settings) (now := s.clock) (e := e) hcell
  have hrecord := visitEnd_record (g := s.settings) (now := s.clock) (e := e) hcell
  dsimp only at own hrecord
  rw [ht] at own hrecord
  obtain ⟨defn, outcome, time, -, -, -, -, margin, -, -, scored⟩ := cellEnd_spec s.settings .scored
    (recordOf l (look s.plant.lanes l) c s.clock e (holdNote s.settings s.plant.lanes l e.outcome)) (look s.plant.cells c)
  obtain ⟨v, hv, last, hscore, hq, fails, state⟩ := scored rfl
  have hcarried : (recordOf l (look s.plant.lanes l) c s.clock e
      (holdNote s.settings s.plant.lanes l e.outcome)).meas = some m := hmeas
  rw [scoreOf_eq s.settings _ hcarried hprofile, marginAfter_eq _ _ (by decide)] at hscore
  rw [marginAfter_eq _ _ (by decide)] at margin
  refine ⟨_, hexec, ⟨rfl, rfl, rfl, rfl, rfl, rfl, rfl⟩, cells, lanes, ?_⟩
  intro lane x y newMargin score
  have hy : y = _ := own
  obtain rfl : v = score := hscore
  rw [hy]
  refine ⟨defn, margin, last, fails, outcome, time, state, fun h => ?_, fun q h h' => ?_, _, hrecord, rfl, rfl, rfl, rfl, rfl,
    hmeas, rfl, hv⟩
  · exact hq.trans (congrArg some (smooth_outright _ h))
  · refine hq.trans (congrArg some ?_)
    rw [show (look s.plant.cells c).q = some q from h]
    exact smooth_mean q _ h'

/-! ## Ends without a score -/

/-- The cell after a DARK or FADED end that finds it without a Q (R64). -/
theorem cellEnd_noLock_none (g : Settings) (r : Record) {x : Cell} (h : x.q = none) :
    (cellEnd g .noLock r x).1 = { x with
      margin := marginAfter x .noLock r.trim, state := .empty, lastOutcome := some r.outcome, lastTime := r.stop } := by
  simp only [cellEnd, afterNoLock, h]

/-- The cell after a DARK or FADED end that finds it with a Q (R65). -/
theorem cellEnd_noLock_some (g : Settings) (r : Record) {x : Cell} {q : Nat} (h : x.q = some q) :
    (cellEnd g .noLock r x).1 = { x with
      margin := marginAfter x .noLock r.trim, q := some (q / 2), fails := min 15 (x.fails + 1)
      state := if g.policy.lost ≤ min 15 (x.fails + 1) then .lost else .dark
      lastOutcome := some r.outcome, lastTime := r.stop } := by
  simp only [cellEnd, afterNoLock, h]
  rfl

/-- A visit end without a score that reads no roster, on the cell: outcome and time, and for DARK and FADED what R64 and
R65 give. -/
theorem visitEnd_cell_noRoster {g : Settings} {now : Time} {l : Lane} {e : Ending} {p : Plant} {c : CellRef}
    (h : (look p.lanes l).cell = some c) (hr : e.roster = .none) :
    let x := look p.lanes l
    let ce := cellEnd g (treatment e.outcome (x.state == .reading))
      (recordOf l x c now e (holdNote g p.lanes l e.outcome)) (look p.cells c)
    let q := visitEnd g now l e p
    ∃ engaged, look q.cells c = { ce.1 with due := dueTime g now q.dir c ce.1, engaged := engaged } := by
  intro x ce q
  obtain ⟨-, -, -, -, ⟨rf, ro, own, same⟩, -⟩ := visitEnd_spec (g := g) (now := now) (e := e) h
  obtain ⟨rfl, rfl⟩ := same hr
  exact ⟨_, own⟩

/-- An unscored visit end stamps the cell with its outcome and time, and leaves a record without a score (R66). -/
theorem visitEnd_unscored {g : Settings} {now : Time} {l : Lane} {e : Ending} {p : Plant} {c : CellRef}
    (h : (look p.lanes l).cell = some c) (ht : treatment e.outcome ((look p.lanes l).state == .reading) = .unscored)
    (hr : e.roster = .none) :
    let x := look p.cells c
    let y := look (visitEnd g now l e p).cells c
    y = { x with lastOutcome := some e.outcome, lastTime := now, due := y.due, engaged := y.engaged }
      ∧ (look (visitEnd g now l e p).lanes l).record
          = some (recordOf l (look p.lanes l) c now e (holdNote g p.lanes l e.outcome)) := by
  intro x y
  obtain ⟨engaged, own⟩ := visitEnd_cell_noRoster (g := g) (now := now) h hr
  have hrecord := visitEnd_record (g := g) (now := now) (e := e) h
  dsimp only at own hrecord
  rw [ht] at own hrecord
  obtain ⟨-, -, -, -, -, -, -, -, unscored, -⟩ := cellEnd_spec g .unscored
    (recordOf l (look p.lanes l) c now e (holdNote g p.lanes l e.outcome)) (look p.cells c)
  obtain ⟨stamped, none⟩ := unscored rfl
  rw [stamped] at own
  rw [none] at hrecord
  have hy : y = _ := own
  exact ⟨by rw [hy]; rfl, hrecord⟩

/-- A visit end in which nothing is scored and no roster is read leaves the directory as it was. -/
theorem visitEnd_unscored_dir {g : Settings} {now : Time} {l : Lane} {e : Ending} {p : Plant}
    (ht : treatment e.outcome ((look p.lanes l).state == .reading) = .unscored) (hr : e.roster = .none) :
    (visitEnd g now l e p).dir = p.dir := by
  cases h : (look p.lanes l).cell with
  | none => rw [visitEnd_none h]
  | some c =>
    obtain ⟨-, -, -, -, -, -, -, hdir⟩ := visitEnd_spec (g := g) (now := now) (e := e) h
    rw [hdir, ht, hr]
    simp only [visitDirectory, reduceCtorEq, false_and, if_false, if_true, processRoster, Work.finish, Work.start,
      evaluateMarked_nil, Plant.setCell_dir]

end Sys2Proof.Machine
end

section
/-! SUPPORT. What the ends of visits and holds leave in the lane and at the survey engine: the statements of the ends that
events bring, of the front-end fault and of Park Lane. -/

namespace Sys2Proof.Machine

/-! ## The hold field and the lock at a visit's end -/

theorem heldOthers_eq (lanes : Vector LaneRec 8) (l : Lane) :
    heldOthers lanes l = ((List.finRange 8).filter (fun k => k != l && (look lanes k).state == .held)).length :=
  List.countP_eq_length_filter

theorem holdNote_none {g : Settings} {lanes : Vector LaneRec 8} {l : Lane} {o : VisitOutcome}
    (h : mayHold o = false ∨ ∀ m ∈ (look lanes l).terms, m.hold = 0) : holdNote g lanes l o = .none := by
  unfold holdNote
  split
  · rfl
  · next m hm =>
    refine if_pos ?_
    rcases h with h | h
    · exact .inr h
    · exact .inl (h m hm)

theorem holdNote_asked (g : Settings) {lanes : Vector LaneRec 8} {l : Lane} {o : VisitOutcome} {m : SpotTerms}
    (hm : (look lanes l).terms = some m) (hh : 0 < m.hold) (ho : mayHold o = true) :
    holdNote g lanes l o = if heldOthers lanes l < g.watch.holdLimit then .taken else .refused := by
  unfold holdNote
  rw [hm]
  refine if_neg ?_
  rw [ho]
  simp
  omega

/-- PARTIAL is the end of READING by a loss of lock or by the gap timer (R28, R78). -/
theorem naturalEnd_part {s : State} {i : Instr} {l : Lane} (h : naturalEnd s i = some (l, .part)) :
    (look s.plant.lanes l).state = .reading ∧ ∃ lost : Bool, (lost = true ↔ i = .lockLoss l)
      ∧ exec i s = .next (s.work (fun g now p => visitEnd g now l (partEnd (look s.plant.lanes l) .part lost) p)) := by
  have next : ∀ t u : State, t = u → (.next t : Result) = .next u := fun _ _ h => by rw [h]
  have hstage : (look s.plant.lanes l).state = .reading ∧ (i = .lockLoss l ∨ i = .gapTimerExpiry l) := by
    simpa using naturalEnd_stage h
  obtain ⟨hstate, rfl | rfl⟩ := hstage <;> refine ⟨hstate, ?_⟩
  · exact ⟨true, by simp, next _ _ (by simp only [State.work, lockLost, hstate])⟩
  · refine ⟨false, by simp, next _ _ ?_⟩
    have hgap : (look s.plant.lanes l).state = .reading ∧ (look s.plant.lanes l).collector.gap.isSome = true := by
      simp only [naturalEnd] at h
      split at h
      · assumption
      · cases h
    simp only [State.work, gapTimeout, if_pos hgap]

/-- An event that ends a visit of its own accord is the end of that visit, with the lock that R151 gives at its end. -/
theorem naturalEnd_lock {s : State} {i : Instr} {l : Lane} {o : VisitOutcome} (h : naturalEnd s i = some (l, o)) :
    ∃ e, e.natural s l o ∧ exec i s = .next (s.work (fun g now p => visitEnd g now l e p))
      ∧ (lockAtEnd (look s.plant.lanes l) e = true ↔
          o ≠ .dark ∧ o ≠ .faded ∧ ¬ (o = .cut ∧ (look s.plant.lanes l).state = .tuning) ∧ i ≠ .lockLoss l) := by
  by_cases ho : o = .part
  · subst ho
    obtain ⟨hreading, lost, hlost, hexec⟩ := naturalEnd_part h
    have hnat : (partEnd (look s.plant.lanes l) .part lost).natural s l .part :=
      ⟨rfl, rfl, fun hn => absurd hreading hn⟩
    refine ⟨_, hnat, hexec, ?_⟩
    simp [lockAtEnd, partEnd, ← hlost]
  · obtain ⟨e, hnat, hexec⟩ := naturalEnd_exec h
    refine ⟨e, hnat, hexec, ?_⟩
    have he := hnat.1
    rcases naturalEnd_stage h with ⟨rfl, rfl⟩ | ⟨rfl, -⟩ | ⟨rfl, -⟩ | ⟨rfl, -⟩ | ⟨rfl | rfl, -, sec, rfl⟩
    · simp [lockAtEnd, he]
    · simp [lockAtEnd, he]
    · simp [lockAtEnd, he]
    · exact absurd rfl ho
    · simp [lockAtEnd, he]
    · simp [lockAtEnd, he]

/-! ## Ends of visits -/

theorem natural_resting {s : State} {l : Lane} {o : VisitOutcome} {e : Ending} (h : e.natural s l o) :
    e.next.resting = true := by rw [h.2.1]; rfl

/-- A visit's end leaves its lane's threshold offset and nothing of the visit's timers and units, whether or not the lane
then holds (R33). -/
theorem visitEnd_units {g : Settings} {now : Time} {l : Lane} {e : Ending} {p : Plant} {c : CellRef}
    (h : (look p.lanes l).cell = some c) :
    let y := look (visitEnd g now l e p).lanes l
    y.offset = (look p.lanes l).offset ∧ y.lockTimer = none ∧ y.dwellTimer = none ∧ y.measureTimer = none
      ∧ y.trim = TrimUnit.idle ∧ y.collector = Collector.idle ∧ y.start = none := by
  intro y
  obtain ⟨-, -, taken, left, -⟩ := visitEnd_spec (g := g) (now := now) (e := e) h
  have hy : y = look (visitEnd g now l e p).lanes l := rfl
  by_cases hn : holdNote g p.lanes l e.outcome = .taken
  · rw [hy, taken hn]
    exact ⟨rfl, rfl, rfl, rfl, rfl, rfl, rfl⟩
  · rw [hy, left hn]
    exact ⟨rfl, rfl, rfl, rfl, rfl, rfl, rfl⟩

/-- Settles O28: by the hold field, and by the survey engine's part of every visit end. -/
theorem visitEndAtTheLaneAndTheEngine : Obligations.VisitEndAtTheLaneAndTheEngine := by
  unfold Obligations.VisitEndAtTheLaneAndTheEngine
  refine ⟨fun i l o c s hi hcell => ?_, fun i l o c s hi hcell => ?_⟩
  · obtain ⟨e, ⟨ho, hnext, -⟩, hexec, hlock⟩ := naturalEnd_lock hi
    obtain ⟨-, -, taken, left, ⟨rf, ro, own, -⟩, -⟩ := visitEnd_spec (g := s.settings) (now := s.clock) (e := e) hcell
    have hmay : mayHold e.outcome = true := by rw [ho]; exact naturalEnd_mayHold hi
    obtain ⟨-, -, -, -, -, -, hengaged, -⟩ := cellEnd_spec s.settings
      (treatment e.outcome ((look s.plant.lanes l).state == .reading))
      (recordOf l (look s.plant.lanes l) c s.clock e (holdNote s.settings s.plant.lanes l e.outcome)) (look s.plant.cells c)
    obtain ⟨offset, lockTimer, dwellTimer, measureTimer, trim, collector, start⟩ :=
      visitEnd_units (g := s.settings) (now := s.clock) (e := e) hcell
    refine ⟨_, _, hexec, visitEnd_record hcell, ?_⟩
    intro x y others
    have hothers : heldOthers s.plant.lanes l = others := heldOthers_eq _ _
    by_cases hn : holdNote s.settings s.plant.lanes l e.outcome = .taken
    · have hy : y = _ := taken hn
      have hheld : y.state = .held := by rw [hy]; rfl
      rw [if_pos hn] at own
      refine ⟨offset, lockTimer, dwellTimer, measureTimer, trim, collector, start, fun m hm hh hlim => ?_,
        fun m hm hh hlim => ?_, fun hz => ?_, fun hidle => by rw [hheld] at hidle; cases hidle⟩
      · refine ⟨hn, hheld, by rw [hy]; exact hcell, by rw [hy]; exact hm, by rw [hy]; rfl, by rw [hy]; rfl, ?_,
          by rw [hy]; rfl, ⟨_, by rw [hy]; rfl, hlock⟩, ?_⟩
        · rw [hy, show (look s.plant.lanes l).terms = some m from hm]; rfl
        · rw [State.work_plant, own]; exact hengaged
      · rw [holdNote_asked s.settings hm hh hmay, hothers, if_neg (by omega)] at hn
        cases hn
      · rw [holdNote_none (.inr hz)] at hn
        cases hn
    · have hy : y = _ := left hn
      have hidle : y.state = .idle := by rw [hy]; exact hnext
      rw [if_neg hn] at own
      refine ⟨offset, lockTimer, dwellTimer, measureTimer, trim, collector, start, fun m hm hh hlim => ?_,
        fun m hm hh hlim => ⟨?_, hidle⟩, fun hz => ⟨holdNote_none (.inr hz), hidle⟩, fun _ => ?_⟩
      · rw [holdNote_asked s.settings hm hh hmay, hothers, if_pos hlim] at hn
        exact absurd rfl hn
      · exact (holdNote_asked s.settings hm hh hmay).trans (by rw [hothers]; exact if_neg (by omega))
      · rw [hy, State.work_plant, own]
        exact ⟨rfl, rfl, rfl, rfl, rfl, rfl, rfl, rfl⟩
  · obtain ⟨e, hnat, hexec⟩ := naturalEnd_exec hi
    obtain ⟨due, spot, engine, spots⟩ := visitEnd_engine (t := s.work (fun g now p => visitEnd g now l e p)) hcell
      (natural_resting hnat) (.refl l _)
    obtain ⟨rfl, -⟩ := hnat
    exact ⟨_, _, hexec, visitEnd_record hcell, due, spot, engine, rfl, rfl, spots⟩

end Sys2Proof.Machine
end

section
/-! SUPPORT. A lane taken out of its visit or hold from outside, by Park Lane or by a fault report: what stands afterwards,
and the statements of the two and of the ends without a score. -/

namespace Sys2Proof.Machine

/-! ## A lane taken down -/

/-- How a visit ends from outside: with no roster and no hold. -/
def outsideEnd (o : VisitOutcome) (next : LaneState) : Ending :=
  { outcome := o, roster := .none, summary := none, lockLost := false, next := next }

/-- A lane put into another state from outside: its visit or hold ends first. -/
def takeDown (g : Settings) (now : Time) (l : Lane) (o : VisitOutcome) (next : LaneState) (p : Plant) : Plant :=
  let x := look p.lanes l
  if x.inVisit then
    match x.cell with
    | some _ => visitEnd g now l (outsideEnd o next) p
    | none => p.setLane l (x.leave next)
  else if x.state = .held then holdEnd g now l next true p
  else p.setLane l { x with state := next }

theorem parkLane_eq (g : Settings) (now : Time) (l : Lane) (p : Plant) :
    parkLane g now l p = takeDown g now l .abandoned .parked p := rfl

theorem faultArrives_eq {g : Settings} {now : Time} {l : Lane} {p : Plant} (cause : LaneFaultCause)
    (h : (look p.lanes l).state ≠ .parked) :
    let q := takeDown g now l .fault .faulted p
    faultArrives l cause g now p
      = (q.setLane l { look q.lanes l with fault := some (cause, now) }).raise Condition.laneFault.bit := if_neg h

theorem outside_of_not_mayHold {o : VisitOutcome} (h : mayHold o = false) : o = .fault ∨ o = .abandoned := by
  revert h
  cases o <;> simp [mayHold]

/-- The end of a visit from outside, whole (R35, R66). -/
theorem visitEnd_outside {g : Settings} {now : Time} {l : Lane} {o : VisitOutcome} {next : LaneState} {p : Plant}
    {c : CellRef} (ho : mayHold o = false) (h : (look p.lanes l).cell = some c) :
    let q := visitEnd g now l (outsideEnd o next) p
    let x := look p.cells c
    (∀ k, k ≠ c → look q.cells k = look p.cells k)
      ∧ (∀ k, k ≠ l → look q.lanes k = look p.lanes k)
      ∧ look q.lanes l = { (look p.lanes l).leave next with
          record := some (recordOf l (look p.lanes l) c now (outsideEnd o next) .none) }
      ∧ look q.cells c = { x with
          lastOutcome := some o, lastTime := now, due := (look q.cells c).due, engaged := none }
      ∧ q.dir = p.dir := by
  intro q x
  have hnote : holdNote g p.lanes l (outsideEnd o next).outcome = .none := holdNote_none (.inl ho)
  have ht : treatment (outsideEnd o next).outcome ((look p.lanes l).state == .reading) = .unscored := by
    rcases outside_of_not_mayHold ho with rfl | rfl <;> rfl
  obtain ⟨cells, lanes, -, left, ⟨rf, ro, own, -⟩, -⟩ := visitEnd_spec (g := g) (now := now) (e := outsideEnd o next) h
  obtain ⟨stamped, hrecord⟩ := visitEnd_unscored (g := g) (now := now) (e := outsideEnd o next) h ht rfl
  have hlane := left (by rw [hnote]; simp)
  rw [hnote] at hrecord
  have hengaged : (look q.cells c).engaged = none := by
    rw [own]
    exact if_neg (by rw [hnote]; simp)
  rw [hengaged] at stamped
  refine ⟨cells, lanes, ?_, stamped, visitEnd_unscored_dir ht rfl⟩
  rw [hlane] at hrecord ⊢
  exact congrArg (fun r => { (look p.lanes l).leave next with record := r }) hrecord

/-- Lane l, taken down from what it was in s with outcome o into the state `next`, has led to the plant q; t is a state in
which this end stands. -/
structure TakenDown (s t : State) (l : Lane) (o : VisitOutcome) (next : LaneState) (q : Plant) : Prop where
  lanes   : ∀ k, k ≠ l → look q.lanes k = look s.plant.lanes k
  state   : (look q.lanes l).state = next
  options : (look q.lanes l).options = (look s.plant.lanes l).options
  pending : (look q.lanes l).pendingOpts = (look s.plant.lanes l).pendingOpts
  fault   : (look q.lanes l).fault = (look s.plant.lanes l).fault
  freed   : (look s.plant.lanes l).inVisit = true ∨ (look s.plant.lanes l).state = .held →
    (look q.lanes l).cell = none ∧ (look q.lanes l).terms = none ∧ (look q.lanes l).live = none
  rest    : (look s.plant.lanes l).cell = none → (look q.lanes l).cell = none ∧ q.cells = s.plant.cells
  calm    : (look s.plant.lanes l).inVisit = false →
    (look q.lanes l).record = (look s.plant.lanes l).record ∧ q.survey.results = s.plant.survey.results
      ∧ q.notice = s.plant.notice
  dir     : q.dir = s.plant.dir
  spots   : q.survey.spots = s.plant.survey.spots
  engine  : EngineTakesEnds s t (fun k => k == l && (look s.plant.lanes l).inVisit && (look s.plant.lanes l).cell.isSome)
  due     : ∀ c, (look s.plant.lanes l).inVisit = true ∨ (look s.plant.lanes l).state = .held →
    (look s.plant.lanes l).cell = some c →
      WatchScheduled s t c ∧ (look q.cells c).engaged = none ∧ ∀ k, k ≠ c → look q.cells k = look s.plant.cells k
  hold    : ∀ c, (look s.plant.lanes l).state = .held → (look s.plant.lanes l).cell = some c →
    look q.cells c = { look s.plant.cells c with
      engaged := none, due := dueTime s.settings s.clock s.plant.dir c (look s.plant.cells c) }
  visit   : ∀ c, (look s.plant.lanes l).inVisit = true → (look s.plant.lanes l).cell = some c →
    SpotReported s t l c o
      ∧ look q.cells c = { look s.plant.cells c with
          lastOutcome := some o, lastTime := s.clock, due := (look q.cells c).due, engaged := none }
      ∧ (look q.lanes l).record = some (recordOf l (look s.plant.lanes l) c s.clock (outsideEnd o next) .none)

theorem not_held_of_inVisit {x : LaneRec} (h : x.inVisit = true) : x.state ≠ .held :=
  fun hh => by simp [LaneRec.inVisit, hh] at h

/-- A lane taken down from a visit on a cell. -/
theorem takenDown_visit {s t : State} {l : Lane} {o : VisitOutcome} {next : LaneState} {c : CellRef}
    (hn : next.resting = true) (ho : mayHold o = false) (hv : (look s.plant.lanes l).inVisit = true)
    (hc : (look s.plant.lanes l).cell = some c)
    (ht : EndStands l (visitEnd s.settings s.clock l (outsideEnd o next) s.plant) t.plant) :
    TakenDown s t l o next (visitEnd s.settings s.clock l (outsideEnd o next) s.plant) := by
  obtain ⟨cells, lanes, lane, own, dir⟩ := visitEnd_outside (g := s.settings) (now := s.clock) (next := next) ho hc
  obtain ⟨due, spot, engine, spots⟩ := visitEnd_engine hc hn ht
  have hnot := not_held_of_inVisit hv
  have hcell : ∀ k, (look s.plant.lanes l).cell = some k → c = k := fun k hk => Option.some.inj (hc.symm.trans hk)
  exact {
    lanes := lanes
    state := by rw [lane]; rfl
    options := by rw [lane]; rfl
    pending := by rw [lane]; rfl
    fault := by rw [lane]; rfl
    freed := fun _ => by rw [lane]; exact ⟨rfl, rfl, rfl⟩
    rest := fun h => by rw [hc] at h; cases h
    calm := fun h => by rw [hv] at h; cases h
    dir := dir
    spots := by rw [← ht.survey]; exact spots
    engine := by simpa only [hv, hc, Option.isSome_some, Bool.and_true] using engine
    due := fun k _ hk => by
      obtain rfl := hcell k hk
      exact ⟨due, by rw [own], cells⟩
    hold := fun k h => absurd h hnot
    visit := fun k _ hk => by
      obtain rfl := hcell k hk
      exact ⟨spot, own, by rw [lane]⟩ }

/-- A lane taken down from a hold on a cell. -/
theorem takenDown_held {s t : State} {l : Lane} (o : VisitOutcome) {next : LaneState} {c : CellRef}
    (hh : (look s.plant.lanes l).state = .held) (hc : (look s.plant.lanes l).cell = some c)
    (ht : EndStands l (holdEnd s.settings s.clock l next true s.plant) t.plant) :
    TakenDown s t l o next (holdEnd s.settings s.clock l next true s.plant) := by
  have hv : (look s.plant.lanes l).inVisit = false := by simp [LaneRec.inVisit, hh]
  have hcell : ∀ k, (look s.plant.lanes l).cell = some k → c = k := fun k hk => Option.some.inj (hc.symm.trans hk)
  have hq := holdEnd_some (g := s.settings) (now := s.clock) (next := next) (setDue := true) hc
  have lane : look (holdEnd s.settings s.clock l next true s.plant).lanes l = (look s.plant.lanes l).leave next := by
    rw [hq]; exact look_put_self _ _ _
  have own : look (holdEnd s.settings s.clock l next true s.plant).cells c = { look s.plant.cells c with
      engaged := none, due := dueTime s.settings s.clock s.plant.dir c (look s.plant.cells c) } := by
    rw [hq]; exact look_put_self _ _ _
  have dir : (holdEnd s.settings s.clock l next true s.plant).dir = s.plant.dir := by rw [hq]; rfl
  have survey : (holdEnd s.settings s.clock l next true s.plant).survey = s.plant.survey := by rw [hq]; rfl
  exact {
    lanes := fun k hk => by rw [hq]; exact look_put_ne _ _ hk
    state := by rw [lane]; rfl
    options := by rw [lane]; rfl
    pending := by rw [lane]; rfl
    fault := by rw [lane]; rfl
    freed := fun _ => by rw [lane]; exact ⟨rfl, rfl, rfl⟩
    rest := fun h => by rw [hc] at h; cases h
    calm := fun _ => ⟨by rw [lane]; rfl, by rw [survey], by rw [hq]; rfl⟩
    dir := dir
    spots := by rw [survey]
    engine := .of_none (ht.survey.trans survey) (fun k => by rw [hv, Bool.and_false, Bool.false_and])
    due := fun k _ hk => by
      obtain rfl := hcell k hk
      refine ⟨.of_dueTime (y := look s.plant.cells c) ?_ ?_, by rw [own], fun j hj => ?_⟩
      · rw [ht.cells, own]
      · rw [ht.cells, ht.dir, own, dir]
      · rw [hq]; exact look_put_ne _ _ hj
    hold := fun k _ hk => by
      obtain rfl := hcell k hk
      exact own
    visit := fun k h => by rw [hv] at h; cases h }

/-- A lane taken down with no visit and no hold on a cell: only its own record changes. -/
theorem takenDown_bare {s t : State} {l : Lane} (o : VisitOutcome) {next : LaneState} {y : LaneRec}
    (hno : (look s.plant.lanes l).inVisit = true ∨ (look s.plant.lanes l).state = .held →
      (look s.plant.lanes l).cell = none ∧ y = (look s.plant.lanes l).leave next)
    (hrest : (look s.plant.lanes l).inVisit = false → (look s.plant.lanes l).state ≠ .held →
      y = { look s.plant.lanes l with state := next })
    (ht : EndStands l (s.plant.setLane l y) t.plant) : TakenDown s t l o next (s.plant.setLane l y) := by
  have lane : look (s.plant.setLane l y).lanes l = y := look_put_self _ _ _
  have hy : y = (look s.plant.lanes l).leave next ∨ y = { look s.plant.lanes l with state := next } := by
    by_cases h : (look s.plant.lanes l).inVisit = true ∨ (look s.plant.lanes l).state = .held
    · exact .inl (hno h).2
    · rw [not_or, Bool.not_eq_true] at h
      exact .inr (hrest h.1 h.2)
  have hend : ∀ c, (look s.plant.lanes l).inVisit = true ∨ (look s.plant.lanes l).state = .held →
      (look s.plant.lanes l).cell ≠ some c := fun c h e => by rw [(hno h).1] at e; cases e
  exact {
    lanes := fun k hk => look_put_ne _ _ hk
    state := by rw [lane]; rcases hy with rfl | rfl <;> rfl
    options := by rw [lane]; rcases hy with rfl | rfl <;> rfl
    pending := by rw [lane]; rcases hy with rfl | rfl <;> rfl
    fault := by rw [lane]; rcases hy with rfl | rfl <;> rfl
    freed := fun h => by rw [lane, (hno h).2]; exact ⟨rfl, rfl, rfl⟩
    rest := fun h => ⟨by rw [lane]; rcases hy with rfl | rfl; exacts [rfl, h], rfl⟩
    calm := fun _ => ⟨by rw [lane]; rcases hy with rfl | rfl <;> rfl, rfl, rfl⟩
    dir := rfl
    spots := rfl
    engine := .of_none ht.survey (fun k => by
      by_cases hv : (look s.plant.lanes l).inVisit = true
      · rw [(hno (.inl hv)).1, Option.isSome_none, Bool.and_false]
      · rw [Bool.not_eq_true] at hv
        rw [hv, Bool.and_false, Bool.false_and])
    due := fun c h hc => absurd hc (hend c h)
    hold := fun c h hc => absurd hc (hend c (.inr h))
    visit := fun c h hc => absurd hc (hend c (.inl h)) }

/-- A lane taken down, from whatever state (R35, R38, R39). -/
theorem takenDown {s t : State} {l : Lane} {o : VisitOutcome} {next : LaneState} (hn : next.resting = true)
    (ho : mayHold o = false) (ht : EndStands l (takeDown s.settings s.clock l o next s.plant) t.plant) :
    TakenDown s t l o next (takeDown s.settings s.clock l o next s.plant) := by
  unfold takeDown at ht ⊢
  dsimp only at ht ⊢
  by_cases hv : (look s.plant.lanes l).inVisit = true
  · rw [if_pos hv] at ht ⊢
    cases hc : (look s.plant.lanes l).cell with
    | some c =>
      rw [hc] at ht
      exact takenDown_visit hn ho hv hc ht
    | none =>
      rw [hc] at ht
      exact takenDown_bare o (fun _ => ⟨hc, rfl⟩) (fun h => by rw [hv] at h; cases h) ht
  · rw [if_neg hv] at ht ⊢
    by_cases hh : (look s.plant.lanes l).state = .held
    · rw [if_pos hh] at ht ⊢
      cases hc : (look s.plant.lanes l).cell with
      | some c => exact takenDown_held o hh hc ht
      | none =>
        have hq : holdEnd s.settings s.clock l next true s.plant = s.plant.setLane l ((look s.plant.lanes l).leave next) := by
          simp only [holdEnd, hc]
        rw [hq] at ht ⊢
        exact takenDown_bare o (fun _ => ⟨hc, rfl⟩) (fun _ h => absurd hh h) ht
    · rw [if_neg hh] at ht ⊢
      exact takenDown_bare o (fun h => absurd h (not_or.mpr ⟨hv, hh⟩)) (fun _ _ => rfl) ht

/-! ## A fault report -/

/-- A right lane is engaged on a cell exactly in a visit or a hold (Table 2.1). -/
theorem LaneRight.engaged_iff {x : LaneRec} (h : LaneRight x) :
    (∃ c, x.cell = some c) ↔ x.inVisit = true ∨ x.state = .held := by
  rw [← Option.isSome_iff_exists, h.1]
  simp

/-- Recording a fault on a lane and setting LANE_FAULT leaves what stands of a visit's end. -/
theorem EndStands.faulted {l : Lane} {q : Plant} (f : Option (LaneFaultCause × Time)) (m : Flags12) :
    EndStands l q ((q.setLane l { look q.lanes l with fault := f }).raise m) := by
  refine ⟨rfl, rfl, rfl, by simp, fun k hk => ?_⟩
  rw [Plant.raise_notice, Plant.setLane_notice, Notice.raise_conds]
  exact flags_sub_and_ne_zero (or_keeps _ _) hk

theorem not_parked_of_inVisit {x : LaneRec} (h : x.inVisit = true) : x.state ≠ .parked :=
  fun hp => by simp [LaneRec.inVisit, hp] at h

/-- A fault report on a lane that is not PARKED takes it down with FAULT, records the cause and sets LANE_FAULT (R38). -/
theorem faultArrives_takenDown {s : State} {l : Lane} (cause : LaneFaultCause)
    (h : (look s.plant.lanes l).state ≠ .parked) :
    let t := s.work (faultArrives l cause)
    let q := takeDown s.settings s.clock l .fault .faulted s.plant
    TakenDown s t l .fault .faulted q
      ∧ t.plant.cells = q.cells ∧ t.plant.lanes = put q.lanes l { look q.lanes l with fault := some (cause, s.clock) }
      ∧ t.plant.dir = q.dir ∧ t.plant.survey = q.survey ∧ t.plant.notice = q.notice.raise 0x020#12 := by
  intro t q
  have hplant : t.plant = (q.setLane l { look q.lanes l with fault := some (cause, s.clock) }).raise
      Condition.laneFault.bit := faultArrives_eq cause h
  refine ⟨takenDown rfl rfl ?_, ?_⟩
  · rw [hplant]; exact .faulted _ _
  · rw [hplant]; exact ⟨rfl, rfl, rfl, rfl, rfl⟩

/-- Settles O30: what stands of a lane taken down, with the fault record and LANE_FAULT. -/
theorem frontEndFaultTakesTheLaneDown : Obligations.FrontEndFaultTakesTheLaneDown := by
  unfold Obligations.FrontEndFaultTakesTheLaneDown
  intro l cause s hright hparked
  obtain ⟨h, hcells, hlanes, hdir, hsurvey, hnotice⟩ := faultArrives_takenDown cause hparked
  have hengaged : ∀ c, (look s.plant.lanes l).cell = some c → _ := fun c hc => hright.engaged_iff.mp ⟨c, hc⟩
  have hlane := (congrArg (fun v => look v l) hlanes).trans (look_put_self _ _ _)
  refine ⟨_, rfl, ⟨rfl, rfl, rfl, rfl, rfl, rfl, rfl⟩, fun k hk => ?_, by rw [hlane]; exact h.state, by rw [hlane], ?_, ?_,
    fun c hc => ?_, fun c hh hc => ?_, fun hh => ?_, hdir.trans h.dir, by rw [hsurvey]; exact h.spots, ?_,
    fun hv => by rw [hsurvey]; exact (h.calm hv).2.1, fun c hc => ?_, fun hc => by rw [hcells]; exact (h.rest hc).2,
    fun c hv hc => ⟨(h.visit c hv hc).1, _, by rw [hlane]; exact (h.visit c hv hc).2.2, rfl, rfl⟩⟩
  · rw [hlanes]; exact (look_put_ne _ _ hk).trans (h.lanes k hk)
  · rw [hlane]
    cases hc : (look s.plant.lanes l).cell with
    | none => exact (h.rest hc).1
    | some c => exact (h.freed (hengaged c hc)).1
  · rw [hnotice]; exact raised_and_ne_zero _ (by decide)
  · rw [hcells]; exact (h.due c (hengaged c hc) hc).2.1
  · rw [hcells, h.hold c hh hc]
  · rw [hnotice, (h.calm (by simp [LaneRec.inVisit, hh])).2.2, Notice.raise_conds, BitVec.and_or_distrib_right]
    exact BitVec.or_zero
  · convert h.engine using 2 with k
    cases hv : (look s.plant.lanes l).inVisit with
    | false => simp
    | true =>
      obtain ⟨c, hc⟩ := hright.engaged_iff.mpr (.inl hv)
      simp [hc]
  · obtain ⟨due, -, others⟩ := h.due c (hengaged c hc) hc
    exact ⟨due, fun k hk => by rw [hcells]; exact others k hk⟩

/-- Settles O27: DARK and FADED ends are treated as no lock; CUT before READING and FAULT as unscored. -/
theorem visitEndWithoutAScore : Obligations.VisitEndWithoutAScore := by
  unfold Obligations.VisitEndWithoutAScore
  refine ⟨fun i l o c s hi ho hcell => ?_, fun i l o c s hi hcell => ?_⟩
  · obtain ⟨e, ⟨rfl, -, hplain⟩, hexec⟩ := naturalEnd_exec hi
    obtain ⟨hroster, hsummary⟩ := hplain (naturalEnd_noLock hi ho)
    have ht : treatment e.outcome ((look s.plant.lanes l).state == .reading) = .noLock := by
      rcases ho with ho | ho <;> rw [ho] <;> rfl
    obtain ⟨cells, lanes, -⟩ := visitEnd_spec (g := s.settings) (now := s.clock) (e := e) hcell
    obtain ⟨engaged, own⟩ := visitEnd_cell_noRoster (g := s.settings) (now := s.clock) hcell hroster
    have hrecord := visitEnd_record (g := s.settings) (now := s.clock) (e := e) hcell
    dsimp only at own hrecord
    rw [ht] at own hrecord
    obtain ⟨defn, outcome, time, roster, refused, -, -, margin, -, noLock, -⟩ := cellEnd_spec s.settings .noLock
      (recordOf l (look s.plant.lanes l) c s.clock e (holdNote s.settings s.plant.lanes l e.outcome)) (look s.plant.cells c)
    obtain ⟨unscored, last⟩ := noLock rfl
    refine ⟨_, hexec, ⟨rfl, rfl, rfl, rfl, rfl, rfl, rfl⟩, cells, lanes, ?_⟩
    intro lane x y
    have hy : y = _ := own
    refine ⟨by rw [hy]; exact defn, by rw [hy]; exact last, by rw [hy]; exact outcome, by rw [hy]; exact time,
      by rw [hy]; exact roster, by rw [hy]; exact refused, by rw [hy]; exact margin.trans (marginAfter_eq _ _ (by decide)),
      fun hq => ?_, fun q hq => ?_, _, hrecord, rfl, rfl, rfl, rfl, rfl, rfl, rfl, unscored, hsummary⟩
    · rw [hy, cellEnd_noLock_none _ _ hq]
      exact ⟨hq, rfl, rfl, rfl⟩
    · rw [hy, cellEnd_noLock_some _ _ hq]
      exact ⟨rfl, rfl, rfl⟩
  · rcases hi with ⟨hi, rfl, hstate⟩ | ⟨cause, rfl, rfl, hv⟩
    · obtain ⟨e, ⟨ho, -, hplain⟩, hexec⟩ := naturalEnd_exec hi
      obtain ⟨hroster, hsummary⟩ := hplain hstate
      have ht : treatment e.outcome ((look s.plant.lanes l).state == .reading) = .unscored := by
        rw [ho, beq_false_of_ne hstate]; rfl
      obtain ⟨cells, lanes, -⟩ := visitEnd_spec (g := s.settings) (now := s.clock) (e := e) hcell
      obtain ⟨own, hrecord⟩ := visitEnd_unscored (g := s.settings) (now := s.clock) hcell ht hroster
      rw [ho] at own
      exact ⟨_, hexec, ⟨rfl, rfl, rfl, rfl, rfl, rfl, rfl⟩, cells, lanes, own, _, hrecord, ho, rfl, rfl, rfl, hsummary⟩
    · obtain ⟨h, hcells, hlanes, -⟩ := faultArrives_takenDown cause (not_parked_of_inVisit hv)
      obtain ⟨-, own, record⟩ := h.visit c hv hcell
      refine ⟨_, rfl, ⟨rfl, rfl, rfl, rfl, rfl, rfl, rfl⟩, fun k hk => ?_, fun k hk => ?_, ?_⟩
      · rw [hcells]; exact (h.due c (.inl hv) hcell).2.2 k hk
      · rw [hlanes]; exact (look_put_ne _ _ hk).trans (h.lanes k hk)
      · rw [hcells, hlanes, look_put_self]
        exact ⟨own.trans (by rw [own]), _, record, rfl, rfl, rfl, rfl, rfl⟩

/-! ## Park Lane -/

/-- Settles O19: Park Lane takes the lane down with ABANDONED, and does nothing else. -/
theorem parkLaneEndsEverything : Obligations.ParkLaneEndsEverything := by
  unfold Obligations.ParkLaneEndsEverything
  intro f b l s hs hp
  refine ⟨fun hb => ?_, fun hb => ?_⟩
  · have hrun : svcParkLane.run [b] s = refuse s .badValue := by
      simp only [svcParkLane, runParkLane, laneAt_refused (p := [b]) (i := 0) hb]
    exact next_served_at hs hp rfl (by simp) hrun
  have hrun : svcParkLane.run [b] s = ok { s with plant := takeDown s.settings s.clock l .abandoned .parked s.plant } [] := by
    simp only [svcParkLane, runParkLane, laneAt_eq (p := [b]) (i := 0) hb, parkLane_eq]
  have h := takenDown (s := s) (t := { s with plant := takeDown s.settings s.clock l .abandoned .parked s.plant })
    (l := l) (o := .abandoned) (next := .parked) rfl rfl (.refl l _)
  refine ⟨_, next_served_at hs hp rfl (by simp) hrun, ⟨rfl, rfl, rfl, rfl, rfl, rfl, rfl⟩, h.lanes, ?_⟩
  intro x y
  refine ⟨h.state, h.options, h.pending, h.fault, h.freed, fun hv => (h.calm hv).1,
    fun c hh hc => ⟨h.hold c hh hc, ?_, ?_⟩, h.dir, h.spots, h.engine, fun hv => (h.calm hv).2.1, fun c hv hc => (h.due c hv hc).1, fun c hv hc => ?_⟩
  · exact (h.due c (.inr hh) hc).2.2
  · exact (h.calm (by simp [LaneRec.inVisit, show (look s.plant.lanes l).state = .held from hh])).2.2
  · obtain ⟨spot, own, record⟩ := h.visit c hv hc
    exact ⟨spot, (h.due c (.inl hv) hc).2.2, own, ⟨_, record, rfl, rfl, rfl, rfl, rfl, rfl⟩, by rw [own], by rw [own],
      by rw [own], by rw [own]⟩

end Sys2Proof.Machine
end

section
/-! SUPPORT. The requests that put lanes into and out of service, and the reports and timers within a visit: the statements of
each. -/

namespace Sys2Proof.Machine

/-! ## Unpark Lane and Set Lane Options (R40, R41) -/

theorem runUnparkLane_refused {p : List Byte} {l : Lane} {s : State} (hl : laneAt p 0 = some l)
    (hp : (look s.plant.lanes l).state ≠ .parked) (hf : (look s.plant.lanes l).state ≠ .faulted) :
    runUnparkLane p s = refuse s .wrongState := by
  simp only [runUnparkLane, hl]
  exact if_neg (not_or.mpr ⟨hp, hf⟩)

theorem runUnparkLane_ok {p : List Byte} {l : Lane} {s : State} (hl : laneAt p 0 = some l)
    (h : (look s.plant.lanes l).state = .parked ∨ (look s.plant.lanes l).state = .faulted) :
    runUnparkLane p s = ok { s with plant := s.plant.setLane l (look s.plant.lanes l).unparked } [] := by
  simp only [runUnparkLane, hl]
  exact if_pos h

theorem optionsAt_refused {m reach st limit : Byte} (h : 2 ≤ reach.toNat ∨ st.toNat = 0 ∨ 3 ≤ st.toNat) :
    optionsAt [m, reach, st, limit] = none := by
  have hbad : reachAt [m, reach, st, limit] 1 = none ∨ stepAt [m, reach, st, limit] 2 = none := by
    have hr : byteAt [m, reach, st, limit] 1 = reach.toNat := rfl
    have hs : byteAt [m, reach, st, limit] 2 = st.toNat := rfl
    unfold reachAt stepAt
    rw [hr, hs]
    rcases h with h | h
    · exact .inl (by rw [if_neg (by omega), if_neg (by omega)])
    · exact .inr (by rw [if_neg (by omega), if_neg (by omega)])
  unfold optionsAt
  split
  · next hr hs => simp [hr, hs] at hbad
  · rfl

theorem optionsAt_eq {m reach st limit : Byte} {o : Options} (hr : reach.toNat = o.reach.code)
    (hs : st.toNat = o.step.size) (hl : limit = o.limit) : optionsAt [m, reach, st, limit] = some o := by
  have hreach : reachAt [m, reach, st, limit] 1 = some o.reach := by
    show (if reach.toNat = 0 then _ else if reach.toNat = 1 then _ else _) = _
    rw [hr]
    cases o.reach <;> rfl
  have hstep : stepAt [m, reach, st, limit] 2 = some o.step := by
    show (if st.toNat = 1 then _ else if st.toNat = 2 then _ else _) = _
    rw [hs]
    cases o.step <;> rfl
  rw [optionsAt, hreach, hstep, hl]
  rfl

theorem getLsbD_laneBit (l k : Lane) : (laneBit l).getLsbD k.val = (k == l) := by revert l k; decide

/-- Lane n is in the mask of the parked lanes exactly when it is PARKED. -/
theorem getLsbD_parkedMask (lanes : Vector LaneRec 8) (l : Lane) :
    (parkedMask lanes).getLsbD l.val = ((look lanes l).state == .parked) := by
  have hfold : ∀ (ks : List Lane) (m : BitVec 8),
      (ks.foldl (fun m k => if (look lanes k).state = .parked then m ||| laneBit k else m) m).getLsbD l.val
        = (m.getLsbD l.val || (ks.contains l && (look lanes l).state == .parked)) := by
    intro ks
    induction ks with
    | nil => simp
    | cons k ks ih =>
      intro m
      rw [List.foldl_cons, ih, List.contains_cons]
      by_cases hk : l = k
      · subst hk
        by_cases hp : (look lanes l).state = .parked
        · rw [if_pos hp, hp, BitVec.getLsbD_or, getLsbD_laneBit]; simp
        · rw [if_neg hp, beq_false_of_ne hp]; simp
      · rw [beq_false_of_ne hk, Bool.false_or]
        split
        · rw [BitVec.getLsbD_or, getLsbD_laneBit, beq_false_of_ne hk, Bool.or_false]
        · rfl
  rw [parkedMask, hfold]
  simp

/-- Settles O20: by the lane's state, and by the mask's bits. -/
theorem parkedLanesAreConfiguredAndReturned : Obligations.ParkedLanesAreConfiguredAndReturned := by
  unfold Obligations.ParkedLanesAreConfiguredAndReturned
  refine ⟨fun f b l s hs hp => ⟨fun hb => ?_, fun hb => ⟨fun h h' => ?_, fun h => ?_⟩⟩,
    fun f m reach st limit s hs hp => ⟨fun h => ?_, fun o hr hst hl => ?_⟩⟩
  · have hrun : svcUnparkLane.run [b] s = refuse s .badValue := by
      simp only [svcUnparkLane, runUnparkLane, laneAt_refused (p := [b]) (i := 0) hb]
    exact next_served_at hs hp rfl (by simp) hrun
  · exact next_served_at (v := svcUnparkLane) hs hp rfl (by simp) (runUnparkLane_refused (laneAt_eq hb) h h')
  · exact next_served_at (v := svcUnparkLane) hs hp rfl (by simp) (runUnparkLane_ok (laneAt_eq hb) h)
  · have hrun : svcSetLaneOptions.run [m, reach, st, limit] s = refuse s .badValue := by
      simp only [svcSetLaneOptions, runSetLaneOptions, optionsAt_refused h]
    exact next_served_at hs hp rfl (by simp) hrun
  · have hrun : svcSetLaneOptions.run [m, reach, st, limit] s =
        ok { s with plant := { s.plant with lanes := giveOptions m o s.plant.lanes } }
          [m &&& parkedMask s.plant.lanes, m &&& ~~~ parkedMask s.plant.lanes] := by
      simp only [svcSetLaneOptions, runSetLaneOptions, optionsAt_eq hr hst hl]
      rfl
    refine ⟨_, _, _, next_served_at hs hp rfl (by simp) hrun, ⟨rfl, rfl, rfl, rfl, rfl, rfl, rfl⟩, rfl, rfl, rfl, rfl,
      fun l => ⟨?_, ?_, ?_⟩⟩
    · refine (look_table _ l).trans (if_congr (and_congr_left fun _ => ?_) rfl rfl)
      rw [← and_laneBit_ne_zero, bne_iff_ne]
    · rw [BitVec.getLsbD_and, getLsbD_parkedMask]
    · have hl8 : l.val < 8 := l.isLt
      rw [BitVec.getLsbD_and, BitVec.getLsbD_not, getLsbD_parkedMask, decide_eq_true hl8, Bool.true_and]
      rfl

/-! ## Lock and the trim sweep (R26, R46 to R51) -/

/-- Settles O21: by the state of the lane. -/
theorem lockAndProbesMoveTheVisit : Obligations.LockAndProbesMoveTheVisit := by
  unfold Obligations.LockAndProbesMoveTheVisit
  have hlock : ∀ l s, exec (.lockArrival l) s = .next { s with plant := lockArrives l s.plant } := fun _ _ => rfl
  have hprobe : ∀ l n s, exec (.probeWindowExpiry l n) s = .next { s with plant := probeExpires l n s.plant } :=
    fun _ _ _ => rfl
  refine ⟨fun l s => ⟨fun ht hterms => ?_, fun m ht hm htrim => ?_, fun hh => ?_, fun ht hh => ?_⟩,
    fun l n s => ⟨fun ht => ?_, fun u ht hu => ?_, fun r ht hr => ?_⟩⟩
  · have hskip : (look s.plant.lanes l).skipsTrim = false := by
      unfold LaneRec.skipsTrim
      split
      · next m hm => rw [hterms m hm]; rfl
      · rfl
    rw [hlock]
    simp only [lockArrives, ht, LaneRec.locked, hskip, Bool.false_eq_true, if_false, TrimUnit.begin]
  · have hskip : (look s.plant.lanes l).skipsTrim = true := by
      simp only [LaneRec.skipsTrim, hm, htrim, Bool.not_false]
    rw [hlock]
    simp only [lockArrives, ht, LaneRec.locked, hskip, if_true, LaneRec.measure]
  · rw [hlock]
    simp only [lockArrives, hh, LaneRec.heldLock, LaneRec.liveLock]
  · have hsame : lockArrives l s.plant = s.plant := by
      unfold lockArrives
      dsimp only
      split
      · next h => exact absurd h ht
      · next h => exact absurd h hh
      all_goals rfl
    rw [hlock, hsame]
  · rw [hprobe, probeExpires, if_neg ht]
  · rw [hprobe, probeExpires, if_pos ht, hu]
  · rw [hprobe, probeExpires, if_pos ht, hr]
    rfl

/-! ## Readings (R28) -/

/-- Settles O23: by the lane's state; the means are those of at least one reading. -/
theorem readingsFormTheMeasurement : Obligations.ReadingsFormTheMeasurement := by
  unfold Obligations.ReadingsFormTheMeasurement
  have hread : ∀ l m v d b s, exec (.frontEndReading l m v d b) s
      = .next { s with plant := readingArrives l m v d b s.plant } := fun _ _ _ _ _ _ => rfl
  refine ⟨fun l mer level load blocks s =>
      ⟨fun h => ⟨clampTo 0 400 mer, clampTo 20 110 level, ?_, ?_, ?_⟩, fun hm hh => ?_⟩,
    fun l s hm ht hn => ?_⟩
  · unfold clampTo; omega
  · unfold clampTo; omega
  · rw [hread, readingArrives, if_pos h]
    rfl
  · rw [hread, readingArrives, if_neg (not_or.mpr ⟨hm, hh⟩)]
  · have hexec : exec (.measureTimerExpiry l) s = .next (measureTimeout l s) := rfl
    have hsome : (look s.plant.lanes l).gathered.n ≠ 0 := Nat.one_le_iff_ne_zero.mp hn
    rw [hexec, measureTimeout, if_pos ⟨hm, ht⟩]
    simp only [LaneRec.measured, Gathered.means, Gathered.drawsAfter, if_neg hsome]
    rfl

/-! ## Reports outside their stage (R31) -/

theorem not_inVisit_of {x : LaneRec} (h : x.inVisit = false) :
    x.state ≠ .tuning ∧ x.state ≠ .trimming ∧ x.state ≠ .measuring ∧ x.state ≠ .reading := by
  refine ⟨?_, ?_, ?_, ?_⟩ <;> intro e <;> simp [LaneRec.inVisit, e] at h

/-- Work that leaves the survey's part of the machine as it was changes nothing. -/
theorem next_work_same {s : State} {k : Settings → Time → Plant → Plant} (h : k s.settings s.clock s.plant = s.plant) :
    (.next (s.work k) : Result) = .next s := by rw [State.work, h]

/-- A loss of lock outside the stages after TUNING and outside a hold. -/
theorem lockLost_outside {g : Settings} {now : Time} {l : Lane} {p : Plant}
    (h : (look p.lanes l).state = .tuning ∨ (look p.lanes l).inVisit = false ∧ (look p.lanes l).state ≠ .held) :
    lockLost l g now p = p := by
  unfold lockLost
  rcases h with h | ⟨hv, hh⟩
  · simp only [h]
  · obtain ⟨-, h1, h2, h3⟩ := not_inVisit_of hv
    dsimp only
    split
    · next h => exact absurd h h1
    · next h => exact absurd h h2
    · next h => exact absurd h h3
    · next h => exact absurd h hh
    all_goals rfl

/-- Settles O29: each event's guard asks for its stage. -/
theorem reportsOutsideTheirStageAreDiscarded : Obligations.ReportsOutsideTheirStageAreDiscarded := by
  unfold Obligations.ReportsOutsideTheirStageAreDiscarded
  intro l s x
  refine ⟨fun h => next_work_same (if_neg fun hc => h hc.1),
    fun hv hh => next_work_same (lockLost_outside (.inr ⟨hv, hh⟩)),
    fun h => next_work_same (lockLost_outside (.inl h)), fun h => congrArg Host.Outcome.next (if_neg fun hc => h hc.1),
    fun sec h => next_work_same ?_, fun h => next_work_same (if_neg fun hc => h hc.1),
    fun h => next_work_same (if_neg fun hc => ?_),
    fun h => ⟨congrArg Host.Outcome.next (if_neg fun hc => h hc.1), next_work_same (if_neg fun hc => h ?_)⟩,
    fun cause h => next_work_same (if_pos h)⟩
  · unfold sectionArrives
    dsimp only
    split
    · rfl
    · exact if_neg fun hc => h hc.1
  · rw [show (look s.plant.lanes l).inVisit = false from h] at hc
    cases hc.1
  · unfold LaneRec.holdOver at hc
    split at hc
    · simp only [Bool.and_eq_true, beq_iff_eq] at hc
      exact hc.1
    · cases hc

end Sys2Proof.Machine
end

section
/-! SUPPORT. What one grant of the arbiter does, by the work it takes: the statement of the arbiter. -/

namespace Sys2Proof.Machine

/-! ## The choice (Figure 9.1) -/

section
variable {g : Settings} {now : Time} {l : Lane} {p : Plant}

theorem grantOne_noLane (h : idleLane p.lanes = none) : grantOne g now p = p := by
  unfold grantOne
  rw [h]

theorem grantOne_spot {e : SpotEntry} (hl : idleLane p.lanes = some l)
    (he : p.survey.spots.find? (spotGrantable g p) = some e) : grantOne g now p = grantSpot g now l e p := by
  unfold grantOne
  simp only [hl, he]

theorem grantOne_survey (hl : idleLane p.lanes = some l) (he : p.survey.spots.find? (spotGrantable g p) = none) :
    grantOne g now p = if p.survey.state = .running then grantSurvey g now l p else p := by
  unfold grantOne
  simp only [hl, he]

theorem grantSurvey_none (hw : watchOffer now p = none) (hs : sweepOffer p = none) : grantSurvey g now l p = p := by
  unfold grantSurvey
  rw [hw, hs]

theorem grantSurvey_watch {c : CellRef} (hw : watchOffer now p = some c)
    (hs : p.survey.share < g.watch.share ∨ sweepOffer p = none) : grantSurvey g now l p = grantWatch g now l c p := by
  unfold grantSurvey
  rw [hw]
  cases hk : sweepOffer p with
  | none => rfl
  | some k =>
    rw [hk] at hs
    exact if_neg (by simpa using hs)

theorem grantSurvey_sweep {k : Nat} (hs : sweepOffer p = some k)
    (hw : g.watch.share ≤ p.survey.share ∨ watchOffer now p = none) : grantSurvey g now l p = grantSweep g now l k p := by
  unfold grantSurvey
  rw [hs]
  cases hc : watchOffer now p with
  | none => rfl
  | some c =>
    rw [hc] at hw
    exact if_pos (by simpa using hw)

end

theorem stepGrant_eq (l : Lane) (v : Survey) :
    stepGrant l v = { v with
      stepped := if v.stepMode then v.stepped ||| laneBit l else v.stepped
      state := if v.stepMode then .paused else v.state } := by
  obtain ⟨_, stepMode, _⟩ := v
  cases stepMode <;> rfl

/-! ## What a grant leaves -/

/-- A grant of lane l on cell c of this class: the lane and the cell as R25 and R147 give them, other cells and other lanes
as they were. -/
structure Granted (g : Settings) (now : Time) (l : Lane) (c : CellRef) (k : VisitClass) (terms : Option SpotTerms)
    (p q : Plant) : Prop where
  otherCells : ∀ j, j ≠ c → look q.cells j = look p.cells j
  otherLanes : ∀ j, j ≠ l → look q.lanes j = look p.lanes j
  lane       : look q.lanes l = (look p.lanes l).granted g now c k terms
  cell       : look q.cells c = { look p.cells c with engaged := some l }

theorem granted_spot (g : Settings) (now : Time) (l : Lane) (e : SpotEntry) (p : Plant) :
    let q := grantSpot g now l e p
    Granted g now l e.cell .spot (some { trim := e.trim, hold := e.hold, ticket := e.ticket }) p q
      ∧ q.survey = { p.survey with spots := p.survey.spots.erase e } ∧ q.dir = p.dir ∧ q.notice = p.notice := by
  obtain ⟨lane, lanes, cell, cells, dir, survey, notice⟩ := startVisit_spec g now l e.cell .spot
    (some { trim := e.trim, hold := e.hold, ticket := e.ticket })
    { p with survey := { p.survey with spots := p.survey.spots.erase e } }
  exact ⟨⟨cells, lanes, lane, cell⟩, survey, dir, notice⟩

theorem granted_watch (g : Settings) (now : Time) (l : Lane) (c : CellRef) (p : Plant) :
    let q := grantWatch g now l c p
    Granted g now l c .watch none p q ∧ q.survey = stepGrant l { p.survey with share := min 15 (p.survey.share + 1) }
      ∧ q.dir = p.dir ∧ q.notice = p.notice := by
  obtain ⟨lane, lanes, cell, cells, dir, survey, notice⟩ := startVisit_spec g now l c .watch none
    { p with survey := stepGrant l { p.survey with share := satAdd 15 p.survey.share 1 } }
  exact ⟨⟨cells, lanes, lane, cell⟩, survey, dir, notice⟩

/-- The survey record after a sweep grant, its pass not yet counted (R140, R146, R149). -/
def sweptSurvey (l : Lane) (k : Nat) (v : Survey) : Survey :=
  stepGrant l { v with share := 0, cursor := ahead v.cursor (k + 1) }

/-- A sweep grant before its pass is completed. -/
theorem granted_sweep (g : Settings) (now : Time) (l : Lane) (k : Nat) (p : Plant) :
    ∃ q, Granted g now l (ahead p.survey.cursor k) .sweep none p q ∧ q.survey = sweptSurvey l k p.survey
      ∧ q.dir = p.dir ∧ q.notice = p.notice
      ∧ grantSweep g now l k p = if 576 ≤ p.survey.cursor.val + k + 1 then completePass g now q else q := by
  obtain ⟨lane, lanes, cell, cells, dir, survey, notice⟩ := startVisit_spec g now l (ahead p.survey.cursor k) .sweep none
    { p with survey := sweptSurvey l k p.survey }
  exact ⟨_, ⟨cells, lanes, lane, cell⟩, survey, dir, notice, rfl⟩

theorem Granted.completePass {g : Settings} {now : Time} {l : Lane} {c : CellRef} {k : VisitClass}
    {terms : Option SpotTerms} {p q : Plant} (h : Granted g now l c k terms p q) :
    Granted g now l c k terms p (completePass g now q) := ⟨h.otherCells, h.otherLanes, h.lane, h.cell⟩

/-! ## The end of the recall grace (R119) -/

/-- LIVE or ORPHAN: the service has been judged (R101). -/
def Slot.isJudged (x : Slot) : Prop := x.state = .live ∨ x.state = .orphan

/-- An evaluation of a service that is in use and not RETIRING judges it. -/
theorem evaluate_judges {v : View} {n : SlotNo} {b : Books} (h : evaluates (look b.dir.slots n) true = true) :
    (look (evaluate v true n b).dir.slots n).isJudged := by
  obtain ⟨-, -, -, hself, -⟩ := evaluate_spec v true n b
  obtain ⟨a, ha⟩ := hself h
  obtain ⟨-, hstate, -⟩ := evaluated_spec v b.dir n (look b.dir.slots n)
  rw [Slot.isJudged, ha, hstate]
  cases hasRankable v b.dir n
  · exact .inr rfl
  · exact .inl rfl

theorem Slot.isJudged.evaluates {x : Slot} (h : x.isJudged) : evaluates x true = true := by
  rcases h with h | h <;> simp [Machine.evaluates, h]

/-- A run of evaluations leaves each of its services judged that it finds so, or in use and not RETIRING. -/
theorem evaluations_judge (v : View) {n : SlotNo} (ns : List SlotNo) (b : Books)
    (h : (look b.dir.slots n).isJudged ∨ n ∈ ns ∧ evaluates (look b.dir.slots n) true = true) :
    (look (ns.foldl (fun b k => evaluate v true k b) b).dir.slots n).isJudged := by
  induction ns generalizing b with
  | nil => simpa using h
  | cons k ns ih =>
    rw [List.foldl_cons]
    refine ih _ ?_
    by_cases hk : n = k
    · subst hk
      exact .inl (evaluate_judges (h.elim Slot.isJudged.evaluates And.right))
    · obtain ⟨-, -, hother, -⟩ := evaluate_spec v true k b
      rw [hother n hk]
      exact h.imp_right fun ⟨hm, he⟩ => ⟨(List.mem_cons.mp hm).resolve_left hk, he⟩

/-- The evaluations of released services alone, in slot order. -/
theorem evaluateMarked_released (v : View) (b : Books) (test : SlotNo → Bool) :
    evaluateMarked v [] ((List.finRange 512).filter test) b
      = ((List.finRange 512).filter test).foldl (fun b n => evaluate v true n b) b := by
  have hmem : ∀ n, ((List.finRange 512).filter test).contains n = test n := fun n => by
    rw [Bool.eq_iff_iff, List.contains_iff_mem, List.mem_filter]
    simp
  unfold evaluateMarked
  rw [List.foldl_filter]
  simp only [hmem, List.contains_nil, Bool.false_eq_true, if_false]

/-- A completed pass while no service is in its grace. -/
theorem completePass_noGrace {g : Settings} {now : Time} {p : Plant} (h : p.dir.grace = false) :
    (completePass g now p).dir = p.dir := by
  unfold completePass endGrace
  simp only [h, Bool.false_eq_true, if_false]

/-- The completed pass that ends the recall grace: every PROVISIONAL service is released and evaluated, in slot order. -/
theorem completePass_grace {g : Settings} {now : Time} {p : Plant} (h : p.dir.grace = true) {v : View}
    (hv : v = { cells := p.cells, feeds := g.feeds, policy := g.policy, now := now }) {b : Books}
    (hb : b = p.dir.provisional.foldl (fun b n => evaluate v true n b)
      { dir := { p.dir with grace := false }, raised := 0x002#12 }) :
    (completePass g now p).dir = b.dir ∧ (completePass g now p).notice = p.notice.raise b.raised
      ∧ (∀ n ∉ p.dir.provisional, look b.dir.slots n = look p.dir.slots n)
      ∧ ∀ n ∈ p.dir.provisional, (look b.dir.slots n).isJudged := by
  have hmarked : evaluateMarked v [] p.dir.provisional { dir := { p.dir with grace := false }, raised := 0x002#12 } = b := by
    rw [hb, Dir.provisional, evaluateMarked_released]
  have hgrace : endGrace v { dir := p.dir, raised := Condition.sweepDone.bit } = b := (if_pos h).trans hmarked
  refine ⟨?_, ?_, fun n hn => ?_, fun n hn => ?_⟩
  · rw [← hgrace, hv]; rfl
  · rw [← hgrace, hv]; rfl
  · rw [← hmarked]
    exact evaluateMarked_other _ List.not_mem_nil hn
  · rw [hb]
    refine evaluations_judge v _ _ (.inr ⟨hn, ?_⟩)
    have hprov : (look p.dir.slots n).state = .provisional := by
      have hn := (List.mem_filter.mp hn).2
      simpa using hn
    simp [evaluates, hprov]

/-! ## The statement -/

/-- A sweep grant, whole: the survey record, and what a completed pass adds. -/
theorem grantSweep_spec (g : Settings) (now : Time) (l : Lane) (k : Nat) (p : Plant) :
    let t := grantSweep g now l k p
    Granted g now l (ahead p.survey.cursor k) .sweep none p t
      ∧ (p.survey.cursor.val + k + 1 < 576 → t.survey = sweptSurvey l k p.survey ∧ t.dir = p.dir ∧ t.notice = p.notice)
      ∧ (576 ≤ p.survey.cursor.val + k + 1 → ∃ q : Plant, q.cells = t.cells ∧ q.dir = p.dir ∧ q.notice = p.notice
          ∧ q.survey = sweptSurvey l k p.survey ∧ t = completePass g now q) := by
  intro t
  obtain ⟨q, hq, survey, dir, notice, ht⟩ := granted_sweep g now l k p
  by_cases hpass : 576 ≤ p.survey.cursor.val + k + 1
  · have ht' : t = completePass g now q := ht.trans (if_pos hpass)
    refine ⟨?_, fun h => absurd hpass (by omega), fun _ => ⟨q, by rw [ht']; rfl, dir, notice, survey, ht'⟩⟩
    rw [ht']; exact hq.completePass
  · have ht' : t = q := ht.trans (if_neg hpass)
    rw [ht']
    exact ⟨hq, fun _ => ⟨survey, dir, notice⟩, fun h => absurd h hpass⟩

/-- A sweep grant while the survey runs, on the survey record. -/
theorem grantSweep_survey (g : Settings) (now : Time) (l : Lane) (k : Nat) {p : Plant} (hrun : p.survey.state = .running) :
    let v := (grantSweep g now l k p).survey
    v.share = 0 ∧ v.cursor = ahead p.survey.cursor (k + 1)
      ∧ v.state = (if p.survey.stepMode then .paused else .running)
      ∧ v.stepped = (if p.survey.stepMode then p.survey.stepped ||| laneBit l else p.survey.stepped)
      ∧ v.passes = if 576 ≤ p.survey.cursor.val + k + 1 then p.survey.passes + 1 else p.survey.passes := by
  intro v
  obtain ⟨-, within, complete⟩ := grantSweep_spec g now l k p
  by_cases hpass : 576 ≤ p.survey.cursor.val + k + 1
  · obtain ⟨q, -, -, -, survey, ht⟩ := complete hpass
    have hv : v = { sweptSurvey l k p.survey with passes := (sweptSurvey l k p.survey).passes + 1 } := by
      rw [← survey]
      exact congrArg Plant.survey ht
    rw [hv, sweptSurvey, stepGrant_eq, if_pos hpass]
    exact ⟨rfl, rfl, by rw [← hrun], rfl, rfl⟩
  · have hv : v = sweptSurvey l k p.survey := (within (by omega)).1
    rw [hv, sweptSurvey, stepGrant_eq, if_neg hpass]
    exact ⟨rfl, rfl, by rw [← hrun], rfl, rfl⟩

theorem heldLanes_eq (lanes : Vector LaneRec 8) :
    heldLanes lanes = ((List.finRange 8).filter (fun l => (look lanes l).state == .held)).length :=
  (countIn_eq lanes _).trans List.countP_eq_length_filter

theorem spotGrantable_iff (g : Settings) (p : Plant) (e : SpotEntry) :
    spotGrantable g p e = true ↔ (look p.cells e.cell).engaged = none
      ∧ (e.hold = 0 ∨ ((List.finRange 8).filter (fun l => (look p.lanes l).state == .held)).length < g.watch.holdLimit) := by
  rw [← heldLanes_eq]
  simp [spotGrantable]

theorem sweepGrantable_iff (p : Plant) (c : CellRef) :
    sweepGrantable p c = true ↔
      (look p.cells c).state ≠ .vacant ∧ (look p.cells c).state ≠ .barred ∧ (look p.cells c).engaged = none := by
  simp [sweepGrantable, and_assoc]

/-- Settles O46: by the work that the arbiter takes. -/
theorem grantFollowsTheArbiter : Obligations.GrantFollowsTheArbiter := by
  unfold Obligations.GrantFollowsTheArbiter
  refine ⟨fun s => ⟨fun h => next_work_same (grantOne_noLane h), fun l hl => ?_⟩,
    fun x g now c k terms => ⟨rfl, rfl, rfl, rfl, rfl, rfl, rfl, rfl, rfl, rfl, rfl, rfl, rfl, rfl, rfl, rfl⟩,
    spotGrantable_iff, sweepGrantable_iff, fun _ _ => rfl, fun _ _ => rfl⟩
  have hexec : ∀ q, grantOne s.settings s.clock s.plant = q → exec .grant s = .next { s with plant := q } := fun q hq => by
    rw [← hq]; rfl
  refine ⟨(idleLane_some hl).1, (idleLane_some hl).2, fun e he => ?_, fun hno => ⟨fun hrun => ?_, fun hrun hw hs => ?_,
    fun c hrun hw hs => ?_, fun k hrun hs hw => ?_⟩⟩
  · obtain ⟨h, survey, dir, notice⟩ := granted_spot s.settings s.clock l e s.plant
    exact ⟨_, hexec _ (grantOne_spot hl he), ⟨rfl, rfl, rfl, rfl, rfl, rfl, rfl⟩, h.otherCells, h.otherLanes, h.lane,
      h.cell, survey, dir, notice⟩
  · exact next_work_same ((grantOne_survey hl hno).trans (if_neg hrun))
  · exact next_work_same ((grantOne_survey hl hno).trans ((if_pos hrun).trans (grantSurvey_none hw hs)))
  · obtain ⟨h, survey, dir, notice⟩ := granted_watch s.settings s.clock l c s.plant
    rw [stepGrant_eq] at survey
    have hgrant := (grantOne_survey (now := s.clock) hl hno).trans ((if_pos hrun).trans (grantSurvey_watch hw hs))
    refine ⟨_, hexec _ hgrant, ⟨rfl, rfl, rfl, rfl, rfl, rfl, rfl⟩, h.otherCells, h.otherLanes, h.lane, h.cell, ?_, ?_, ?_,
      ?_, dir, notice⟩
    · rw [survey]
    · rw [survey]
    · rw [survey, ← hrun]
    · rw [survey]
  · obtain ⟨h, within, complete⟩ := grantSweep_spec s.settings s.clock l k s.plant
    obtain ⟨share, cursor, state, stepped, passes⟩ := grantSweep_survey s.settings s.clock l k hrun
    have hgrant := (grantOne_survey (now := s.clock) hl hno).trans ((if_pos hrun).trans (grantSurvey_sweep hs hw))
    refine ⟨_, hexec _ hgrant, ⟨rfl, rfl, rfl, rfl, rfl, rfl, rfl⟩, h.otherCells, h.otherLanes, h.lane, h.cell, share,
      cursor, state, stepped, fun hp => ⟨passes.trans (if_neg (by omega)), (within hp).2⟩,
      fun hp => ⟨passes.trans (if_pos hp), ?_⟩⟩
    obtain ⟨q, cells, dir, notice, -, ht⟩ := complete hp
    obtain ⟨-, -, -, grace, -, m, hm, hdone⟩ := completePass_spec s.settings s.clock q
    dsimp only
    rw [← cells, ht]
    refine ⟨?_, grace, fun hg => ?_, fun hg => ?_⟩
    · rw [hm]; exact raised_and_ne_zero _ (flags_sub_and_ne_zero hdone (by decide))
    · rw [← dir] at hg ⊢
      exact completePass_noGrace hg
    · rw [← dir] at hg
      obtain ⟨hdir, hnotice, other, judged⟩ := completePass_grace (g := s.settings) (now := s.clock) hg rfl rfl
      rw [dir] at hdir hnotice other judged
      rw [hdir, hnotice, notice]
      exact ⟨rfl, rfl, other, judged⟩

end Sys2Proof.Machine
end

section
/-! SUPPORT. The requests of the retained store, and what a restart with a valid store brings back: the statements of the
two. -/

namespace Sys2Proof.Machine

/-! ## Save Snapshot, Erase Store, Read Store Status (R178, R180, R182) -/

theorem mem_savedSlots {d : Dir} {n : SlotNo} : n ∈ savedSlots d ↔ (look d.slots n).state ≠ .free := by
  rw [savedSlots, List.mem_filter, bne_iff_ne]
  exact and_iff_right (List.mem_finRange n)

theorem savedSlots_sorted (d : Dir) : (savedSlots d).Pairwise (· < ·) :=
  (List.pairwise_lt_finRange 512).filter _

theorem imageOf_services (s : State) :
    (imageOf s).services = (savedSlots s.plant.dir).map (fun n =>
      let x := look s.plant.dir.slots n
      { key := x.key, kind := x.kind, name := x.name, reported := x.reported, pin := x.pin }) := by
  simp only [imageOf, savedService]

theorem bYes_erasing (w : Writer) : bYes (w == .erasing) = [if w = .erasing then 1 else 0] := by
  by_cases hw : w = .erasing <;> simp [bYes, hw]

theorem bStoreStatus_blank {t : Store} (h : t.status = .blank) :
    bStoreStatus t = [0, 0, 0, 0, 0, 0, 0] ++ [if t.writer = .erasing then 1 else 0] := by
  have hflags : flagBytes [false, false, false, false] = [0#8] := by decide
  rw [← bYes_erasing]
  simp only [bStoreStatus, h]
  show flagBytes [false, false, false, false] ++ b1 0 ++ [0, 0] ++ [0] ++ [0] ++ [0] ++ bYes (t.writer == .erasing) = _
  rw [hflags]
  rfl

theorem bStoreStatus_valid {t : Store} (h : t.status = .valid) :
    bStoreStatus t = [3, 1] ++ b2 t.saveCount.toNat ++ b1 (headerPages t.mem) ++ [0, 0]
      ++ [if t.writer = .erasing then 1 else 0] := by
  have hflags : flagBytes [true, true, false, false] = [3#8] := by decide
  rw [← bYes_erasing]
  simp only [bStoreStatus, h]
  show flagBytes [true, true, false, false] ++ b1 1 ++ b2 t.saveCount.toNat ++ b1 (headerPages t.mem) ++ [0] ++ [0]
    ++ bYes (t.writer == .erasing) = _
  rw [hflags]
  rfl

theorem bStoreStatus_saving {t : Store} {cap : Capture} (h : t.status = .saving) (hc : t.capture = some cap) :
    bStoreStatus t = [12, 2, 0, 0, 0] ++ b1 t.verified ++ b1 cap.pages ++ [if t.writer = .erasing then 1 else 0] := by
  have hflags : flagBytes [false, false, true, true] = [12#8] := by decide
  rw [← bYes_erasing]
  simp only [bStoreStatus, h, hc]
  show flagBytes [false, false, true, true] ++ b1 2 ++ [0, 0] ++ [0] ++ b1 t.verified ++ b1 cap.pages
    ++ bYes (t.writer == .erasing) = _
  rw [hflags]
  rfl

theorem runSaveSnapshot_idle {s : State} (p : List Byte) (h : s.store.writer = .idle) :
    runSaveSnapshot p s = ok (beginSave s) [] := if_pos h

theorem runSaveSnapshot_busy {s : State} (p : List Byte) (h : s.store.writer ≠ .idle) :
    runSaveSnapshot p s = refuse s .busy := if_neg h

theorem runEraseStore_idle {s : State} (p : List Byte) (h : s.store.writer = .idle) :
    runEraseStore p s = ok (s.setStore { s.store with status := .blank, writer := .erasing }) [] := if_pos h

theorem runEraseStore_busy {s : State} (p : List Byte) (h : s.store.writer ≠ .idle) :
    runEraseStore p s = refuse s .busy := if_neg h

/-- The completion of Erase Store's erase (R180). -/
theorem eraseComplete_erasing {s : State} (h : s.store.writer = .erasing) :
    eraseComplete s = { s with
      plant := { s.plant with notice := s.plant.notice.raise 0x200#12 }
      store := { s.store with mem := Memory.erasePage s.store.mem 0, writer := .idle } } := by
  unfold eraseComplete
  simp only [h]
  rfl

/-- Settles O48: by whether the page writer is idle, and by the store's status. -/
theorem storeIsSavedErasedAndRead : Obligations.StoreIsSavedErasedAndRead := by
  unfold Obligations.StoreIsSavedErasedAndRead
  refine ⟨fun f s hs hp => ⟨fun h => ?_, fun h => ?_⟩,
    fun f s => ⟨fun hs hp => ⟨fun h => ?_, fun h => ?_⟩,
      fun h hwf => ⟨Memory.erasePage s.store.mem 0, ?_, fun a => ?_⟩⟩,
    fun f s hs hp => ⟨fun h => ?_, fun h => ?_, fun cap h hc => ?_⟩⟩
  · exact next_served_at (v := svcSaveSnapshot) hs hp rfl (by simp) (runSaveSnapshot_busy [] h)
  · obtain ⟨hmin, hmax, hlen⟩ := capture_pages (imageOf s) s.draws
    refine ⟨{ image := imageOf s, bytes := captureBytes s.draws }, rfl, hmin, hmax, hlen, ?_,
      next_served_at (v := svcSaveSnapshot) hs hp rfl (by simp) (runSaveSnapshot_idle [] h)⟩
    exact ⟨rfl, rfl, rfl, rfl, rfl, rfl, look_table _, look_table _, savedSlots s.plant.dir, savedSlots_sorted _,
      fun _ => mem_savedSlots, imageOf_services s, rfl⟩
  · exact next_served_at (v := svcEraseStore) hs hp rfl (by simp) (runEraseStore_busy [] h)
  · exact next_served_at (v := svcEraseStore) hs hp rfl (by simp) (runEraseStore_idle [] h)
  · exact congrArg Host.Outcome.next (eraseComplete_erasing h)
  · rw [Memory.read_erasePage hwf]
    simp [pageBase, erasedByte]
  · rw [← bStoreStatus_blank h]
    exact next_served_at (v := svcReadStoreStatus) hs hp rfl (by simp) rfl
  · rw [← bStoreStatus_valid h]
    exact next_served_at (v := svcReadStoreStatus) hs hp rfl (by simp) rfl
  · rw [← bStoreStatus_saving h hc]
    exact next_served_at (v := svcReadStoreStatus) hs hp rfl (by simp) rfl

/-! ## A restart with a valid store (R183, R184) -/

/-- Every cause of a restart is a restart. -/
theorem exec_restart {i : Instr} {r : RestartIn} {s : State}
    (h : i = .powerOn r ∨ i = .restartLine r ∨ (i = .restartReplySent r ∧ s.link.restartOwed = true)) :
    exec i s = .next (restart r s) := by
  rcases h with rfl | rfl | ⟨rfl, h⟩
  · rfl
  · rfl
  · exact congrArg Host.Outcome.next (if_pos h)

theorem restart_valid {r : RestartIn} {s : State} (h : judgeHeader (settledMemory r s.store) = .valid) :
    restart r s = restoreImage (freshState r s) := by
  unfold restart judgeStore
  rw [show judgeHeader (freshState r s).store.mem = .valid from h]

/-- The recalled sightings are those of the image whose service has a slot (R108). -/
theorem mem_recalled {now : Time} {im : Image} {g : Sighting} :
    g ∈ (recallDir now im).pool ↔ ∃ x ∈ im.sightings, x.service = g.slot.val
      ∧ g = { slot := g.slot, cell := x.cell, stream := x.stream, scrambled := false, version := none
              created := now, confirmed := now } := by
  show g ∈ im.sightings.filterMap (recalledSighting now) ↔ _
  rw [List.mem_filterMap]
  refine exists_congr fun x => and_congr_right fun _ => ?_
  unfold recalledSighting
  constructor
  · intro h
    split at h
    · cases h; exact ⟨rfl, rfl⟩
    · cases h
  · rintro ⟨hx, hg⟩
    rw [dif_pos (hx ▸ g.slot.isLt)]
    refine congrArg some (Eq.trans ?_ hg.symm)
    simp only [hx]

theorem recalledSlot_absent {now : Time} {im : Image} {n : SlotNo} (h : im.services[n.val]? = none) :
    look (recallDir now im).slots n = Slot.empty := by
  simp only [recallDir, look_table, h]

theorem recalledSlot_present {now : Time} {im : Image} {n : SlotNo} {sv : SavedService}
    (h : im.services[n.val]? = some sv) :
    look (recallDir now im).slots n
      = recalledSlot now sv (fun c => im.sightings.any (fun g => g.service == n.val && g.cell == c)) := by
  simp only [recallDir, look_table, h]

theorem recalledChosen_pin {sv : SavedService} {on : CellRef → Bool} {c : CellRef} (hp : sv.pin = some c)
    (hc : on c = true) : recalledChosen sv on = some c := by
  rw [recalledChosen, hp, Option.filter_some, if_pos hc]

theorem recalledChosen_reported {sv : SavedService} {on : CellRef → Bool} {c : CellRef} (hp : sv.pin = none)
    (hr : sv.reported = some c) (hc : on c = true) : recalledChosen sv on = some c := by
  rw [recalledChosen, hp, hr]
  exact if_pos hc

theorem recalledChosen_absent {sv : SavedService} {on : CellRef → Bool} (hp : sv.pin = none)
    (hr : ∀ c ∈ sv.reported, on c = false) : recalledChosen sv on = none := by
  rw [recalledChosen, hp]
  show sv.reported.filter on = none
  rw [Option.filter_eq_none_iff]
  exact fun c hc => by rw [hr c hc]; exact Bool.false_ne_true

/-- Settles O51: the image restored, part by part. -/
theorem restartRestoresTheImage : Obligations.RestartRestoresTheImage := by
  unfold Obligations.RestartRestoresTheImage
  intro i r s hi hvalid
  refine ⟨_, (exec_restart hi).trans (congrArg Host.Outcome.next (restart_valid hvalid)), ?_⟩
  refine ⟨rfl, rfl, rfl, rfl, rfl, rfl, rfl, look_table _, look_table _, rfl, rfl, fun g => mem_recalled,
    fun n h => recalledSlot_absent h, fun n sv h => ?_⟩
  rw [show look (restoreImage (freshState r s)).plant.dir.slots n = _ from recalledSlot_present h]
  refine ⟨rfl, rfl, rfl, rfl, rfl, rfl, rfl, rfl, rfl, rfl, rfl, rfl, rfl, fun c hp hc => recalledChosen_pin hp hc,
    fun c hp hr hc => recalledChosen_reported hp hr hc, fun hp hr => recalledChosen_absent hp hr⟩

end Sys2Proof.Machine
end

section
/-! SUPPORT. The probe-by-probe trim sweep finds the passing run around the set point (R45 to R51): one equation per
phase for a single probe, one induction per side over the positions left, and the centre probe in front of the two. -/

namespace Sys2Proof.Machine

/-! ## The reach and the step (R41, R45) -/

/-- How many positions a side has. -/
def Options.sideCount (o : Options) : Nat := o.reach.size / o.step.size

/-- The distance of a side's k-th position from the set point; downward positions are the negatives. -/
def Options.position (o : Options) (k : Nat) : Int := (k * o.step.size : Nat)

theorem TrimStep.size_pos (t : TrimStep) : 0 < t.size := by cases t <;> decide

theorem TrimStep.size_le (t : TrimStep) : t.size ≤ 2 := by cases t <;> decide

theorem Reach.le_size (r : Reach) : 2 ≤ r.size := by cases r <;> decide

theorem Reach.size_le (r : Reach) : r.size ≤ 31 := by cases r <;> decide

theorem Options.sideCount_pos (o : Options) : 0 < o.sideCount :=
  Nat.div_pos (o.step.size_le.trans o.reach.le_size) o.step.size_pos

theorem Options.sideCount_le (o : Options) : o.sideCount ≤ 31 :=
  (Nat.div_le_self _ _).trans o.reach.size_le

theorem Options.position_inj {o : Options} {j k : Nat} : o.position j = o.position k ↔ j = k :=
  Int.ofNat_inj.trans (Nat.mul_left_inj o.step.size_pos.ne')

theorem Options.position_zero (o : Options) : o.position 0 = 0 := by simp [Options.position]

theorem Options.position_one (o : Options) : o.position 1 = o.step.size := by simp [Options.position]

theorem Options.position_succ (o : Options) (k : Nat) : o.position (k + 1) = o.position k + o.step.size := by
  simp [Options.position, Nat.succ_mul]

theorem Options.position_nonneg (o : Options) (k : Nat) : 0 ≤ o.position k := Int.natCast_nonneg _

/-- No position of a side lies beyond the reach. -/
theorem Options.position_le_reach {o : Options} {k : Nat} (h : k ≤ o.sideCount) : o.position k ≤ o.reach.size :=
  Int.ofNat_le.mpr ((Nat.mul_le_mul_right _ h).trans (Nat.div_mul_le_self _ _))

/-! ## The passing run, walked from any position -/

theorem runOf_le (pass : Nat → Bool) (n : Nat) : runOf pass n ≤ n := by
  induction n generalizing pass with
  | zero => exact le_rfl
  | succ n ih =>
    have := ih (fun k => pass (k + 1))
    unfold runOf
    split <;> omega

/-- The last passing position when position j has passed and m positions are left after it. -/
def runFrom (pass : Nat → Bool) (j m : Nat) : Nat := j + runOf (fun k => pass (j + k)) m

theorem runFrom_zero_left (pass : Nat → Bool) (n : Nat) : runFrom pass 0 n = runOf pass n := by
  simp only [runFrom, Nat.zero_add]

theorem runFrom_succ (pass : Nat → Bool) (j m : Nat) :
    runFrom pass j (m + 1) = if pass (j + 1) then runFrom pass (j + 1) m else j := by
  have hshift : (fun k => pass (j + (k + 1))) = fun k => pass (j + 1 + k) :=
    funext fun k => by rw [Nat.add_assoc, Nat.add_comm 1 k]
  rw [runFrom, runOf, hshift]
  split
  · exact (Nat.add_assoc ..).symm
  · rfl

/-! ## One probe (R46 to R49) -/

/-- The probe at an offset passes, its window opening with nothing counted (R46). -/
def Options.passes (o : Options) (errors : Int → Nat) (k : Int) : Bool :=
  decide (satAdd 255 0 (errors k) ≤ o.limit.toNat)

theorem Options.passes_eq (o : Options) (errors : Int → Nat) :
    o.passes errors = fun k => decide (min 255 (errors k) ≤ o.limit.toNat) := by
  funext k
  rw [Options.passes, satAdd, Nat.zero_add]

/-- The unit that has passed j upward positions and probes the next. -/
def TrimUnit.climbing (o : Options) (j : Nat) : TrimUnit :=
  { phase := .upward, opts := some o, offset := some (o.position (j + 1)), count := 0, high := some (o.position j)
    low := some 0, upEnd := false }

/-- The unit that has ended its upward run at position `up`, has passed j downward positions and probes the next. -/
def TrimUnit.descending (o : Options) (up j : Nat) : TrimUnit :=
  { phase := .downward, opts := some o, offset := some (-o.position (j + 1)), count := 0, high := some (o.position up)
    low := some (-o.position j), upEnd := decide (up = o.sideCount) }

theorem TrimUnit.climbing_zero (o : Options) :
    TrimUnit.climbing o 0
      = { TrimUnit.begin o with phase := .upward, offset := some o.step.size, high := some 0, low := some 0 } := by
  rw [TrimUnit.climbing, Options.position_one, Options.position_zero]
  rfl

theorem TrimUnit.climbing_succ (o : Options) (j : Nat) :
    TrimUnit.climbing o (j + 1)
      = { TrimUnit.climbing o j with
          high := some (o.position (j + 1)), offset := some (o.position (j + 1) + o.step.size) } := by
  rw [TrimUnit.climbing, Options.position_succ o (j + 1)]
  rfl

theorem TrimUnit.descending_zero (o : Options) (up : Nat) :
    TrimUnit.descending o up 0
      = { TrimUnit.climbing o up with upEnd := decide (up = o.sideCount) }.turnDown o := by
  rw [TrimUnit.descending, Options.position_one, Options.position_zero]
  rfl

theorem TrimUnit.descending_succ (o : Options) (up j : Nat) :
    TrimUnit.descending o up (j + 1)
      = { TrimUnit.descending o up j with
          low := some (-o.position (j + 1)), offset := some (-o.position (j + 1) - o.step.size) } := by
  rw [TrimUnit.descending, Options.position_succ o (j + 1), neg_add']
  rfl

/-- The result when the upward run ends at position `up` and the downward run at position `down` (R50, R51). -/
def sweepOutcome (o : Options) (up down : Nat) : TrimResult :=
  sweepResult o (-o.position down) (o.position up) (decide (up = o.sideCount)) (decide (down = o.sideCount))

theorem sweepOutcome_eq (o : Options) (up down : Nat) :
    sweepOutcome o up down
      = .edges (-o.position down) (o.position up) ((-o.position down + o.position up).tdiv 2)
          (min (if up = o.sideCount then o.reach.size else up * o.step.size)
            (if down = o.sideCount then o.reach.size else down * o.step.size)) := by
  simp only [sweepOutcome, sweepResult, sideDistance, decide_eq_true_eq, Options.position, Int.natAbs_neg,
    Int.natAbs_natCast]

section Probes
variable {o : Options} {errors : Int → Nat} {f up j : Nat}

theorem runSweep_goOn {u v : TrimUnit} (h : u.windowExpiry (errors (u.offset.getD 0)) = .goOn v) :
    runSweep errors (f + 1) u = runSweep errors f v := by
  simp only [runSweep, h]

theorem runSweep_sweepEnd {u : TrimUnit} {r : TrimResult}
    (h : u.windowExpiry (errors (u.offset.getD 0)) = .sweepEnd r) :
    runSweep errors (f + 1) u = some r := by
  simp only [runSweep, h]

theorem windowExpiry_begin :
    (TrimUnit.begin o).windowExpiry (errors 0)
      = if o.passes errors 0 then
          .goOn { TrimUnit.begin o with phase := .upward, offset := some o.step.size, high := some 0, low := some 0 }
        else .sweepEnd .centreFailed := rfl

theorem windowExpiry_climbing :
    (TrimUnit.climbing o j).windowExpiry (errors (o.position (j + 1)))
      = if o.passes errors (o.position (j + 1)) then
          if o.position (j + 1) = o.position o.sideCount then
            .goOn ({ TrimUnit.climbing o (j + 1) with upEnd := true }.turnDown o)
          else .goOn { TrimUnit.climbing o j with
            high := some (o.position (j + 1)), offset := some (o.position (j + 1) + o.step.size) }
        else .goOn ((TrimUnit.climbing o j).turnDown o) := rfl

theorem windowExpiry_descending :
    (TrimUnit.descending o up j).windowExpiry (errors (-o.position (j + 1)))
      = let result := fun edge => sweepResult o edge (o.position up) (decide (up = o.sideCount))
        if o.passes errors (-o.position (j + 1)) then
          if -o.position (j + 1) = -o.position o.sideCount then .sweepEnd (result (-o.position (j + 1)) true)
          else .goOn { TrimUnit.descending o up j with
            low := some (-o.position (j + 1)), offset := some (-o.position (j + 1) - o.step.size) }
        else .sweepEnd (result (-o.position j) false) := rfl

/-- The centre probe passes: the upward run begins (R47). -/
theorem centre_passes (hp : o.passes errors 0 = true) :
    runSweep errors (f + 1) (TrimUnit.begin o) = runSweep errors f (TrimUnit.climbing o 0) := by
  refine runSweep_goOn (windowExpiry_begin.trans ?_)
  rw [if_pos hp, TrimUnit.climbing_zero]

theorem centre_fails (hp : o.passes errors 0 = false) :
    runSweep errors (f + 1) (TrimUnit.begin o) = some .centreFailed :=
  runSweep_sweepEnd (windowExpiry_begin.trans (if_neg (ne_true_of_eq_false hp)))

/-- An upward probe passes before the last position: the run goes on (R48). -/
theorem climbing_passes (hp : o.passes errors (o.position (j + 1)) = true) (hj : j + 1 < o.sideCount) :
    runSweep errors (f + 1) (TrimUnit.climbing o j) = runSweep errors f (TrimUnit.climbing o (j + 1)) := by
  refine runSweep_goOn (windowExpiry_climbing.trans ?_)
  rw [if_pos hp, if_neg (Options.position_inj.not.mpr hj.ne), TrimUnit.climbing_succ]

/-- The last upward probe passes: the run has reached its end and the sweep turns down (R48). -/
theorem climbing_passes_last (hp : o.passes errors (o.position (j + 1)) = true) (hj : j + 1 = o.sideCount) :
    runSweep errors (f + 1) (TrimUnit.climbing o j) = runSweep errors f (TrimUnit.descending o (j + 1) 0) := by
  refine runSweep_goOn (windowExpiry_climbing.trans ?_)
  rw [if_pos hp, if_pos (Options.position_inj.mpr hj), TrimUnit.descending_zero,
    decide_eq_true hj]

/-- An upward probe fails: the edge is the position before it and the sweep turns down (R48). -/
theorem climbing_fails (hp : o.passes errors (o.position (j + 1)) = false) (hj : j < o.sideCount) :
    runSweep errors (f + 1) (TrimUnit.climbing o j) = runSweep errors f (TrimUnit.descending o j 0) := by
  refine runSweep_goOn (windowExpiry_climbing.trans ?_)
  rw [if_neg (ne_true_of_eq_false hp), TrimUnit.descending_zero, decide_eq_false hj.ne]
  rfl

/-- A downward probe passes before the last position: the run goes on (R49). -/
theorem descending_passes (hp : o.passes errors (-o.position (j + 1)) = true) (hj : j + 1 < o.sideCount) :
    runSweep errors (f + 1) (TrimUnit.descending o up j) = runSweep errors f (TrimUnit.descending o up (j + 1)) := by
  refine runSweep_goOn (windowExpiry_descending.trans ?_)
  rw [if_pos hp, if_neg (neg_inj.not.mpr (Options.position_inj.not.mpr hj.ne)), TrimUnit.descending_succ]

/-- The last downward probe passes: the sweep ends with the run at its end (R49). -/
theorem descending_passes_last (hp : o.passes errors (-o.position (j + 1)) = true) (hj : j + 1 = o.sideCount) :
    runSweep errors (f + 1) (TrimUnit.descending o up j) = some (sweepOutcome o up (j + 1)) := by
  refine runSweep_sweepEnd (windowExpiry_descending.trans ?_)
  rw [if_pos hp, if_pos (neg_inj.mpr (Options.position_inj.mpr hj)), sweepOutcome, decide_eq_true hj]

/-- A downward probe fails: the sweep ends with the edge before it (R49). -/
theorem descending_fails (hp : o.passes errors (-o.position (j + 1)) = false) (hj : j < o.sideCount) :
    runSweep errors (f + 1) (TrimUnit.descending o up j) = some (sweepOutcome o up j) := by
  refine runSweep_sweepEnd (windowExpiry_descending.trans ?_)
  rw [if_neg (ne_true_of_eq_false hp), sweepOutcome, decide_eq_false hj.ne]

end Probes

/-! ## The two runs and the whole sweep -/

/-- The downward run with m + 1 positions left, in at least as many probes. -/
theorem runSweep_descends (o : Options) (errors : Int → Nat) (up m : Nat) {j f : Nat} (hj : j + (m + 1) = o.sideCount)
    (hf : m + 1 ≤ f) :
    runSweep errors f (TrimUnit.descending o up j)
      = some (sweepOutcome o up (runFrom (fun k => o.passes errors (-o.position k)) j (m + 1))) := by
  induction m generalizing j f with
  | zero =>
    obtain ⟨f, rfl⟩ := Nat.exists_eq_add_of_le' (show 1 ≤ f by omega)
    rw [runFrom_succ]
    split
    · next hp => exact descending_passes_last hp hj
    · next hp => exact descending_fails (eq_false_of_ne_true hp) (by omega)
  | succ m ih =>
    obtain ⟨f, rfl⟩ := Nat.exists_eq_add_of_le' (show 1 ≤ f by omega)
    rw [runFrom_succ]
    split
    · next hp => exact (descending_passes hp (by omega)).trans (ih (by omega) (by omega))
    · next hp => exact descending_fails (eq_false_of_ne_true hp) (by omega)

/-- The whole downward run. -/
theorem runSweep_turned (o : Options) (errors : Int → Nat) (up : Nat) {f : Nat} (hf : o.sideCount ≤ f) :
    runSweep errors f (TrimUnit.descending o up 0)
      = some (sweepOutcome o up (runOf (fun k => o.passes errors (-o.position k)) o.sideCount)) := by
  obtain ⟨n, hn⟩ := Nat.exists_eq_add_of_le' o.sideCount_pos
  rw [← runFrom_zero_left, hn]
  exact runSweep_descends o errors up n (by omega) (by omega)

/-- The sweep from a unit that climbs with m + 1 upward positions left, in at least as many probes and a whole downward
run more. -/
theorem runSweep_climbs (o : Options) (errors : Int → Nat) (m : Nat) {j f : Nat} (hj : j + (m + 1) = o.sideCount)
    (hf : m + 1 + o.sideCount ≤ f) :
    runSweep errors f (TrimUnit.climbing o j)
      = some (sweepOutcome o (runFrom (fun k => o.passes errors (o.position k)) j (m + 1))
          (runOf (fun k => o.passes errors (-o.position k)) o.sideCount)) := by
  induction m generalizing j f with
  | zero =>
    obtain ⟨f, rfl⟩ := Nat.exists_eq_add_of_le' (show 1 ≤ f by omega)
    rw [runFrom_succ]
    split
    · next hp => exact (climbing_passes_last hp hj).trans (runSweep_turned o errors _ (by omega))
    · next hp => exact (climbing_fails (eq_false_of_ne_true hp) (by omega)).trans (runSweep_turned o errors _ (by omega))
  | succ m ih =>
    obtain ⟨f, rfl⟩ := Nat.exists_eq_add_of_le' (show 1 ≤ f by omega)
    rw [runFrom_succ]
    split
    · next hp => exact (climbing_passes hp (by omega)).trans (ih (by omega) (by omega))
    · next hp => exact (climbing_fails (eq_false_of_ne_true hp) (by omega)).trans (runSweep_turned o errors _ (by omega))

/-- The specified result in terms of the last passing position of each side. -/
theorem sweepSpec_eq (o : Options) (pass : Int → Bool) :
    sweepSpec o pass = if pass 0 then
        sweepOutcome o (runOf (fun k => pass (o.position k)) o.sideCount)
          (runOf (fun k => pass (-o.position k)) o.sideCount)
      else .centreFailed := by
  rw [sweepOutcome_eq]
  rfl

theorem runSweep_eq_sweepSpec (o : Options) (errors : Int → Nat) :
    runSweep errors 63 (TrimUnit.begin o) = some (sweepSpec o (o.passes errors)) := by
  obtain ⟨n, hn⟩ := Nat.exists_eq_add_of_le' o.sideCount_pos
  have hle := o.sideCount_le
  have hclimb := runSweep_climbs o errors n (j := 0) (f := 62) (by omega) (by omega)
  rw [← hn, runFrom_zero_left] at hclimb
  rw [sweepSpec_eq]
  split
  · next hp => exact (centre_passes hp).trans hclimb
  · next hp => exact centre_fails (eq_false_of_ne_true hp)

/-- The bounds of a result whose runs end within their sides (R50, R51). -/
theorem sweepOutcome_bounds {o : Options} {up down : Nat} (hup : up ≤ o.sideCount) (hdown : down ≤ o.sideCount)
    {low high centre : Int} {margin : Nat} (h : sweepOutcome o up down = .edges low high centre margin) :
    -(o.reach.size : Int) ≤ low ∧ low ≤ 0 ∧ 0 ≤ high ∧ high ≤ o.reach.size ∧ margin ≤ o.reach.size
      ∧ -15 ≤ centre ∧ centre ≤ 15 := by
  rw [sweepOutcome_eq] at h
  obtain ⟨rfl, rfl, rfl, rfl⟩ := TrimResult.edges.inj h
  have hhigh := o.position_nonneg up
  have hlow := o.position_nonneg down
  have hupReach := Options.position_le_reach hup
  have hdownReach := Options.position_le_reach hdown
  have hreach := o.reach.size_le
  have hmargin : (if up = o.sideCount then o.reach.size else up * o.step.size) ≤ o.reach.size := by
    split
    · exact le_rfl
    · exact Int.ofNat_le.mp hupReach
  have hcentre : ((-o.position down + o.position up).tdiv 2).natAbs = (-o.position down + o.position up).natAbs / 2 :=
    Int.natAbs_tdiv _ 2
  refine ⟨by omega, by omega, hhigh, hupReach, min_le_of_left_le hmargin, ?_, ?_⟩ <;> omega

/-- Settles O22: the runs by induction over the positions left on each side, the bounds from the ends of the runs. -/
theorem sweepFindsThePassingRun : Obligations.SweepFindsThePassingRun := by
  unfold Obligations.SweepFindsThePassingRun
  refine ⟨fun o errors => o.passes_eq errors ▸ runSweep_eq_sweepSpec o errors,
    fun o pass low high centre margin h => ?_⟩
  rw [sweepSpec_eq] at h
  split at h
  · exact sweepOutcome_bounds (runOf_le _ _) (runOf_le _ _) h
  · cases h

end Sys2Proof.Machine
end

section
/-! SUPPORT. The visit score term by term, over the integers as the reference writes it, and the two policies: their requests
by range, their reads, and the waiting spot entries that a hold limit of 0 removes; the statements of both. -/

namespace Sys2Proof.Machine

/-! ## The visit score, term by term (R58 to R60)

The model subtracts on the natural numbers, where a difference stops at 0; that is each clamp at 0 in the reference. -/

theorem cast_termA (mer mreq : Nat) : (termA mer mreq : Int) = max 0 (min 500 (2 * ((mer : Int) - mreq))) := by
  unfold termA
  omega

theorem cast_termB (lv lvmin lvmax : Nat) :
    (termB lv lvmin lvmax : Int) =
      if lv < lvmin then max 0 (200 - 20 * ((lvmin : Int) - lv))
      else if lvmax < lv then max 0 (200 - 10 * ((lv : Int) - lvmax)) else 200 := by
  unfold termB
  split
  · omega
  · split
    · omega
    · rfl

theorem cast_termC (load : Nat) : (termC load : Int) = max 0 (200 - ((load / 5 : Nat) : Int)) := by
  unfold termC
  omega

theorem cast_termD (margin : Nat) : (termD margin : Int) = 5 * min margin 20 := by
  unfold termD
  push_cast
  rfl

theorem cast_penalise (sum blocks : Nat) :
    (penalise sum blocks : Int) =
      if blocks = 0 then (sum : Int) else if blocks ≤ 3 then (sum : Int) / 2
        else if blocks ≤ 15 then (sum : Int) / 4 else 0 := by
  unfold penalise
  push_cast
  rfl

/-- Settles O25: the terms by their formulas, the penalty of their sum, and the bound of the sum. -/
theorem visitScoreFormula : Obligations.VisitScoreFormula := by
  unfold Obligations.VisitScoreFormula
  intro m mreq lvmin lvmax t
  refine ⟨?_, visitScore_le m mreq lvmin lvmax t⟩
  rw [visitScore, cast_penalise, Nat.cast_add, Nat.cast_add, Nat.cast_add, cast_termA, cast_termB, cast_termC, cast_termD]

/-! ## The ranking policy (R56, R110, R111) -/

/-- The values that Set Ranking Policy accepts. -/
def RankingPolicyGood (p : List Byte) : Prop :=
  halfAt p 0 ≤ 500 ∧ 1 ≤ byteAt p 2 ∧ byteAt p 2 ≤ 8 ∧ 1 ≤ byteAt p 3 ∧ byteAt p 3 ≤ 15
    ∧ 1 ≤ halfAt p 4 ∧ halfAt p 4 ≤ 1440 ∧ 20 ≤ byteAt p 6 ∧ byteAt p 6 < byteAt p 7 ∧ byteAt p 7 ≤ 110

theorem runSetRankingPolicy_refused {p : List Byte} (s : State) (h : ¬ RankingPolicyGood p) :
    runSetRankingPolicy p s = refuse s .badValue := by
  have hpolicy : policyAt p = none := if_neg h
  rw [runSetRankingPolicy, hpolicy]

theorem runSetRankingPolicy_ok {p : List Byte} (s : State) (h : RankingPolicyGood p) :
    runSetRankingPolicy p s = ok { s with settings := { s.settings with
      policy := { margin := halfAt p 0, confirm := byteAt p 2, lost := byteAt p 3, forget := halfAt p 4
                  lvmin := byteAt p 6, lvmax := byteAt p 7 } } } [] := by
  have hpolicy : policyAt p = some { margin := halfAt p 0, confirm := byteAt p 2, lost := byteAt p 3
                                     forget := halfAt p 4, lvmin := byteAt p 6, lvmax := byteAt p 7 } := if_pos h
  rw [runSetRankingPolicy, hpolicy]

theorem provisional_length (d : Dir) :
    d.provisional.length = d.slots.toList.countP (fun x => x.state == .provisional) := by
  rw [toList_eq_map_look, List.countP_map, Dir.provisional, ← List.countP_eq_length_filter]
  rfl

theorem runReadRankingPolicy_eq (p : List Byte) (s : State) :
    runReadRankingPolicy p s = ok s
      (b2 s.settings.policy.margin ++ b1 s.settings.policy.confirm ++ b1 s.settings.policy.lost
        ++ b2 s.settings.policy.forget ++ b1 s.settings.policy.lvmin ++ b1 s.settings.policy.lvmax
        ++ [if s.plant.dir.grace then 1 else 0]
        ++ b2 (s.plant.dir.slots.toList.countP (fun x => x.state == .provisional))) := by
  rw [← provisional_length]
  rfl

/-! ## The watch policy (R144) -/

/-- The values that Set Watch Policy accepts. -/
def WatchPolicyGood (p : List Byte) : Prop :=
  5 ≤ halfAt p 0 ∧ halfAt p 0 ≤ 600 ∧ 30 ≤ halfAt p 2 ∧ halfAt p 2 ≤ 3600 ∧ 1 ≤ byteAt p 4
    ∧ byteAt p 4 ≤ 15 ∧ byteAt p 5 ≤ 4

/-- The watch policy that a request's values make. -/
def watchPolicyOf (p : List Byte) : WatchPolicy :=
  { chosenInterval := halfAt p 0, watchInterval := halfAt p 2, share := byteAt p 4, holdLimit := byteAt p 5 }

theorem runSetWatchPolicy_refused {p : List Byte} (s : State) (h : ¬ WatchPolicyGood p) :
    runSetWatchPolicy p s = refuse s .badValue := by
  have hpolicy : watchPolicyAt p = none := if_neg h
  rw [runSetWatchPolicy, hpolicy]

theorem runSetWatchPolicy_ok {p : List Byte} (s : State) (h : WatchPolicyGood p) :
    runSetWatchPolicy p s = ok { s with
      settings := { s.settings with watch := watchPolicyOf p }
      plant := afterWatchPolicy (watchPolicyOf p) s.clock s.plant } [] := by
  have hpolicy : watchPolicyAt p = some (watchPolicyOf p) := if_pos h
  rw [runSetWatchPolicy, hpolicy]

/-- A hold limit of at least 1 leaves the survey's part of the machine as it was. -/
theorem afterWatchPolicy_of_ne {w : WatchPolicy} (now : Time) (p : Plant) (h : w.holdLimit ≠ 0) :
    afterWatchPolicy w now p = p := if_neg h

/-- A hold limit of 0 removes the waiting entries that ask to hold. -/
theorem afterWatchPolicy_of_zero {w : WatchPolicy} (now : Time) (p : Plant) (h : w.holdLimit = 0) :
    afterWatchPolicy w now p = dropSpots now (fun e => decide (0 < e.hold)) p := if_pos h

/-- Cells, lanes and directory are no part of what Set Watch Policy changes. -/
theorem afterWatchPolicy_frame (w : WatchPolicy) (now : Time) (p : Plant) :
    (afterWatchPolicy w now p).cells = p.cells ∧ (afterWatchPolicy w now p).lanes = p.lanes
      ∧ (afterWatchPolicy w now p).dir = p.dir := by
  by_cases h : w.holdLimit = 0
  · obtain ⟨cells, lanes, dir, -⟩ := dropSpots_spec now (fun e => decide (0 < e.hold)) p
    rw [afterWatchPolicy_of_zero now p h]
    exact ⟨cells, lanes, dir⟩
  · rw [afterWatchPolicy_of_ne now p h]
    exact ⟨rfl, rfl, rfl⟩

/-- A hold limit of 0 keeps the entries that do not ask to hold; the others give their results, the oldest entry's first,
and SPOT_DONE. -/
theorem afterWatchPolicy_spots {w : WatchPolicy} (now : Time) (p : Plant) (h : w.holdLimit = 0) :
    let q := afterWatchPolicy w now p
    let out := p.survey.spots.filter (fun e => decide (0 < e.hold))
    q.survey.spots = p.survey.spots.filter (fun e => decide (e.hold = 0))
      ∧ (out = [] → q.survey.results = p.survey.results)
      ∧ (out ≠ [] → q.notice.conds &&& 0x004#12 ≠ 0
          ∧ q.survey.results = (out.reverse.map (fun e =>
              SpotResult.mk e.ticket e.cell e.trim e.hold .abandoned now none) ++ p.survey.results).take 4) := by
  obtain ⟨-, -, -, survey, same, pushed, notice⟩ := dropSpots_spec now (fun e => decide (0 < e.hold)) p
  rw [afterWatchPolicy_of_zero now p h]
  refine ⟨?_, same, fun hout => ⟨?_, pushed hout⟩⟩
  · have hkeep : (fun e : SpotEntry => !decide (0 < e.hold)) = fun e => decide (e.hold = 0) := by
      funext e
      rw [← decide_not, decide_eq_decide]
      omega
    rw [survey, ← hkeep]
  · rw [notice, if_neg hout]
    exact raised_and_ne_zero _ (by decide)

/-! ## The statement -/

/-- Settles O36: request by request; Set Watch Policy by whether its hold limit is 0. -/
theorem policiesAreTakenWholeAndRead : Obligations.PoliciesAreTakenWholeAndRead := by
  unfold Obligations.PoliciesAreTakenWholeAndRead
  refine ⟨fun f s hs hlen => ?_, fun f s hs hp => ?_, fun f s hs => ⟨fun hlen => ?_, fun hp => ?_⟩⟩
  · have hl : svcSetRankingPolicy.lengthOk f.payload.length = true := by rw [hlen]; rfl
    exact ⟨fun h => next_served (v := svcSetRankingPolicy) hs (by omega) hl (runSetRankingPolicy_refused s h),
      fun h => next_served (v := svcSetRankingPolicy) hs (by omega) hl (runSetRankingPolicy_ok s h)⟩
  · exact next_served_at (v := svcReadRankingPolicy) hs hp rfl (by simp) (runReadRankingPolicy_eq [] s)
  · have hl : svcSetWatchPolicy.lengthOk f.payload.length = true := by rw [hlen]; rfl
    refine ⟨fun h => next_served (v := svcSetWatchPolicy) hs (by omega) hl (runSetWatchPolicy_refused s h),
      fun h => ⟨_, next_served (v := svcSetWatchPolicy) hs (by omega) hl (runSetWatchPolicy_ok s h), ?_⟩⟩
    obtain ⟨cells, lanes, dir⟩ := afterWatchPolicy_frame (watchPolicyOf f.payload) s.clock s.plant
    exact ⟨rfl, rfl, rfl, rfl, rfl, rfl, cells, lanes, dir,
      afterWatchPolicy_of_ne (w := watchPolicyOf f.payload) s.clock s.plant,
      afterWatchPolicy_spots (w := watchPolicyOf f.payload) s.clock s.plant⟩
  · exact next_served_at (v := svcReadWatchPolicy) hs hp rfl (by simp) rfl

end Sys2Proof.Machine
end

section
/-! SUPPORT. What a section delivered in READING does, by what the collector makes of it: the statement of the collected
sections. -/

namespace Sys2Proof.Machine

/-! ## The completion test (R76) -/

theorem Collector.has_iff {c : Collector} {n : Fin 16} : c.has n = true ↔ n ∈ c.held.map Prod.fst := by
  simp [Collector.has]

/-- A collection is complete when every number up to the last is held. -/
theorem isComplete_iff {c : Collector} {i : SectionId} (hi : c.ident = some i) :
    c.isComplete = true ↔ ∀ n, n ≤ i.last → c.has n = true := by
  simp only [Collector.isComplete, hi, List.all_eq_true, List.mem_finRange, true_imp_iff, Bool.or_eq_true,
    decide_eq_true_eq, ← not_le, ← imp_iff_not_or]

theorem tested_complete {c : Collector} {i : SectionId} (hi : c.ident = some i) (h : ∀ n, n ≤ i.last → c.has n = true) :
    tested c = .complete c := if_pos ((isComplete_iff hi).mpr h)

theorem tested_missing {c : Collector} {i : SectionId} {n : Fin 16} (hi : c.ident = some i) (hn : n ≤ i.last)
    (h : c.has n = false) : tested c = .goOn c :=
  if_neg fun hc => by simp [(isComplete_iff hi).mp hc n hn] at h

/-- A first section is a whole roster exactly when it is the only one. -/
theorem tested_first {c : Collector} {gap : Option Nat} {x : Section} (hx : x.number ≤ x.last) :
    tested (c.first gap x) = if x.last = 0 then .complete (c.first gap x) else .goOn (c.first gap x) := by
  have hid : (c.first gap x).ident = some (identOf x) := rfl
  have hhas : ∀ n, (c.first gap x).has n = true ↔ x.number = n := fun n => by simp [Collector.has, Collector.first]
  split
  · next hlast =>
    refine tested_complete hid fun n hn => (hhas n).mpr ?_
    have hn' : n ≤ x.last := hn
    omega
  · next hlast =>
    have other : ∃ n, n ≤ x.last ∧ x.number ≠ n := by
      by_cases h0 : x.number = 0
      · exact ⟨x.last, le_rfl, fun h => hlast (h ▸ h0)⟩
      · exact ⟨0, Fin.zero_le _, h0⟩
    obtain ⟨n, hn, hne⟩ := other
    exact tested_missing hid hn (Bool.eq_false_iff.mpr fun h => hne ((hhas n).mp h))

/-- Sections held in order, with every number up to the last and none above it, are numbered 0 to the last. -/
theorem held_numbers {held : List (Fin 16 × List Entry)} {last : Fin 16}
    (hsort : (held.map Prod.fst).Pairwise (· < ·)) (hmem : ∀ n, n ∈ held.map Prod.fst ↔ n ≤ last) :
    held.map Prod.fst = (List.finRange 16).filter (fun n => decide (n ≤ last)) :=
  hsort.eq_of_mem_iff ((List.pairwise_lt_finRange 16).filter _) fun n => by simp [hmem n]

theorem numbers_length (last : Fin 16) :
    ((List.finRange 16).filter (fun n => decide (n ≤ last))).length = last.val + 1 := by
  revert last; decide

/-! ## What the collector makes of a section (R74 to R77) -/

theorem shortcut_iff (cls : Option VisitClass) (cell : Cell) (x : Section) :
    shortcut cls cell x = true ↔ cls = some .watch ∧ cell.state = .lit
      ∧ cell.roster = some { net := x.net, stream := x.stream, version := x.version } := by
  simp only [shortcut, Bool.and_eq_true, beq_iff_eq, and_assoc]

section
variable {c : Collector} {gap : Option Nat} {cls : Option VisitClass} {cell : Cell} {x : Section}

theorem take_first (h : c.held = []) (hs : shortcut cls cell x = false) :
    c.take gap cls cell x = tested (c.first gap x) := by
  simp [Collector.take, h, hs]

theorem take_unchanged (h : c.held = []) (hs : shortcut cls cell x = true) :
    c.take gap cls cell x = .unchanged { c with ident := some (identOf x), held := [(x.number, [])] } := by
  simp [Collector.take, h, hs]

theorem take_held (h : c.held ≠ []) (hi : c.ident = some (identOf x)) (hx : c.has x.number = true) :
    c.take gap cls cell x = .goOn c := by
  simp [Collector.take, h, hi, hx]

theorem take_further (h : c.held ≠ []) (hi : c.ident = some (identOf x)) (hx : c.has x.number = false) :
    c.take gap cls cell x = tested { c with held := insertHeld x.number x.entries c.held, gap := gap } := by
  simp [Collector.take, h, hi, hx]

theorem take_changed (h : c.held ≠ []) (hi : c.ident ≠ some (identOf x)) (hc : c.changes = 0) :
    c.take gap cls cell x = tested (Collector.first { c with changes := 1 } gap x) := by
  simp [Collector.take, h, hi, hc]

theorem take_unstable (h : c.held ≠ []) (hi : c.ident ≠ some (identOf x)) (hc : c.changes ≠ 0) :
    c.take gap cls cell x = .unstable := by
  simp [Collector.take, h, hi, hc]

end

/-! ## What the lane makes of it -/

/-- The outcome and the summary with which a section ends the visit of a lane with this collector, if it does. -/
def SectionStep.ending (c : Collector) : SectionStep → Option (VisitOutcome × Option Summary)
  | .goOn _ => none
  | .complete k => some (.lit, k.summary false)
  | .unchanged k => some (.lit, k.summary true)
  | .unstable => some (.unstable, c.summary false)

section
variable {l : Lane} {c : CellRef} {sec : Section} {s : State}

theorem Plant.setLane_look (p : Plant) (l : Lane) : p.setLane l (look p.lanes l) = p := by
  rw [Plant.setLane, put_look]

theorem exec_section_failing (hp : passesTest sec = false) : exec (.rosterSection l sec) s = .next s := by
  change (.next (s.work (sectionArrives l sec)) : Result) = .next s
  cases hc : (look s.plant.lanes l).cell <;> simp [State.work, sectionArrives, hc, hp]

theorem exec_section (hs : (look s.plant.lanes l).state = .reading) (hc : (look s.plant.lanes l).cell = some c)
    (hp : passesTest sec = true) :
    exec (.rosterSection l sec) s = .next (s.work (sectionTaken l c (look s.plant.lanes l) sec)) := by
  change (.next (s.work (sectionArrives l sec)) : Result) = _
  simp [State.work, sectionArrives, hc, hs, hp]

/-- A section after which the collection goes on changes the lane's collector and nothing else. -/
theorem exec_section_goOn {k : Collector} (hs : (look s.plant.lanes l).state = .reading)
    (hc : (look s.plant.lanes l).cell = some c) (hp : passesTest sec = true)
    (h : (look s.plant.lanes l).collector.take ((look s.plant.lanes l).latched.bind Latched.gap)
      (look s.plant.lanes l).cls (look s.plant.cells c) sec = .goOn k) :
    exec (.rosterSection l sec) s =
      .next { s with plant := s.plant.setLane l { look s.plant.lanes l with collector := k } } := by
  rw [exec_section hs hc hp]
  simp only [State.work, sectionTaken, LaneRec.latchedGap, h]

/-- A section that ends the visit leaves the lane's record with the outcome and the summary of its step. -/
theorem exec_section_ends {o : VisitOutcome} {m : Option Summary} (hs : (look s.plant.lanes l).state = .reading)
    (hc : (look s.plant.lanes l).cell = some c) (hp : passesTest sec = true)
    (h : ((look s.plant.lanes l).collector.take ((look s.plant.lanes l).latched.bind Latched.gap)
      (look s.plant.lanes l).cls (look s.plant.cells c) sec).ending (look s.plant.lanes l).collector = some (o, m)) :
    ∃ t r, exec (.rosterSection l sec) s = .next t ∧ (look t.plant.lanes l).record = some r ∧ r.outcome = o
      ∧ r.roster = m := by
  have ended : ∃ e : Ending, e.outcome = o ∧ e.summary = m
      ∧ sectionTaken l c (look s.plant.lanes l) sec s.settings s.clock s.plant
          = visitEnd s.settings s.clock l e s.plant := by
    unfold sectionTaken LaneRec.latchedGap
    cases hk : (look s.plant.lanes l).collector.take ((look s.plant.lanes l).latched.bind Latched.gap)
        (look s.plant.lanes l).cls (look s.plant.cells c) sec with
    | goOn k => simp [hk, SectionStep.ending] at h
    | complete k | unchanged k | unstable =>
      simp only [hk, SectionStep.ending, Option.some.injEq, Prod.mk.injEq] at h
      obtain ⟨rfl, rfl⟩ := h
      exact ⟨_, rfl, rfl, rfl⟩
  obtain ⟨e, rfl, rfl, he⟩ := ended
  have hrecord := visitEnd_record (g := s.settings) (now := s.clock) (e := e) hc
  exact ⟨_, _, exec_section hs hc hp, by rw [State.work_plant, he]; exact hrecord, rfl, rfl⟩

end

/-! ## The last missing section -/

/-- A further section that completes a roster: the sections held are then numbered 0 to the last, and the result hands on
their entries in that order (R76, R80). -/
theorem further_complete {c : Collector} {i : SectionId} {n : Fin 16} {es : List Entry} (gap : Option Nat)
    (hc : CollectorRight c) (hi : c.ident = some i) (hn : n ≤ i.last) (hnew : c.has n = false)
    (hall : ∀ k, k ≤ i.last → k ≠ n → c.has k = true) :
    let held := insertHeld n es c.held
    let u : Collector := { c with held := held, gap := gap }
    tested u = .complete u ∧ held.map Prod.fst = (List.finRange 16).filter (fun k => decide (k ≤ i.last))
      ∧ u.completeResult = .complete i (held.map Prod.snd).flatten
      ∧ u.summary false = some { net := i.net, stream := i.stream, version := i.version, held := i.last.val + 1
                                 expected := i.last.val + 1, unchanged := false } := by
  intro held u
  obtain ⟨hsort, -, hlast⟩ := hc
  have hfresh : ∀ a ∈ c.held, a.1 ≠ n := fun a ha h => by
    have : c.has n = true := Collector.has_iff.mpr (h ▸ List.mem_map_of_mem ha)
    simp [this] at hnew
  have hmem : ∀ k, k ∈ held.map Prod.fst ↔ k ≤ i.last := fun k => by
    constructor
    · intro hk
      obtain ⟨a, ha, rfl⟩ := List.mem_map.mp hk
      rcases insertHeld_mem.mp ha with rfl | ha
      · exact hn
      · exact hlast i hi a ha
    · intro hk
      by_cases hkn : k = n
      · exact hkn ▸ List.mem_map_of_mem (insertHeld_mem.mpr (.inl rfl))
      · obtain ⟨a, ha, rfl⟩ := List.mem_map.mp (Collector.has_iff.mp (hall k hk hkn))
        exact List.mem_map_of_mem (insertHeld_mem.mpr (.inr ha))
  have hnumbers := held_numbers (insertHeld_sorted hsort hfresh) hmem
  have hlength : held.length = i.last.val + 1 := by
    rw [← numbers_length, ← hnumbers, List.length_map]
  refine ⟨tested_complete hi fun k hk => Collector.has_iff.mpr ((hmem k).mpr hk), hnumbers, ?_, ?_⟩
  · simp only [Collector.completeResult, Collector.entries, u, hi]
  · cases hheld : held with
    | nil => simp [hheld] at hlength
    | cons a as =>
      rw [hheld] at hlength
      simp only [Collector.summary, u, hi, hheld, hlength]

/-! ## The statement -/

/-- Settles O24: case by case of what the collector makes of the section. -/
theorem sectionsAreCollected : Obligations.SectionsAreCollected := by
  unfold Obligations.SectionsAreCollected
  rintro l c x sec s rfl hs hc id matched
  have hpass : sec.net ≠ 0 → sec.number ≤ sec.last → passesTest sec = true := fun hnet hnum =>
    Bool.and_eq_true_iff.mpr ⟨bne_iff_ne.mpr hnet, decide_eq_true hnum⟩
  have unmatched : ¬ matched →
      shortcut (look s.plant.lanes l).cls (look s.plant.cells c) sec = false := fun h =>
    Bool.eq_false_iff.mpr fun h' => h ((shortcut_iff _ _ _).mp h')
  refine ⟨fun h => ?_, fun hnet hnum hheld hm hlast => ?_, fun hnet hnum hheld hm => ?_,
    fun hnet hnum hid hheld => ⟨fun hhas => ?_, fun k hnew hk hkn hmiss => ?_, fun hright hnew hall => ?_⟩,
    fun hnet hnum hid hheld => ⟨fun hch hlast => ?_, fun hch => ?_⟩, fun hnet hlast hnum hcase => ?_⟩
  · refine exec_section_failing ?_
    rcases h with h | h
    · simp [passesTest, h]
    · simp [passesTest, h]
  · have hne : sec.last ≠ 0 := fun h => by simp [h] at hlast
    refine exec_section_goOn hs hc (hpass hnet hnum) ?_
    rw [take_first hheld (unmatched hm), tested_first hnum, if_neg hne]
    rfl
  · refine exec_section_ends hs hc (hpass hnet hnum) ?_
    rw [take_unchanged hheld ((shortcut_iff _ _ _).mpr hm)]
    rfl
  · have hsame : exec (.rosterSection l sec) s =
        .next { s with plant := s.plant.setLane l (look s.plant.lanes l) } :=
      exec_section_goOn hs hc (hpass hnet hnum) (take_held hheld hid hhas)
    rwa [Plant.setLane_look] at hsame
  · refine ⟨insertHeld sec.number sec.entries (look s.plant.lanes l).collector.held,
      exec_section_goOn hs hc (hpass hnet hnum) ?_, fun e => insertHeld_mem, fun hsort => ?_⟩
    · rw [take_further hheld hid hnew]
      refine tested_missing hid hk (Bool.eq_false_iff.mpr fun h => ?_)
      obtain ⟨a, ha, rfl⟩ := List.mem_map.mp (Collector.has_iff.mp h)
      rcases insertHeld_mem.mp ha with rfl | ha
      · exact hkn rfl
      · rw [Collector.has_iff.mpr (List.mem_map_of_mem ha)] at hmiss
        cases hmiss
    · refine insertHeld_sorted hsort fun a ha h => ?_
      rw [Collector.has_iff.mpr (h ▸ List.mem_map_of_mem ha)] at hnew
      cases hnew
  · obtain ⟨hdone, hnumbers, hresult, hsummary⟩ := further_complete (es := sec.entries)
      ((look s.plant.lanes l).latched.bind Latched.gap) hright hid hnum hnew hall
    have htake := (take_further (gap := (look s.plant.lanes l).latched.bind Latched.gap)
      (cls := (look s.plant.lanes l).cls) (cell := look s.plant.cells c) hheld hid hnew).trans hdone
    obtain ⟨t, r, hexec, hrecord, ho, hr⟩ := exec_section_ends hs hc (hpass hnet hnum) (by rw [htake]; rfl)
    refine ⟨t, r, _, hexec, hrecord, ho, hr.trans hsummary, ?_, hnumbers, fun e => insertHeld_mem⟩
    simp only [handedOn, hc, LaneRec.latchedGap, htake]
    exact hresult
  · have hne : sec.last ≠ 0 := fun h => by simp [h] at hlast
    refine exec_section_goOn hs hc (hpass hnet hnum) ?_
    rw [take_changed hheld hid hch, tested_first hnum, if_neg hne]
    rfl
  · obtain ⟨t, r, hexec, hrecord, ho, -⟩ := exec_section_ends hs hc (hpass hnet hnum)
      (by rw [take_unstable hheld hid hch]; rfl)
    exact ⟨t, r, hexec, hrecord, ho⟩
  · have hle : sec.number ≤ sec.last := by rw [hnum]; exact Fin.zero_le _
    have hends : ((look s.plant.lanes l).collector.take ((look s.plant.lanes l).latched.bind Latched.gap)
        (look s.plant.lanes l).cls (look s.plant.cells c) sec).ending (look s.plant.lanes l).collector
          = some (.lit, some { net := sec.net, stream := sec.stream, version := sec.version, held := 1
                               expected := sec.last.val + 1, unchanged := false }) := by
      rcases hcase with ⟨hheld, hm⟩ | ⟨hheld, hid, hch⟩
      · rw [take_first hheld (unmatched hm), tested_first hle, if_pos hlast]
        rfl
      · rw [take_changed hheld hid hch, tested_first hle, if_pos hlast]
        rfl
    rw [hlast] at hends
    exact exec_section_ends hs hc (hpass hnet hle) hends

end Sys2Proof.Machine
end

section
/-! SUPPORT. The admission settings on the link, the test of an entry, and the admitted set of a roster with the service
numbers that admission refuses: the statement of admission. -/

namespace Sys2Proof.Machine

/-! ## The settings on the link (R81, R83) -/

/-- A 2-byte number laid out and read back. -/
theorem half_of_b2 (n : Half) :
    BitVec.ofNat 16 ((BitVec.ofNat 8 n.toNat).toNat + 256 * (BitVec.ofNat 8 (n.toNat / 256)).toNat) = n := by
  apply BitVec.eq_of_toNat_eq
  have := n.isLt
  simp only [BitVec.toNat_ofNat]
  omega

/-- Three presence bits take one byte. -/
theorem flagBytes_three (x y z : Bool) :
    flagBytes [x, y, z] = [BitVec.ofNat 8 (x.toNat + 2 * (y.toNat + 2 * z.toNat))] := by
  revert x y z; decide

/-- The settings byte by byte: each range with its first and its last, then the kind mask. -/
theorem bAdmission_eq (a : Admission) :
    bAdmission a = (b2 a.r1.first.toNat ++ b2 a.r1.last.toNat) ++ ((b2 a.r2.first.toNat ++ b2 a.r2.last.toNat)
      ++ ((b2 a.r3.first.toNat ++ b2 a.r3.last.toNat) ++ ((b2 a.r4.first.toNat ++ b2 a.r4.last.toNat)
      ++ [BitVec.ofNat 8 (a.tv.toNat + 2 * (a.radio.toNat + 2 * a.data.toNat))]))) := by
  rw [bAdmission, flagBytes_three]
  rfl

theorem bAdmission_length (a : Admission) : (bAdmission a).length = 17 := by
  rw [bAdmission_eq]
  rfl

theorem kindMask_lt : ∀ x y z : Bool, x.toNat + 2 * (y.toNat + 2 * z.toNat) < 8 := by decide

/-- The kind mask of settings has the kinds as bits 0 to 2. -/
theorem bAdmission_mask (a : Admission) :
    byteAt (bAdmission a) 16 = a.tv.toNat + 2 * (a.radio.toNat + 2 * a.data.toNat) := by
  rw [bAdmission_eq]
  change (BitVec.ofNat 8 (a.tv.toNat + 2 * (a.radio.toNat + 2 * a.data.toNat))).toNat = _
  have := kindMask_lt a.tv a.radio a.data
  rw [BitVec.toNat_ofNat]
  omega

/-- A range laid out at an offset and read back. -/
theorem rangeAt_eq {p : List Byte} {i : Nat} {r : NetRange}
    (h : (p.drop i).take 4 = b2 r.first.toNat ++ b2 r.last.toNat) : rangeAt p i = r := by
  have hbyte : ∀ k, k < 4 → byteAt p (i + k) = byteAt (b2 r.first.toNat ++ b2 r.last.toNat) k := fun k hk => by
    rw [← h]
    simp only [byteAt, List.getD_eq_getElem?_getD, List.getElem?_take, List.getElem?_drop, hk, if_true]
  have h0 := hbyte 0 (by omega)
  have h1 := hbyte 1 (by omega)
  have h2 := hbyte 2 (by omega)
  have h3 := hbyte 3 (by omega)
  have hfirst : BitVec.ofNat 16 (halfAt p i) = r.first := by
    rw [halfAt, h1, show byteAt p i = _ from h0]
    exact half_of_b2 r.first
  have hlast : BitVec.ofNat 16 (halfAt p (i + 2)) = r.last := by
    rw [halfAt, h2, show byteAt p (i + 2 + 1) = _ from h3]
    exact half_of_b2 r.last
  rw [rangeAt, hfirst, hlast]

/-- Set Admission reads the settings that Read Admission lays out. -/
theorem admissionAt_bAdmission (a : Admission) : admissionAt (bAdmission a) = a := by
  have hkinds : ∀ x y z : Bool, ((x.toNat + 2 * (y.toNat + 2 * z.toNat)) % 2 == 1) = x
      ∧ ((x.toNat + 2 * (y.toNat + 2 * z.toNat)) / 2 % 2 == 1) = y
      ∧ ((x.toNat + 2 * (y.toNat + 2 * z.toNat)) / 4 % 2 == 1) = z := by decide
  obtain ⟨htv, hradio, hdata⟩ := hkinds a.tv a.radio a.data
  have r1 : rangeAt (bAdmission a) 0 = a.r1 := rangeAt_eq (by rw [bAdmission_eq]; rfl)
  have r2 : rangeAt (bAdmission a) 4 = a.r2 := rangeAt_eq (by rw [bAdmission_eq]; rfl)
  have r3 : rangeAt (bAdmission a) 8 = a.r3 := rangeAt_eq (by rw [bAdmission_eq]; rfl)
  have r4 : rangeAt (bAdmission a) 12 = a.r4 := rangeAt_eq (by rw [bAdmission_eq]; rfl)
  simp only [admissionAt, bAdmission_mask, r1, r2, r3, r4, htv, hradio, hdata]

theorem runSetAdmission_refused {p : List Byte} (s : State) (h : 8 ≤ byteAt p 16) :
    runSetAdmission p s = refuse s .badValue := if_pos h

theorem runSetAdmission_ok (a : Admission) (s : State) :
    runSetAdmission (bAdmission a) s = ok { s with settings := { s.settings with admission := a } } [] := by
  have hmask : ¬ 8 ≤ byteAt (bAdmission a) 16 := by
    rw [bAdmission_mask]
    exact not_le.mpr (kindMask_lt a.tv a.radio a.data)
  rw [runSetAdmission, if_neg hmask, admissionAt_bAdmission]

/-! ## The test of an entry (R82) -/

theorem rangeEnabled_iff (r : NetRange) : r.enabled = true ↔ r.first ≠ 0 ∨ r.last ≠ 0 := by
  simp [NetRange.enabled]

theorem netPasses_iff (a : Admission) (net : Half) :
    a.netPasses net = true ↔ (∀ r ∈ a.ranges, r.first = 0 ∧ r.last = 0) ∧ net ≠ 0
      ∨ ∃ r ∈ a.ranges, (r.first ≠ 0 ∨ r.last ≠ 0) ∧ r.first.toNat ≤ net.toNat ∧ net.toNat ≤ r.last.toNat := by
  have hadmits : ∀ r : NetRange, r.admits net = true ↔
      (r.first ≠ 0 ∨ r.last ≠ 0) ∧ r.first.toNat ≤ net.toNat ∧ net.toNat ≤ r.last.toNat := fun r => by
    rw [NetRange.admits, Bool.and_eq_true, Bool.and_eq_true, rangeEnabled_iff, decide_eq_true_iff, decide_eq_true_iff, and_assoc]
  unfold Admission.netPasses
  split
  · next hany =>
    obtain ⟨r, hr, hen⟩ := List.any_eq_true.mp hany
    have hnot : ¬ ∀ r ∈ a.ranges, r.first = 0 ∧ r.last = 0 := fun h => by
      rcases (rangeEnabled_iff r).mp hen with h' | h'
      · exact h' (h r hr).1
      · exact h' (h r hr).2
    simp only [List.any_eq_true, hadmits, hnot, false_and, false_or]
  · next hany =>
    have hnone : ∀ r ∈ a.ranges, r.first = 0 ∧ r.last = 0 := fun r hr => by
      have : ¬ r.enabled = true := fun h => hany (List.any_eq_true.mpr ⟨r, hr, h⟩)
      rw [rangeEnabled_iff] at this
      tauto
    refine bne_iff_ne.trans ⟨fun h => .inl ⟨hnone, h⟩, ?_⟩
    rintro (⟨-, h⟩ | ⟨r, hr, hen, -⟩)
    · exact h
    · rw [(hnone r hr).1, (hnone r hr).2] at hen
      simp at hen

/-! ## The admitted set and the refused services (R84) -/

section
variable (a : Admission) (net : Half)

/-- The service numbers whose first entry is refused, in the order of the roster: those that the refused count counts. -/
def refusedServices : List Half → List Entry → List Half
  | _, [] => []
  | seen, e :: es =>
    if e.service = 0 ∨ e.service ∈ seen then refusedServices seen es
    else if a.admits net e then refusedServices (e.service :: seen) es
    else e.service :: refusedServices (e.service :: seen) es

/-- The refused count counts the refused services. -/
theorem refusedServices_length (seen : List Half) (es : List Entry) :
    (admitEntries a net seen es).2 = (refusedServices a net seen es).length := by
  induction es generalizing seen with
  | nil => rfl
  | cons e es ih =>
    simp only [admitEntries, refusedServices]
    split
    · exact ih seen
    · split
      · exact ih _
      · rw [List.length_cons, ih]

theorem find_cons (e : Entry) (es : List Entry) (k : Half) :
    (e :: es).find? (fun x => x.service == k) =
      if e.service = k then some e else es.find? (fun x => x.service == k) := by
  rw [List.find?_cons]
  split <;> simp_all

/-- An entry is in the admitted set when it is the first of its service number, not one seen before, and is admitted. -/
theorem mem_admitEntries {seen : List Half} {es : List Entry} {x : Entry} :
    x ∈ (admitEntries a net seen es).1 ↔ x.service ≠ 0 ∧ x.service ∉ seen
      ∧ es.find? (fun e => e.service == x.service) = some x ∧ a.admits net x = true := by
  induction es generalizing seen with
  | nil => simp [admitEntries]
  | cons e es ih =>
    simp only [admitEntries, find_cons]
    split
    · next hskip =>
      rw [ih]
      by_cases he : e.service = x.service
      · rw [he] at hskip
        tauto
      · rw [if_neg he]
    · next hskip =>
      by_cases he : e.service = x.service
      · rw [if_pos he, Option.some.injEq]
        split
        · next ha =>
          rw [List.mem_cons, ih]
          simp only [he, List.mem_cons, true_or, not_true_eq_false, false_and, and_false, or_false]
          rw [he] at hskip
          refine ⟨?_, fun h => h.2.2.1.symm⟩
          rintro rfl
          tauto
        · next ha =>
          rw [ih]
          simp only [he, List.mem_cons, true_or, not_true_eq_false, false_and, and_false, false_iff]
          rintro ⟨-, -, rfl, h⟩
          exact ha h
      · rw [if_neg he]
        have hx : x ≠ e := fun h => he (h ▸ rfl)
        split
        · rw [List.mem_cons, ih, List.mem_cons]
          simp only [hx, false_or, Ne.symm he]
        · rw [ih, List.mem_cons]
          simp only [false_or, Ne.symm he]

/-- A service number is refused when its first entry is, and it is none seen before. -/
theorem mem_refusedServices {seen : List Half} {es : List Entry} {k : Half} :
    k ∈ refusedServices a net seen es ↔ k ≠ 0 ∧ k ∉ seen
      ∧ ∃ e, es.find? (fun e => e.service == k) = some e ∧ a.admits net e = false := by
  induction es generalizing seen with
  | nil => simp [refusedServices]
  | cons e es ih =>
    simp only [refusedServices, find_cons]
    split
    · next hskip =>
      rw [ih]
      by_cases he : e.service = k
      · rw [he] at hskip
        tauto
      · rw [if_neg he]
    · next hskip =>
      by_cases he : e.service = k
      · rw [if_pos he]
        subst he
        split
        · next ha =>
          rw [ih]
          simp [ha]
        · next ha =>
          rw [not_or] at hskip
          simp only [List.mem_cons, true_or, true_iff]
          exact ⟨hskip.1, hskip.2, e, rfl, Bool.eq_false_iff.mpr ha⟩
      · rw [if_neg he]
        have hk : k ≠ e.service := Ne.symm he
        split
        · rw [ih, List.mem_cons]
          simp only [hk, false_or]
        · rw [List.mem_cons, ih, List.mem_cons]
          simp only [hk, false_or]

theorem refusedServices_nodup (seen : List Half) (es : List Entry) : (refusedServices a net seen es).Nodup := by
  induction es generalizing seen with
  | nil => exact List.nodup_nil
  | cons e es ih =>
    simp only [refusedServices]
    split
    · exact ih seen
    · split
      · exact ih _
      · refine List.nodup_cons.mpr ⟨fun h => ?_, ih _⟩
        rw [mem_refusedServices] at h
        exact h.2.1 List.mem_cons_self

/-- A service number of the roster has a first entry. -/
theorem find_isSome_iff (es : List Entry) (k : Half) :
    (∃ e, es.find? (fun e => e.service == k) = some e) ↔ k ∈ es.map Entry.service := by
  rw [← Option.isSome_iff_exists, List.find?_isSome, List.mem_map]
  simp

/-- The admitted and the refused services together are the service numbers of the roster, each once. -/
theorem admitted_and_refused (es : List Entry) :
    (((admitEntries a net [] es).1.map Entry.service) ++ refusedServices a net [] es).Perm
      ((es.map Entry.service).filter (fun n => n != 0)).dedup := by
  obtain ⟨-, hnodup, -⟩ := admitEntries_spec a net [] es
  have hdisjoint : ((admitEntries a net [] es).1.map Entry.service).Disjoint (refusedServices a net [] es) :=
    fun k hk hk' => by
      obtain ⟨x, hx, rfl⟩ := List.mem_map.mp hk
      obtain ⟨-, -, hfirst, hadm⟩ := (mem_admitEntries a net).mp hx
      obtain ⟨-, -, e, he, href⟩ := (mem_refusedServices a net).mp hk'
      rw [hfirst, Option.some.injEq] at he
      rw [← he, hadm] at href
      cases href
  refine (List.perm_ext_iff_of_nodup (hnodup.append (refusedServices_nodup a net [] es) hdisjoint)
    (List.nodup_dedup _)).mpr fun k => ?_
  rw [List.mem_append, List.mem_dedup, List.mem_filter, bne_iff_ne, ← find_isSome_iff es, mem_refusedServices, List.mem_map]
  constructor
  · rintro (⟨x, hx, rfl⟩ | ⟨hk, -, e, he, -⟩)
    · obtain ⟨hx0, -, hfirst, -⟩ := (mem_admitEntries a net).mp hx
      exact ⟨⟨x, hfirst⟩, hx0⟩
    · exact ⟨⟨e, he⟩, hk⟩
  · rintro ⟨⟨e, he⟩, hk⟩
    have hek : e.service = k := by simpa using List.find?_some he
    subst hek
    cases hadm : a.admits net e
    · exact .inr ⟨hk, List.not_mem_nil, e, he, hadm⟩
    · exact .inl ⟨e, (mem_admitEntries a net).mpr ⟨hk, List.not_mem_nil, he, hadm⟩, rfl⟩

/-- The refused services are those of the roster's numbers whose first entry is not admitted. -/
theorem refused_perm (es : List Entry) :
    (refusedServices a net [] es).Perm (((es.map Entry.service).dedup).filter (fun k =>
      k != 0 && (es.find? (fun e => e.service == k)).any (fun e => !a.admits net e))) := by
  refine (List.perm_ext_iff_of_nodup (refusedServices_nodup a net [] es) ((List.nodup_dedup _).filter _)).mpr fun k => ?_
  rw [mem_refusedServices, List.mem_filter, List.mem_dedup, Bool.and_eq_true, bne_iff_ne, Option.any_eq_true,
    ← find_isSome_iff]
  constructor
  · rintro ⟨hk, -, e, he, href⟩
    exact ⟨⟨e, he⟩, hk, e, he, by simp [href]⟩
  · rintro ⟨-, hk, e, he, href⟩
    exact ⟨hk, List.not_mem_nil, e, he, by simpa using href⟩

end

/-! ## The statement -/

/-- Settles O32: the requests by their payload; an entry by the ranges and the kind mask; the admitted set by its members. -/
theorem admissionOfServices : Obligations.AdmissionOfServices := by
  unfold Obligations.AdmissionOfServices
  refine ⟨fun f s hs => ⟨fun hlen h => ?_, fun a hp => ?_, fun hp => ?_⟩, fun a net e => ?_, fun a net es => ?_⟩
  · have hl : svcSetAdmission.lengthOk f.payload.length = true := by rw [hlen]; rfl
    exact next_served (v := svcSetAdmission) hs (by omega) hl (runSetAdmission_refused s h)
  · exact next_served_at (v := svcSetAdmission) hs hp (by rw [bAdmission_length]; rfl)
      (by rw [bAdmission_length]; omega) (runSetAdmission_ok a s)
  · exact next_served_at (v := svcReadAdmission) hs hp rfl (by simp) rfl
  · rw [Admission.admits, Bool.and_eq_true, netPasses_iff]
    refine and_congr_right fun _ => ?_
    cases e.kind <;> rfl
  · obtain ⟨hsub, hnodup, hmem⟩ := admitEntries_spec a net [] es
    refine ⟨hsub, hnodup, fun k e hk he => ?_, fun e he => ?_, ?_, fun e he => ?_, ?_⟩
    · have hek : e.service = k := by simpa using List.find?_some he
      subst hek
      refine ⟨⟨fun h => ((mem_admitEntries a net).mp h).2.2.2,
        fun h => (mem_admitEntries a net).mpr ⟨hk, List.not_mem_nil, he, h⟩⟩, fun href y hy hye => ?_⟩
      obtain ⟨-, -, hfirst, hadm⟩ := (mem_admitEntries a net).mp hy
      rw [hye, show es.find? (fun x => x.service == e.service) = some e from he, Option.some.injEq] at hfirst
      rw [← hfirst, href] at hadm
      cases hadm
    · exact ((mem_admitEntries a net).mp he).2.2.1
    · rw [← (refused_perm a net es).length_eq]
      exact refusedServices_length a net [] es
    · exact ⟨(hmem e he).1, (hmem e he).2.2⟩
    · rw [← (admitted_and_refused a net es).length_eq, List.length_append, List.length_map, ← refusedServices_length]

end Sys2Proof.Machine
end

section
/-! SUPPORT. What one admitted entry of a roster does (Figure 6.1): the slot it finds, the sighting it confirms or creates,
by what the limits of R95 to R97 answer. -/

namespace Sys2Proof.Machine

/-! ## Finding slots (R89, R93) -/

/-- The slot is in use and holds the key. -/
def Dir.inUse (d : Dir) (k : Key) (n : SlotNo) : Prop := (look d.slots n).state ≠ .free ∧ (look d.slots n).key = some k

theorem find_test (d : Dir) (k : Key) (n : SlotNo) :
    ((look d.slots n).state != .free && (look d.slots n).key == some k) = true ↔ d.inUse k n := by
  rw [Bool.and_eq_true, bne_iff_ne, beq_iff_eq, Dir.inUse]

theorem find_inUse {d : Dir} {k : Key} {n : SlotNo} (h : d.find k = some n) : d.inUse k n := by
  rw [Dir.find] at h
  have htest := List.find?_some h
  exact (find_test d k n).mp htest

theorem find_none_iff {d : Dir} {k : Key} : d.find k = none ↔ ∀ n, ¬ d.inUse k n := by
  simp only [Dir.find, List.find?_eq_none, List.mem_finRange, true_imp_iff, find_test]

/-- The only slot in use with a key is the one found. -/
theorem find_eq {d : Dir} {k : Key} {n : SlotNo} (h : d.inUse k n) (only : ∀ m, d.inUse k m → m = n) :
    d.find k = some n := by
  cases hf : d.find k with
  | none => exact absurd h (find_none_iff.mp hf n)
  | some m => rw [only m (find_inUse hf)]

theorem lowestFree_free {d : Dir} {n : SlotNo} (h : d.lowestFree = some n) : (look d.slots n).state = .free := by
  rw [Dir.lowestFree] at h
  simpa using List.find?_some h

theorem lowestFree_none {d : Dir} (h : ∀ n, (look d.slots n).state ≠ .free) : d.lowestFree = none :=
  List.find?_eq_none.mpr fun n _ => by simpa using h n

theorem lowestFree_eq {d : Dir} {n : SlotNo} (h : (look d.slots n).state = .free)
    (below : ∀ m, m < n → (look d.slots m).state ≠ .free) : d.lowestFree = some n := by
  cases hf : d.lowestFree with
  | none =>
    have := List.find?_eq_none.mp hf n (List.mem_finRange n)
    simp [h] at this
  | some m =>
    have hm := lowestFree_free hf
    have hle : ¬ n < m := fun hlt => by
      rw [Dir.lowestFree] at hf
      obtain ⟨-, as, bs, hsplit, has⟩ := List.find?_eq_some_iff_append.mp hf
      have hsort : (List.finRange 512).Pairwise (· < ·) := List.pairwise_lt_finRange 512
      have hmem : n ∈ List.finRange 512 := List.mem_finRange n
      rw [hsplit, List.mem_append, List.mem_cons] at hmem
      rw [hsplit, List.pairwise_append, List.pairwise_cons] at hsort
      obtain ⟨-, ⟨hafter, -⟩, -⟩ := hsort
      rcases hmem with hn | rfl | hn
      · have := has n hn
        simp [h] at this
      · exact lt_irrefl _ hlt
      · exact lt_asymm hlt (hafter n hn)
    have hge : ¬ m < n := fun hlt => below m hlt hm
    rw [le_antisymm (not_lt.mp hle) (not_lt.mp hge)]

/-! ## The ways of one entry -/

section
variable (g : Settings) (r : Reading) (e : Entry) (w : Work)

/-- All that taking an entry can do: the confirmation of a sighting held; a sighting joined or dropped, for the service that
holds the key or for a new one in a FREE slot; the entry dropped. -/
inductive Takes : Work → Prop
  | confirmed {n : SlotNo} (hn : w.dir.inUse (r.key e) n) : Takes (confirmEntry r n e w)
  | joined {n : SlotNo} (hn : w.dir.inUse (r.key e) n) (hh : w.dir.holds n r.cell = false) :
    Takes (joinSighting r n e (fun x => revived (slotNamed e x)) (makeRoom g r.now n r.cell w).1)
  | dropped {n : SlotNo} (hn : w.dir.inUse (r.key e) n) (hh : w.dir.holds n r.cell = false) :
    Takes (dropSighting (makeRoom g r.now n r.cell w).1)
  | created {n : SlotNo} (hn : (look w.dir.slots n).state = .free) :
    Takes (joinSighting r n e (fun x => { x with chosen := some r.cell, reason := some .newService })
      (makeRoom g r.now n r.cell { w with dir := w.dir.setSlot n (newSlot r e) }).1)
  | undone {n : SlotNo} (hn : (look w.dir.slots n).state = .free) :
    Takes (dropSighting
      { (makeRoom g r.now n r.cell { w with dir := w.dir.setSlot n (newSlot r e) }).1 with
        dir := (makeRoom g r.now n r.cell { w with dir := w.dir.setSlot n (newSlot r e) }).1.dir.setSlot n Slot.empty })
  | full : Takes (dropEntry r w)

theorem takeEntry_takes : Takes g r e w (takeEntry g r w e) := by
  unfold takeEntry
  split
  · next n hf =>
    have hn := find_inUse hf
    split
    · exact .confirmed hn
    · next hh =>
      have hh' := Bool.eq_false_iff.mpr hh
      unfold createFor
      split
      · next w1 hw => obtain rfl : _ = w1 := congrArg Prod.fst hw; exact .joined hn hh'
      · next w1 hw => obtain rfl : _ = w1 := congrArg Prod.fst hw; exact .dropped hn hh'
  · split
    · next n hl =>
      have hn := lowestFree_free hl
      unfold createService
      split
      · next w1 hw => obtain rfl : _ = w1 := congrArg Prod.fst hw; exact .created hn
      · next w1 hw => obtain rfl : _ = w1 := congrArg Prod.fst hw; exact .undone hn
    · exact .full

end

/-! ## A new sighting under the limits (R95 to R98) -/

/-- What the limits' answer makes of a new sighting of slot n, whose record becomes z: it joins the pool; it joins once
another sighting is evicted, whose service is marked, and released where it was PROVISIONAL and lost its chosen source; or it
is dropped with SIGHTING_DROPPED. -/
def Admits (g : Settings) (r : Reading) (e : Entry) (w : Work) (n : SlotNo) (z : Slot) (u : Work) : Prop :=
  (limitsAnswer (w.view g r.now) w.dir n r.cell .room →
      u.dir = { w.dir with slots := put w.dir.slots n z, pool := w.dir.pool ++ [r.sighting n e] }
        ∧ u.raised = w.raised ∧ u.cells = w.cells ∧ n ∈ u.marked)
    ∧ (∀ a, limitsAnswer (w.view g r.now) w.dir n r.cell (.evict a) →
        u.dir = { w.dir with
            slots := put w.dir.slots n z
            pool := w.dir.pool.filter (fun y => !(y.slot == a.slot && y.cell == a.cell)) ++ [r.sighting n e] }
          ∧ u.raised = w.raised ∧ u.cells = w.cells ∧ n ∈ u.marked ∧ a.slot ∈ u.marked
          ∧ ((look w.dir.slots a.slot).state = .provisional → (look w.dir.slots a.slot).chosen = some a.cell →
              a.slot ∈ u.release))
    ∧ (limitsAnswer (w.view g r.now) w.dir n r.cell .drop →
        u.dir = w.dir ∧ u.raised = w.raised ||| 0x080#12 ∧ u.cells = w.cells)

/-- The removal of a service's sighting marks the service, and releases a PROVISIONAL one that loses its chosen source. -/
theorem removeSighting_marks (n : SlotNo) (c : CellRef) (w : Work) :
    n ∈ (removeSighting n c w).marked
      ∧ ((look w.dir.slots n).state = .provisional → (look w.dir.slots n).chosen = some c →
          n ∈ (removeSighting n c w).release) := by
  refine ⟨List.mem_cons_self, fun hs hc => ?_⟩
  simp only [removeSighting, hs, hc, and_self, if_true, List.mem_cons, true_or]

/-- A new sighting of a service that has a slot. -/
theorem createFor_admits (g : Settings) (r : Reading) (n : SlotNo) (e : Entry) (w : Work) :
    Admits g r e w n (revived (slotNamed e (look w.dir.slots n))) (createFor g r n e w) := by
  obtain ⟨room, evict, drop⟩ := makeRoom_spec g r.now n r.cell w
  refine ⟨fun h => ?_, fun a h => ?_, fun h => ?_⟩
  · simp only [createFor, room h]
    exact ⟨rfl, rfl, rfl, List.mem_cons_self⟩
  · simp only [createFor, evict a h]
    obtain ⟨hmark, hfree⟩ := removeSighting_marks a.slot a.cell w
    exact ⟨rfl, rfl, rfl, List.mem_cons_self, List.mem_cons_of_mem _ hmark, hfree⟩
  · simp only [createFor, drop h]
    exact ⟨rfl, rfl, rfl⟩

/-- To a slot without sightings the limits answer alike, whatever its record. -/
theorem limitsAnswer_setSlot {v : View} {d : Dir} {n : SlotNo} {c : CellRef} {a : Limits} (z : Slot)
    (hn : d.sightings n = []) (h : limitsAnswer v d n c a) : limitsAnswer v (d.setSlot n z) n c a := by
  have hlt : ¬ 8 ≤ (d.sightings n).length := by simp [hn]
  cases a with
  | room => exact h
  | evict a => exact .inr (h.resolve_left fun h => hlt h.1)
  | drop => exact .inr (h.resolve_left fun h => hlt h.1)

/-- What is evicted for a slot without sightings is another slot's. -/
theorem evicted_slot_ne {v : View} {d : Dir} {n : SlotNo} {c : CellRef} {a : Sighting} (hn : d.sightings n = [])
    (h : limitsAnswer v d n c (.evict a)) : a.slot ≠ n := by
  rintro rfl
  have hnot : a ∉ d.sightings a.slot := by simp [hn]
  rcases h with ⟨-, -, ha, -⟩ | ⟨-, -, ha, -⟩
  · exact hnot ha
  · exact hnot (mem_sightings.mpr ⟨ha, rfl⟩)

/-- A new service in a FREE slot, which is FREE again when its sighting is dropped. -/
theorem createService_admits (g : Settings) (r : Reading) {n : SlotNo} (e : Entry) {w : Work}
    (hfree : look w.dir.slots n = Slot.empty) (hn : w.dir.sightings n = []) :
    Admits g r e w n { newSlot r e with chosen := some r.cell, reason := some .newService }
      (createService g r n e w) := by
  obtain ⟨room, evict, drop⟩ := makeRoom_spec g r.now n r.cell { w with dir := w.dir.setSlot n (newSlot r e) }
  have hput : ∀ x y : Slot, put (put w.dir.slots n x) n y = put w.dir.slots n y := fun x y =>
    table_ext fun k => by simp only [look_put]; split <;> rfl
  refine ⟨fun h => ?_, fun a h => ?_, fun h => ?_⟩
  · simp only [createService, room (limitsAnswer_setSlot _ hn h)]
    refine ⟨?_, rfl, rfl, List.mem_cons_self⟩
    simp only [joinSighting, Dir.setSlot, look_put_self, hput]
  · simp only [createService, evict a (limitsAnswer_setSlot _ hn h)]
    obtain ⟨hmark, hrelease⟩ := removeSighting_marks a.slot a.cell { w with dir := w.dir.setSlot n (newSlot r e) }
    refine ⟨?_, rfl, rfl, List.mem_cons_self, List.mem_cons_of_mem _ hmark, ?_⟩
    · simp only [joinSighting, removeSighting, Dir.setSlot, look_put_self, hput]
    · simp only [Dir.setSlot, look_put_ne _ _ (evicted_slot_ne hn h)] at hrelease
      exact hrelease
  · simp only [createService, drop (limitsAnswer_setSlot _ hn h)]
    refine ⟨?_, rfl, rfl⟩
    simp only [dropSighting, Dir.setSlot, hput, ← hfree, put_look]

/-! ## One entry, by the slot it finds -/

section
variable {g : Settings} {r : Reading} {e : Entry} {w : Work} {n : SlotNo}

theorem takeEntry_held (hf : w.dir.find (r.key e) = some n) (hh : w.dir.holds n r.cell = true) :
    takeEntry g r w e = confirmEntry r n e w := by
  unfold takeEntry
  rw [hf]
  exact if_pos hh

theorem takeEntry_known (hf : w.dir.find (r.key e) = some n) (hh : w.dir.holds n r.cell = false) :
    takeEntry g r w e = createFor g r n e w := by
  unfold takeEntry
  rw [hf]
  exact if_neg (Bool.not_eq_true _ ▸ hh)

theorem takeEntry_new (hf : w.dir.find (r.key e) = none) (hl : w.dir.lowestFree = some n) :
    takeEntry g r w e = createService g r n e w := by
  unfold takeEntry
  rw [hf]
  dsimp only
  rw [hl]

theorem takeEntry_full (hf : w.dir.find (r.key e) = none) (hl : w.dir.lowestFree = none) :
    takeEntry g r w e = dropEntry r w := by
  unfold takeEntry
  rw [hf]
  dsimp only
  rw [hl]

end

end Sys2Proof.Machine
end

section
/-! SUPPORT. Directory work followed from its beginning to its end: which services a visit end marks and releases, told by the
sightings they held before the work and hold after it (R68, R94, R99, R120). -/

namespace Sys2Proof.Machine

/-! ## Sightings held -/

/-- Whether a slot holds a sighting on a cell is told by the pool alone. -/
theorem holds_iff_join {d : Dir} {n : SlotNo} {k : CellRef} : d.holds n k = true ↔ ∃ x ∈ d.pool, x.join = (n, k) := by
  simp [Dir.holds, Sighting.join]

theorem holds_of_join_eq {d d' : Dir} (h : d'.pool.map Sighting.join = d.pool.map Sighting.join) (n : SlotNo) (k : CellRef) :
    d'.holds n k = d.holds n k := by
  rw [Bool.eq_iff_iff, holds_iff_join, holds_iff_join, ← List.mem_map, ← List.mem_map, h]

theorem holds_append {d d' : Dir} {x : Sighting} (h : d'.pool = d.pool ++ [x]) (n : SlotNo) (k : CellRef) :
    d'.holds n k = true ↔ d.holds n k = true ∨ x.join = (n, k) := by
  simp only [holds_iff_join, h, List.mem_append, List.mem_singleton, or_and_right, exists_or, exists_eq_left]

/-- After the removal of one sighting the others are held as before. -/
theorem holds_removeSighting (a : SlotNo) (b : CellRef) (w : Work) (n : SlotNo) (k : CellRef) :
    (removeSighting a b w).dir.holds n k = true ↔ w.dir.holds n k = true ∧ ¬ (n = a ∧ k = b) := by
  simp only [holds_iff_join, mem_removeSighting, Sighting.join, Prod.mk.injEq]
  constructor
  · rintro ⟨x, ⟨hx, hne⟩, rfl, rfl⟩; exact ⟨⟨x, hx, rfl, rfl⟩, hne⟩
  · rintro ⟨⟨x, hx, rfl, rfl⟩, hne⟩; exact ⟨x, ⟨hx, hne⟩, rfl, rfl⟩

theorem bereft_iff {before after : Dir} {n : SlotNo} :
    bereft before after n = true ↔ ∃ k, before.holds n k = true ∧ after.holds n k = false := by
  simp only [bereft, List.any_eq_true, Bool.not_eq_true', holds_iff (d := before)]
  constructor
  · rintro ⟨x, hx, h⟩; exact ⟨x.cell, ⟨x, hx, rfl⟩, h⟩
  · rintro ⟨_, ⟨x, hx, rfl⟩, h⟩; exact ⟨x, hx, h⟩

theorem unseated_iff {before after : Dir} {n : SlotNo} :
    unseated before after n = true ↔ (look after.slots n).state = .provisional
      ∧ ∃ k, (look after.slots n).chosen = some k ∧ before.holds n k = true ∧ after.holds n k = false := by
  simp only [unseated, Bool.and_eq_true, beq_iff_eq, Option.any_eq_true, Bool.not_eq_true']

/-! ## Following the entries of a roster -/

/-- Two records of one slot agree in what bears on its release: whether it is PROVISIONAL, and if so its key and its chosen
source. -/
def Slot.recalledAlike (x y : Slot) : Prop :=
  (y.state = .provisional ↔ x.state = .provisional)
    ∧ (x.state = .provisional → y.key = x.key ∧ y.chosen = x.chosen)

theorem Slot.recalledAlike.refl (x : Slot) : x.recalledAlike x := ⟨Iff.rfl, fun _ => ⟨rfl, rfl⟩⟩

theorem Slot.recalledAlike.trans {x y z : Slot} (h : x.recalledAlike y) (h' : y.recalledAlike z) : x.recalledAlike z := by
  obtain ⟨state, same⟩ := h
  obtain ⟨state', same'⟩ := h'
  refine ⟨state'.trans state, fun hx => ?_⟩
  obtain ⟨key, chosen⟩ := same hx
  obtain ⟨key', chosen'⟩ := same' (state.mpr hx)
  exact ⟨key'.trans key, chosen'.trans chosen⟩

/-- Slots none of which is PROVISIONAL agree in what bears on a release. -/
theorem Slot.recalledAlike.of_ne {x y : Slot} (hx : x.state ≠ .provisional) (hy : y.state ≠ .provisional) :
    x.recalledAlike y := ⟨iff_of_false hy hx, fun h => absurd h hx⟩

/-- The work from w to u takes entries of these keys on cell c. It gives sightings on c and removes them elsewhere; it marks
the slots whose sightings it changes, and releases the PROVISIONAL ones that lose their chosen source. -/
structure Work.Follows (c : CellRef) (keys : Key → Prop) (w u : Work) : Prop where
  lostOn : u.lostOn = w.lostOn
  slots : ∀ n, (look w.dir.slots n).recalledAlike (look u.dir.slots n)
  stays : ∀ n, w.dir.holds n c = true → u.dir.holds n c = true
  elsewhere : ∀ n k, k ≠ c → u.dir.holds n k = true → w.dir.holds n k = true
  gained : ∀ n, (look w.dir.slots n).state = .provisional → (∀ k, (look w.dir.slots n).key = some k → ¬ keys k) →
    u.dir.holds n c = true → w.dir.holds n c = true
  marked : ∀ n, n ∈ u.marked ↔ n ∈ w.marked ∨ ∃ k, u.dir.holds n k ≠ w.dir.holds n k
  release : ∀ n, n ∈ u.release ↔ n ∈ w.release ∨ unseated w.dir u.dir n = true

section
variable {c : CellRef} {keys : Key → Prop}

/-- Work that changes no sighting and marks nothing. -/
theorem Work.Follows.of_holds {w u : Work} (hlost : u.lostOn = w.lostOn) (hmarked : u.marked = w.marked)
    (hrelease : u.release = w.release) (hslots : ∀ n, (look w.dir.slots n).recalledAlike (look u.dir.slots n))
    (hholds : ∀ n k, u.dir.holds n k = w.dir.holds n k) : w.Follows c keys u where
  lostOn := hlost
  slots := hslots
  stays := fun n h => (hholds n c).trans h
  elsewhere := fun n k _ h => (hholds n k).symm.trans h
  gained := fun n _ _ h => (hholds n c).symm.trans h
  marked := fun n => by simp [hmarked, hholds]
  release := fun n => by simp [hrelease, unseated_iff, hholds]

theorem Work.Follows.refl (w : Work) : w.Follows c keys w :=
  .of_holds rfl rfl rfl (fun _ => .refl _) (fun _ _ => rfl)

/-- Of two steps that both only add, or both only take away, neither undoes the other. -/
theorem changes_of_monotone : ∀ x y z : Bool, (x = true → y = true) ∧ (y = true → z = true)
    ∨ (y = true → x = true) ∧ (z = true → y = true) →
    (z ≠ x ↔ y ≠ x ∨ z ≠ y) ∧ (x = true ∧ z = false ↔ x = true ∧ y = false ∨ y = true ∧ z = false) := by decide

/-- What two stretches of work change of the sightings held is what the one or the other changes. -/
theorem Work.Follows.changes {w u t : Work} (a : w.Follows c keys u) (b : u.Follows c keys t) (n : SlotNo) (k : CellRef) :
    (t.dir.holds n k ≠ w.dir.holds n k ↔ u.dir.holds n k ≠ w.dir.holds n k ∨ t.dir.holds n k ≠ u.dir.holds n k)
      ∧ (w.dir.holds n k = true ∧ t.dir.holds n k = false ↔
          w.dir.holds n k = true ∧ u.dir.holds n k = false ∨ u.dir.holds n k = true ∧ t.dir.holds n k = false) := by
  refine changes_of_monotone _ _ _ ?_
  by_cases hk : k = c
  · exact .inl ⟨hk ▸ a.stays n, hk ▸ b.stays n⟩
  · exact .inr ⟨a.elsewhere n k hk, b.elsewhere n k hk⟩

theorem Work.Follows.trans {w u t : Work} (a : w.Follows c keys u) (b : u.Follows c keys t) : w.Follows c keys t where
  lostOn := b.lostOn.trans a.lostOn
  slots := fun n => (a.slots n).trans (b.slots n)
  stays := fun n h => b.stays n (a.stays n h)
  elsewhere := fun n k hk h => a.elsewhere n k hk (b.elsewhere n k hk h)
  gained := fun n hp hkeys h => by
    obtain ⟨state, same⟩ := a.slots n
    refine a.gained n hp hkeys (b.gained n (state.mpr hp) ?_ h)
    rw [(same hp).1]
    exact hkeys
  marked := fun n => by
    rw [b.marked, a.marked, or_assoc, ← exists_or]
    exact or_congr_right (exists_congr fun k => (a.changes b n k).1.symm)
  release := fun n => by
    rw [b.release, a.release, or_assoc, unseated_iff, unseated_iff, unseated_iff]
    refine or_congr_right ?_
    obtain ⟨state, same⟩ := b.slots n
    rw [state]
    by_cases hp : (look u.dir.slots n).state = .provisional
    · rw [(same hp).2, ← and_or_left, ← exists_or]
      refine and_congr_right fun _ => exists_congr fun k => ?_
      rw [← and_or_left, (a.changes b n k).2]
    · simp only [hp, false_and, or_self]

/-- A sighting on another cell is removed. -/
theorem removeSighting_follows {n : SlotNo} {b : CellRef} {w : Work} (hb : b ≠ c) (hh : w.dir.holds n b = true) :
    w.Follows c keys (removeSighting n b w) where
  lostOn := rfl
  slots := fun _ => .refl _
  stays := fun m h => (holds_removeSighting n b w m c).mpr ⟨h, fun hm => hb hm.2.symm⟩
  elsewhere := fun m k _ h => ((holds_removeSighting n b w m k).mp h).1
  gained := fun m _ _ h => ((holds_removeSighting n b w m c).mp h).1
  marked := fun m => by
    have hone : ∀ k, (removeSighting n b w).dir.holds m k ≠ w.dir.holds m k ↔ w.dir.holds m k = true ∧ m = n ∧ k = b :=
      fun k => by rw [ne_eq, Bool.eq_iff_iff, holds_removeSighting]; tauto
    have hchange : (∃ k, (removeSighting n b w).dir.holds m k ≠ w.dir.holds m k) ↔ m = n := by
      simp only [hone]
      exact ⟨fun ⟨_, _, h, _⟩ => h, fun h => ⟨b, h ▸ hh, h, rfl⟩⟩
    rw [hchange, or_comm]
    exact List.mem_cons
  release := fun m => by
    have hlost : unseated w.dir (removeSighting n b w).dir m = true ↔
        m = n ∧ (look w.dir.slots m).state = .provisional ∧ (look w.dir.slots m).chosen = some b := by
      rw [unseated_iff]
      have hgone : ∀ k, w.dir.holds m k = true ∧ (removeSighting n b w).dir.holds m k = false ↔
          w.dir.holds m k = true ∧ m = n ∧ k = b :=
        fun k => by rw [← Bool.not_eq_true, holds_removeSighting]; tauto
      simp only [hgone]
      constructor
      · rintro ⟨hp, k, hk, -, rfl, rfl⟩
        exact ⟨rfl, hp, hk⟩
      · rintro ⟨rfl, hp, hk⟩
        exact ⟨hp, b, hk, hh, rfl, rfl⟩
    rw [hlost]
    simp only [removeSighting]
    split
    · next hrel =>
      rw [List.mem_cons, or_comm]
      refine or_congr_right ⟨?_, And.left⟩
      rintro rfl
      exact ⟨rfl, hrel⟩
    · next hrel =>
      refine ⟨.inl, fun h => h.resolve_right ?_⟩
      rintro ⟨rfl, hrel'⟩
      exact hrel hrel'

/-- Making room for a sighting on a cell takes sightings of other cells only: the evicted one is of a service that holds none
there, or lies on a LOST cell. -/
theorem makeRoom_follows (g : Settings) (now : Time) {n : SlotNo} {w : Work} (hc : (look w.cells c).state ≠ .lost)
    (hn : w.dir.holds n c = false) : w.Follows c keys (makeRoom g now n c w).1 := by
  have service : ∀ u, serviceRoom g now n c w = some u → w.Follows c keys u := fun u hu => by
    unfold serviceRoom at hu
    split at hu
    · exact Option.some.inj hu ▸ .refl w
    · obtain ⟨x, hx, rfl⟩ := Option.map_eq_some_iff.mp hu
      have hmem : x ∈ w.dir.sightings n := by
        unfold serviceVictim at hx
        split at hx
        · next y hy =>
          obtain rfl := Option.some.inj hx
          exact (List.mem_filter.mp (best_mem hy)).1
        · obtain ⟨hlast, -⟩ := Option.filter_eq_some_iff.mp hx
          exact (ranked_perm _ _).mem_iff.mp (List.mem_of_getLast? hlast)
      obtain ⟨-, rfl⟩ := mem_sightings.mp hmem
      have hh : w.dir.holds x.slot x.cell = true := holds_iff.mpr ⟨x, hmem, rfl⟩
      refine removeSighting_follows (fun h => ?_) hh
      rw [h, hn] at hh
      cases hh
  have pool : ∀ u t, u.cells = w.cells → poolRoom g now u = some t → u.Follows c keys t := fun u t hcells ht => by
    unfold poolRoom at ht
    split at ht
    · exact Option.some.inj ht ▸ .refl u
    · obtain ⟨x, hx, rfl⟩ := Option.map_eq_some_iff.mp ht
      obtain ⟨hmem, hlost⟩ := List.mem_filter.mp (best_mem hx)
      refine removeSighting_follows (fun h => hc ?_) (holds_iff.mpr ⟨x, mem_sightings.mpr ⟨hmem, rfl⟩, rfl⟩)
      rw [← hcells, ← h]
      exact beq_iff_eq.mp hlost
  unfold makeRoom
  cases h1 : serviceRoom g now n c w with
  | none => exact .refl w
  | some w1 =>
    dsimp only
    cases h2 : poolRoom g now w1 with
    | none => exact service w1 h1
    | some w2 => exact (service w1 h1).trans (pool w1 w2 (serviceRoom_sheds h1).cells h2)

/-- A sighting on the cell joins for a slot that had none there. -/
theorem joinSighting_follows {r : Reading} {n : SlotNo} {e : Entry} {change : Slot → Slot} {w : Work}
    (hn : w.dir.holds n r.cell = false)
    (hchange : (look w.dir.slots n).recalledAlike (change (look w.dir.slots n)))
    (hkey : (look w.dir.slots n).state = .provisional → ∃ k, (look w.dir.slots n).key = some k ∧ keys k) :
    w.Follows r.cell keys (joinSighting r n e change w) := by
  have hholds : ∀ m k, (joinSighting r n e change w).dir.holds m k = true ↔
      w.dir.holds m k = true ∨ n = m ∧ r.cell = k := fun m k => by
    rw [holds_append (d := w.dir) (x := r.sighting n e) rfl]
    simp [Sighting.join, Reading.sighting]
  refine ⟨rfl, fun m => ?_, fun m h => (hholds m r.cell).mpr (.inl h), fun m k hk h => ?_, fun m hp hkeys h => ?_,
    fun m => ?_, fun m => ?_⟩
  · simp only [joinSighting, look_put]
    split
    · next hm => exact hm ▸ hchange
    · exact .refl _
  · exact ((hholds m k).mp h).resolve_right fun h => hk h.2.symm
  · refine ((hholds m r.cell).mp h).resolve_right ?_
    rintro ⟨rfl, -⟩
    obtain ⟨k, hk, hmem⟩ := hkey hp
    exact hkeys k hk hmem
  · have hone : ∀ k, (joinSighting r n e change w).dir.holds m k ≠ w.dir.holds m k ↔
        ¬ w.dir.holds m k = true ∧ n = m ∧ r.cell = k := fun k => by rw [ne_eq, Bool.eq_iff_iff, hholds]; tauto
    have hnew : (∃ k, (joinSighting r n e change w).dir.holds m k ≠ w.dir.holds m k) ↔ m = n := by
      simp only [hone]
      refine ⟨fun ⟨_, _, h, _⟩ => h.symm, ?_⟩
      rintro rfl
      exact ⟨r.cell, by simp [hn], rfl, rfl⟩
    rw [hnew, or_comm]
    exact List.mem_cons
  · have hkept : unseated w.dir (joinSighting r n e change w).dir m = false := by
      rw [← Bool.not_eq_true, unseated_iff]
      rintro ⟨-, k, -, hw, hgone⟩
      rw [(hholds m k).mpr (.inl hw)] at hgone
      cases hgone
    rw [hkept]
    simp [joinSighting]

/-- No FREE slot has a sighting (R88). -/
def Dir.freeBare (d : Dir) : Prop := ∀ x ∈ d.pool, (look d.slots x.slot).state ≠ .free

theorem holds_of_freeBare {d : Dir} (h : d.freeBare) {n : SlotNo} (hn : (look d.slots n).state = .free) (k : CellRef) :
    d.holds n k = false := by
  rw [← Bool.not_eq_true, holds_iff]
  rintro ⟨x, hx, -⟩
  obtain ⟨hpool, rfl⟩ := mem_sightings.mp hx
  exact h x hpool hn

theorem revived_alike (e : Entry) (x : Slot) : x.recalledAlike (revived (slotNamed e x)) := by
  unfold revived
  split
  · next h =>
    have h' : x.state = .retiring := h
    exact .of_ne (by simp [h']) (by simp)
  · exact ⟨Iff.rfl, fun _ => ⟨rfl, rfl⟩⟩

theorem confirmEntry_holds (r : Reading) (n : SlotNo) (e : Entry) (w : Work) (m : SlotNo) (k : CellRef) :
    (confirmEntry r n e w).dir.holds m k = w.dir.holds m k := by
  refine holds_of_join_eq ?_ m k
  simp only [confirmEntry, List.map_map]
  refine List.map_congr_left fun x _ => ?_
  simp only [Function.comp_apply]
  split <;> rfl

/-- Entries that are taken are followed, where the cell is not LOST and no FREE slot has a sighting. -/
theorem takes_follows {g : Settings} {r : Reading} {e : Entry} {w u : Work} (hc : (look w.cells r.cell).state ≠ .lost)
    (hbare : w.dir.freeBare) (hkey : keys (r.key e)) (h : Takes g r e w u) : w.Follows r.cell keys u := by
  have drop : ∀ v : Work, v.Follows r.cell keys (dropSighting v) := fun v =>
    .of_holds rfl rfl rfl (fun _ => .refl _) (fun _ _ => rfl)
  have renew : ∀ (v : Work) (n : SlotNo) (z : Slot), (look v.dir.slots n).recalledAlike z →
      v.Follows r.cell keys { v with dir := v.dir.setSlot n z } := fun v n z hz =>
    .of_holds rfl rfl rfl (fun m => by
      simp only [Dir.setSlot_slots, look_put]
      split
      · next hm => exact hm ▸ hz
      · exact .refl _) (fun _ _ => rfl)
  have stillNone : ∀ (n : SlotNo) (v : Work), v.dir.holds n r.cell = false →
      (makeRoom g r.now n r.cell v).1.dir.holds n r.cell = false := fun n v hv => by
    rw [← Bool.not_eq_true, holds_iff] at hv ⊢
    rintro ⟨x, hx, hxc⟩
    obtain ⟨hx, hxn⟩ := mem_sightings.mp hx
    exact hv ⟨x, mem_sightings.mpr ⟨(makeRoom_sheds g r.now n r.cell v).pool.subset hx, hxn⟩, hxc⟩
  have begun : ∀ n : SlotNo, (look w.dir.slots n).state = .free →
      let w1 := (makeRoom g r.now n r.cell { w with dir := w.dir.setSlot n (newSlot r e) }).1
      w.Follows r.cell keys w1 ∧ look w1.dir.slots n = newSlot r e ∧ w1.dir.holds n r.cell = false := fun n hn => by
    have hnone := holds_of_freeBare hbare hn r.cell
    have hnew : (look w.dir.slots n).recalledAlike (newSlot r e) := .of_ne (by simp [hn]) (by simp [newSlot, slotNamed])
    refine ⟨(renew w n _ hnew).trans (makeRoom_follows g r.now hc hnone), ?_, stillNone n _ hnone⟩
    rw [(makeRoom_sheds g r.now n r.cell _).slots, Dir.setSlot_slots, look_put_self]
  cases h with
  | @confirmed n hn =>
    refine .of_holds rfl rfl rfl (fun m => ?_) (confirmEntry_holds r n e w)
    simp only [confirmEntry, look_put]
    split
    · next hm => exact hm ▸ ⟨Iff.rfl, fun _ => ⟨rfl, rfl⟩⟩
    · exact .refl _
  | @joined n hn hh =>
    refine (makeRoom_follows g r.now hc hh).trans (joinSighting_follows (stillNone n w hh) (revived_alike e _) fun _ => ?_)
    rw [(makeRoom_sheds g r.now n r.cell w).slots]
    exact ⟨r.key e, hn.2, hkey⟩
  | @dropped n hn hh => exact (makeRoom_follows g r.now hc hh).trans (drop _)
  | @created n hn =>
    obtain ⟨room, hslot, hnone⟩ := begun n hn
    have hlive : (newSlot r e).state ≠ .provisional := by simp [newSlot, slotNamed]
    refine room.trans (joinSighting_follows hnone ?_ fun hp => ?_)
    · rw [hslot]
      exact .of_ne hlive hlive
    · rw [hslot] at hp
      exact absurd hp hlive
  | @undone n hn =>
    obtain ⟨room, hslot, -⟩ := begun n hn
    refine room.trans ((renew _ n Slot.empty ?_).trans (drop _))
    rw [hslot]
    exact .of_ne (by simp [newSlot, slotNamed]) (by simp [Slot.empty])
  | full => exact .of_holds rfl rfl rfl (fun _ => .refl _) (fun _ _ => rfl)

theorem revived_inUse {e : Entry} {x : Slot} (h : x.state ≠ .free) :
    (revived (slotNamed e x)).state ≠ .free ∧ (revived (slotNamed e x)).key = x.key := by
  unfold revived
  split
  · exact ⟨by simp, rfl⟩
  · exact ⟨h, rfl⟩

/-- Every sighting after an entry was there before, or is the one the entry made, on its cell and of the service that now has
its key; a slot in use stays in use with its key. -/
theorem takes_pool {g : Settings} {r : Reading} {e : Entry} {w u : Work} (h : Takes g r e w u) :
    (∀ x ∈ u.dir.pool, (∃ y ∈ w.dir.pool, y.join = x.join) ∨ x.cell = r.cell ∧ u.dir.inUse (r.key e) x.slot)
      ∧ ∀ n, (look w.dir.slots n).state ≠ .free →
          (look u.dir.slots n).state ≠ .free ∧ (look u.dir.slots n).key = (look w.dir.slots n).key := by
  have kept : ∀ (n : SlotNo) (v : Work) x, x ∈ (makeRoom g r.now n r.cell v).1.dir.pool → ∃ y ∈ v.dir.pool, y.join = x.join :=
    fun n v x hx => ⟨x, (makeRoom_sheds g r.now n r.cell v).pool.subset hx, rfl⟩
  have slots : ∀ (n : SlotNo) (v : Work), (makeRoom g r.now n r.cell v).1.dir.slots = v.dir.slots :=
    fun n v => (makeRoom_sheds g r.now n r.cell v).slots
  cases h with
  | @confirmed n hn =>
    refine ⟨fun x hx => ?_, fun m hm => ?_⟩
    · obtain ⟨y, hy, rfl⟩ := List.mem_map.mp hx
      refine .inl ⟨y, hy, ?_⟩
      split <;> rfl
    · simp only [confirmEntry, look_put]
      split
      · next hmn => exact hmn ▸ ⟨hm, rfl⟩
      · exact ⟨hm, rfl⟩
  | @joined n hn hh =>
    simp only [joinSighting, slots]
    refine ⟨fun x hx => ?_, fun m hm => ?_⟩
    · rcases List.mem_append.mp hx with hx | hx
      · exact .inl (kept n w x hx)
      · obtain rfl := List.mem_singleton.mp hx
        obtain ⟨hstate, hkey⟩ := revived_inUse (e := e) hn.1
        refine .inr ⟨rfl, ?_⟩
        simp only [Dir.inUse, Reading.sighting, look_put_self]
        exact ⟨hstate, hkey.trans hn.2⟩
    · rw [look_put]
      split
      · next hmn => subst hmn; exact revived_inUse hm
      · exact ⟨hm, rfl⟩
  | @dropped n hn hh =>
    refine ⟨fun x hx => .inl (kept n w x hx), fun m hm => ?_⟩
    simp only [dropSighting, slots]
    exact ⟨hm, trivial⟩
  | @created n hn =>
    simp only [joinSighting, slots, Dir.setSlot_slots]
    refine ⟨fun x hx => ?_, fun m hm => ?_⟩
    · rcases List.mem_append.mp hx with hx | hx
      · exact .inl (kept n { w with dir := w.dir.setSlot n (newSlot r e) } x hx)
      · obtain rfl := List.mem_singleton.mp hx
        refine .inr ⟨rfl, ?_⟩
        simp only [Dir.inUse, Reading.sighting, look_put_self]
        exact ⟨by simp [newSlot, slotNamed], rfl⟩
    · have hmn : m ≠ n := fun h => hm (h ▸ hn)
      rw [look_put_ne _ _ hmn, look_put_ne _ _ hmn]
      exact ⟨hm, rfl⟩
  | @undone n hn =>
    refine ⟨fun x hx => .inl (kept n { w with dir := w.dir.setSlot n (newSlot r e) } x hx), fun m hm => ?_⟩
    have hmn : m ≠ n := fun h => hm (h ▸ hn)
    simp only [dropSighting, Dir.setSlot_slots, slots, look_put_ne _ _ hmn]
    exact ⟨hm, trivial⟩
  | full => exact ⟨fun x hx => .inl ⟨x, hx, rfl⟩, fun m hm => ⟨hm, rfl⟩⟩

/-- Every sighting is of a slot in use, and on the cell of a service that these entries list. -/
def Work.listsOn (r : Reading) (es : List Entry) (w : Work) : Prop :=
  ∀ x ∈ w.dir.pool, (look w.dir.slots x.slot).state ≠ .free ∧ (x.cell = r.cell → listed r es w.dir x.slot = true)

theorem takeEntry_freeBare {g : Settings} {r : Reading} {e : Entry} {w : Work} (h : w.dir.freeBare) :
    (takeEntry g r w e).dir.freeBare := by
  obtain ⟨pool, slots⟩ := takes_pool (takeEntry_takes g r e w)
  intro x hx
  rcases pool x hx with ⟨y, hy, hjoin⟩ | ⟨-, hn, -⟩
  · obtain ⟨hslot, -⟩ := Prod.mk.inj hjoin
    exact (slots x.slot (hslot ▸ h y hy)).1
  · exact hn

theorem listed_iff {r : Reading} {es : List Entry} {d : Dir} {n : SlotNo} :
    listed r es d n = true ↔ ∃ e ∈ es, (look d.slots n).key = some (r.key e) := by
  simp only [listed, List.any_eq_true, beq_iff_eq]

theorem takeEntry_listsOn {g : Settings} {r : Reading} {es : List Entry} {e : Entry} {w : Work} (he : e ∈ es)
    (h : w.listsOn r es) : (takeEntry g r w e).listsOn r es := by
  obtain ⟨pool, slots⟩ := takes_pool (takeEntry_takes g r e w)
  intro x hx
  rcases pool x hx with ⟨y, hy, hjoin⟩ | ⟨-, hn, hkey⟩
  · obtain ⟨hslot, hcell⟩ := Prod.mk.inj hjoin
    obtain ⟨huse, hlist⟩ := h y hy
    rw [hslot] at huse hlist
    obtain ⟨huse', hkey⟩ := slots x.slot huse
    refine ⟨huse', fun hc => ?_⟩
    obtain ⟨a, ha, hak⟩ := listed_iff.mp (hlist (hcell.trans hc))
    exact listed_iff.mpr ⟨a, ha, hkey.trans hak⟩
  · exact ⟨hn, fun _ => listed_iff.mpr ⟨e, he, hkey⟩⟩

/-- Entry after entry the work is followed. -/
theorem takeEntries_follow {g : Settings} {r : Reading} {es : List Entry} {w : Work}
    (hc : (look w.cells r.cell).state ≠ .lost) (hbare : w.dir.freeBare) (hkeys : ∀ e ∈ es, keys (r.key e)) :
    w.Follows r.cell keys (es.foldl (takeEntry g r) w) := by
  induction es generalizing w with
  | nil => exact .refl w
  | cons e es ih =>
    rw [List.foldl_cons]
    have hcell : (look (takeEntry g r w e).cells r.cell).state = (look w.cells r.cell).state := by
      obtain ⟨-, ⟨rf, ro, hcell⟩, -⟩ := takeEntry_keeps g r w e
      rw [hcell]
    exact (takes_follows hc hbare (hkeys e List.mem_cons_self) (takeEntry_takes g r e w)).trans
      (ih (by rw [hcell]; exact hc) (takeEntry_freeBare hbare) fun a ha => hkeys a (List.mem_cons_of_mem _ ha))

/-! ## Removals on the cell -/

/-- The work from w to u removes from cell c the sightings of the services of a test, marks and notes them, and releases the
PROVISIONAL ones whose chosen source lay there. -/
structure Work.Shorn (c : CellRef) (drop : SlotNo → Bool) (w u : Work) : Prop where
  slots : u.dir.slots = w.dir.slots
  holds : ∀ n k, u.dir.holds n k = true ↔ w.dir.holds n k = true ∧ ¬ (k = c ∧ drop n = true)
  marked : ∀ n, n ∈ u.marked ↔ n ∈ w.marked ∨ drop n = true ∧ w.dir.holds n c = true
  lostOn : ∀ n, n ∈ u.lostOn ↔ n ∈ w.lostOn ∨ drop n = true ∧ w.dir.holds n c = true
  release : ∀ n, n ∈ u.release ↔ n ∈ w.release ∨ drop n = true ∧ w.dir.holds n c = true
    ∧ (look w.dir.slots n).state = .provisional ∧ (look w.dir.slots n).chosen = some c

theorem Work.Shorn.refl (w : Work) : w.Shorn c (fun _ => false) w where
  slots := rfl
  holds := by simp
  marked := by simp
  lostOn := by simp
  release := by simp

theorem Work.Shorn.gone {drop : SlotNo → Bool} {w u : Work} (h : w.Shorn c drop u) {n : SlotNo} {k : CellRef}
    (hw : w.dir.holds n k = true) (hu : ¬ u.dir.holds n k = true) : k = c ∧ drop n = true := by
  by_contra hd
  exact hu ((h.holds n k).mpr ⟨hw, hd⟩)

theorem removeOnCell_shorn (c : CellRef) (drop : SlotNo → Bool) (w : Work) : w.Shorn c drop (removeOnCell c drop w) := by
  obtain ⟨-, -, hdir, hmarked, hlost, hrelease⟩ := removeOnCell_spec c drop w
  refine ⟨by rw [hdir], fun n k => ?_, hmarked, hlost, hrelease⟩
  simp only [holds_iff_join, hdir, List.mem_filter, Sighting.join, Prod.mk.injEq, Bool.not_eq_true', Bool.and_eq_false_iff,
    beq_eq_false_iff_ne]
  constructor
  · rintro ⟨x, ⟨hx, hne⟩, rfl, rfl⟩
    exact ⟨⟨x, hx, rfl, rfl⟩, by simpa [imp_iff_not_or] using hne⟩
  · rintro ⟨⟨x, hx, rfl, rfl⟩, hne⟩
    exact ⟨x, ⟨hx, by simpa [imp_iff_not_or] using hne⟩, rfl, rfl⟩

/-! ## The evaluations of a visit end -/

/-- The work from w to u on cell c: removals there, then entries taken, none of them of a PROVISIONAL service whose sighting
was removed. -/
def Work.Visits (c : CellRef) (w u : Work) : Prop :=
  ∃ drop keys v, w.Shorn c drop v ∧ v.Follows c keys u
    ∧ ∀ n, drop n = true → (look w.dir.slots n).state = .provisional → ∀ k, (look w.dir.slots n).key = some k → ¬ keys k

end

theorem mem_holdersOf {d : Dir} {c : CellRef} {n : SlotNo} : n ∈ holdersOf d c ↔ d.holds n c = true := by
  simp only [holdersOf, List.mem_map, List.mem_filter, beq_iff_eq, holds_iff, mem_sightings]
  constructor
  · rintro ⟨x, ⟨hx, hc⟩, rfl⟩; exact ⟨x, ⟨hx, rfl⟩, hc⟩
  · rintro ⟨x, ⟨hx, rfl⟩, hc⟩; exact ⟨x, ⟨hx, hc⟩, rfl⟩

section
variable {c : CellRef} {w u : Work}

/-- The services that a visit end marks are those it concerns (R68, R114). -/
theorem Work.Visits.marked (h : w.Visits c u) (h0 : w.marked = []) (moved : Bool) (n : SlotNo) :
    n ∈ (markVisited c moved u).marked ↔ concernedBy w.dir u.dir c n = true := by
  obtain ⟨drop, keys, v, shorn, follows, -⟩ := h
  simp only [markVisited, List.mem_append, mem_holdersOf, follows.marked, shorn.marked, h0, List.not_mem_nil, false_or,
    concernedBy, Bool.or_eq_true, bereft_iff]
  have stays := follows.stays n
  constructor
  · rintro (hh | ⟨hd, hw⟩ | ⟨k, hk⟩)
    · exact .inl hh
    · by_cases hu : u.dir.holds n c = true
      · exact .inl hu
      · exact .inr ⟨c, hw, Bool.eq_false_iff.mpr hu⟩
    · by_cases hkc : k = c
      · subst hkc
        by_cases hu : u.dir.holds n k = true
        · exact .inl hu
        · exact absurd (Bool.eq_iff_iff.mpr ⟨fun h => absurd h hu, stays⟩) hk
      · have hv : v.dir.holds n k = true := by
          by_contra hv
          exact hk (Bool.eq_iff_iff.mpr ⟨follows.elsewhere n k hkc, fun h => absurd h hv⟩)
        refine .inr ⟨k, ((shorn.holds n k).mp hv).1, ?_⟩
        rw [hv] at hk
        simpa using hk
  · rintro (hh | ⟨k, hw, hu⟩)
    · exact .inl hh
    · by_cases hv : v.dir.holds n k = true
      · exact .inr (.inr ⟨k, by rw [hu, hv]; decide⟩)
      · obtain ⟨rfl, hd⟩ := shorn.gone hw hv
        exact .inr (.inl ⟨hd, hw⟩)

/-- The services that lose their chosen source in the work lose it by the removals on the cell or by the entries. -/
theorem Work.Visits.release_before (h : w.Visits c u) (h0 : w.release = []) (n : SlotNo) :
    n ∈ u.release ↔ unseated w.dir u.dir n = true := by
  obtain ⟨drop, keys, v, shorn, follows, apart⟩ := h
  have slots := follows.slots n
  rw [shorn.slots] at slots
  obtain ⟨state, same⟩ := slots
  rw [follows.release, shorn.release, h0, unseated_iff, unseated_iff, state]
  simp only [List.not_mem_nil, false_or]
  constructor
  · rintro (⟨hd, hw, hp, hchosen⟩ | ⟨hp, k, hk, hv, hu⟩)
    · refine ⟨hp, c, (same hp).2.trans hchosen, hw, ?_⟩
      rw [← Bool.not_eq_true]
      intro hu
      have hv := follows.gained n (by rw [shorn.slots]; exact hp) (by rw [shorn.slots]; exact apart n hd hp) hu
      exact ((shorn.holds n c).mp hv).2 ⟨rfl, hd⟩
    · exact ⟨hp, k, hk, ((shorn.holds n k).mp hv).1, hu⟩
  · rintro ⟨hp, k, hk, hw, hu⟩
    by_cases hv : v.dir.holds n k = true
    · exact .inr ⟨hp, k, hk, hv, hu⟩
    · obtain ⟨rfl, hd⟩ := shorn.gone hw hv
      exact .inl ⟨hd, hw, hp, (same hp).2.symm.trans hk⟩

/-- The services that a visit end releases are those of R94 and R120. -/
theorem Work.Visits.release (h : w.Visits c u) (h0 : w.release = []) (h1 : w.lostOn = []) (moved : Bool) (n : SlotNo) :
    n ∈ (markVisited c moved u).release ↔ releasedBy w.dir u.dir c moved n = true := by
  have before := h.release_before h0 n
  obtain ⟨drop, keys, v, shorn, follows, -⟩ := h
  have hon : u.dir.holds n c = true ∨ n ∈ u.lostOn ↔ w.dir.holds n c = true ∨ u.dir.holds n c = true := by
    rw [follows.lostOn, shorn.lostOn, h1]
    constructor
    · rintro (hu | hlost)
      · exact .inr hu
      · exact .inl (hlost.resolve_left List.not_mem_nil).2
    · rintro (hw | hu)
      · by_cases hd : drop n = true
        · exact .inr (.inr ⟨hd, hw⟩)
        · exact .inl (follows.stays n ((shorn.holds n c).mpr ⟨hw, fun h => hd h.2⟩))
      · exact .inl hu
  simp only [markVisited, List.mem_append, List.mem_filter, mem_holdersOf, before, hon, releasedBy, Bool.or_eq_true,
    Bool.and_eq_true, beq_iff_eq]
  rw [or_comm]
  refine or_congr_right ⟨?_, ?_⟩
  · rintro ⟨hheld, ⟨hmoved, hp⟩, hchosen⟩
    exact ⟨⟨⟨hp, hmoved⟩, hchosen⟩, hheld⟩
  · rintro ⟨⟨⟨hp, hmoved⟩, hchosen⟩, hheld⟩
    exact ⟨hheld, ⟨hmoved, hp⟩, hchosen⟩

/-- The evaluations that the model makes at a visit end are those of the statements. -/
theorem Work.Visits.finish (h : w.Visits c u) (h0 : w.marked = []) (h1 : w.release = []) (h2 : w.lostOn = [])
    (moved : Bool) (g : Settings) (now : Time) {v : View} (hv : (u.view g now).Agrees v) :
    (markVisited c moved u).finish g now = visitEvaluations v c moved w.dir u.dir u.raised := by
  unfold Work.finish visitEvaluations
  rw [evaluateMarked_eq]
  refine evaluationsOf_congr hv (fun n => ?_) (fun n _ => ?_) _
  · rw [Bool.eq_iff_iff, List.contains_iff_mem, h.release h1 h2]
  · rw [Bool.eq_iff_iff, List.contains_iff_mem, h.marked h0]

end

end Sys2Proof.Machine
end

section
/-! SUPPORT. The processing of a roster at a visit end, and the books that the visit end leaves: the statement of the
directory's part of a visit end. -/

namespace Sys2Proof.Machine

/-! ## The processing of a roster (R84 to R87) -/

/-- The processing of a COMPLETE roster, step by step: refused entries counted, sightings that are not listed removed, the
admitted entries taken in turn, the roster values stored. -/
theorem processRoster_complete (g : Settings) (now : Time) (c : CellRef) (i : SectionId) (es : List Entry) (w : Work) :
    let adm := admitEntries g.admission i.net [] es
    let r := readingOf c now i
    processRoster g now c (.complete i es) w = storeRoster r (adm.1.foldl (takeEntry g r)
      (removeOnCell c (fun n => !listed r adm.1 w.dir n) { w with cells := addRefused c adm.2 w.cells })) := rfl

/-- A PARTIAL one is processed without the removals (R86). -/
theorem processRoster_part (g : Settings) (now : Time) (c : CellRef) (i : SectionId) (es : List Entry) (w : Work) :
    let adm := admitEntries g.admission i.net [] es
    let r := readingOf c now i
    processRoster g now c (.part i es) w = storeRoster r (adm.1.foldl (takeEntry g r)
      { w with cells := addRefused c adm.2 w.cells }) := rfl

theorem addRefused_state (c : CellRef) (k : Nat) (cells : Vector Cell 576) :
    (look (addRefused c k cells) c).state = (look cells c).state := by
  rw [addRefused, look_put_self]

theorem storeRoster_follows {c : CellRef} {keys : Key → Prop} (r : Reading) (w : Work) :
    w.Follows c keys (storeRoster r w) := .of_holds rfl rfl rfl (fun _ => .refl _) (fun _ _ => rfl)

theorem removeOnCell_freeBare {c : CellRef} {drop : SlotNo → Bool} {w : Work} (h : w.dir.freeBare) :
    (removeOnCell c drop w).dir.freeBare := by
  obtain ⟨-, -, hdir, -⟩ := removeOnCell_spec c drop w
  intro x hx
  rw [hdir] at hx ⊢
  exact h x (List.mem_filter.mp hx).1

/-- The processing of a roster is directory work of a visit end on the cell. -/
theorem processRoster_visits {g : Settings} {now : Time} {c : CellRef} (rr : RosterResult) {w : Work}
    (hc : (look w.cells c).state ≠ .lost) (hbare : w.dir.freeBare) : w.Visits c (processRoster g now c rr w) := by
  have nothing : ∀ (keys : Key → Prop) (n : SlotNo), false = true → (look w.dir.slots n).state = .provisional →
      ∀ k, (look w.dir.slots n).key = some k → ¬ keys k := fun _ _ h => absurd h Bool.false_ne_true
  cases rr with
  | none => exact ⟨_, fun _ => False, w, .refl w, .refl w, nothing _⟩
  | unchanged =>
    refine ⟨_, fun _ => False, w, .refl w, ?_, nothing _⟩
    refine .of_holds rfl rfl rfl (fun _ => .refl _) (holds_of_join_eq ?_)
    simp only [processRoster, processUnchanged, List.map_map]
    refine List.map_congr_left fun x _ => ?_
    simp only [Function.comp_apply]
    split <;> rfl
  | part i es =>
    rw [processRoster_part]
    obtain ⟨slots, holds, marked, lostOn, release⟩ := Work.Shorn.refl (c := c) w
    refine ⟨_, fun _ => True, { w with cells := addRefused c (admitEntries g.admission i.net [] es).2 w.cells },
      ⟨slots, holds, marked, lostOn, release⟩, ?_, nothing _⟩
    refine .trans (takeEntries_follow (r := readingOf c now i) ?_ hbare fun _ _ => trivial) (storeRoster_follows _ _)
    exact fun h => hc ((addRefused_state _ _ _).symm.trans h)
  | complete i es =>
    rw [processRoster_complete]
    obtain ⟨slots, holds, marked, lostOn, release⟩ := removeOnCell_shorn c
      (fun n => !listed (readingOf c now i) (admitEntries g.admission i.net [] es).1 w.dir n)
      { w with cells := addRefused c (admitEntries g.admission i.net [] es).2 w.cells }
    obtain ⟨hcells, -⟩ := removeOnCell_spec c
      (fun n => !listed (readingOf c now i) (admitEntries g.admission i.net [] es).1 w.dir n)
      { w with cells := addRefused c (admitEntries g.admission i.net [] es).2 w.cells }
    refine ⟨_, fun k => ∃ e ∈ (admitEntries g.admission i.net [] es).1, k = (readingOf c now i).key e, _,
      ⟨slots, holds, marked, lostOn, release⟩, ?_, fun n hdrop _ k hk => ?_⟩
    · refine .trans (takeEntries_follow (r := readingOf c now i) ?_ (removeOnCell_freeBare hbare)
        fun e he => ⟨e, he, rfl⟩) (storeRoster_follows _ _)
      rw [hcells]
      exact fun h => hc ((addRefused_state _ _ _).symm.trans h)
    · rintro ⟨e, he, rfl⟩
      rw [listed_iff.mpr ⟨e, he, hk⟩] at hdrop
      cases hdrop

/-- The laws of the directory keep FREE slots bare (R88, R91). -/
theorem DirectoryRight.freeBare {cells : Vector Cell 576} {d : Dir} (h : DirectoryRight cells d) : d.freeBare := by
  obtain ⟨⟨-, -, -, hpool⟩, -⟩ := h
  intro x hx hfree
  have := (hpool x hx).1
  rw [hfree] at this
  cases this

/-! ## The evaluations keep the entries -/

/-- What a roster writes into a slot's record, and what the slot has reported, stand through the evaluations. -/
def Slot.sameNames (x y : Slot) : Prop :=
  y.key = x.key ∧ y.kind = x.kind ∧ y.name = x.name ∧ y.scrambled = x.scrambled ∧ y.created = x.created
    ∧ y.reported = x.reported

theorem Slot.sameNames.trans {x y z : Slot} (h : x.sameNames y) (h' : y.sameNames z) : x.sameNames z := by
  obtain ⟨a1, a2, a3, a4, a5, a6⟩ := h
  obtain ⟨b1, b2, b3, b4, b5, b6⟩ := h'
  exact ⟨b1.trans a1, b2.trans a2, b3.trans a3, b4.trans a4, b5.trans a5, b6.trans a6⟩

theorem evaluate_sameNames (v : View) (released : Bool) (n : SlotNo) (b : Books) (m : SlotNo) :
    (look b.dir.slots m).sameNames (look (evaluate v released n b).dir.slots m) := by
  obtain ⟨-, -, other, own, -⟩ := evaluate_spec v released n b
  by_cases hm : m = n
  · subst hm
    cases he : evaluates (look b.dir.slots m) released with
    | false =>
      rw [evaluate_eq, he]
      exact ⟨rfl, rfl, rfl, rfl, rfl, rfl⟩
    | true =>
      obtain ⟨a, ha⟩ := own he
      obtain ⟨⟨key, kind, name, scrambled, reported, -, created⟩, -⟩ := evaluated_spec v b.dir m (look b.dir.slots m)
      rw [ha]
      exact ⟨key, kind, name, scrambled, created, reported⟩
  · rw [other m hm]
    exact ⟨rfl, rfl, rfl, rfl, rfl, rfl⟩

theorem evaluateMarked_sameNames (v : View) (marked released : List SlotNo) (b : Books) (m : SlotNo) :
    (look b.dir.slots m).sameNames (look (evaluateMarked v marked released b).dir.slots m) :=
  evaluateMarked_induct (P := fun x => (look b.dir.slots m).sameNames (look x.dir.slots m))
    (fun x rel n h => h.trans (evaluate_sameNames v rel n x m)) ⟨rfl, rfl, rfl, rfl, rfl, rfl⟩

/-- The evaluations of a visit end leave the sightings and what the roster wrote, and lose no condition that its work set. -/
theorem finish_keeps (c : CellRef) (moved : Bool) (g : Settings) (now : Time) (u : Work) :
    let b := (markVisited c moved u).finish g now
    b.dir.pool = u.dir.pool ∧ u.raised &&& b.raised = u.raised
      ∧ ∀ n, (look u.dir.slots n).sameNames (look b.dir.slots n) := by
  have hdir : (markVisited c moved u).dir = u.dir := rfl
  have hraised : (markVisited c moved u).raised = u.raised := rfl
  simp only [Work.finish, hdir, hraised]
  exact ⟨evaluateMarked_pool _ _ _ _, evaluateMarked_raised _ _ _ { dir := u.dir, raised := u.raised },
    fun n => evaluateMarked_sameNames _ _ _ { dir := u.dir, raised := u.raised } n⟩

/-! ## The books of a visit end -/

/-- The directory's work of a visit end, before the evaluations. -/
def visitWork (g : Settings) (now : Time) (c : CellRef) (t : Treatment) (rr : RosterResult) (new : Cell) (p : Plant) : Work :=
  processRoster g now c rr
    (if t = .noLock ∧ new.state = .empty then removeOnCell c (fun _ => true) (Work.start (p.setCell c new))
      else Work.start (p.setCell c new))

/-- The directory's part of a scored or no-lock visit end is its work and the evaluations after it. -/
theorem visitDirectory_eq {t : Treatment} (ht : t ≠ .unscored) (g : Settings) (now : Time) (c : CellRef)
    (rr : RosterResult) (old new : Cell) (p : Plant) :
    let w := visitWork g now c t rr new p
    visitDirectory g now c t rr old new p =
      (w.cells, (markVisited c (old.state == .unseen && new.state != .unseen) w).finish g now) := by
  simp only [visitDirectory, visitWork, if_neg ht]
  rfl

/-- After the work of a scored or no-lock visit end the visited cell takes its due time and its engagement, and the books are
those of the evaluations. -/
theorem visitEnd_books {g : Settings} {now : Time} {l : Lane} {e : Ending} {p : Plant} {c : CellRef}
    (h : (look p.lanes l).cell = some c) (ht : treatment e.outcome ((look p.lanes l).state == .reading) ≠ .unscored) :
    let q := visitEnd g now l e p
    let t := treatment e.outcome ((look p.lanes l).state == .reading)
    let new := (cellEnd g t (recordOf l (look p.lanes l) c now e (holdNote g p.lanes l e.outcome)) (look p.cells c)).1
    let w := visitWork g now c t e.roster new p
    let b := (markVisited c ((look p.cells c).state == .unseen && new.state != .unseen) w).finish g now
    ∃ due engaged m, q.cells = put w.cells c { look w.cells c with due := due, engaged := engaged }
      ∧ q.dir = b.dir ∧ q.notice = p.notice.raise (b.raised ||| m) := by
  simp only [visitEnd, h, visitDirectory_eq ht]
  exact ⟨_, _, _, rfl, trivial, rfl⟩

/-- The ranking unit reads no due time and no engagement. -/
theorem view_agrees (g : Settings) (now : Time) (w : Work) (c : CellRef) (due : Option Time) (engaged : Option Lane) :
    (w.view g now).Agrees { cells := put w.cells c { look w.cells c with due := due, engaged := engaged }
                            feeds := g.feeds, policy := g.policy, now := now } := by
  refine ⟨fun k => ?_, fun k => ?_, rfl, rfl, rfl⟩
  · simp only [View.state, Work.view, look_put]
    split
    · next hk => rw [hk]
    · rfl
  · simp only [View.q, Work.view, look_put]
    split
    · next hk => rw [hk]
    · rfl

/-- Conditions that are set are set. -/
theorem raise_or_and (n : Notice) (f m : Flags12) : (n.raise (f ||| m)).conds &&& f = f := by
  rw [Notice.raise_conds]
  ext j
  simp
  tauto

/-- Where the directory's work is a visit's, its evaluations are those of the statements. -/
theorem visitEnd_evaluations {g : Settings} {now : Time} {l : Lane} {e : Ending} {p : Plant} {c : CellRef}
    (h : (look p.lanes l).cell = some c) (ht : treatment e.outcome ((look p.lanes l).state == .reading) ≠ .unscored) :
    let q := visitEnd g now l e p
    let t := treatment e.outcome ((look p.lanes l).state == .reading)
    let new := (cellEnd g t (recordOf l (look p.lanes l) c now e (holdNote g p.lanes l e.outcome)) (look p.cells c)).1
    let w := visitWork g now c t e.roster new p
    let b := visitEvaluations { cells := q.cells, feeds := g.feeds, policy := g.policy, now := now } c
      ((look p.cells c).state == .unseen && (look q.cells c).state != .unseen) p.dir w.dir w.raised
    (Work.start (p.setCell c new)).Visits c w → q.dir = b.dir ∧ q.notice.conds &&& b.raised = b.raised := by
  intro q t new w b hvisits
  obtain ⟨due, engaged, m, hcells, hdir, hnotice⟩ := visitEnd_books (g := g) (now := now) h ht
  obtain ⟨-, -, -, -, ⟨rf, ro, own, -⟩, -⟩ := visitEnd_spec (g := g) (now := now) (e := e) h
  have hstate : (look q.cells c).state = new.state := by rw [show look q.cells c = _ from own]
  have hfinish := hvisits.finish rfl rfl rfl ((look p.cells c).state == .unseen && new.state != .unseen) g now
    (view_agrees g now w c due engaged)
  rw [← hcells, ← hstate] at hfinish
  rw [← hstate, show (markVisited c _ w).finish g now = b from hfinish] at hdir hnotice
  exact ⟨hdir, by rw [hnotice]; exact raise_or_and _ _ _⟩

/-! ## The cell and the work of a visit end -/

/-- The cell as the visit end judges it, before the roster's values, the due time and the engagement are written. -/
theorem visitEnd_judged {g : Settings} {now : Time} {l : Lane} {e : Ending} {p : Plant} {c : CellRef}
    (h : (look p.lanes l).cell = some c) :
    let x := look p.cells c
    let y := look (visitEnd g now l e p).cells c
    let new := (cellEnd g (treatment e.outcome ((look p.lanes l).state == .reading))
      (recordOf l (look p.lanes l) c now e (holdNote g p.lanes l e.outcome)) x).1
    { y with roster := x.roster, refused := x.refused, due := x.due, engaged := x.engaged } = new
      ∧ y.state = new.state := by
  intro x y new
  obtain ⟨-, -, -, -, ⟨rf, ro, own, -⟩, -⟩ := visitEnd_spec (g := g) (now := now) (e := e) h
  obtain ⟨-, -, -, roster, refused, due, engaged, -⟩ := cellEnd_spec g
    (treatment e.outcome ((look p.lanes l).state == .reading))
    (recordOf l (look p.lanes l) c now e (holdNote g p.lanes l e.outcome)) x
  have hy : y = _ := own
  rw [hy, ← roster, ← refused, ← due, ← engaged]
  exact ⟨rfl, rfl⟩

theorem visitWork_scored (g : Settings) (now : Time) (c : CellRef) (rr : RosterResult) (new : Cell) (p : Plant) :
    visitWork g now c .scored rr new p = processRoster g now c rr (Work.start (p.setCell c new)) := by
  simp only [visitWork, reduceCtorEq, false_and, if_false]

/-- A DARK or FADED end removes the sightings of a cell that it leaves EMPTY, and does nothing else (R64, R65). -/
theorem visitWork_noLock (g : Settings) (now : Time) (c : CellRef) (new : Cell) (p : Plant) :
    let w := visitWork g now c .noLock .none new p
    (Work.start (p.setCell c new)).Visits c w ∧ w.raised = 0
      ∧ w.dir = if new.state = .empty then { p.dir with pool := p.dir.pool.filter (fun z => z.cell != c) } else p.dir := by
  intro w
  by_cases he : new.state = .empty
  · have hw : w = removeOnCell c (fun _ => true) (Work.start (p.setCell c new)) := if_pos ⟨rfl, he⟩
    obtain ⟨-, hraised, hdir, -⟩ := removeOnCell_spec c (fun _ => true) (Work.start (p.setCell c new))
    rw [if_pos he, hw]
    refine ⟨⟨_, fun _ => False, _, removeOnCell_shorn _ _ _, .refl _, fun _ _ _ _ _ h => h⟩, hraised, ?_⟩
    rw [hdir]
    simp only [Bool.and_true]
    rfl
  · have hw : w = Work.start (p.setCell c new) := if_neg fun h => he h.2
    rw [if_neg he, hw]
    exact ⟨⟨_, fun _ => False, _, .refl _, .refl _, fun _ h => absurd h Bool.false_ne_true⟩, rfl, rfl⟩

/-- An event that ends a visit from READING hands its roster on (R76 to R79). -/
theorem naturalEnd_handsOn {s : State} {i : Instr} {l : Lane} {o : VisitOutcome} (h : naturalEnd s i = some (l, o))
    (hs : (look s.plant.lanes l).state = .reading) :
    ∃ e : Ending, e.outcome = o ∧ e.roster = handedOn s i
      ∧ exec i s = .next (s.work (fun g now p => visitEnd g now l e p)) := by
  have next : ∀ t u : State, t = u → (.next t : Result) = .next u := fun _ _ h => by rw [h]
  rcases naturalEnd_stage h with ⟨rfl, rfl⟩ | ⟨-, hk, -⟩ | ⟨-, hk, -⟩ | ⟨rfl, -, rfl | rfl⟩ | ⟨-, -, sec, rfl⟩
  · have hc : (look s.plant.lanes l).inVisit = true ∧ (look s.plant.lanes l).dwellTimer.isSome := by
      by_contra hc
      rw [naturalEnd, if_neg hc] at h
      cases h
    refine ⟨partEnd (look s.plant.lanes l) .cut false, rfl, rfl, next _ _ ?_⟩
    simp only [State.work, dwellTimeout, if_pos hc, cutEnd, if_pos hs]
  · rw [hs] at hk
    cases hk
  · exact absurd hs hk
  · exact ⟨partEnd (look s.plant.lanes l) .part true, rfl, rfl, next _ _ (by simp only [State.work, lockLost, hs])⟩
  · have hc : (look s.plant.lanes l).state = .reading ∧ (look s.plant.lanes l).collector.gap.isSome := by
      by_contra hc
      rw [naturalEnd, if_neg hc] at h
      cases h
    exact ⟨partEnd (look s.plant.lanes l) .part false, rfl, rfl, next _ _ (by simp only [State.work, gapTimeout, if_pos hc])⟩
  · cases hcell : (look s.plant.lanes l).cell with
    | none => simp [naturalEnd, hcell] at h
    | some c =>
      have hp : passesTest sec = true := by
        by_contra hp
        simp [naturalEnd, hcell, hp] at h
      simp only [naturalEnd, hcell, hs, hp, and_self, if_true] at h
      rw [exec_section hs hcell hp]
      simp only [handedOn, hcell]
      unfold State.work sectionTaken
      cases htake : (look s.plant.lanes l).collector.take (look s.plant.lanes l).latchedGap (look s.plant.lanes l).cls
          (look s.plant.cells c) sec with
      | goOn k => simp [htake, sectionOutcome] at h
      | complete k | unchanged k | unstable =>
        simp only [htake, sectionOutcome, Option.map_some, Option.some.injEq, Prod.mk.injEq, true_and] at h
        exact ⟨_, h, rfl, rfl⟩

/-! ## The sightings after a complete roster -/

/-- After a complete roster every sighting on the cell is of a service that an admitted entry lists (R84). -/
theorem complete_listsOn {g : Settings} {now : Time} {c : CellRef} {i : SectionId} {es : List Entry} {w : Work}
    (hbare : w.dir.freeBare) :
    (processRoster g now c (.complete i es) w).listsOn (readingOf c now i) (admitEntries g.admission i.net [] es).1 := by
  rw [processRoster_complete]
  have taken : ∀ u : Work, u.listsOn (readingOf c now i) (admitEntries g.admission i.net [] es).1 →
      ((admitEntries g.admission i.net [] es).1.foldl (takeEntry g (readingOf c now i)) u).listsOn (readingOf c now i)
        (admitEntries g.admission i.net [] es).1 := fun u hu =>
    List.foldlRecOn (motive := fun v => Work.listsOn (readingOf c now i) (admitEntries g.admission i.net [] es).1 v)
      _ _ hu fun v hv e he => takeEntry_listsOn he hv
  refine taken _ fun x hx => ?_
  obtain ⟨-, -, hdir, -⟩ := removeOnCell_spec c
    (fun n => !listed (readingOf c now i) (admitEntries g.admission i.net [] es).1 w.dir n)
    { w with cells := addRefused c (admitEntries g.admission i.net [] es).2 w.cells }
  rw [hdir] at hx ⊢
  obtain ⟨hmem, hkept⟩ := List.mem_filter.mp hx
  refine ⟨hbare x hmem, fun hxc => ?_⟩
  have hcell : x.cell = c := hxc
  have hlisted : listed (readingOf c now i) (admitEntries g.admission i.net [] es).1 w.dir x.slot = true := by
    simpa [hcell] using hkept
  exact hlisted

/-! ## The ends of visits -/

/-- A scored visit end processes its roster and makes the evaluations of R68, R100 and R120. -/
theorem visitEnd_scored {g : Settings} {now : Time} {l : Lane} {e : Ending} {p : Plant} {c : CellRef}
    (h : (look p.lanes l).cell = some c) (ht : treatment e.outcome ((look p.lanes l).state == .reading) = .scored) :
    let q := visitEnd g now l e p
    let x := look p.cells c
    let y := look q.cells c
    let w := processRoster g now c e.roster (Work.start (p.setCell c
      { y with roster := x.roster, refused := x.refused, due := x.due, engaged := x.engaged }))
    let b := visitEvaluations { cells := q.cells, feeds := g.feeds, policy := g.policy, now := now } c
      (x.state == .unseen && y.state != .unseen) p.dir w.dir w.raised
    q.dir.pool = w.dir.pool ∧ y.roster = (look w.cells c).roster ∧ y.refused = (look w.cells c).refused
      ∧ q.notice.conds &&& w.raised = w.raised
      ∧ (DirectoryRight p.cells p.dir → q.dir = b.dir ∧ q.notice.conds &&& b.raised = b.raised)
      ∧ ∀ n, (look w.dir.slots n).sameNames (look q.dir.slots n) := by
  intro q x y w b
  have hne : treatment e.outcome ((look p.lanes l).state == .reading) ≠ .unscored := by rw [ht]; decide
  obtain ⟨judged, -⟩ := visitEnd_judged (g := g) (now := now) (e := e) h
  obtain ⟨due, engaged, m, hcells, hdir, hnotice⟩ := visitEnd_books (g := g) (now := now) h hne
  have evaluations := visitEnd_evaluations (g := g) (now := now) h hne
  dsimp only at judged hcells hdir hnotice evaluations
  rw [ht] at judged hcells hdir hnotice evaluations
  obtain ⟨-, -, -, -, -, -, -, -, -, -, scored⟩ := cellEnd_spec g .scored
    (recordOf l (look p.lanes l) c now e (holdNote g p.lanes l e.outcome)) (look p.cells c)
  obtain ⟨-, -, -, -, -, -, state⟩ := scored rfl
  generalize (cellEnd g .scored (recordOf l (look p.lanes l) c now e (holdNote g p.lanes l e.outcome))
    (look p.cells c)).1 = new at judged hcells hdir hnotice evaluations state
  have hw : visitWork g now c .scored e.roster new p = w := by
    rw [visitWork_scored, ← judged]
  rw [hw] at hcells hdir hnotice evaluations
  have hy : y = { look w.cells c with due := due, engaged := engaged } := by
    rw [show y = look q.cells c from rfl, hcells, look_put_self]
  obtain ⟨pool, raised, names⟩ := finish_keeps c ((look p.cells c).state == .unseen && new.state != .unseen) g now w
  have hstate : new.state ≠ .lost := by
    rw [state]
    unfold scoredState
    split <;> decide
  refine ⟨(congrArg Dir.pool hdir).trans pool, by rw [hy], by rw [hy], ?_, fun hright => ?_, fun n => ?_⟩
  · rw [show q.notice = _ from hnotice, BitVec.and_comm]
    exact flags_trans raised ((BitVec.and_comm _ _).trans (raise_or_and _ _ _))
  · refine evaluations ?_
    rw [← hw, visitWork_scored]
    refine processRoster_visits _ ?_ hright.freeBare
    simpa [Work.start] using hstate
  · rw [show q.dir = _ from hdir]
    exact names n

/-- A DARK or FADED end empties the cell or not, and makes the evaluations of R68, R99 and R120. -/
theorem visitEnd_noLock {g : Settings} {now : Time} {l : Lane} {e : Ending} {p : Plant} {c : CellRef}
    (h : (look p.lanes l).cell = some c) (ht : treatment e.outcome ((look p.lanes l).state == .reading) = .noLock)
    (hr : e.roster = .none) :
    let q := visitEnd g now l e p
    let x := look p.cells c
    let y := look q.cells c
    let after := if y.state = .empty then { p.dir with pool := p.dir.pool.filter (fun z => z.cell != c) } else p.dir
    let b := visitEvaluations { cells := q.cells, feeds := g.feeds, policy := g.policy, now := now } c
      (x.state == .unseen && y.state != .unseen) p.dir after 0
    q.dir = b.dir ∧ q.notice.conds &&& b.raised = b.raised := by
  intro q x y after b
  have hne : treatment e.outcome ((look p.lanes l).state == .reading) ≠ .unscored := by rw [ht]; decide
  obtain ⟨-, state⟩ := visitEnd_judged (g := g) (now := now) (e := e) h
  have evaluations := visitEnd_evaluations (g := g) (now := now) h hne
  dsimp only at state evaluations
  rw [ht] at state evaluations
  rw [hr] at evaluations
  generalize (cellEnd g .noLock (recordOf l (look p.lanes l) c now e (holdNote g p.lanes l e.outcome))
    (look p.cells c)).1 = new at state evaluations
  obtain ⟨visits, hraised, hdir⟩ := visitWork_noLock g now c new p
  rw [hraised, hdir, ← state] at evaluations
  exact evaluations visits

/-! ## The statement -/

/-- Settles O33: a visit's end from READING, one before it, the processing by roster result, one entry by the slot it finds, and
the sightings after a complete roster. -/
theorem completeRosterReplacesTheSightings : Obligations.CompleteRosterReplacesTheSightings := by
  unfold Obligations.CompleteRosterReplacesTheSightings
  refine ⟨fun i l o c s hi hs hc => ?_, fun i l o c s hi hs hc => ?_, fun g now c i es w => ?_, fun g r e w => ?_,
    fun g now c i es p hright _ => ?_⟩
  · obtain ⟨e, rfl, hroster, hexec⟩ := naturalEnd_handsOn hi hs
    have ht : treatment e.outcome ((look s.plant.lanes l).state == .reading) = .scored := by
      rw [hs]; exact naturalEnd_scored hi hs
    obtain ⟨pool, roster, refused, raised, evaluations, names⟩ := visitEnd_scored (g := s.settings) (now := s.clock) hc ht
    rw [hroster] at pool roster refused raised evaluations names
    exact ⟨_, hexec, pool, roster, refused, raised, evaluations, names⟩
  · obtain ⟨e, ⟨rfl, -, hnothing⟩, hexec⟩ := naturalEnd_exec hi
    obtain ⟨hroster, -⟩ := hnothing hs
    refine ⟨_, hexec, fun ho => ?_, fun ho => ?_⟩
    · refine visitEnd_noLock hc ?_ hroster
      rcases ho with ho | ho <;> rw [ho] <;> rfl
    · refine visitEnd_unscored_dir ?_ hroster
      rw [ho, beq_false_of_ne hs]
      rfl
  · obtain ⟨hcells, hraised, hdir, -⟩ := removeOnCell_spec c
      (fun n => !listed (readingOf c now i) (admitEntries g.admission i.net [] es).1 w.dir n)
      { w with cells := addRefused c (admitEntries g.admission i.net [] es).2 w.cells }
    refine ⟨⟨_, hcells, hraised, hdir.trans ?_, rfl, rfl, rfl⟩, ⟨rfl, rfl, rfl⟩, rfl, rfl⟩
    simp only [Bool.not_and, Bool.not_not]
    rfl
  · refine ⟨fun n hn only => ?_, fun hno n hempty below hbare => ?_, fun hno hfull => ?_⟩
    · have hf : w.dir.find (r.key e) = some n := find_eq hn only
      refine ⟨fun hh => ?_, fun hh => ?_⟩
      · rw [takeEntry_held hf hh]
        exact ⟨rfl, rfl, rfl⟩
      · rw [takeEntry_known hf hh]
        exact createFor_admits g r n e w
    · have hfree : (look w.dir.slots n).state = .free := by rw [hempty]; rfl
      rw [takeEntry_new (find_none_iff.mpr hno) (lowestFree_eq hfree below)]
      exact createService_admits g r e hempty hbare
    · rw [takeEntry_full (find_none_iff.mpr hno) (lowestFree_none hfull)]
      exact ⟨rfl, rfl, rfl⟩
  · obtain ⟨hsub, -, hadm⟩ := admitEntries_spec g.admission i.net [] es
    have hlists := complete_listsOn (g := g) (now := now) (c := c) (i := i) (es := es) (w := Work.start p) hright.freeBare
    obtain ⟨others, -⟩ := processRoster_keeps g now c (.complete i es) (Work.start p)
    refine ⟨fun x hx hxc => ?_, ?_, others⟩
    · obtain ⟨-, hlisted⟩ := hlists x hx
      obtain ⟨e, he, hkey⟩ := listed_iff.mp (hlisted hxc)
      obtain ⟨h0, -, hadmits⟩ := hadm e he
      exact ⟨e, hsub.subset he, h0, hadmits, hkey⟩
    · rw [processRoster_complete]
      simp only [storeRoster, readingOf, look_put_self]

end Sys2Proof.Machine
end


section
/-! SUPPORT. The laws of the service directory by their parts, and while work on it is under way: `Dir.Working` says which
services still await an evaluation, and asks of every other one all that the laws ask of it. -/

namespace Sys2Proof.Machine

/-! ## The laws of one slot -/

/-- What the laws say of a slot at all times, evaluated or not (R88, R89, R101). -/
structure Slot.Formed (x : Slot) : Prop where
  free : x.state = .free → x = Slot.empty
  key : x.state ≠ .free → x.key.isSome = true
  orphanSince : x.orphanSince.isSome = true ↔ x.state = .orphan

/-- What the laws say of a slot that awaits no evaluation, by the cells of its sightings and those that are rankable (R101,
R105, R113, R116, R117, R127, R184). -/
structure Slot.Settled (held rankable : CellRef → Prop) (x : Slot) : Prop where
  chosen : ∀ c ∈ x.chosen, held c
  pin : ∀ c ∈ x.pin, held c
  challenger : ∀ t ∈ x.challenger, held t.1 ∧ 1 ≤ t.2 ∧ t.2 ≤ 7
  live : x.state = .live → ∃ c, held c ∧ rankable c
  orphan : x.state = .orphan → ∀ c, held c → ¬ rankable c
  standing : x.state = .live ∨ x.state = .orphan → ∀ c ∈ x.chosen, rankable c
  told : x.state = .live ∨ x.state = .orphan → x.advice = .none → x.chosen = x.reported
  retiring : x.state = .retiring → x.chosen = none ∧ x.advice ≠ .none
  provisional : x.state = .provisional → x.advice = .none ∧ x.challenger = none ∧ ∀ c ∈ x.pin, x.chosen = some c

/-- The cells on which a slot holds sightings. -/
def Dir.heldBy (d : Dir) (n : SlotNo) (c : CellRef) : Prop := d.holds n c = true

/-- The rankable cells of a cell table (R68). -/
def rankableIn (cells : Vector Cell 576) (c : CellRef) : Prop := (look cells c).state.rankable = true

theorem any_rankable_iff {cells : Vector Cell 576} {d : Dir} {n : SlotNo} :
    (d.sightings n).any (fun g => (look cells g.cell).state.rankable) = true ↔ ∃ c, d.heldBy n c ∧ rankableIn cells c := by
  simp only [List.any_eq_true, Dir.heldBy, holds_iff, rankableIn]
  constructor
  · rintro ⟨g, hg, hr⟩; exact ⟨g.cell, ⟨g, hg, rfl⟩, hr⟩
  · rintro ⟨c, ⟨g, hg, rfl⟩, hr⟩; exact ⟨g, hg, hr⟩

theorem slotRight_iff {cells : Vector Cell 576} {d : Dir} {n : SlotNo} {x : Slot} :
    SlotRight cells d n x ∧ (x.state = .live ∨ x.state = .orphan → x.advice = .none → x.chosen = x.reported) ↔
      x.Formed ∧ x.Settled (d.heldBy n) (rankableIn cells) := by
  have horphan : (d.sightings n).any (fun g => (look cells g.cell).state.rankable) = false ↔
      ∀ c, d.heldBy n c → ¬ rankableIn cells c := by
    rw [← Bool.not_eq_true, any_rankable_iff]
    simp only [not_exists, not_and]
  unfold SlotRight
  rw [any_rankable_iff, horphan]
  constructor
  · rintro ⟨⟨free, key, chosen, pin, challenger, live, orphan, since, standing, retiring, provisional⟩, told⟩
    exact ⟨⟨free, key, since⟩, ⟨chosen, pin, challenger, live, orphan, standing, told, retiring, provisional⟩⟩
  · rintro ⟨⟨free, key, since⟩, ⟨chosen, pin, challenger, live, orphan, standing, told, retiring, provisional⟩⟩
    exact ⟨⟨free, key, chosen, pin, challenger, live, orphan, since, standing, retiring, provisional⟩, told⟩

theorem formed_empty : Slot.empty.Formed where
  free := fun _ => rfl
  key := fun h => absurd rfl h
  orphanSince := by simp [Slot.empty]

theorem settled_empty (held rankable : CellRef → Prop) : Slot.empty.Settled held rankable where
  chosen := fun _ h => by cases h
  pin := fun _ h => by cases h
  challenger := fun _ h => by cases h
  live := fun h => by cases h
  orphan := fun h => by cases h
  standing := fun _ _ h => by cases h
  told := fun _ _ => rfl
  retiring := fun h => by cases h
  provisional := fun h => by cases h

/-- A slot stays right while its own cells, and which of them are rankable, stay. -/
theorem Slot.Settled.congr {held held' rankable rankable' : CellRef → Prop} {x : Slot} (h : x.Settled held rankable)
    (hheld : ∀ c, held' c ↔ held c) (hrank : ∀ c, held c → (rankable' c ↔ rankable c)) : x.Settled held' rankable' where
  chosen := fun c hc => (hheld c).mpr (h.chosen c hc)
  pin := fun c hc => (hheld c).mpr (h.pin c hc)
  challenger := fun t ht => by
    obtain ⟨hh, hcount⟩ := h.challenger t ht
    exact ⟨(hheld _).mpr hh, hcount⟩
  live := fun hs => by
    obtain ⟨c, hc, hr⟩ := h.live hs
    exact ⟨c, (hheld c).mpr hc, (hrank c hc).mpr hr⟩
  orphan := fun hs c hc hr => h.orphan hs c ((hheld c).mp hc) ((hrank c ((hheld c).mp hc)).mp hr)
  standing := fun hs c hc => (hrank c (h.chosen c hc)).mpr (h.standing hs c hc)
  told := h.told
  retiring := h.retiring
  provisional := h.provisional

/-- Two records of a slot that agree in all but what a roster entry writes (R85). -/
def Slot.sameRoles (x y : Slot) : Prop :=
  y.state = x.state ∧ y.key = x.key ∧ y.chosen = x.chosen ∧ y.pin = x.pin ∧ y.challenger = x.challenger
    ∧ y.advice = x.advice ∧ y.reported = x.reported ∧ y.orphanSince = x.orphanSince

theorem Slot.Settled.of_roles {held rankable : CellRef → Prop} {x y : Slot} (h : x.Settled held rankable)
    (hxy : x.sameRoles y) : y.Settled held rankable := by
  obtain ⟨state, -, chosen, pin, challenger, advice, reported, -⟩ := hxy
  obtain ⟨h1, h2, h3, h4, h5, h6, h7, h8, h9⟩ := h
  constructor <;> simp only [state, chosen, pin, challenger, advice, reported] <;> assumption

theorem Slot.Formed.of_roles {x y : Slot} (h : x.Formed) (hxy : x.sameRoles y) (hfree : x.state ≠ .free) :
    y.Formed := by
  obtain ⟨state, key, -, -, -, -, -, since⟩ := hxy
  refine ⟨fun hy => absurd (state.symm.trans hy) hfree, ?_, ?_⟩
  · rw [state, key]; exact h.key
  · rw [state, since]; exact h.orphanSince

theorem slotNamed_roles (e : Entry) (x : Slot) : x.sameRoles (slotNamed e x) := ⟨rfl, rfl, rfl, rfl, rfl, rfl, rfl, rfl⟩

/-! ## The laws of the advice queue -/

/-- The laws of the advice queue, where the slots of `but` may have a chosen source that their record does not show yet
(R126). -/
structure Dir.Queued (but : SlotNo → Prop) (d : Dir) : Prop where
  length : d.queue.length ≤ 64
  nodup : (d.queue.map Advice.slot).Nodup
  queued : ∀ n, (look d.slots n).advice = .queued ↔ n ∈ d.queue.map Advice.slot
  record : ∀ a ∈ d.queue, a.key = (look d.slots a.slot).key ∧ a.origin = (look d.slots a.slot).reported
  shows : ∀ a ∈ d.queue, ¬ but a.slot → a.target = (look d.slots a.slot).chosen ∧ a.origin ≠ a.target
  owed : ∀ n, ¬ but n → (look d.slots n).advice = .owed → (look d.slots n).chosen ≠ (look d.slots n).reported

/-- No slot at all. -/
def noSlot : SlotNo → Prop := fun _ => False

theorem not_noSlot (n : SlotNo) : ¬ noSlot n := id

theorem Dir.Queued.mono {but but' : SlotNo → Prop} {d : Dir} (h : d.Queued but) (hb : ∀ n, but n → but' n) :
    d.Queued but' :=
  ⟨h.length, h.nodup, h.queued, h.record, fun a ha hn => h.shows a ha (fun hb' => hn (hb _ hb')),
    fun n hn => h.owed n (fun hb' => hn (hb _ hb'))⟩

theorem mem_queue_slots {d : Dir} {n : SlotNo} : n ∈ d.queue.map Advice.slot ↔ ∃ a ∈ d.queue, a.slot = n := List.mem_map

/-- The records of other slots stay, and slot n's new record is right: the queue is right. -/
theorem Dir.Queued.replace {d d' : Dir} {n : SlotNo} {y : Slot} (h : d.Queued (· = n))
    (slots : d'.slots = put d.slots n y) (length : d'.queue.length ≤ 64) (nodup : (d'.queue.map Advice.slot).Nodup)
    (others : ∀ a, a.slot ≠ n → (a ∈ d'.queue ↔ a ∈ d.queue))
    (queued : y.advice = .queued ↔ ∃ a ∈ d'.queue, a.slot = n)
    (own : ∀ a ∈ d'.queue, a.slot = n →
      a.key = y.key ∧ a.origin = y.reported ∧ a.target = y.chosen ∧ a.origin ≠ a.target)
    (owed : y.advice = .owed → y.chosen ≠ y.reported) : d'.Queued noSlot := by
  have hlook : ∀ m, look d'.slots m = if m = n then y else look d.slots m := fun m => by rw [slots, look_put]
  refine ⟨length, nodup, fun m => ?_, fun a ha => ?_, fun a ha _ => ?_, fun m _ => ?_⟩
  · rw [hlook, mem_queue_slots]
    split
    · next hm => subst hm; exact queued
    · next hm =>
      rw [h.queued, mem_queue_slots]
      exact exists_congr fun a => and_congr_left fun ha => (others a (ha ▸ hm)).symm
  · rw [hlook]
    split
    · next hm =>
      obtain ⟨hkey, horigin, -⟩ := own a ha hm
      exact ⟨hkey, horigin⟩
    · next hm => exact h.record a ((others a hm).mp ha)
  · rw [hlook]
    split
    · next hm =>
      obtain ⟨-, -, hshows⟩ := own a ha hm
      exact hshows
    · next hm => exact h.shows a ((others a hm).mp ha) hm
  · rw [hlook]
    split
    · exact owed
    · next hm => exact h.owed m hm

/-- One slot's record replaced by one of the same advice state, and of the same key, reported and chosen source where the
queue speaks of them. -/
theorem Dir.Queued.put {d : Dir} {but : SlotNo → Prop} {n : SlotNo} {y : Slot} (h : d.Queued but)
    (advice : y.advice = (look d.slots n).advice)
    (same : (look d.slots n).advice ≠ .none →
      y.key = (look d.slots n).key ∧ y.reported = (look d.slots n).reported
        ∧ (¬ but n → y.chosen = (look d.slots n).chosen))
    (pool : List Sighting) : ({ d with pool := pool, slots := Machine.put d.slots n y } : Dir).Queued but := by
  have hlook : ∀ m, look (Machine.put d.slots n y) m = if m = n then y else look d.slots m := fun m => look_put _ _ _ _
  have hmem : ∀ a ∈ d.queue, (look d.slots a.slot).advice ≠ .none := fun a ha => by
    rw [(h.queued a.slot).mpr (List.mem_map_of_mem ha)]
    exact AdviceState.noConfusion
  refine ⟨h.length, h.nodup, fun m => ?_, fun a ha => ?_, fun a ha hb => ?_, fun m hb ho => ?_⟩
  · rw [hlook, ← h.queued]
    split
    · next hm => rw [hm, advice]
    · rfl
  · rw [hlook]
    split
    · next hm =>
      obtain ⟨hkey, hrep, -⟩ := same (hm ▸ hmem a ha)
      rw [hkey, hrep, ← hm]
      exact h.record a ha
    · exact h.record a ha
  · rw [hlook]
    split
    · next hm =>
      obtain ⟨-, -, hch⟩ := same (hm ▸ hmem a ha)
      rw [hch (hm ▸ hb), ← hm]
      exact h.shows a ha hb
    · exact h.shows a ha hb
  · dsimp only at ho ⊢
    rw [hlook] at ho ⊢
    split at ho
    · next hm =>
      subst hm
      rw [if_pos rfl]
      rw [advice] at ho
      obtain ⟨-, hrep, hch⟩ := same (by rw [ho]; exact AdviceState.noConfusion)
      rw [hrep, hch hb]
      exact h.owed m hb ho
    · next hm =>
      rw [if_neg hm]
      exact h.owed m hb ho

/-! ## The rule of divergence restores the queue -/

section
variable {v : View} {n : SlotNo} {b : Books}

/-- Once a slot that is not in the queue, nor owed, agrees with what was reported, the queue is right. -/
theorem Dir.Queued.restore {d : Dir} (h : d.Queued (· = n)) (hq : ∀ a ∈ d.queue, a.slot ≠ n)
    (ho : (look d.slots n).advice = .owed → (look d.slots n).chosen ≠ (look d.slots n).reported) : d.Queued noSlot where
  length := h.length
  nodup := h.nodup
  queued := h.queued
  record := h.record
  shows := fun a ha _ => h.shows a ha (hq a ha)
  owed := fun m _ => by
    by_cases hm : m = n
    · exact hm ▸ ho
    · exact h.owed m hm

theorem Dir.Queued.not_mem {d : Dir} {but : SlotNo → Prop} (h : d.Queued but) (hn : (look d.slots n).advice ≠ .queued) :
    ∀ a ∈ d.queue, a.slot ≠ n := fun a ha he => hn ((h.queued n).mpr (mem_queue_slots.mpr ⟨a, ha, he⟩))

theorem divergeNone_queued (h : b.dir.Queued (· = n)) (hn : (look b.dir.slots n).advice ≠ .queued)
    (ho : (look b.dir.slots n).advice = .owed → (look b.dir.slots n).chosen ≠ (look b.dir.slots n).reported) :
    (divergeNone v n b).dir.Queued noSlot
      ∧ ((look (divergeNone v n b).dir.slots n).advice = .none →
          (look (divergeNone v n b).dir.slots n).chosen = (look (divergeNone v n b).dir.slots n).reported) := by
  have hout := h.not_mem hn
  unfold divergeNone
  dsimp only
  split
  · next heq => exact ⟨h.restore hout ho, fun _ => heq⟩
  · next hne =>
    split
    · next hroom =>
      refine ⟨h.replace (y := { look b.dir.slots n with advice := .queued }) rfl ?_ ?_ (fun a ha => ?_) ?_
        (fun a ha hs => ?_) (fun e => by cases e), fun e => ?_⟩
      · simp only [List.length_append, List.length_singleton]
        omega
      · simp only [List.map_append, List.map_cons, List.map_nil]
        refine List.nodup_append.mpr ⟨h.nodup, List.nodup_singleton _, fun m hm k hk => ?_⟩
        obtain ⟨a, ha, rfl⟩ := List.mem_map.mp hm
        rw [List.mem_singleton] at hk
        exact hk ▸ hout a ha
      · simp only [List.mem_append, List.mem_singleton]
        exact ⟨fun hm => hm.resolve_right (by rintro rfl; exact ha rfl), .inl⟩
      · exact ⟨fun _ => ⟨adviceFor v n (look b.dir.slots n), by simp, rfl⟩, fun _ => rfl⟩
      · rcases List.mem_append.mp ha with ha | ha
        · exact absurd hs (hout a ha)
        · rw [List.mem_singleton] at ha
          subst ha
          exact ⟨rfl, rfl, rfl, Ne.symm hne⟩
      · simp at e
    · refine ⟨h.replace (y := { look b.dir.slots n with advice := .owed }) rfl h.length h.nodup (fun _ _ => Iff.rfl)
        ⟨fun e => (by cases e), fun ⟨a, ha, hs⟩ => absurd hs (hout a ha)⟩ (fun a ha hs => absurd hs (hout a ha))
        (fun _ => hne), fun e => ?_⟩
      simp at e

/-- A slot taken back to NONE or FREE has nothing to tell when its chosen source is the reported one. -/
theorem settled_told {x : Slot} (h : x.chosen = x.reported) :
    (settled x).advice = .none ∧ (settled x).chosen = (settled x).reported := by
  unfold settled
  split
  · exact ⟨rfl, rfl⟩
  · exact ⟨rfl, h⟩

theorem divergeQueued_queued (h : b.dir.Queued (· = n)) (hn : (look b.dir.slots n).advice = .queued) :
    (divergeQueued v n b).dir.Queued noSlot
      ∧ ((look (divergeQueued v n b).dir.slots n).advice = .none →
          (look (divergeQueued v n b).dir.slots n).chosen = (look (divergeQueued v n b).dir.slots n).reported) := by
  unfold divergeQueued
  dsimp only
  split
  · next hany =>
    obtain ⟨a, ha, hback⟩ := List.any_eq_true.mp hany
    rw [Bool.and_eq_true, beq_iff_eq, beq_iff_eq] at hback
    obtain ⟨hslot, horigin⟩ := hback
    have heq : (look b.dir.slots n).chosen = (look b.dir.slots n).reported := by
      rw [← horigin, (h.record a ha).2, hslot]
    obtain ⟨hnone, htold⟩ := settled_told heq
    have hgone : ∀ a ∈ b.dir.queue.filter (fun a => a.slot != n), a.slot ≠ n := fun a ha =>
      bne_iff_ne.mp (List.mem_filter.mp ha).2
    refine ⟨h.replace (y := settled (look b.dir.slots n)) rfl ((List.length_filter_le _ _).trans h.length)
      (h.nodup.sublist (List.filter_sublist.map _)) (fun a ha => ?_) ?_ (fun a ha hs => absurd hs (hgone a ha)) ?_,
      fun _ => ?_⟩
    · rw [List.mem_filter, bne_iff_ne]
      exact and_iff_left ha
    · rw [hnone]
      exact ⟨fun e => AdviceState.noConfusion e, fun ⟨a, ha, hs⟩ => absurd hs (hgone a ha)⟩
    · rw [hnone]
      exact fun e => AdviceState.noConfusion e
    · simpa using htold
  · next hany =>
    have hslot : ∀ a, (refresh v n (look b.dir.slots n) a).slot = a.slot := fun a => by unfold refresh; split <;> rfl
    have hother : ∀ a, a.slot ≠ n → refresh v n (look b.dir.slots n) a = a := fun a ha => if_neg ha
    refine ⟨h.replace (y := look b.dir.slots n) (put_look _ _).symm (by simpa using h.length) ?_ (fun a ha => ?_) ?_
      (fun a ha hs => ?_) (by rw [hn]; exact fun e => AdviceState.noConfusion e), fun e => ?_⟩
    · rw [List.map_map, show Advice.slot ∘ refresh v n (look b.dir.slots n) = Advice.slot from funext hslot]
      exact h.nodup
    · rw [List.mem_map]
      constructor
      · rintro ⟨a', ha', rfl⟩
        rw [hslot] at ha
        rwa [hother a' ha]
      · exact fun hm => ⟨a, hm, hother a ha⟩
    · rw [h.queued, mem_queue_slots]
      constructor
      · rintro ⟨a, ha, hs⟩
        exact ⟨_, List.mem_map_of_mem ha, (hslot a).trans hs⟩
      · rintro ⟨a, ha, hs⟩
        obtain ⟨a', ha', rfl⟩ := List.mem_map.mp ha
        exact ⟨a', ha', (hslot a').symm.trans hs⟩
    · obtain ⟨a', ha', rfl⟩ := List.mem_map.mp ha
      rw [hslot] at hs
      obtain ⟨hkey, horigin⟩ := h.record a' ha'
      have hre : refresh v n (look b.dir.slots n) a' = { a' with
          target := (look b.dir.slots n).chosen, reason := (look b.dir.slots n).reason
          q := targetQ v (look b.dir.slots n).chosen } := if_pos hs
      rw [hre]
      rw [hs] at hkey horigin
      refine ⟨hkey, horigin, rfl, fun he => hany (List.any_eq_true.mpr ⟨a', ha', ?_⟩)⟩
      rw [Bool.and_eq_true, beq_iff_eq, beq_iff_eq]
      exact ⟨hs, he⟩
    · rw [show (look b.dir.slots n).advice = .none from e] at hn
      cases hn

theorem divergeOwed_queued (h : b.dir.Queued (· = n)) (hn : (look b.dir.slots n).advice = .owed) :
    (divergeOwed n b).dir.Queued noSlot
      ∧ ((look (divergeOwed n b).dir.slots n).advice = .none →
          (look (divergeOwed n b).dir.slots n).chosen = (look (divergeOwed n b).dir.slots n).reported) := by
  have hout := h.not_mem (n := n) (by rw [hn]; exact AdviceState.noConfusion)
  unfold divergeOwed
  dsimp only
  split
  · next heq =>
    obtain ⟨hnone, htold⟩ := settled_told heq
    refine ⟨h.replace (y := settled (look b.dir.slots n)) rfl h.length h.nodup (fun _ _ => Iff.rfl) ?_
      (fun a ha hs => absurd hs (hout a ha)) ?_, fun _ => ?_⟩
    · rw [hnone]
      exact ⟨fun e => AdviceState.noConfusion e, fun ⟨a, ha, hs⟩ => absurd hs (hout a ha)⟩
    · rw [hnone]
      exact fun e => AdviceState.noConfusion e
    · simpa using htold
  · next hne => exact ⟨h.restore hout (fun _ => hne), fun e => by rw [hn] at e; cases e⟩

/-- The rule of divergence on a slot whose chosen source has changed makes the queue right again, and leaves the slot NONE
only when it has nothing to tell (R126 to R130). -/
theorem diverge_queued (v : View) (h : b.dir.Queued (· = n)) :
    (diverge v n b).dir.Queued noSlot
      ∧ ((look (diverge v n b).dir.slots n).advice = .none →
          (look (diverge v n b).dir.slots n).chosen = (look (diverge v n b).dir.slots n).reported) := by
  unfold diverge
  split
  · next hn => exact divergeNone_queued h (by simp [hn]) (by simp [hn])
  · next hn => exact divergeQueued_queued h hn
  · next hn => exact divergeOwed_queued h hn

end

end Sys2Proof.Machine
end


section
/-! SUPPORT. Directory work under way, `Dir.Working`: the evaluations finish it; the removal of a service, a pin, Take Advice and
the end of the recall grace keep the laws of the directory. -/

namespace Sys2Proof.Machine

/-! ## The laws with evaluations outstanding -/

/-- The service awaits an evaluation: as a LIVE or ORPHAN one that was marked, or as one released (R114, R120). -/
def Dir.awaits (exempt freed : SlotNo → Prop) (d : Dir) (n : SlotNo) : Prop :=
  evaluates (look d.slots n) true = true ∧ freed n ∨ evaluates (look d.slots n) false = true ∧ exempt n

/-- The laws of the directory, but for the slots that await an evaluation. -/
structure Dir.Working (cells : Vector Cell 576) (exempt freed : SlotNo → Prop) (d : Dir) : Prop where
  pool : PoolRight cells d
  formed : ∀ n, (look d.slots n).Formed
  keys : KeysRight d
  queue : d.Queued noSlot
  settled : ∀ n, ¬ d.awaits exempt freed n → (look d.slots n).Settled (d.heldBy n) (rankableIn cells)

theorem Dir.awaits.mono {exempt exempt' freed freed' : SlotNo → Prop} {d : Dir} {n : SlotNo} (h : d.awaits exempt freed n)
    (he : exempt n → exempt' n) (hf : freed n → freed' n) : d.awaits exempt' freed' n :=
  h.imp (And.imp_right hf) (And.imp_right he)

theorem not_awaits_noSlot (d : Dir) (n : SlotNo) : ¬ d.awaits noSlot noSlot n := by
  rintro (⟨-, h⟩ | ⟨-, h⟩) <;> exact h

/-- With no evaluation outstanding these are the laws of the directory. -/
theorem directoryRight_iff {cells : Vector Cell 576} {d : Dir} : DirectoryRight cells d ↔ d.Working cells noSlot noSlot := by
  constructor
  · rintro ⟨pool, slots, keys, length, nodup, queued, records, owed, told⟩
    have hslot := fun n => slotRight_iff.mp ⟨slots n, told n⟩
    refine ⟨pool, fun n => (hslot n).1, keys, ⟨length, nodup, queued, fun a ha => ?_, fun a ha _ => ?_, fun n _ => owed n⟩,
      fun n _ => (hslot n).2⟩
    · obtain ⟨hkey, horigin, -⟩ := records a ha
      exact ⟨hkey, horigin⟩
    · obtain ⟨-, -, hshows⟩ := records a ha
      exact hshows
  · rintro ⟨pool, formed, keys, queue, settled⟩
    have hslot := fun n => slotRight_iff.mpr ⟨formed n, settled n (not_awaits_noSlot d n)⟩
    refine ⟨pool, fun n => (hslot n).1, keys, queue.length, queue.nodup, queue.queued, fun a ha => ?_,
      fun n => queue.owed n (not_noSlot n), fun n => (hslot n).2⟩
    obtain ⟨hkey, horigin⟩ := queue.record a ha
    exact ⟨hkey, horigin, queue.shows a ha (not_noSlot _)⟩

section
variable {cells : Vector Cell 576} {exempt exempt' freed freed' : SlotNo → Prop} {d d' : Dir}

theorem Dir.Working.mono (h : d.Working cells exempt freed) (he : ∀ n, exempt n → exempt' n) (hf : ∀ n, freed n → freed' n) :
    d.Working cells exempt' freed' :=
  ⟨h.pool, h.formed, h.keys, h.queue, fun n hn => h.settled n fun ha => hn (ha.mono (he n) (hf n))⟩

/-- A slot that is not evaluated need not be waited for. -/
theorem Dir.Working.skip (h : d.Working cells exempt freed) {n : SlotNo} (hn : ¬ d.awaits exempt freed n) :
    d.Working cells (fun m => m ≠ n ∧ exempt m) (fun m => m ≠ n ∧ freed m) := by
  refine ⟨h.pool, h.formed, h.keys, h.queue, fun m hm => h.settled m fun ha => ?_⟩
  have hmn : m ≠ n := fun e => hn (e ▸ ha)
  exact hm (ha.mono (fun he => ⟨hmn, he⟩) fun hf => ⟨hmn, hf⟩)

theorem heldBy_of_pool_eq (h : d'.pool = d.pool) (n : SlotNo) : d'.heldBy n = d.heldBy n := by
  funext c
  unfold Dir.heldBy Dir.holds
  rw [h]

/-- Fewer sightings, each of a slot that may hold it and on a cell that may. -/
theorem PoolRight.sublist {cells' : Vector Cell 576} (h : PoolRight cells d) (sub : d'.pool.Sublist d.pool)
    (on : ∀ g ∈ d'.pool, (look d'.slots g.slot).state.keeps = true
      ∧ ((look cells' g.cell).state.scored = true ∨ (look cells' g.cell).state = .unseen)) : PoolRight cells' d' := by
  obtain ⟨count, each, nodup, -⟩ := h
  exact ⟨sub.length_le.trans count, fun n => (sub.filter _).length_le.trans (each n), nodup.sublist (sub.map _), on⟩

theorem PoolRight.of_slots (h : PoolRight cells d) (pool : d'.pool = d.pool)
    (keeps : ∀ n, (look d.slots n).state.keeps = true → (look d'.slots n).state.keeps = true) : PoolRight cells d' :=
  h.sublist (by rw [pool]) fun g hg => by
    rw [pool] at hg
    obtain ⟨-, -, -, on⟩ := h
    exact (on g hg).imp_left (keeps _)

/-- Slots that come into use, if any, do so elsewhere: keys stay apart. -/
theorem KeysRight.of_slots (h : KeysRight d)
    (key : ∀ n, (look d'.slots n).state ≠ .free →
      (look d.slots n).state ≠ .free ∧ (look d'.slots n).key = (look d.slots n).key) : KeysRight d' := fun n m hn hm he => by
  obtain ⟨hn', hkn⟩ := key n hn
  obtain ⟨hm', hkm⟩ := key m hm
  exact h n m hn' hm' (by rw [← hkn, ← hkm, he])

/-- One slot's record replaced, all sightings staying. -/
theorem Dir.Working.renew (h : d.Working cells exempt freed) {n : SlotNo} {y : Slot} (own : look d'.slots n = y)
    (others : ∀ m, m ≠ n → look d'.slots m = look d.slots m ∧ (exempt m → exempt' m) ∧ (freed m → freed' m))
    (pool : d'.pool = d.pool) (keeps : (look d.slots n).state.keeps = true → y.state.keeps = true) (formed : y.Formed)
    (key : y.state ≠ .free → (look d.slots n).state ≠ .free ∧ y.key = (look d.slots n).key) (queue : d'.Queued noSlot)
    (settled : ¬ d'.awaits exempt' freed' n → y.Settled (d.heldBy n) (rankableIn cells)) :
    d'.Working cells exempt' freed' := by
  subst own
  refine ⟨h.pool.of_slots pool fun m hm => ?_, fun m => ?_, h.keys.of_slots fun m hm => ?_, queue, fun m hm => ?_⟩ <;>
    by_cases hmn : m = n
  · exact hmn ▸ keeps (hmn ▸ hm)
  · rw [(others m hmn).1]; exact hm
  · exact hmn ▸ formed
  · rw [(others m hmn).1]; exact h.formed m
  · subst hmn; exact key hm
  · rw [(others m hmn).1] at hm ⊢
    exact ⟨hm, rfl⟩
  · subst hmn
    rw [heldBy_of_pool_eq pool]
    exact settled hm
  · obtain ⟨same, he, hf⟩ := others m hmn
    rw [heldBy_of_pool_eq pool, same]
    refine h.settled m fun hw => hm ?_
    unfold Dir.awaits at hw ⊢
    rw [same]
    exact hw.imp (And.imp_right hf) (And.imp_right he)

end

/-! ## One evaluation, and those of one event -/

theorem evaluates_keeps {x : Slot} : x.state.keeps = evaluates x true := by
  unfold SlotState.keeps evaluates
  cases x.state <;> rfl

theorem hasRankable_iff {v : View} {d : Dir} {n : SlotNo} :
    hasRankable v d n = true ↔ ∃ c, d.heldBy n c ∧ rankableIn v.cells c := any_rankable_iff

/-- A slot whose record is that of an evaluation, handed to the rule of divergence, is right (R101, R113 to R117). -/
theorem evaluated_settled {v : View} {d : Dir} {n : SlotNo} {x : Slot} {a : AdviceState} (hconf : v.policy.confirm ≤ 8)
    (told : a = .none → (evaluated v d n x).chosen = (evaluated v d n x).reported) :
    ({ evaluated v d n x with advice := a } : Slot).Settled (d.heldBy n) (rankableIn v.cells) := by
  obtain ⟨-, state, pin, chosen, challenger, -⟩ := evaluated_spec v d n x
  have hstate : (evaluated v d n x).state = .live ∨ (evaluated v d n x).state = .orphan := by
    rw [state]; split <;> simp
  refine ⟨fun c hc => (chosen c hc).1, fun c hc => ?_, fun t ht => ?_, fun hs => ?_, fun hs c hc hr => ?_,
    fun _ c hc => (chosen c hc).2, fun _ => told, fun hs => ?_, fun hs => ?_⟩
  · have hc' : c ∈ x.pin.filter (fun c => d.holds n c) := pin ▸ hc
    exact (Option.filter_eq_some_iff.mp hc').2
  · obtain ⟨hheld, -, hlt, hge⟩ := challenger t ht
    exact ⟨hheld, hge, by omega⟩
  · refine hasRankable_iff.mp ?_
    by_contra hn
    rw [if_neg hn] at state
    rw [show (evaluated v d n x).state = .live from hs] at state
    cases state
  · rw [if_pos (hasRankable_iff.mpr ⟨c, hc, hr⟩)] at state
    rw [show (evaluated v d n x).state = .orphan from hs] at state
    cases state
  · rw [show (evaluated v d n x).state = .retiring from hs] at hstate
    simp at hstate
  · rw [show (evaluated v d n x).state = .provisional from hs] at hstate
    simp at hstate

section
variable {v : View} {exempt freed : SlotNo → Prop} {b : Books} {n : SlotNo} {rel : Bool}

/-- An evaluation makes its slot right and leaves the others as they are. -/
theorem Dir.Working.evaluation (h : b.dir.Working v.cells exempt freed) (hconf : v.policy.confirm ≤ 8)
    (he : evaluates (look b.dir.slots n) rel = true) :
    (evaluate v rel n b).dir.Working v.cells (fun m => m ≠ n ∧ exempt m) (fun m => m ≠ n ∧ freed m) := by
  obtain ⟨pool, -, others, own, -⟩ := evaluate_spec v rel n b
  obtain ⟨a, ha⟩ := own he
  obtain ⟨⟨key, -, -, -, reported, advice, -⟩, state, -, -, -, since⟩ := evaluated_spec v b.dir n (look b.dir.slots n)
  have hqueue : (b.dir.setSlot n (evaluated v b.dir n (look b.dir.slots n))).Queued (· = n) :=
    (h.queue.mono (but' := (· = n)) fun _ => False.elim).put advice (fun _ => ⟨key, reported, fun hn => absurd rfl hn⟩)
      b.dir.pool
  obtain ⟨queue, told⟩ := diverge_queued v
    (b := { b with dir := b.dir.setSlot n (evaluated v b.dir n (look b.dir.slots n)) }) hqueue
  have heval : Machine.evaluate v rel n b =
      diverge v n { b with dir := b.dir.setSlot n (evaluated v b.dir n (look b.dir.slots n)) } :=
    (evaluate_eq v rel n b).trans (if_pos he)
  rw [← heval, ha] at told
  rw [← heval] at queue
  have hstate : (evaluated v b.dir n (look b.dir.slots n)).state ≠ .free
      ∧ (evaluated v b.dir n (look b.dir.slots n)).state.keeps = true := by
    rw [state]
    split <;> decide
  obtain ⟨huse, hkeeps⟩ := hstate
  have hfree : (look b.dir.slots n).state ≠ .free := fun hs => by simp [evaluates, hs] at he
  refine h.renew ha (fun m hm => ⟨others m hm, fun he => ⟨hm, he⟩, fun hf => ⟨hm, hf⟩⟩) pool (fun _ => hkeeps)
    ⟨fun hs => absurd hs huse, fun _ => ?_, since fun ho => (h.formed n).orphanSince.mpr ho⟩ (fun _ => ⟨hfree, key⟩) queue
    fun _ => evaluated_settled hconf told
  exact (congrArg Option.isSome key).trans ((h.formed n).key hfree)

/-- One slot's turn in the evaluations of an event: afterwards it awaits none. -/
theorem Dir.Working.turn (h : b.dir.Working v.cells exempt freed) (hconf : v.policy.confirm ≤ 8)
    (hn : evaluates (look b.dir.slots n) rel = false → ¬ b.dir.awaits exempt freed n) :
    (Machine.evaluate v rel n b).dir.Working v.cells (fun m => m ≠ n ∧ exempt m) (fun m => m ≠ n ∧ freed m) := by
  cases he : evaluates (look b.dir.slots n) rel with
  | true => exact h.evaluation hconf he
  | false =>
    rw [evaluate_eq, he]
    exact h.skip (hn he)

end

theorem evaluates_mono {x : Slot} (h : evaluates x false = true) : evaluates x true = true := by
  unfold evaluates at *
  cases hs : x.state <;> simp_all

/-- The evaluations of one event leave no slot waiting: the laws of the directory hold (R100, R114, R120). -/
theorem Dir.Working.finish {v : View} {marked released : List SlotNo} {b : Books} (hconf : v.policy.confirm ≤ 8)
    (h : b.dir.Working v.cells (· ∈ marked) (· ∈ released)) :
    DirectoryRight v.cells (evaluateMarked v marked released b).dir := by
  have run : ∀ (ns : List SlotNo) (b : Books),
      b.dir.Working v.cells (fun m => m ∈ ns ∧ m ∈ marked) (fun m => m ∈ ns ∧ m ∈ released) →
      (ns.foldl (fun b n => if released.contains n then Machine.evaluate v true n b
        else if marked.contains n then Machine.evaluate v false n b else b) b).dir.Working v.cells noSlot noSlot := by
    intro ns
    induction ns with
    | nil => exact fun b hb => hb.mono (fun _ hm => absurd hm.1 List.not_mem_nil) fun _ hm => absurd hm.1 List.not_mem_nil
    | cons n ns ih =>
      intro b hb
      rw [List.foldl_cons]
      refine ih _ ?_
      have rest : ∀ {d : Dir} {p q : SlotNo → Prop},
          d.Working v.cells (fun m => m ≠ n ∧ m ∈ n :: ns ∧ p m) (fun m => m ≠ n ∧ m ∈ n :: ns ∧ q m) →
          d.Working v.cells (fun m => m ∈ ns ∧ p m) (fun m => m ∈ ns ∧ q m) := fun hd =>
        hd.mono (fun m ⟨hmn, hm, hp⟩ => ⟨(List.mem_cons.mp hm).resolve_left hmn, hp⟩)
          fun m ⟨hmn, hm, hp⟩ => ⟨(List.mem_cons.mp hm).resolve_left hmn, hp⟩
      split
      · refine rest (hb.turn hconf fun he hw => ?_)
        rcases hw with ⟨ht, -⟩ | ⟨hf, -⟩
        · rw [he] at ht; cases ht
        · rw [evaluates_mono hf] at he; cases he
      · next hr =>
        rw [List.contains_iff_mem] at hr
        split
        · refine rest (hb.turn hconf fun he hw => ?_)
          rcases hw with ⟨-, -, hf⟩ | ⟨hf, -⟩
          · exact hr hf
          · rw [hf] at he; cases he
        · next hm =>
          rw [List.contains_iff_mem] at hm
          refine rest (hb.skip ?_)
          rintro (⟨-, -, hf⟩ | ⟨-, -, hf⟩)
          · exact hr hf
          · exact hm hf
  exact directoryRight_iff.mpr (run (List.finRange 512) b
    (h.mono (fun m hm => ⟨List.mem_finRange m, hm⟩) fun m hm => ⟨List.mem_finRange m, hm⟩))

/-! ## The end of the recall grace, pins -/

theorem endGrace_right {v : View} {b : Books} (hconf : v.policy.confirm ≤ 8) (h : DirectoryRight v.cells b.dir) :
    DirectoryRight v.cells (endGrace v b).dir := by
  unfold endGrace
  split
  · obtain ⟨pool, formed, keys, queue, settled⟩ := directoryRight_iff.mp h
    have hgrace : ({ b.dir with grace := false } : Dir).Working v.cells noSlot noSlot :=
      ⟨pool, formed, keys, ⟨queue.length, queue.nodup, queue.queued, queue.record, queue.shows, queue.owed⟩, settled⟩
    exact Dir.Working.finish (b := { b with dir := { b.dir with grace := false } }) hconf
      (hgrace.mono (fun _ => False.elim) fun _ => False.elim)
  · exact h

/-- A service with its pin replaced, and evaluated (R120 to R122). -/
theorem repin_right {v : View} {n : SlotNo} {d : Dir} (pin : Option CellRef) (hconf : v.policy.confirm ≤ 8)
    (h : DirectoryRight v.cells d) (hn : (look d.slots n).state.keeps = true) :
    DirectoryRight v.cells (repin v n pin d).dir := by
  have hd := directoryRight_iff.mp h
  have hfree : (look d.slots n).state ≠ .free := fun hs => by rw [hs] at hn; cases hn
  generalize hy : ({ look d.slots n with pin := pin, suspended := false } : Slot) = y
  have hown : look (d.setSlot n y).slots n = y := look_put_self _ _ _
  have hset : (d.setSlot n y).Working v.cells noSlot (· = n) := by
    refine hd.renew hown (fun m hm => ⟨look_put_ne _ _ hm, id, False.elim⟩) rfl ?_ ?_ ?_
      (hd.queue.put ?_ (fun _ => ?_) d.pool) fun hw => absurd (.inl ⟨?_, rfl⟩) hw
    · exact hy ▸ id
    · exact hy ▸ ⟨fun hs => absurd hs hfree, (hd.formed n).key, (hd.formed n).orphanSince⟩
    · exact hy ▸ fun _ => ⟨hfree, rfl⟩
    · exact hy ▸ rfl
    · exact hy ▸ ⟨rfl, rfl, fun _ => rfl⟩
    · rw [hown, ← hy]
      exact evaluates_keeps.symm.trans hn
  have heval : evaluates (look (d.setSlot n y).slots n) true = true := by
    rw [hown, ← hy]
    exact evaluates_keeps.symm.trans hn
  unfold repin
  rw [hy]
  exact directoryRight_iff.mpr ((hset.evaluation (b := { dir := d.setSlot n y, raised := 0 }) hconf heval).mono
    (fun m hm => hm.2) fun m hm => hm.1 hm.2)

/-! ## The removal of a service (R104) -/

/-- A slot without chosen source and roles, in no state that sightings bear on. -/
theorem settled_retiring {held rankable : CellRef → Prop} {x : Slot} (hs : x.state = .retiring) (hc : x.chosen = none)
    (hp : x.pin = none) (ht : x.challenger = none) (ha : x.advice ≠ .none) : x.Settled held rankable where
  chosen := fun c h => by rw [hc] at h; cases h
  pin := fun c h => by rw [hp] at h; cases h
  challenger := fun t h => by rw [ht] at h; cases h
  live := fun h => by rw [hs] at h; cases h
  orphan := fun h => by rw [hs] at h; cases h
  standing := fun h => by rw [hs] at h; simp at h
  told := fun _ h => absurd h ha
  retiring := fun _ => ⟨hc, ha⟩
  provisional := fun h => by rw [hs] at h; cases h

theorem removeService_queued {v : View} {n : SlotNo} {b : Books} (h : b.dir.Queued noSlot) :
    (removeService v n b).dir.Queued noSlot := by
  unfold removeService
  dsimp only
  split
  · have hbare := (h.mono (but' := (· = n)) fun _ => False.elim).put (n := n)
      (y := { look b.dir.slots n with
        chosen := none, challenger := none, pin := none, suspended := false, orphanSince := none
        reason := some .serviceGone, state := .retiring }) rfl (fun _ => ⟨rfl, rfl, fun hn => absurd rfl hn⟩)
      (b.dir.pool.filter (fun g => g.slot != n))
    obtain ⟨queue, -⟩ := diverge_queued v (b := { b with dir := _ }) hbare
    split
    · next hnone => exact queue.put hnone.symm (fun hn => absurd hnone hn) _
    · exact queue
  · next hquiet =>
    rw [not_or] at hquiet
    exact (h.mono fun _ => False.elim).replace (n := n) (y := Slot.empty) rfl h.length h.nodup (fun _ _ => Iff.rfl)
      ⟨fun e => (by cases e), fun ⟨a, ha, hs⟩ => absurd hs (h.not_mem hquiet.2 a ha)⟩
      (fun a ha hs => absurd hs (h.not_mem hquiet.2 a ha)) (fun e => by cases e)

/-- The removal of a service in use keeps the laws of the directory. -/
theorem removeService_right {cells : Vector Cell 576} {v : View} {n : SlotNo} {b : Books} (h : DirectoryRight cells b.dir)
    (hn : (look b.dir.slots n).state ≠ .free) : DirectoryRight cells (removeService v n b).dir := by
  obtain ⟨pool, -, others, own, -⟩ := removeService_spec v n b
  obtain ⟨hpool, hformed, hkeys, hqueue, hsettled⟩ := directoryRight_iff.mp h
  have hmem : ∀ g, g ∈ (removeService v n b).dir.pool ↔ g ∈ b.dir.pool ∧ g.slot ≠ n := fun g => by
    rw [pool, List.mem_filter, bne_iff_ne]
  refine directoryRight_iff.mpr ⟨hpool.sublist (by rw [pool]; exact List.filter_sublist) fun g hg => ?_, fun m => ?_,
    hkeys.of_slots fun m hm => ?_, removeService_queued hqueue, fun m _ => ?_⟩
  · obtain ⟨hg, hgn⟩ := (hmem g).mp hg
    rw [others g.slot hgn]
    obtain ⟨-, -, -, on⟩ := hpool
    exact on g hg
  · by_cases hmn : m = n
    · subst hmn
      rcases own with hy | ⟨a, -, hy⟩ <;> rw [hy]
      · exact formed_empty
      · exact ⟨fun e => (by cases e), fun _ => (hformed m).key hn,
          ⟨fun e => (by cases e), fun e => (by cases e)⟩⟩
    · rw [others m hmn]; exact hformed m
  · by_cases hmn : m = n
    · subst hmn
      rcases own with hy | ⟨a, -, hy⟩ <;> rw [hy] at hm ⊢
      · exact absurd rfl hm
      · exact ⟨hn, rfl⟩
    · rw [others m hmn] at hm ⊢
      exact ⟨hm, rfl⟩
  · by_cases hmn : m = n
    · subst hmn
      rcases own with hy | ⟨a, ha, hy⟩ <;> rw [hy]
      · exact settled_empty _ _
      · exact settled_retiring rfl rfl rfl rfl ha
    · rw [others m hmn]
      refine (hsettled m (not_awaits_noSlot _ m)).congr (fun c => ?_) fun _ _ => Iff.rfl
      simp only [Dir.heldBy, holds_iff, mem_sightings, hmem]
      constructor
      · rintro ⟨g, ⟨⟨hg, -⟩, hgm⟩, hc⟩; exact ⟨g, ⟨hg, hgm⟩, hc⟩
      · rintro ⟨g, ⟨hg, hgm⟩, hc⟩; exact ⟨g, ⟨⟨hg, hgm ▸ hmn⟩, hgm⟩, hc⟩

theorem forgetCheck_right {cells : Vector Cell 576} {v : View} {b : Books} (h : DirectoryRight cells b.dir) :
    DirectoryRight cells (forgetCheck v b).dir := by
  unfold forgetCheck
  refine List.foldlRecOn (motive := fun b : Books => DirectoryRight cells b.dir) _ _ h fun b hb n _ => ?_
  dsimp only
  split
  · next hs => exact removeService_right hb (by rw [hs.1]; decide)
  · exact hb

/-! ## Take Advice (R133, R134) -/

/-- A record taken, the oldest of those left. -/
theorem reportTaken_right {cells : Vector Cell 576} {d : Dir} {a : Advice} {q : List Advice}
    (h : ({ d with queue := a :: q } : Dir).Working cells noSlot noSlot) :
    ({ reportTaken a d with queue := q } : Dir).Working cells noSlot noSlot := by
  obtain ⟨hpool, hformed, hkeys, hqueue, hsettled⟩ := h
  have hadvice : (look d.slots a.slot).advice = .queued := (hqueue.queued a.slot).mpr List.mem_cons_self
  obtain ⟨htarget, -⟩ := hqueue.shows a List.mem_cons_self (not_noSlot _)
  have hown := hsettled a.slot (not_awaits_noSlot _ _)
  obtain ⟨hout, hnodup⟩ : a.slot ∉ q.map Advice.slot ∧ (q.map Advice.slot).Nodup := List.nodup_cons.mp hqueue.nodup
  have hgone : ∀ b ∈ q, b.slot ≠ a.slot := fun b hb he => hout (he ▸ List.mem_map_of_mem hb)
  generalize hy : (if (look d.slots a.slot).state = .retiring then Slot.empty
    else { look d.slots a.slot with reported := a.target, advice := .none }) = y
  have hslots : (reportTaken a d).slots = put d.slots a.slot y := by rw [← hy]; rfl
  have hlook : ∀ m, look (reportTaken a d).slots m = if m = a.slot then y else look d.slots m := fun m => by
    rw [hslots, look_put]
  have hnone : y.advice = .none := by rw [← hy]; split <;> rfl
  have hright := (hqueue.mono (but' := (· = a.slot)) fun _ => False.elim).replace (n := a.slot)
    (d' := { reportTaken a d with queue := q }) hslots ((Nat.le_succ _).trans hqueue.length) hnodup
    (fun b hb => ⟨List.mem_cons_of_mem _, fun hm => (List.mem_cons.mp hm).resolve_left fun e => hb (e ▸ rfl)⟩)
    (by rw [hnone]; exact ⟨fun e => (by cases e), fun ⟨b, hb, hs⟩ => absurd hs (hgone b hb)⟩)
    (fun b hb hs => absurd hs (hgone b hb)) (by rw [hnone]; exact fun e => by cases e)
  refine Dir.Working.renew ⟨hpool, hformed, hkeys, hqueue, hsettled⟩ (n := a.slot) (y := y)
    ((hlook _).trans (if_pos rfl)) (fun m hm => ⟨(hlook m).trans (if_neg hm), id, id⟩) rfl ?_ ?_ ?_ hright fun _ => ?_ <;>
    rw [← hy] <;> split
  · next hs => exact fun hk => by rw [hs] at hk; cases hk
  · exact id
  · exact formed_empty
  · have hf := hformed a.slot
    refine ⟨fun hs => ?_, hf.key, hf.orphanSince⟩
    rw [hf.free hs] at hadvice
    cases hadvice
  · exact fun hs => absurd rfl hs
  · exact fun hs => ⟨hs, rfl⟩
  · exact settled_empty _ _
  · next hs =>
    obtain ⟨h1, h2, h3, h4, h5, h6, -, -, h9⟩ := hown
    refine ⟨h1, h2, h3, h4, h5, h6, fun _ _ => htarget.symm, fun hr => absurd hr hs, fun hp => ?_⟩
    rw [(h9 hp).1] at hadvice
    cases hadvice

/-- A place freed is filled from an OWED slot. -/
theorem divergeNone_right {cells : Vector Cell 576} {v : View} {n : SlotNo} {b : Books}
    (h : b.dir.Working cells noSlot noSlot) (ho : (look b.dir.slots n).advice = .owed) (hroom : b.dir.queue.length < 64) :
    (divergeNone v n b).dir.Working cells noSlot noSlot := by
  obtain ⟨hpool, hformed, hkeys, hqueue, hsettled⟩ := h
  have hne := hqueue.owed n (not_noSlot n) ho
  obtain ⟨queue, -⟩ := divergeNone_queued (v := v) (hqueue.mono fun _ => False.elim) (by simp [ho]) (fun _ => hne)
  have hdir : (divergeNone v n b).dir = { b.dir.setSlot n { look b.dir.slots n with advice := .queued } with
      queue := b.dir.queue ++ [adviceFor v n (look b.dir.slots n)] } := by
    unfold divergeNone
    dsimp only
    rw [if_neg hne, if_pos hroom]
  rw [hdir] at queue ⊢
  refine Dir.Working.renew ⟨hpool, hformed, hkeys, hqueue, hsettled⟩ (n := n) (look_put_self _ _ _)
    (fun m hm => ⟨look_put_ne _ _ hm, id, id⟩) rfl id ⟨fun hs => ?_, (hformed n).key, (hformed n).orphanSince⟩
    (fun hs => ⟨hs, rfl⟩) queue fun _ => ?_
  · rw [(hformed n).free hs] at ho
    cases ho
  · obtain ⟨h1, h2, h3, h4, h5, h6, -, h8, h9⟩ := hsettled n (not_awaits_noSlot _ _)
    refine ⟨h1, h2, h3, h4, h5, h6, fun _ e => (by cases e), fun hr => ⟨(h8 hr).1, AdviceState.noConfusion⟩,
      fun hs => ?_⟩
    rw [(h9 hs).1] at ho
    cases ho

theorem takeAdvice_right {cells : Vector Cell 576} {v : View} {k : Nat} {d : Dir} (h : DirectoryRight cells d) :
    DirectoryRight cells (takeAdvice v k d).1.dir := by
  have taken : ∀ (as : List Advice) (d : Dir), ({ d with queue := as ++ d.queue } : Dir).Working cells noSlot noSlot →
      (as.foldl (fun d a => reportTaken a d) d).Working cells noSlot noSlot := by
    intro as
    induction as with
    | nil => exact fun d hd => hd
    | cons a as ih => exact fun d hd => ih (reportTaken a d) (reportTaken_right (q := as ++ d.queue) hd)
  have hd1 := taken (d.queue.take k) { d with queue := d.queue.drop k } (by
    dsimp only
    rw [List.take_append_drop]
    exact directoryRight_iff.mp h)
  refine directoryRight_iff.mpr ?_
  unfold takeAdvice refill
  refine List.foldlRecOn (motive := fun b : Books => b.dir.Working cells noSlot noSlot) _ _ hd1 fun b hb n _ => ?_
  split
  · next ho => exact divergeNone_right hb ho.1 ho.2
  · exact hb

end Sys2Proof.Machine
end

section
/-! SUPPORT. The reads of the directory (R106, R107): what one scan of the slots finds, and where it stops. -/

namespace Sys2Proof.Machine

/-! ## The scan of List Services (R106) -/

/-- A slot that List Services lists. -/
def Dir.lists (d : Dir) (n : SlotNo) : Bool := (look d.slots n).state != .free

/-- The slots from `first` up to, not including, `stop`, in slot order. -/
def slotsFrom (first stop : Nat) : List SlotNo := ((List.finRange 512).drop first).take (stop - first)

theorem mem_slotsFrom {first stop : Nat} (h : first ≤ stop) {k : SlotNo} :
    k ∈ slotsFrom first stop ↔ first ≤ k.val ∧ k.val < stop := by
  simp only [slotsFrom, List.mem_iff_getElem, List.getElem_take, List.getElem_drop, List.getElem_finRange, List.length_take,
    List.length_drop, List.length_finRange]
  constructor
  · rintro ⟨i, hi, rfl⟩
    simp only [Fin.val_cast]
    omega
  · intro hk
    exact ⟨k.val - first, by omega, Fin.ext (by simp only [Fin.val_cast]; omega)⟩

theorem slotsFrom_pairwise (first stop : Nat) : (slotsFrom first stop).Pairwise (· < ·) :=
  (List.pairwise_lt_finRange 512).sublist ((List.take_sublist _ _).trans (List.drop_sublist _ _))

theorem slotsFrom_self (first : Nat) : slotsFrom first first = [] := by simp [slotsFrom]

/-- The scan's next slot before it begins. -/
theorem drop_finRange_cons {first : Nat} (h : first < 512) :
    (List.finRange 512).drop first = ⟨first, h⟩ :: (List.finRange 512).drop (first + 1) := by
  rw [List.drop_eq_getElem_cons (by simpa using h)]
  simp

theorem slotsFrom_cons {first stop : Nat} (h : first < 512) (hs : first < stop) :
    slotsFrom first stop = ⟨first, h⟩ :: slotsFrom (first + 1) stop := by
  obtain ⟨k, rfl⟩ := Nat.exists_eq_add_of_lt hs
  rw [slotsFrom, drop_finRange_cons h, show first + k + 1 - first = k + 1 by omega, List.take_succ_cons, slotsFrom,
    show first + k + 1 - (first + 1) = k by omega]

/-- A scan from `first` stops at a slot `stop`: it returns the in-use slots before it, and the slot itself; it stops
before slot 512 only behind the last slot it was asked for. -/
theorem scanSlots_stops (d : Dir) (count first : Nat) (hf : first ≤ 512) :
    ∃ stop, first ≤ stop ∧ stop ≤ 512
      ∧ scanSlots d count ((List.finRange 512).drop first)
          = ((slotsFrom first stop).filter d.lists, ((List.finRange 512).drop stop).head?)
      ∧ ((slotsFrom first stop).filter d.lists).length ≤ count
      ∧ (stop < 512 → ((slotsFrom first stop).filter d.lists).length = count)
      ∧ (((slotsFrom first stop).filter d.lists).length = count →
          (∀ k ∈ ((slotsFrom first stop).filter d.lists).getLast?, stop = k.val + 1) ∧ (count = 0 → stop = first)) := by
  induction hrest : 512 - first generalizing first count with
  | zero =>
    obtain rfl : first = 512 := by omega
    refine ⟨512, le_refl _, le_refl _, ?_, by simp [slotsFrom_self], by omega, ?_⟩
    · rw [slotsFrom_self, List.drop_eq_nil_of_le (by simp)]
      cases count <;> rfl
    · simp [slotsFrom_self]
  | succ m ih =>
    have hlt : first < 512 := by omega
    cases count with
    | zero => exact ⟨first, le_refl _, hf, by simp [scanSlots, slotsFrom_self], by simp [slotsFrom_self],
        by simp [slotsFrom_self], by simp [slotsFrom_self]⟩
    | succ count =>
      by_cases hu : d.lists ⟨first, hlt⟩ = true
      · obtain ⟨stop, h1, h2, h3, h4, h5, h6⟩ := ih count (first + 1) (by omega) (by omega)
        have hfree : (look d.slots ⟨first, hlt⟩).state ≠ .free := by simpa [Dir.lists] using hu
        have hcons : (slotsFrom first stop).filter d.lists
            = ⟨first, hlt⟩ :: (slotsFrom (first + 1) stop).filter d.lists := by
          rw [slotsFrom_cons hlt (by omega), List.filter_cons_of_pos hu]
        refine ⟨stop, by omega, h2, ?_, by simpa [hcons] using h4, fun h => by simpa [hcons] using h5 h, fun h => ?_⟩
        · rw [drop_finRange_cons hlt, scanSlots, if_neg hfree, h3, hcons]
        · rw [hcons] at h ⊢
          obtain ⟨hlast, hnone⟩ := h6 (by simpa using h)
          refine ⟨fun k hk => ?_, by omega⟩
          rw [List.getLast?_cons] at hk
          cases hl : ((slotsFrom (first + 1) stop).filter d.lists).getLast? with
          | some j =>
            obtain rfl : j = k := by simpa [hl] using hk
            exact hlast j (by simp [hl])
          | none =>
            obtain rfl : ⟨first, hlt⟩ = k := by simpa [hl] using hk
            refine hnone ?_
            rw [List.getLast?_eq_none_iff] at hl
            simpa [hl] using h.symm
      · obtain ⟨stop, h1, h2, h3, h4, h5, h6⟩ := ih (count + 1) (first + 1) (by omega) (by omega)
        have hfree : (look d.slots ⟨first, hlt⟩).state = .free := by simpa [Dir.lists] using hu
        have hskip : (slotsFrom first stop).filter d.lists = (slotsFrom (first + 1) stop).filter d.lists := by
          rw [slotsFrom_cons hlt (by omega), List.filter_cons_of_neg hu]
        refine ⟨stop, by omega, h2, ?_, by rwa [hskip], by rwa [hskip], fun h => ⟨?_, by omega⟩⟩
        · rw [drop_finRange_cons hlt, scanSlots, if_pos hfree, h3, hskip]
        · rw [hskip] at h ⊢
          exact (h6 h).1

/-- What List Services finds, as its statement says it. -/
theorem scanSlots_spec (d : Dir) {count first : Nat} (hf : first ≤ 512) (hc : 1 ≤ count) :
    let r := scanSlots d count ((List.finRange 512).drop first)
    r.1.length ≤ count
      ∧ (∀ k : SlotNo, k ∈ r.1 ↔ first ≤ k.val ∧ (look d.slots k).state ≠ .free ∧ ∀ a ∈ r.2, k < a)
      ∧ r.1.Pairwise (· < ·)
      ∧ ∀ a, r.2 = some a ↔ r.1.length = count ∧ ∃ k ∈ r.1.getLast?, a.val = k.val + 1 := by
  obtain ⟨stop, h1, h2, h3, h4, h5, h6⟩ := scanSlots_stops d count first hf
  have hnext : ∀ a : SlotNo, ((List.finRange 512).drop stop).head? = some a ↔ a.val = stop := by
    intro a
    rw [List.head?_drop, List.getElem?_eq_some_iff]
    constructor
    · rintro ⟨hl, rfl⟩
      simp
    · rintro rfl
      exact ⟨by simp, by simp⟩
  have hlisted : ∀ k : SlotNo, k ∈ (slotsFrom first stop).filter d.lists ↔
      first ≤ k.val ∧ (look d.slots k).state ≠ .free ∧ k.val < stop := by
    intro k
    rw [List.mem_filter, mem_slotsFrom h1]
    simp [Dir.lists]
    tauto
  dsimp only
  rw [h3]
  refine ⟨h4, fun k => ?_, (slotsFrom_pairwise first stop).filter _, fun a => ?_⟩
  · rw [hlisted]
    refine and_congr_right fun _ => and_congr_right fun _ => ⟨fun hk a ha => ?_, fun hk => ?_⟩
    · exact Fin.lt_def.mpr ((hnext a).mp ha ▸ hk)
    · by_cases hs : stop < 512
      · exact Fin.lt_def.mp (hk ⟨stop, hs⟩ ((hnext _).mpr rfl))
      · omega
  · rw [hnext]
    constructor
    · intro ha
      have hlen := h5 (by omega)
      obtain ⟨k, hk⟩ := Option.isSome_iff_exists.mp
        (List.getLast?_isSome.mpr (List.ne_nil_of_length_pos (by omega : 0 < ((slotsFrom first stop).filter d.lists).length)))
      exact ⟨hlen, k, hk, by rw [ha, (h6 hlen).1 k hk]⟩
    · rintro ⟨hlen, k, hk, ha⟩
      rw [ha, (h6 hlen).1 k hk]

/-! ## A slot number on the wire -/

theorem slotAt_refused {p : List Byte} {i : Nat} (h : 512 ≤ halfAt p i) : slotAt p i = none := dif_neg (by omega)

theorem slotAt_eq {p : List Byte} {i : Nat} {n : SlotNo} (h : halfAt p i = n.val) : slotAt p i = some n := by
  have hlt : halfAt p i < 512 := h ▸ n.isLt
  rw [slotAt, dif_pos hlt]
  exact congrArg some (Fin.ext h)

/-! ## The statements -/

/-- Settles O2. -/
theorem idleStepCountsASecond : Obligations.IdleStepCountsASecond := by
  unfold Obligations.IdleStepCountsASecond
  intro s h
  obtain ⟨settings, plant, staging, link, store, clock, draws, pending⟩ := s
  obtain rfl : pending = [] := h
  rfl

/-- Settles O34: the scan of the slots is `scanSlots_spec`; the rest is each request's own answer. -/
theorem directoryIsRead : Obligations.DirectoryIsRead := by
  unfold Obligations.DirectoryIsRead
  intro f lo hi s hs
  refine ⟨fun n hp => ⟨fun hbad => ?_, fun h1 h2 h3 => ?_⟩, fun hp => ⟨fun hbad => ?_, fun n hn => ?_⟩⟩
  · refine next_served_at (v := svcListServices) hs hp rfl (by simp) (if_neg ?_)
    simp only [halfAt, byteAt, List.getD_cons_zero, List.getD_cons_succ]
    omega
  · have hscan := scanSlots_spec s.plant.dir (count := n.toNat) (first := lo.toNat + 256 * hi.toNat) (by omega) h2
    dsimp only at hscan
    refine ⟨_, _, next_served_at (v := svcListServices) hs hp rfl (by simp) (if_pos ?_), hscan⟩
    simp only [halfAt, byteAt, List.getD_cons_zero, List.getD_cons_succ]
    omega
  · exact next_served_at (v := svcReadService) hs hp rfl (by simp) (by
      show runReadService _ _ = _
      rw [runReadService, slotAt_refused (p := [lo, hi]) (i := 0) hbad]
      rfl)
  · exact next_served_at (v := svcReadService) hs hp rfl (by simp) (by
      show runReadService _ _ = _
      rw [runReadService, slotAt_eq (p := [lo, hi]) (i := 0) hn]
      rfl)

end Sys2Proof.Machine
end

section
/-! SUPPORT. Removing a service (R104): what the rule of divergence does to the removed slot in each advice state, and the
removals of one forget check. -/

namespace Sys2Proof.Machine

/-! ## The rule of divergence, advice state by advice state (R128 to R130) -/

section
variable {v : View} {n : SlotNo} {b : Books} {x : Slot}

theorem diverge_appends (hx : look b.dir.slots n = x) (ha : x.advice = .none) (hd : x.chosen ≠ x.reported)
    (hl : b.dir.queue.length < 64) :
    diverge v n b =
      { dir := { b.dir.setSlot n { x with advice := .queued } with queue := b.dir.queue ++ [adviceFor v n x] }
        raised := if b.dir.queue.isEmpty then b.raised ||| Condition.adviceReady.bit else b.raised } := by
  simp only [diverge, hx, ha, divergeNone, if_neg hd, if_pos hl]

theorem diverge_owes (hx : look b.dir.slots n = x) (ha : x.advice = .none) (hd : x.chosen ≠ x.reported)
    (hl : 64 ≤ b.dir.queue.length) :
    diverge v n b = { b with dir := b.dir.setSlot n { x with advice := .owed } } := by
  simp only [diverge, hx, ha, divergeNone, if_neg hd, if_neg (Nat.not_lt.mpr hl)]

theorem diverge_waits (hx : look b.dir.slots n = x) (ha : x.advice = .owed) (hd : x.chosen ≠ x.reported) :
    diverge v n b = b := by
  simp only [diverge, hx, ha, divergeOwed, if_neg hd]

theorem diverge_returns (hx : look b.dir.slots n = x) (ha : x.advice = .queued)
    (hr : ∃ a ∈ b.dir.queue, a.slot = n ∧ a.origin = x.chosen) :
    diverge v n b =
      { b with dir := { b.dir.setSlot n (settled x) with queue := b.dir.queue.filter (fun a => a.slot != n) } } := by
  have hany : b.dir.queue.any (fun a => a.slot == n && a.origin == x.chosen) = true := by
    simpa [List.any_eq_true] using hr
  simp only [diverge, hx, ha, divergeQueued, if_pos hany]

theorem diverge_updates (hx : look b.dir.slots n = x) (ha : x.advice = .queued)
    (hr : ∀ a ∈ b.dir.queue, a.slot = n → a.origin ≠ x.chosen) :
    diverge v n b = { b with dir := { b.dir with queue := b.dir.queue.map (refresh v n x) } } := by
  have hany : ¬ b.dir.queue.any (fun a => a.slot == n && a.origin == x.chosen) = true := by
    simpa [List.any_eq_true] using hr
  simp only [diverge, hx, ha, divergeQueued, if_neg hany]

end

/-! ## The removal of one service -/

/-- What is left of a removed service while the host is to hear of it (R104). -/
def Slot.removed (x : Slot) : Slot :=
  { x with
    state := .retiring, chosen := none, challenger := none, pin := none, suspended := false, orphanSince := none
    reason := some .serviceGone }

/-- The books in which a removed service is handed to the rule of divergence (R104). -/
def Books.bare (n : SlotNo) (b : Books) : Books :=
  { b with dir := { b.dir with
    pool := b.dir.pool.filter (fun g => g.slot != n), slots := put b.dir.slots n (look b.dir.slots n).removed } }

theorem look_bare (n : SlotNo) (b : Books) : look (b.bare n).dir.slots n = (look b.dir.slots n).removed := look_put_self _ _ _

/-- A service the host never heard of leaves nothing (R104). -/
theorem removeService_unheard {v : View} {n : SlotNo} {b : Books} (hr : (look b.dir.slots n).reported = none)
    (ha : (look b.dir.slots n).advice ≠ .queued) :
    removeService v n b = { b with dir := { b.dir with
      pool := b.dir.pool.filter (fun g => g.slot != n), slots := put b.dir.slots n Slot.empty } } :=
  if_neg (by simp [hr, ha])

/-- A service that the rule of divergence leaves with something to say waits RETIRING (R104, R105). -/
theorem removeService_waits {v : View} {n : SlotNo} {b u : Books}
    (hh : (look b.dir.slots n).reported.isSome = true ∨ (look b.dir.slots n).advice = .queued)
    (hu : diverge v n (b.bare n) = u) (ha : (look u.dir.slots n).advice ≠ .none) : removeService v n b = u := by
  subst hu
  exact (if_pos hh).trans (if_neg ha)

/-- A service whose advice state comes to NONE is gone at once (R104, R105). -/
theorem removeService_silent {v : View} {n : SlotNo} {b u : Books}
    (hh : (look b.dir.slots n).reported.isSome = true ∨ (look b.dir.slots n).advice = .queued)
    (hu : diverge v n (b.bare n) = u) (ha : (look u.dir.slots n).advice = .none) :
    removeService v n b = { u with dir := u.dir.setSlot n Slot.empty } := by
  subst hu
  exact (if_pos hh).trans (if_pos ha)

section
variable {v : View} {n : SlotNo} {b : Books} {c : CellRef}

theorem removeService_queues (ha : (look b.dir.slots n).advice = .none) (hr : (look b.dir.slots n).reported = some c)
    (hl : b.dir.queue.length < 64) :
    let u := removeService v n b
    look u.dir.slots n = { (look b.dir.slots n).removed with advice := .queued }
      ∧ u.dir.queue = b.dir.queue ++ [{ slot := n, key := (look b.dir.slots n).key, origin := some c, target := none
                                        reason := some .serviceGone, q := none }]
      ∧ u.raised = if b.dir.queue = [] then b.raised ||| 0x001#12 else b.raised := by
  have hd := diverge_appends (v := v) (look_bare n b) ha (by simp [Slot.removed, hr]) hl
  have hu := removeService_waits (.inl (by simp [hr])) hd (by simp)
  rw [hu]
  refine ⟨by simp, by simp [adviceFor, Slot.removed, hr, targetQ, Books.bare], ?_⟩
  simp [Books.bare, Condition.bit]

theorem removeService_owes (ha : (look b.dir.slots n).advice = .none) (hr : (look b.dir.slots n).reported = some c)
    (hl : 64 ≤ b.dir.queue.length) :
    let u := removeService v n b
    look u.dir.slots n = { (look b.dir.slots n).removed with advice := .owed } ∧ u.dir.queue = b.dir.queue
      ∧ u.raised = b.raised := by
  have hd := diverge_owes (v := v) (look_bare n b) ha (by simp [Slot.removed, hr]) hl
  rw [removeService_waits (.inl (by simp [hr])) hd (by simp)]
  exact ⟨by simp, rfl, rfl⟩

/-- Queued or owed, a service that the host was told of says that it is gone (R104). -/
theorem removeService_tells (ha : (look b.dir.slots n).advice = .none) (hr : (look b.dir.slots n).reported = some c) :
    let y := look (removeService v n b).dir.slots n
    y.state = .retiring ∧ y.chosen = none ∧ y.reason = some .serviceGone := by
  dsimp only
  by_cases hl : b.dir.queue.length < 64
  · rw [(removeService_queues ha hr hl).1]
    exact ⟨rfl, rfl, rfl⟩
  · rw [(removeService_owes ha hr (Nat.not_lt.mp hl)).1]
    exact ⟨rfl, rfl, rfl⟩

theorem removeService_stillOwes (ha : (look b.dir.slots n).advice = .owed) (hr : (look b.dir.slots n).reported = some c) :
    removeService v n b = b.bare n :=
  removeService_waits (.inl (by simp [hr])) (diverge_waits (look_bare n b) ha (by simp [Slot.removed, hr]))
    (by simp [look_bare, Slot.removed, ha])

theorem removeService_withdraws (ha : (look b.dir.slots n).advice = .queued)
    (ho : ∃ a ∈ b.dir.queue, a.slot = n ∧ a.origin = none) :
    let u := removeService v n b
    look u.dir.slots n = Slot.empty ∧ u.dir.queue = b.dir.queue.filter (fun a => a.slot != n) ∧ u.raised = b.raised := by
  have hd := diverge_returns (v := v) (look_bare n b) ha ho
  rw [removeService_silent (.inr ha) hd (by simp [settled, Slot.removed, Slot.empty])]
  exact ⟨by simp, rfl, rfl⟩

theorem removeService_rewrites (ha : (look b.dir.slots n).advice = .queued)
    (ho : ∀ a ∈ b.dir.queue, a.slot = n → a.origin ≠ none) :
    let u := removeService v n b
    look u.dir.slots n = (look b.dir.slots n).removed ∧ u.raised = b.raised
      ∧ u.dir.queue = b.dir.queue.map (fun a =>
          if a.slot = n then { a with target := none, reason := some .serviceGone, q := none } else a) := by
  have hd := diverge_updates (v := v) (look_bare n b) ha ho
  rw [removeService_waits (.inr ha) hd (by simp [look_bare, Slot.removed, ha])]
  exact ⟨look_bare n b, rfl, rfl⟩

end

/-- A removed slot is RETIRING or FREE (R104). -/
theorem removeService_slot (v : View) (n : SlotNo) (b : Books) :
    (look (removeService v n b).dir.slots n).state = .retiring ∨ look (removeService v n b).dir.slots n = Slot.empty := by
  obtain ⟨-, -, -, hfree | ⟨a, -, hret⟩, -⟩ := removeService_spec v n b
  · exact .inr hfree
  · exact .inl (by rw [hret])

/-! ## The removals of one forget check (R102) -/

/-- The removals of several services, in order. -/
def removeAll (v : View) (ns : List SlotNo) (b : Books) : Books := ns.foldl (fun b n => removeService v n b) b

theorem removeAll_other {v : View} {ns : List SlotNo} {b : Books} {k : SlotNo} (hk : k ∉ ns) :
    look (removeAll v ns b).dir.slots k = look b.dir.slots k := by
  induction ns generalizing b with
  | nil => rfl
  | cons n ns ih =>
    rw [List.mem_cons, not_or] at hk
    exact (ih hk.2).trans ((removeService_spec v n b).2.2.1 k hk.1)

theorem removeAll_slot {v : View} {ns : List SlotNo} {b : Books} (hd : ns.Nodup) {k : SlotNo} (hk : k ∈ ns) :
    (look (removeAll v ns b).dir.slots k).state = .retiring ∨ look (removeAll v ns b).dir.slots k = Slot.empty := by
  induction ns generalizing b with
  | nil => cases hk
  | cons n ns ih =>
    rw [List.nodup_cons] at hd
    rcases List.mem_cons.mp hk with rfl | hk
    · have hkept : look (removeAll v (k :: ns) b).dir.slots k = look (removeService v k b).dir.slots k :=
        removeAll_other hd.1
      rw [hkept]
      exact removeService_slot v k b
    · exact ih hd.2 hk

theorem removeAll_pool (v : View) (ns : List SlotNo) (b : Books) :
    (removeAll v ns b).dir.pool = b.dir.pool.filter (fun g => decide (g.slot ∉ ns)) := by
  induction ns generalizing b with
  | nil => simp [removeAll]
  | cons n ns ih =>
    calc (removeAll v (n :: ns) b).dir.pool
        = (removeService v n b).dir.pool.filter (fun g => decide (g.slot ∉ ns)) := ih _
      _ = b.dir.pool.filter (fun g => decide (g.slot ∉ n :: ns)) := by
        rw [(removeService_spec v n b).1, List.filter_filter]
        refine List.filter_congr fun g _ => ?_
        simp only [List.mem_cons, not_or, Bool.decide_and, Bool.and_comm, bne, decide_not, beq_eq_decide]

/-- The test of the forget check on a slot (R102). -/
def View.forgets (v : View) (x : Slot) : Bool :=
  x.state == .orphan && x.pin == none && x.orphanSince.any (fun t => decide (60 * v.policy.forget ≤ (v.now - t).toNat))

theorem forgets_iff {v : View} {x : Slot} :
    v.forgets x = true ↔
      x.state = .orphan ∧ x.pin = none ∧ ∃ t, x.orphanSince = some t ∧ 60 * v.policy.forget ≤ (v.now - t).toNat := by
  simp [View.forgets, Option.any_eq_true, and_assoc]

theorem forgets_iff_due {v : View} {x : Slot} :
    x.state = .orphan ∧ x.pin = none ∧ v.forgetDue x = true ↔ v.forgets x = true := by
  rw [forgets_iff, View.forgetDue]
  cases x.orphanSince <;> simp

/-- A removal leaves the other slots as they were, so the services to forget can be listed before any removal. -/
theorem foldl_forget (v : View) (test : Slot → Bool) (ns : List SlotNo) (hd : ns.Nodup) (b : Books) :
    ns.foldl (fun b n => if test (look b.dir.slots n) then removeService v n b else b) b
      = removeAll v (ns.filter (fun n => test (look b.dir.slots n))) b := by
  induction ns generalizing b with
  | nil => rfl
  | cons n ns ih =>
    rw [List.nodup_cons] at hd
    rw [List.foldl_cons, List.filter_cons]
    split
    · have hsame : ns.filter (fun k => test (look (removeService v n b).dir.slots k))
          = ns.filter (fun k => test (look b.dir.slots k)) :=
        List.filter_congr fun k hk => by
          rw [(removeService_spec v n b).2.2.1 k (fun h => hd.1 (h ▸ hk))]
      rw [ih hd.2, hsame]
      rfl
    · rw [ih hd.2]

/-- The services that a forget check finds to forget, in slot order. -/
def Dir.toForget (v : View) (d : Dir) : List SlotNo := (List.finRange 512).filter (fun n => v.forgets (look d.slots n))

theorem mem_toForget {v : View} {d : Dir} {n : SlotNo} : n ∈ d.toForget v ↔ v.forgets (look d.slots n) = true := by
  exact List.mem_filter.trans (and_iff_right (List.mem_finRange n))

theorem nodup_toForget (v : View) (d : Dir) : (d.toForget v).Nodup := (List.nodup_finRange 512).filter _

/-- The forget check removes the services it finds due, in slot order (R102). -/
theorem forgetCheck_eq (v : View) (b : Books) : forgetCheck v b = removeAll v (b.dir.toForget v) b := by
  rw [Dir.toForget, ← foldl_forget v v.forgets _ (List.nodup_finRange 512) b]
  simp only [forgetCheck, forgets_iff_due]

/-- What the forget check does to one service (R102). -/
theorem forgetCheck_slot {v : View} {b u : Books} (hu : forgetCheck v b = u) (n : SlotNo) :
    (v.forgets (look b.dir.slots n) = true →
        ((look u.dir.slots n).state = .retiring ∨ look u.dir.slots n = Slot.empty) ∧ ∀ g ∈ u.dir.pool, g.slot ≠ n)
      ∧ (¬ v.forgets (look b.dir.slots n) = true →
        look u.dir.slots n = look b.dir.slots n ∧ u.dir.sightings n = b.dir.sightings n) := by
  subst hu
  rw [forgetCheck_eq]
  constructor
  · intro hf
    rw [← mem_toForget] at hf
    refine ⟨removeAll_slot (nodup_toForget v b.dir) hf, fun g hg hn => ?_⟩
    rw [removeAll_pool, List.mem_filter] at hg
    exact of_decide_eq_true hg.2 (hn ▸ hf)
  · intro hf
    rw [← mem_toForget] at hf
    refine ⟨removeAll_other hf, ?_⟩
    rw [Dir.sightings, removeAll_pool, List.filter_filter]
    refine List.filter_congr fun g _ => ?_
    by_cases hg : g.slot = n
    · simp [hg, hf]
    · simp [hg]

/-! ## The statement -/

/-- Entering books changes the directory and the conditions only. -/
theorem enter_keeps (s : State) (b : Books) :
    SameOutside s (s.enter b) ∧ (s.enter b).plant.cells = s.plant.cells ∧ (s.enter b).plant.lanes = s.plant.lanes
      ∧ (s.enter b).plant.survey = s.plant.survey := ⟨⟨rfl, rfl, rfl, rfl, rfl, rfl, rfl⟩, rfl, rfl, rfl⟩

theorem exec_forgetCheck (s : State) : exec .forgetCheck s = .next (s.enter (forgetCheck s.view s.books)) := rfl

theorem runForgetService_refused {p : List Byte} (s : State) (h : 512 ≤ halfAt p 0) :
    runForgetService p s = refuse s .badValue := by
  rw [runForgetService, slotAt_refused h]

theorem runForgetService_wrongState {p : List Byte} {n : SlotNo} {s : State} (h : halfAt p 0 = n.val)
    (hx : (look s.plant.dir.slots n).state = .free ∨ (look s.plant.dir.slots n).state = .retiring) :
    runForgetService p s = refuse s .wrongState := by
  simp only [runForgetService, slotAt_eq h]
  rcases hx with hx | hx <;> rw [hx]

theorem runForgetService_ok {p : List Byte} {n : SlotNo} {s : State} (h : halfAt p 0 = n.val)
    (hfree : (look s.plant.dir.slots n).state ≠ .free) (hret : (look s.plant.dir.slots n).state ≠ .retiring) :
    runForgetService p s =
      ok (s.enter (removeService s.view n s.books))
        (b1 (look (removeService s.view n s.books).dir.slots n).state.code) := by
  simp only [runForgetService, slotAt_eq h]
  cases hx : (look s.plant.dir.slots n).state with
  | free => exact absurd hx hfree
  | retiring => exact absurd hx hret
  | provisional => rfl
  | live => rfl
  | orphan => rfl

/-- Settles O35: the removal of one service by the advice state of its slot, and the forget check as the removals of the
services it finds due. -/
theorem servicesAreForgotten : Obligations.ServicesAreForgotten := by
  unfold Obligations.ServicesAreForgotten
  refine ⟨fun f lo hi s hs hp hbad => ?_, fun f lo hi n s hs hp hn => ⟨fun hx => ?_, fun hfree hret => ?_⟩, fun s => ?_,
    fun s => ?_, fun v n b => ⟨?_, ?_, ?_, ?_, ?_, ?_, ?_, ?_, ?_⟩⟩
  · exact next_served_at (v := svcForgetService) hs hp rfl (by simp) (runForgetService_refused (p := [lo, hi]) s hbad)
  · exact next_served_at (v := svcForgetService) hs hp rfl (by simp) (runForgetService_wrongState (p := [lo, hi]) hn hx)
  · obtain ⟨hpool, -, hother, -, -⟩ := removeService_spec s.view n s.books
    obtain ⟨hout, hcells, hlanes, -⟩ := enter_keeps s (removeService s.view n s.books)
    refine ⟨s.enter (removeService s.view n s.books),
      next_served_at (v := svcForgetService) hs hp rfl (by simp) (runForgetService_ok (p := [lo, hi]) hn hfree hret),
      hout, hcells, hlanes, rfl, hpool, hother, removeService_slot s.view n s.books,
      fun hr ha => ?_, fun c hr ha => ?_⟩
    · show look (removeService s.view n s.books).dir.slots n = _
      rw [removeService_unheard hr ha]
      exact look_put_self _ _ _
    · exact removeService_tells ha hr
  · obtain ⟨u, hu⟩ : ∃ u, forgetCheck s.view s.books = u := ⟨_, rfl⟩
    obtain ⟨hout, hcells, hlanes, hsurvey⟩ := enter_keeps s u
    refine ⟨s.enter u, by rw [exec_forgetCheck, hu], hout, hcells, hlanes, hsurvey, fun n => ?_⟩
    have h := forgetCheck_slot hu n
    rw [forgets_iff] at h
    exact h
  · rw [exec_forgetCheck, forgetCheck_eq]
    unfold removeAll Dir.toForget View.forgets State.enter
    rfl
  · exact (removeService_spec v n b).1
  · exact (removeService_spec v n b).2.1
  · exact (removeService_spec v n b).2.2.1
  · intro ha hr
    rw [removeService_unheard hr ha]
    exact ⟨look_put_self _ _ _, rfl, rfl⟩
  · exact fun c ha hr hl => removeService_queues ha hr hl
  · exact fun c ha hr hl => removeService_owes ha hr hl
  · intro c ha hr
    rw [removeService_stillOwes ha hr]
    exact ⟨look_bare n b, rfl, rfl⟩
  · exact fun ha ho => removeService_withdraws ha ho
  · exact fun ha ho => removeService_rewrites ha ho

end Sys2Proof.Machine
end

section
/-! SUPPORT. One evaluation, step by step (R101, R113 to R118): the slot as its steps find it, and what each step makes of
it. -/

namespace Sys2Proof.Machine

/-! ## The slot that the steps begin with -/

/-- A slot judged, with the roles of removed sightings given up (R101, R113). -/
def readied (v : View) (d : Dir) (n : SlotNo) (x : Slot) : Slot := judged v d n (withoutLostRoles d n x)

section
variable {v : View} {d : Dir} {n : SlotNo} {x : Slot}

theorem readied_chosen : (readied v d n x).chosen = x.chosen :=
  (judged_kept v d n _).2.1.trans (withoutLostRoles_kept d n x).2.1

theorem readied_reason : (readied v d n x).reason = x.reason :=
  (judged_kept v d n _).2.2.1.trans (withoutLostRoles_kept d n x).2.2.1

theorem readied_challenger : (readied v d n x).challenger = x.challenger.filter (fun t => d.holds n t.1) :=
  (judged_kept v d n _).2.2.2.1.trans (withoutLostRoles_kept d n x).2.2.2.2.2.1

theorem readied_pin : (readied v d n x).pin = x.pin.filter (fun c => d.holds n c) :=
  (judged_kept v d n _).2.2.2.2.1.trans (withoutLostRoles_kept d n x).2.2.2.2.2.2.1

theorem readied_suspended :
    (readied v d n x).suspended = (x.suspended && (x.pin.isNone || (x.pin.filter (fun c => d.holds n c)).isSome)) :=
  (judged_kept v d n _).2.2.2.2.2.trans (withoutLostRoles_kept d n x).2.2.2.2.2.2.2

/-- The judgement's time (R101): none for a service with a rankable sighting; an ORPHAN one keeps its time. -/
theorem readied_orphanSince :
    (readied v d n x).orphanSince =
      if hasRankable v d n then none else if x.state = .orphan then x.orphanSince else some v.now := by
  obtain ⟨-, -, -, hstate, hsince, -, -, -⟩ := withoutLostRoles_kept d n x
  unfold readied judged
  rw [hstate]
  split
  · rfl
  · split
    · exact hsince
    · rfl

/-! ## The steps, case by case -/

/-- A pin on a rankable cell decides (R115). -/
theorem evaluated_pinned {c : CellRef} (hp : x.pin = some c) (hh : d.holds n c = true) (hr : v.rankable c = true) :
    evaluated v d n x = pinStep c (readied v d n x) := by
  have hpin : (judged v d n (withoutLostRoles d n x)).pin = some c := by
    rw [← readied, readied_pin, hp]; simp [hh]
  simp only [evaluated, hpin, hr, if_true, readied]

/-- A pin whose cell is not rankable is suspended (R115). -/
theorem evaluated_suspends {c : CellRef} (hp : x.pin = some c) (hh : d.holds n c = true) (hr : v.rankable c = false) :
    evaluated v d n x = failoverOrImprove v d n { readied v d n x with suspended := true } := by
  have hpin : (judged v d n (withoutLostRoles d n x)).pin = some c := by
    rw [← readied, readied_pin, hp]; simp [hh]
  simp only [evaluated, hpin, hr, Bool.false_eq_true, if_false, readied]

/-- A service without a pin, or whose pinned sighting was removed, goes on to the failover test (R116). -/
theorem evaluated_unpinned (hp : ∀ c ∈ x.pin, d.holds n c = false) :
    evaluated v d n x = failoverOrImprove v d n (readied v d n x) := by
  have hpin : (judged v d n (withoutLostRoles d n x)).pin = none := by
    rw [← readied, readied_pin]
    simpa [Option.filter_eq_none_iff] using hp
  simp only [evaluated, hpin, readied]

/-- The chosen source passes the failover test exactly when it has a rankable sighting (R116). -/
theorem chosenStands_some {c : CellRef} (hc : x.chosen = some c) (hh : d.holds n c = true) (hr : v.rankable c = true) :
    chosenStands v d n x = some c := by
  simp [chosenStands, hc, hh, hr]

theorem chosenStands_none (hc : ∀ c ∈ x.chosen, ¬ (d.holds n c = true ∧ v.rankable c = true)) :
    chosenStands v d n x = none := by
  simpa [chosenStands, Option.filter_eq_none_iff] using hc

theorem failoverOrImprove_failover (h : chosenStands v d n x = none) : failoverOrImprove v d n x = failover v d n x := by
  simp only [failoverOrImprove, h]

theorem failoverOrImprove_improve {c : CellRef} (h : chosenStands v d n x = some c) :
    failoverOrImprove v d n x = improve v d n c x := by
  simp only [failoverOrImprove, h]

/-- Failing over takes the top-ranked rankable sighting and says so, or that there is none (R116). -/
theorem failover_spec :
    (failover v d n x).chosen = topRankable v d n ∧ (failover v d n x).challenger = none
      ∧ (failover v d n x).suspended = x.suspended
      ∧ (failover v d n x).reason = some (if (topRankable v d n).isSome then .failover else .noSource) := by
  unfold failover
  cases topRankable v d n <;> exact ⟨rfl, rfl, rfl, rfl⟩

/-- With a pin suspended the chosen source that stands does not move (R117). -/
theorem improve_suspended {c : CellRef} (hs : x.suspended = true) :
    improve v d n c x = { x with challenger := none } := if_pos hs

/-- A chosen source that is on top, or not behind by the margin, stays, and nobody challenges it (R117). -/
theorem improve_stays {c top : CellRef} (hs : x.suspended = false) (ht : topRankable v d n = some top)
    (hm : top = c ∨ (v.q top).getD 0 < (v.q c).getD 0 + v.policy.margin) :
    improve v d n c x = { x with challenger := none } := by
  have hstay : top = c ∨ aheadByMargin v top c = false := by simpa [aheadByMargin] using hm
  simp [improve, hs, ht, hstay]

/-- A challenger that is ahead by the margin is counted, and wins at the confirm count (R117). -/
theorem improve_challenged {c top : CellRef} (hs : x.suspended = false) (ht : topRankable v d n = some top)
    (hne : top ≠ c) (hm : (v.q c).getD 0 + v.policy.margin ≤ (v.q top).getD 0) :
    improve v d n c x =
      if v.policy.confirm ≤ countAfter top x.challenger then
        { x with chosen := some top, reason := some .improvement, challenger := none }
      else { x with challenger := some (top, countAfter top x.challenger) } := by
  have hahead : aheadByMargin v top c = true := by simpa [aheadByMargin] using hm
  simp [improve, hs, ht, hne, hahead]

/-- The challenger's count as the steps find it: a challenger whose sighting was removed counts for nothing. -/
theorem countAfter_filter (top : CellRef) (ch : Option (CellRef × Nat)) (held : CellRef → Bool) :
    countAfter top (ch.filter (fun t => held t.1)) =
      match ch with
      | some (h, j) => if h = top ∧ held h = true then j + 1 else 1
      | none => 1 := by
  cases ch with
  | none => rfl
  | some t =>
    obtain ⟨h, j⟩ := t
    cases hh : held h <;> simp [Option.filter, countAfter, hh]

/-! ## What an evaluation makes of a slot -/

theorem evaluated_orphanSince : (evaluated v d n x).orphanSince = (readied v d n x).orphanSince := by
  have hrest : ∀ z : Slot, (failoverOrImprove v d n z).orphanSince = z.orphanSince :=
    fun z => (failoverOrImprove_spec v d n z).2.2.1
  show (match (readied v d n x).pin with
    | some c => if v.rankable c then pinStep c (readied v d n x)
        else failoverOrImprove v d n { readied v d n x with suspended := true }
    | none => failoverOrImprove v d n (readied v d n x)).orphanSince = _
  split
  · split
    · rfl
    · exact hrest _
  · exact hrest _

/-- R115: the pin's own step. -/
theorem evaluated_of_pin {c : CellRef} (hp : x.pin = some c) (hh : d.holds n c = true) (hr : v.rankable c = true) :
    let z := evaluated v d n x
    z.chosen = some c ∧ z.challenger = none ∧ z.suspended = false
      ∧ (x.chosen ≠ some c ∨ x.reason = none → z.reason = some (if x.suspended then .pinRestored else .pinApplied))
      ∧ (x.chosen = some c → x.reason ≠ none → z.reason = x.reason) := by
  dsimp only
  rw [evaluated_pinned hp hh hr]
  have hs : (readied v d n x).suspended = x.suspended := by rw [readied_suspended, hp]; simp [hh]
  have hwhy : (pinStep c (readied v d n x)).reason =
      if x.chosen ≠ some c ∨ x.reason = none then some (if x.suspended then .pinRestored else .pinApplied)
      else x.reason := by
    simp only [pinStep, readied_chosen, readied_reason, hs]
  refine ⟨rfl, rfl, rfl, fun h => by rw [hwhy, if_pos h], fun hc hn => ?_⟩
  rw [hwhy, if_neg (by simp [hc, hn])]

/-- R115 to R117: a pin that is suspended leaves a chosen source that stands. -/
theorem evaluated_of_suspension {c : CellRef} (hp : x.pin = some c) (hh : d.holds n c = true)
    (hr : v.rankable c = false) :
    let z := evaluated v d n x
    z.suspended = true ∧ z.challenger = none
      ∧ ∀ k, x.chosen = some k → d.holds n k = true ∧ v.rankable k = true → z.chosen = some k ∧ z.reason = x.reason := by
  dsimp only
  rw [evaluated_suspends hp hh hr]
  cases hc : chosenStands v d n { readied v d n x with suspended := true } with
  | none =>
    rw [failoverOrImprove_failover hc]
    obtain ⟨-, hch, hsus, -⟩ := @failover_spec v d n { readied v d n x with suspended := true }
    refine ⟨hsus, hch, fun k hk ⟨hkh, hkr⟩ => ?_⟩
    have hstands : chosenStands v d n { readied v d n x with suspended := true } = some k :=
      chosenStands_some (readied_chosen.trans hk) hkh hkr
    rw [hstands] at hc
    cases hc
  | some k =>
    rw [failoverOrImprove_improve hc, improve_suspended rfl]
    exact ⟨rfl, rfl, fun k' hk' _ => ⟨readied_chosen.trans hk', readied_reason⟩⟩

/-- A pin whose sighting was removed takes its flag with it (R113). -/
theorem evaluated_suspended_of_unpinned (hp : ∀ c ∈ x.pin, d.holds n c = false) :
    (evaluated v d n x).suspended = (x.suspended && x.pin.isNone) := by
  rw [evaluated_unpinned hp, (failoverOrImprove_spec v d n _).2.2.2.2.1, readied_suspended]
  have hnone : x.pin.filter (fun c => d.holds n c) = none := by simpa [Option.filter_eq_none_iff] using hp
  simp [hnone]

/-- R116: a lost chosen source, with no pin to decide. -/
theorem evaluated_of_loss (hp : ∀ c ∈ x.pin, ¬ (d.holds n c = true ∧ v.rankable c = true))
    (hc : ∀ c ∈ x.chosen, ¬ (d.holds n c = true ∧ v.rankable c = true)) :
    let z := evaluated v d n x
    z.chosen = topRankable v d n ∧ z.challenger = none
      ∧ z.reason = some (if (topRankable v d n).isSome then .failover else .noSource) := by
  dsimp only
  have hfail : ∀ z : Slot, z.chosen = x.chosen →
      (failoverOrImprove v d n z).chosen = topRankable v d n ∧ (failoverOrImprove v d n z).challenger = none
        ∧ (failoverOrImprove v d n z).reason = some (if (topRankable v d n).isSome then .failover else .noSource) := by
    intro z hz
    rw [failoverOrImprove_failover (chosenStands_none (hz ▸ hc))]
    obtain ⟨h1, h2, -, h4⟩ := @failover_spec v d n z
    exact ⟨h1, h2, h4⟩
  by_cases hheld : ∀ c ∈ x.pin, d.holds n c = false
  · rw [evaluated_unpinned hheld]
    exact hfail _ readied_chosen
  · simp only [not_forall, Bool.not_eq_false] at hheld
    obtain ⟨c, hpc, hh⟩ := hheld
    rw [evaluated_suspends hpc hh (by simpa [hh] using hp c hpc)]
    exact hfail _ readied_chosen

/-- R117: a chosen source that stands, with no pin: the challenger's count, and the move at the confirm count. -/
theorem evaluated_of_standing {c : CellRef} (hp : ∀ p ∈ x.pin, d.holds n p = false)
    (hs : x.pin = none → x.suspended = false) (hc : x.chosen = some c) (hh : d.holds n c = true)
    (hr : v.rankable c = true) :
    let z := evaluated v d n x
    ∃ top, topRankable v d n = some top
      ∧ (top = c ∨ (v.q top).getD 0 < (v.q c).getD 0 + v.policy.margin →
          z.chosen = some c ∧ z.reason = x.reason ∧ z.challenger = none)
      ∧ (top ≠ c → (v.q c).getD 0 + v.policy.margin ≤ (v.q top).getD 0 →
          let k := match x.challenger with
            | some (h, j) => if h = top ∧ d.holds n h = true then j + 1 else 1
            | none => 1
          (v.policy.confirm ≤ k → z.chosen = some top ∧ z.reason = some .improvement ∧ z.challenger = none)
          ∧ (k < v.policy.confirm → z.chosen = some c ∧ z.reason = x.reason ∧ z.challenger = some (top, k))) := by
  dsimp only
  obtain ⟨top, ht⟩ := Option.isSome_iff_exists.mp
    ((topRankable_isSome v d n).trans (hasRankable_of_holds hh hr))
  have hsus : (readied v d n x).suspended = false := by
    rw [readied_suspended]
    cases hpin : x.pin with
    | none => simp [hs hpin]
    | some p => simp [Option.filter, hp p hpin]
  rw [evaluated_unpinned hp, failoverOrImprove_improve (chosenStands_some (readied_chosen.trans hc) hh hr)]
  refine ⟨top, ht, fun hm => ?_, fun hne hm => ?_⟩
  · rw [improve_stays hsus ht hm]
    exact ⟨readied_chosen.trans hc, readied_reason, rfl⟩
  · rw [improve_challenged hsus ht hne hm, readied_challenger, countAfter_filter top x.challenger (d.holds n)]
    refine ⟨fun hk => ?_, fun hk => ?_⟩
    · rw [if_pos hk]
      exact ⟨rfl, rfl, rfl⟩
    · rw [if_neg (Nat.not_le.mpr hk)]
      exact ⟨readied_chosen.trans hc, readied_reason, rfl⟩

end

/-! ## The statement -/

/-- Settles O38: the hand-off moves the advice state only, so what the statement says of the slot is said of
`evaluated`. -/
theorem evaluationMovesTheChosenSource : Obligations.EvaluationMovesTheChosenSource := by
  unfold Obligations.EvaluationMovesTheChosenSource
  intro v rel n b x d e y stands hx
  have hev : evaluates x rel = true := by
    rcases hx with h | h | ⟨h, rfl⟩ <;> simp [evaluates, h]
  obtain ⟨hpool, -, hother, hslot, -⟩ := evaluate_spec v rel n b
  obtain ⟨a, hy⟩ := hslot hev
  obtain ⟨⟨hkey, hkind, hname, hscr, hrep, hadv, hcreated⟩, hstate, hpin, -, -, -⟩ := evaluated_spec v d n x
  have heq : e = diverge v n { b with dir := b.dir.setSlot n (evaluated v d n x) } :=
    (evaluate_eq v rel n b).trans (if_pos hev)
  have hjudged : y.state = if hasRankable v d n then .live else .orphan := (congrArg Slot.state hy).trans hstate
  have hsince : y.orphanSince =
      if hasRankable v d n then none else if x.state = .orphan then x.orphanSince else some v.now :=
    (congrArg Slot.orphanSince hy).trans (evaluated_orphanSince.trans readied_orphanSince)
  have hentry : y = { evaluated v d n x with advice := a } := hy
  clear_value y
  subst hentry
  refine ⟨⟨hpool, hother, hkey, hkind, hname, hscr, hrep, hcreated, hstate, fun hl => ?_, fun ho => ?_, hpin⟩,
    ⟨evaluated v d n x, hadv, rfl, heq⟩, fun c hp ⟨hh, hr⟩ => evaluated_of_pin hp hh hr,
    fun c hp hh hr => evaluated_of_suspension hp hh hr, fun c hp hh => ?_, fun hp => ?_,
    fun hp hc => evaluated_of_loss hp hc, fun c hp hs hc ⟨hh, hr⟩ => evaluated_of_standing hp hs hc hh hr⟩
  · rw [hjudged] at hl
    rw [hsince, if_pos (by by_contra h; simp [h] at hl)]
  · rw [hjudged] at ho
    rw [hsince, if_neg (by intro h; simp [h] at ho)]
  · exact (evaluated_suspended_of_unpinned (by simpa [hp] using hh)).trans (by simp [hp])
  · exact (evaluated_suspended_of_unpinned (by simp [hp])).trans (by simp [hp])

end Sys2Proof.Machine
end


section
/-! SUPPORT. What directory work does to sightings, while services await an evaluation: sightings go, one joins, all are
confirmed. Each keeps `Dir.Working`. -/

namespace Sys2Proof.Machine

section
variable {cells cells' : Vector Cell 576} {exempt exempt' freed freed' : SlotNo → Prop} {d d' : Dir}

/-- The laws read of the cells only their states. -/
theorem Dir.Working.of_states (h : d.Working cells exempt freed)
    (states : ∀ k, (look cells' k).state = (look cells k).state) : d.Working cells' exempt freed := by
  have hrank : ∀ c, rankableIn cells' c ↔ rankableIn cells c := fun c => by rw [rankableIn, states]; rfl
  refine ⟨h.pool.sublist (List.Sublist.refl _) fun g hg => ?_, h.formed, h.keys, h.queue,
    fun n hn => (h.settled n hn).congr (fun _ => Iff.rfl) fun c _ => hrank c⟩
  obtain ⟨-, -, -, on⟩ := h.pool
  rw [states]
  exact on g hg

/-- A PROVISIONAL slot stays right while its chosen source keeps its sighting. -/
theorem Slot.Settled.of_provisional {held held' rankable rankable' : CellRef → Prop} {x : Slot}
    (h : x.Settled held rankable) (hs : x.state = .provisional) (hc : ∀ c ∈ x.chosen, held c → held' c) :
    x.Settled held' rankable' := by
  obtain ⟨advice, challenger, pin⟩ := h.provisional hs
  have chosen : ∀ c ∈ x.chosen, held' c := fun c hx => hc c hx (h.chosen c hx)
  refine ⟨chosen, fun c hx => chosen c (pin c hx), fun t ht => ?_, fun hl => ?_, fun hl => ?_, fun hl => ?_, fun hl => ?_,
    h.retiring, h.provisional⟩
  · rw [challenger] at ht; cases ht
  · rw [hs] at hl; cases hl
  · rw [hs] at hl; cases hl
  · rw [hs] at hl; simp at hl
  · rw [hs] at hl; simp at hl

/-- A slot that holds no sighting before and after stays right, unless LIVE or ORPHAN. -/
theorem Slot.Settled.of_retiring {held held' rankable rankable' : CellRef → Prop} {x : Slot}
    (h : x.Settled held rankable) (hs : x.state = .retiring) (none : ∀ c, ¬ held c) : x.Settled held' rankable' := by
  obtain ⟨chosen, advice⟩ := h.retiring hs
  refine settled_retiring hs chosen ?_ ?_ advice
  · exact Option.eq_none_iff_forall_not_mem.mpr fun c hc => none c (h.pin c hc)
  · exact Option.eq_none_iff_forall_not_mem.mpr fun t ht => none t.1 (h.challenger t ht).1

theorem heldBy_iff {n : SlotNo} {c : CellRef} : d.heldBy n c ↔ ∃ g ∈ d.pool, g.slot = n ∧ g.cell = c := by
  simp only [Dir.heldBy, holds_iff, mem_sightings, and_assoc]

/-- A RETIRING service holds no sighting (R91, R104). -/
theorem PoolRight.bare (h : PoolRight cells d) {n : SlotNo} (hs : (look d.slots n).state.keeps = false) (c : CellRef) :
    ¬ d.heldBy n c := by
  rw [heldBy_iff]
  rintro ⟨g, hg, rfl, -⟩
  obtain ⟨-, -, -, on⟩ := h
  rw [(on g hg).1] at hs
  cases hs

/-! ## Sightings go, cells change state -/

/-- Sightings go: every service that loses one, or that has one on a cell whose rank changes, awaits an evaluation from then
on; so does a PROVISIONAL one that loses its chosen source (R94, R99). -/
theorem Dir.Working.shed (h : d.Working cells exempt freed) (slots : d'.slots = d.slots) (queue : d'.queue = d.queue)
    (sub : d'.pool.Sublist d.pool)
    (on : ∀ g ∈ d'.pool, (look cells' g.cell).state.scored = true ∨ (look cells' g.cell).state = .unseen)
    (turned : ∀ g ∈ d'.pool, ¬ exempt' g.slot → (rankableIn cells' g.cell ↔ rankableIn cells g.cell))
    (gone : ∀ g ∈ d.pool, g ∉ d'.pool → exempt' g.slot)
    (lost : ∀ g ∈ d.pool, g ∉ d'.pool → (look d.slots g.slot).state = .provisional →
      (look d.slots g.slot).chosen = some g.cell → freed' g.slot)
    (he : ∀ n, exempt n → exempt' n) (hf : ∀ n, freed n → freed' n) : d'.Working cells' exempt' freed' := by
  refine ⟨h.pool.sublist sub fun g hg => ?_, fun n => slots ▸ h.formed n, h.keys.of_slots fun n hn => ?_, ?_, fun n hn => ?_⟩
  · obtain ⟨-, -, -, hon⟩ := h.pool
    rw [slots]
    exact ⟨(hon g (sub.subset hg)).1, on g hg⟩
  · rw [slots] at hn ⊢
    exact ⟨hn, rfl⟩
  · have hq := h.queue
    exact ⟨queue ▸ hq.length, queue ▸ hq.nodup, slots ▸ queue ▸ hq.queued, slots ▸ queue ▸ hq.record,
      slots ▸ queue ▸ hq.shows, slots ▸ hq.owed⟩
  · have hold : (look d.slots n).Settled (d.heldBy n) (rankableIn cells) := h.settled n fun ha => hn (by
      unfold Dir.awaits at ha ⊢
      rw [slots]
      exact ha.imp (And.imp_right (hf n)) (And.imp_right (he n)))
    unfold Dir.awaits at hn
    rw [slots] at hn ⊢
    by_cases hx : exempt' n
    · cases hs : (look d.slots n).state with
      | free => rw [(h.formed n).free hs]; exact settled_empty _ _
      | retiring => exact hold.of_retiring hs (h.pool.bare (by rw [hs]; rfl))
      | provisional =>
        refine hold.of_provisional hs fun c hc hh => ?_
        obtain ⟨g, hg, rfl, rfl⟩ := heldBy_iff.mp hh
        refine heldBy_iff.mpr ⟨g, ?_, rfl, rfl⟩
        by_contra hgone
        exact hn (.inl ⟨by simp [evaluates, hs], lost g hg hgone hs hc⟩)
      | live => exact absurd (.inr ⟨by simp [evaluates, hs], hx⟩) hn
      | orphan => exact absurd (.inr ⟨by simp [evaluates, hs], hx⟩) hn
    · have hkept : ∀ g ∈ d.pool, g.slot = n → g ∈ d'.pool := fun g hg hgn => by
        by_contra hgone
        exact hx (hgn ▸ gone g hg hgone)
      refine hold.congr (fun c => ?_) fun c hc => ?_
      · rw [heldBy_iff, heldBy_iff]
        exact ⟨fun ⟨g, hg, hgn, hgc⟩ => ⟨g, sub.subset hg, hgn, hgc⟩,
          fun ⟨g, hg, hgn, hgc⟩ => ⟨g, hkept g hg hgn, hgn, hgc⟩⟩
      · obtain ⟨g, hg, hgn, rfl⟩ := heldBy_iff.mp hc
        exact turned g (hkept g hg hgn) (hgn ▸ hx)

/-! ## A sighting joins -/

/-- A sighting joins a service that awaits an evaluation from then on (R93, R94), with its slot's record replaced. -/
theorem Dir.Working.join (h : d.Working cells exempt freed) {g : Sighting} {y : Slot} (slots : d'.slots = put d.slots g.slot y)
    (pool : d'.pool = d.pool ++ [g]) (count : d.pool.length < 2048) (each : (d.sightings g.slot).length < 8)
    (fresh : ¬ d.heldBy g.slot g.cell)
    (on : (look cells g.cell).state.scored = true ∨ (look cells g.cell).state = .unseen)
    (keeps : y.state.keeps = true) (formed : y.Formed) (keys : KeysRight d') (queue : d'.Queued noSlot)
    (waits : exempt' g.slot) (provisional : y.state = .provisional → (look d.slots g.slot).sameRoles y)
    (he : ∀ n, exempt n → exempt' n) (hf : ∀ n, freed n → freed' n) : d'.Working cells exempt' freed' := by
  have hown : look d'.slots g.slot = y := by rw [slots]; exact look_put_self _ _ _
  have hother : ∀ n, n ≠ g.slot → look d'.slots n = look d.slots n := fun n hn => by rw [slots]; exact look_put_ne _ _ hn
  obtain ⟨hcount, heach, hnodup, hon⟩ := h.pool
  refine ⟨⟨?_, fun n => ?_, ?_, fun k hk => ?_⟩, fun n => ?_, keys, queue, fun n hn => ?_⟩
  · rw [pool, List.length_append, List.length_singleton]
    omega
  · have happ : d'.sightings n = d.sightings n ++ [g].filter (fun k => k.slot == n) := by
      rw [Dir.sightings, pool, List.filter_append]; rfl
    rw [happ, List.length_append]
    by_cases hn : g.slot = n
    · subst hn
      have hone : ([g].filter (fun k => k.slot == g.slot)).length ≤ 1 := List.length_filter_le _ _
      omega
    · have hnone : [g].filter (fun k => k.slot == n) = [] := by simp [hn]
      rw [hnone]
      exact heach n
  · rw [pool, List.map_append, List.map_singleton]
    refine List.nodup_append.mpr ⟨hnodup, List.nodup_singleton _, fun a ha b hb => ?_⟩
    rintro rfl
    rw [List.mem_singleton] at hb
    obtain ⟨k, hk, rfl⟩ := List.mem_map.mp ha
    exact fresh (heldBy_iff.mpr ⟨k, hk, congrArg Prod.fst hb, congrArg Prod.snd hb⟩)
  · rw [pool, List.mem_append, List.mem_singleton] at hk
    rcases hk with hk | rfl
    · refine ⟨?_, (hon k hk).2⟩
      by_cases hkg : k.slot = g.slot
      · rw [hkg, hown]; exact keeps
      · rw [hother _ hkg]; exact (hon k hk).1
    · exact ⟨hown ▸ keeps, on⟩
  · by_cases hng : n = g.slot
    · subst hng; rw [hown]; exact formed
    · rw [hother n hng]; exact h.formed n
  · by_cases hng : n = g.slot
    · subst hng
      unfold Dir.awaits at hn
      rw [hown] at hn ⊢
      have hs : y.state = .provisional := by
        unfold SlotState.keeps at keeps
        unfold evaluates at hn
        cases hs : y.state <;> simp_all
      have hroles := provisional hs
      obtain ⟨hstate, -⟩ := provisional hs
      have hold := h.settled g.slot fun ha => hn (by
        unfold Dir.awaits at ha
        have hev : ∀ r, evaluates y r = evaluates (look d.slots g.slot) r := fun r => by unfold evaluates; rw [hstate]
        rw [hev, hev]
        exact ha.imp (And.imp_right (hf _)) (And.imp_right (he _)))
      refine (hold.of_roles hroles).of_provisional hs fun c _ hh => ?_
      obtain ⟨k, hk, hkn, hkc⟩ := heldBy_iff.mp hh
      exact heldBy_iff.mpr ⟨k, by rw [pool]; exact List.mem_append_left _ hk, hkn, hkc⟩
    · have hsame := hother n hng
      rw [hsame]
      refine (h.settled n fun ha => hn ?_).congr (fun c => ?_) fun _ _ => Iff.rfl
      · unfold Dir.awaits at ha ⊢
        rw [hsame]
        exact ha.imp (And.imp_right (hf n)) (And.imp_right (he n))
      · rw [heldBy_iff, heldBy_iff, pool]
        simp only [List.mem_append, List.mem_singleton, or_and_right, exists_or, exists_eq_left]
        exact or_iff_left fun hg => hng hg.1.symm

/-! ## Sightings are confirmed -/

theorem heldBy_of_join_eq (h : d'.pool.map Sighting.join = d.pool.map Sighting.join) (n : SlotNo) : d'.heldBy n = d.heldBy n := by
  funext c
  rw [Dir.heldBy, holds_of_join_eq h]
  rfl

theorem sightings_length (n : SlotNo) : (d.sightings n).length = (d.pool.map Sighting.join).countP (fun j => j.1 == n) := by
  rw [List.countP_map, Dir.sightings, List.countP_eq_length_filter]
  rfl

theorem PoolRight.of_join_eq (h : PoolRight cells d) (slots : ∀ n, (look d'.slots n).state = (look d.slots n).state)
    (pool : d'.pool.map Sighting.join = d.pool.map Sighting.join) : PoolRight cells d' := by
  obtain ⟨count, each, nodup, on⟩ := h
  have hlen : d'.pool.length = d.pool.length := by simpa using congrArg List.length pool
  refine ⟨hlen ▸ count, fun n => ?_, pool ▸ nodup, fun g hg => ?_⟩
  · rw [sightings_length, pool, ← sightings_length]
    exact each n
  · obtain ⟨k, hk, hj⟩ := List.mem_map.mp (pool ▸ List.mem_map_of_mem hg : g.join ∈ d.pool.map Sighting.join)
    obtain ⟨hslot, hcell⟩ : k.slot = g.slot ∧ k.cell = g.cell := Prod.mk.injEq .. ▸ hj
    rw [slots, ← hslot, ← hcell]
    exact on k hk

/-- Sightings confirmed in place, and records that only an entry's name is written into (R85, R86). -/
theorem Dir.Working.confirm (h : d.Working cells exempt freed) (slots : ∀ n, (look d.slots n).sameRoles (look d'.slots n))
    (pool : d'.pool.map Sighting.join = d.pool.map Sighting.join) (queue : d'.queue = d.queue)
    (free : ∀ n, (look d.slots n).state = .free → look d'.slots n = look d.slots n) : d'.Working cells exempt freed := by
  have hstate : ∀ n, (look d'.slots n).state = (look d.slots n).state := fun n => (slots n).1
  have hkey : ∀ n, (look d'.slots n).key = (look d.slots n).key := fun n => (slots n).2.1
  have hchosen : ∀ n, (look d'.slots n).chosen = (look d.slots n).chosen := fun n => (slots n).2.2.1
  have hadvice : ∀ n, (look d'.slots n).advice = (look d.slots n).advice := fun n => (slots n).2.2.2.2.2.1
  have hreported : ∀ n, (look d'.slots n).reported = (look d.slots n).reported := fun n => (slots n).2.2.2.2.2.2.1
  refine ⟨h.pool.of_join_eq hstate pool, fun n => ?_, h.keys.of_slots fun n hn => ⟨hstate n ▸ hn, hkey n⟩, ?_,
    fun n hn => ?_⟩
  · by_cases hf : (look d.slots n).state = .free
    · rw [free n hf]; exact h.formed n
    · exact (h.formed n).of_roles (slots n) hf
  · have hq := h.queue
    refine ⟨queue ▸ hq.length, queue ▸ hq.nodup, fun n => ?_, fun a ha => ?_, fun a ha hb => ?_, fun n hb => ?_⟩
    · rw [hadvice, queue]; exact hq.queued n
    · rw [hkey, hreported]; exact hq.record a (queue ▸ ha)
    · rw [hchosen]; exact hq.shows a (queue ▸ ha) hb
    · rw [hadvice, hchosen, hreported]; exact hq.owed n hb
  · rw [heldBy_of_join_eq pool]
    refine (h.settled n fun ha => hn ?_).of_roles (slots n)
    have hev : ∀ r, evaluates (look d'.slots n) r = evaluates (look d.slots n) r := fun r => by
      unfold evaluates; rw [hstate]
    unfold Dir.awaits at ha ⊢
    rw [hev, hev]
    exact ha

end

end Sys2Proof.Machine
end


section
/-! SUPPORT. The taking of roster entries and the processing of a roster keep the laws of the directory, but for the services
that were marked or hold a sighting on the visited cell (R84 to R86, R93 to R99). -/

namespace Sys2Proof.Machine

/-! ## Room under the limits (R95 to R97) -/

section
variable {g : Settings} {now : Time} {n : SlotNo} {c : CellRef} {w u : Work}

theorem serviceVictim_mem {v : View} {d : Dir} {x : Sighting} (h : serviceVictim v d n c = some x) : x ∈ d.sightings n := by
  unfold serviceVictim at h
  split at h
  · next y hy =>
    obtain rfl := Option.some.inj h
    exact (List.mem_filter.mp (best_mem hy)).1
  · obtain ⟨hlast, -⟩ := Option.filter_eq_some_iff.mp h
    exact (ranked_perm _ _).mem_iff.mp (List.mem_of_getLast? hlast)

theorem removeSighting_pool_lt {x : Sighting} (hx : x ∈ w.dir.pool) :
    (removeSighting x.slot x.cell w).dir.pool.length < w.dir.pool.length :=
  List.length_filter_lt_length_iff_exists.mpr ⟨x, hx, by simp⟩

theorem removeSighting_sightings_lt {x : Sighting} (hx : x ∈ w.dir.sightings n) :
    ((removeSighting x.slot x.cell w).dir.sightings n).length < (w.dir.sightings n).length := by
  have hcomm : (removeSighting x.slot x.cell w).dir.sightings n =
      (w.dir.sightings n).filter (fun s => !(s.slot == x.slot && s.cell == x.cell)) := by
    simp only [Dir.sightings, removeSighting, List.filter_filter, Bool.and_comm]
  rw [hcomm]
  exact List.length_filter_lt_length_iff_exists.mpr ⟨x, hx, by simp⟩

theorem serviceRoom_room (h : serviceRoom g now n c w = some u) (each : (w.dir.sightings n).length ≤ 8) :
    (u.dir.sightings n).length < 8 := by
  unfold serviceRoom at h
  split at h
  · next hlt => exact Option.some.inj h ▸ hlt
  · obtain ⟨x, hx, rfl⟩ := Option.map_eq_some_iff.mp h
    exact (removeSighting_sightings_lt (serviceVictim_mem hx)).trans_le each

theorem poolRoom_room (h : poolRoom g now w = some u) (count : w.dir.pool.length ≤ 2048) : u.dir.pool.length < 2048 := by
  unfold poolRoom at h
  split at h
  · next hlt => exact Option.some.inj h ▸ hlt
  · obtain ⟨x, hx, rfl⟩ := Option.map_eq_some_iff.mp h
    exact (removeSighting_pool_lt (List.mem_filter.mp (best_mem hx)).1).trans_le count

/-- Where the limits make room, there is room for one more sighting of the service. -/
theorem makeRoom_room (h : makeRoom g now n c w = (u, true)) (count : w.dir.pool.length ≤ 2048)
    (each : (w.dir.sightings n).length ≤ 8) : u.dir.pool.length < 2048 ∧ (u.dir.sightings n).length < 8 := by
  unfold makeRoom at h
  split at h
  · cases h
  · next w1 h1 =>
    split at h
    · cases h
    · next w2 h2 =>
      obtain rfl : w2 = u := congrArg Prod.fst h
      have hsheds := serviceRoom_sheds h1
      exact ⟨poolRoom_room h2 (hsheds.pool.length_le.trans count),
        (((poolRoom_sheds h2).pool.filter _).length_le).trans_lt (serviceRoom_room h1 each)⟩

end

/-! ## Work under way on one cell -/

/-- The laws of the directory in the middle of the work on cell c: what is marked, or has a sighting there, awaits its
evaluation; so does what is marked for release. -/
def Work.Sound (c : CellRef) (w : Work) : Prop :=
  w.dir.Working w.cells (fun n => n ∈ w.marked ∨ w.dir.heldBy n c) (· ∈ w.release)

section
variable {c : CellRef} {w u : Work}

/-- Work that has shed sightings from `w`, with the slots as in `w`. -/
theorem Work.Sound.shed {d' : Dir} (h : w.Sound c) (slots : d'.slots = w.dir.slots) (queue : d'.queue = w.dir.queue)
    (pool : d'.pool.Sublist w.dir.pool) (marked : ∀ n ∈ w.marked, n ∈ u.marked) (release : ∀ n ∈ w.release, n ∈ u.release)
    (gone : ∀ g ∈ w.dir.pool, g ∉ d'.pool → g.slot ∈ u.marked)
    (lost : ∀ g ∈ w.dir.pool, g ∉ d'.pool → (look w.dir.slots g.slot).state = .provisional →
      (look w.dir.slots g.slot).chosen = some g.cell → g.slot ∈ u.release) :
    d'.Working w.cells (fun n => n ∈ u.marked ∨ d'.heldBy n c) (· ∈ u.release) := by
  have hpool : PoolRight w.cells w.dir := Dir.Working.pool h
  obtain ⟨-, -, -, on⟩ := hpool
  refine Dir.Working.shed h slots queue pool (fun g hg => (on g (pool.subset hg)).2) (fun g _ _ => Iff.rfl)
    (fun g hg hn => .inl (gone g hg hn)) lost (fun n hn => ?_) release
  rcases hn with hn | hn
  · exact .inl (marked n hn)
  · obtain ⟨g, hg, hgn, hgc⟩ := heldBy_iff.mp hn
    by_cases hk : g ∈ d'.pool
    · exact .inr (heldBy_iff.mpr ⟨g, hk, hgn, hgc⟩)
    · exact .inl (hgn ▸ gone g hg hk)

theorem Work.Sheds.sound (hs : w.Sheds u) (h : w.Sound c) : u.Sound c := by
  unfold Work.Sound
  rw [hs.cells]
  exact h.shed hs.slots hs.queue hs.pool hs.marked hs.release hs.gone hs.freed

/-- The sightings on the cell that are removed mark their services. -/
theorem removeOnCell_sound (b : CellRef) (drop : SlotNo → Bool) (h : w.Sound c) : (removeOnCell b drop w).Sound c := by
  obtain ⟨cells, -, dir, marked, -, release⟩ := removeOnCell_spec b drop w
  have hgone : ∀ g ∈ w.dir.pool, g ∉ (removeOnCell b drop w).dir.pool → g.cell = b ∧ drop g.slot = true := by
    intro g hg hn
    rw [dir, List.mem_filter] at hn
    simpa [hg] using hn
  have hheld : ∀ g ∈ w.dir.pool, g.cell = b → w.dir.holds g.slot b = true := fun g hg hgb =>
    heldBy_iff.mpr ⟨g, hg, rfl, hgb⟩
  unfold Work.Sound
  rw [cells]
  refine h.shed (by rw [dir]) (by rw [dir]) (by rw [dir]; exact List.filter_sublist) (fun n hn => (marked n).mpr (.inl hn))
    (fun n hn => (release n).mpr (.inl hn)) (fun g hg hn => ?_) fun g hg hn hs hc => ?_
  · obtain ⟨hgb, hdrop⟩ := hgone g hg hn
    exact (marked _).mpr (.inr ⟨hdrop, hheld g hg hgb⟩)
  · obtain ⟨rfl, hdrop⟩ := hgone g hg hn
    exact (release _).mpr (.inr ⟨hdrop, hheld g hg rfl, hs, hc⟩)

/-- Work that changes of the cells no state, and nothing of the directory, the marks and the releases. -/
theorem Work.Sound.of_cells (h : w.Sound c) (states : ∀ k, (look u.cells k).state = (look w.cells k).state)
    (dir : u.dir = w.dir) (marked : u.marked = w.marked) (release : u.release = w.release) : u.Sound c := by
  unfold Work.Sound
  rw [dir, marked, release]
  exact Dir.Working.of_states h states

end

/-! ## One entry (Figure 6.1) -/

section
variable {g : Settings} {r : Reading} {n : SlotNo} {e : Entry} {w u : Work}

theorem confirmEntry_sound (h : w.Sound r.cell) (hn : (look w.dir.slots n).state ≠ .free) :
    (confirmEntry r n e w).Sound r.cell := by
  have hjoin : (confirmEntry r n e w).dir.pool.map Sighting.join = w.dir.pool.map Sighting.join := by
    simp only [confirmEntry, List.map_map]
    refine List.map_congr_left fun x _ => ?_
    simp only [Function.comp_apply]
    split <;> rfl
  have hslot : ∀ m, m ≠ n → look (confirmEntry r n e w).dir.slots m = look w.dir.slots m := fun m hm => look_put_ne _ _ hm
  have hmarks : (fun m => m ∈ (confirmEntry r n e w).marked ∨ (confirmEntry r n e w).dir.heldBy m r.cell)
      = fun m => m ∈ w.marked ∨ w.dir.heldBy m r.cell := funext fun m => by rw [heldBy_of_join_eq hjoin]; rfl
  unfold Work.Sound
  rw [hmarks]
  refine Dir.Working.confirm h (fun m => ?_) hjoin rfl fun m hm => ?_
  · by_cases hmn : m = n
    · subst hmn
      rw [confirmEntry, look_put_self]
      exact slotNamed_roles e _
    · rw [hslot m hmn]
      exact ⟨rfl, rfl, rfl, rfl, rfl, rfl, rfl, rfl⟩
  · exact hslot m fun hmn => hn (hmn ▸ hm)

/-- A new sighting on the visited cell joins; its service is marked. -/
theorem join_sound {d d' : Dir} {y : Slot} (h : d.Working w.cells (fun m => m ∈ w.marked ∨ d.heldBy m r.cell) (· ∈ w.release))
    (cells : u.cells = w.cells) (marked : u.marked = n :: w.marked) (release : u.release = w.release) (dir : u.dir = d')
    (slots : d'.slots = put d.slots n y) (pool : d'.pool = d.pool ++ [r.sighting n e]) (queue : d'.queue = d.queue)
    (count : d.pool.length < 2048) (each : (d.sightings n).length < 8) (fresh : ¬ d.heldBy n r.cell)
    (on : (look w.cells r.cell).state.scored = true ∨ (look w.cells r.cell).state = .unseen)
    (keeps : y.state.keeps = true) (formed : y.Formed) (keys : KeysRight d')
    (advice : y.advice = (look d.slots n).advice)
    (same : (look d.slots n).advice ≠ .none →
      y.key = (look d.slots n).key ∧ y.reported = (look d.slots n).reported ∧ y.chosen = (look d.slots n).chosen)
    (provisional : y.state = .provisional → (look d.slots n).sameRoles y) : u.Sound r.cell := by
  have hqueue : d'.Queued noSlot := by
    have hput := h.queue.put advice (fun hn => by
      obtain ⟨key, reported, chosen⟩ := same hn
      exact ⟨key, reported, fun _ => chosen⟩) d'.pool
    exact ⟨queue ▸ hput.length, queue ▸ hput.nodup, slots ▸ queue ▸ hput.queued, slots ▸ queue ▸ hput.record,
      slots ▸ queue ▸ hput.shows, slots ▸ hput.owed⟩
  unfold Work.Sound
  rw [cells, marked, release, dir]
  refine h.join (g := r.sighting n e) slots pool count each fresh on keeps formed keys hqueue (.inl List.mem_cons_self)
    provisional (fun m hm => ?_) fun _ => id
  rcases hm with hm | hm
  · exact .inl (List.mem_cons_of_mem _ hm)
  · obtain ⟨s, hs, hsm, hsc⟩ := heldBy_iff.mp hm
    exact .inr (heldBy_iff.mpr ⟨s, by rw [pool]; exact List.mem_append_left _ hs, hsm, hsc⟩)

theorem revived_keeps {x : Slot} (hf : x.state ≠ .free) : (revived x).state.keeps = true := by
  unfold revived
  split
  · rfl
  · next hr => cases hs : x.state <;> simp_all [SlotState.keeps]

theorem revived_formed {x : Slot} (h : x.Formed) (hf : x.state ≠ .free) : (revived x).Formed := by
  unfold revived
  split
  · exact ⟨fun hs => (by cases hs), fun _ => h.key hf, by simp⟩
  · exact h

/-- A revived slot keeps what the queue and the keys speak of. -/
theorem revived_kept (x : Slot) :
    (revived x).advice = x.advice ∧ (revived x).key = x.key ∧ (revived x).reported = x.reported
      ∧ (revived x).chosen = x.chosen := by
  unfold revived
  split <;> exact ⟨rfl, rfl, rfl, rfl⟩

theorem revived_of_provisional {x : Slot} (h : (revived x).state = .provisional) : revived x = x := by
  unfold revived at h ⊢
  split at h
  · cases h
  · next hr => exact if_neg hr

theorem createFor_sound (h : w.Sound r.cell) (hn : (look w.dir.slots n).state ≠ .free)
    (hh : w.dir.holds n r.cell = false)
    (on : (look w.cells r.cell).state.scored = true ∨ (look w.cells r.cell).state = .unseen) :
    (createFor g r n e w).Sound r.cell := by
  have hsheds := makeRoom_sheds g r.now n r.cell w
  have hroom : ∀ u, makeRoom g r.now n r.cell w = (u, true) → u.dir.pool.length < 2048 ∧ (u.dir.sightings n).length < 8 :=
    fun u hu => makeRoom_room hu (Dir.Working.pool h).1 ((Dir.Working.pool h).2.1 n)
  unfold createFor
  split
  · next w1 hw =>
    obtain ⟨count, each⟩ := hroom w1 hw
    rw [hw] at hsheds
    have h1 : w1.Sound r.cell := hsheds.sound h
    have hfree : (slotNamed e (look w1.dir.slots n)).state ≠ .free := by rw [hsheds.slots]; exact hn
    have hformed := (Dir.Working.formed h1 n).of_roles (slotNamed_roles e _) hfree
    obtain ⟨advice, key, reported, chosen⟩ := revived_kept (slotNamed e (look w1.dir.slots n))
    refine join_sound (y := revived (slotNamed e (look w1.dir.slots n))) h1 rfl rfl rfl rfl rfl rfl rfl count each
      (fun hheld => ?_) (hsheds.cells ▸ on) (revived_keeps hfree) (revived_formed hformed hfree)
      ((Dir.Working.keys h1).of_slots fun m hm => ?_) advice (fun _ => ⟨key, reported, chosen⟩) fun hp => ?_
    · obtain ⟨s, hs, hsn, hsc⟩ := heldBy_iff.mp hheld
      have : w.dir.holds n r.cell = true := heldBy_iff.mpr ⟨s, hsheds.pool.subset hs, hsn, hsc⟩
      rw [hh] at this
      cases this
    · simp only [joinSighting, look_put] at hm ⊢
      split at hm
      · next hmn =>
        subst hmn
        exact ⟨hfree, by rw [if_pos rfl]; exact key⟩
      · next hmn => exact ⟨hm, by rw [if_neg hmn]⟩
    · rw [revived_of_provisional hp]
      exact slotNamed_roles e _
  · next w1 hw =>
    rw [hw] at hsheds
    exact (hsheds.sound h).of_cells (u := dropSighting w1) (fun _ => rfl) rfl rfl rfl

/-- A key that no slot in use holds may go into any slot. -/
theorem KeysRight.put {d d' : Dir} {k : Key} {y : Slot} (h : KeysRight d) (slots : d'.slots = Machine.put d.slots n y)
    (key : y.key = some k) (fresh : ∀ m, ¬ d.inUse k m) : KeysRight d' := by
  intro a b ha hb hab
  rw [slots, look_put] at ha hb
  rw [slots, look_put, look_put] at hab
  split at ha <;> split at hb
  · next han hbn => rw [han, hbn]
  · next han hbn =>
    rw [if_pos han, if_neg hbn, key] at hab
    exact absurd ⟨hb, hab.symm⟩ (fresh b)
  · next han hbn =>
    rw [if_neg han, if_pos hbn, key] at hab
    exact absurd ⟨ha, hab⟩ (fresh a)
  · next han hbn =>
    rw [if_neg han, if_neg hbn] at hab
    exact h a b ha hb hab

theorem createService_sound (h : w.Sound r.cell) (hn : (look w.dir.slots n).state = .free)
    (hk : ∀ m, ¬ w.dir.inUse (r.key e) m)
    (on : (look w.cells r.cell).state.scored = true ∨ (look w.cells r.cell).state = .unseen) :
    (createService g r n e w).Sound r.cell := by
  have hempty : look w.dir.slots n = Slot.empty := (Dir.Working.formed h n).free hn
  have hpool := Dir.Working.pool h
  have hbare := hpool.bare (n := n) (by rw [hn]; rfl)
  generalize hw0 : ({ w with dir := w.dir.setSlot n (newSlot r e) } : Work) = w0
  have hslots0 : w0.dir.slots = put w.dir.slots n (newSlot r e) := by rw [← hw0]; rfl
  have hsheds := makeRoom_sheds g r.now n r.cell w0
  have hsight : w0.dir.sightings n = w.dir.sightings n := by rw [← hw0]; rfl
  have hcount0 : w0.dir.pool.length ≤ 2048 := by rw [← hw0]; exact hpool.1
  have hput : ∀ y : Slot, put w0.dir.slots n y = put w.dir.slots n y := fun y => by rw [hslots0, put_put]
  have hshed : ∀ u, w0.Sheds u → ({ w.dir with pool := u.dir.pool } : Dir).Working w.cells
      (fun m => m ∈ u.marked ∨ ({ w.dir with pool := u.dir.pool } : Dir).heldBy m r.cell) (· ∈ u.release) := by
    intro u hu
    subst hw0
    have hstay : ∀ s ∈ w.dir.pool, look (put w.dir.slots n (newSlot r e)) s.slot = look w.dir.slots s.slot := fun s hs =>
      look_put_ne _ _ fun hsn => hbare s.cell (heldBy_iff.mpr ⟨s, hs, hsn, rfl⟩)
    refine h.shed rfl rfl hu.pool hu.marked hu.release hu.gone fun s hs hgone hp hc => hu.freed s hs hgone ?_ ?_
    · exact (congrArg Slot.state (hstay s hs)).trans hp
    · exact (congrArg Slot.chosen (hstay s hs)).trans hc
  unfold createService
  rw [hw0]
  split
  · next w1 hw =>
    obtain ⟨count, each⟩ := makeRoom_room hw hcount0 (by rw [hsight]; exact hpool.2.1 n)
    rw [hw] at hsheds
    have hown : look w1.dir.slots n = newSlot r e := by rw [hsheds.slots, hslots0, look_put_self]
    refine join_sound (w := w1) (d := { w.dir with pool := w1.dir.pool })
      (y := { newSlot r e with chosen := some r.cell, reason := some .newService })
      (by rw [hsheds.cells, ← hw0]; exact hshed w1 hsheds) rfl rfl rfl rfl ?_ rfl ?_ count each (fun hheld => ?_) ?_ rfl
      ⟨fun hs => (by cases hs), fun _ => rfl, by simp [newSlot, slotNamed, Slot.empty]⟩ ?_ ?_ (fun ha => ?_)
      fun hs => (by cases hs)
    · show put w1.dir.slots n _ = _
      rw [hown, hsheds.slots, hput]
    · exact hsheds.queue.trans (by rw [← hw0]; rfl)
    · obtain ⟨s, hs, hsn, hsc⟩ := heldBy_iff.mp hheld
      have hs0 : s ∈ w.dir.pool := by
        have := hsheds.pool.subset hs
        rw [← hw0] at this
        exact this
      exact hbare r.cell (heldBy_iff.mpr ⟨s, hs0, hsn, hsc⟩)
    · rw [hsheds.cells, ← hw0]
      exact on
    · refine (Dir.Working.keys h).put (n := n) (k := r.key e)
        (y := { newSlot r e with chosen := some r.cell, reason := some .newService }) ?_ rfl hk
      show put w1.dir.slots n _ = _
      rw [hown, hsheds.slots, hput]
    · exact (congrArg Slot.advice hempty).symm
    · exact absurd (congrArg Slot.advice hempty) ha
  · next w1 hw =>
    rw [hw] at hsheds
    have hslots : (w1.dir.setSlot n Slot.empty).slots = w.dir.slots := by
      rw [Dir.setSlot, hsheds.slots, hput, ← hempty, put_look]
    have hqueue : w1.dir.queue = w0.dir.queue := hsheds.queue
    have hgrace : w1.dir.grace = w0.dir.grace := hsheds.grace
    have hdir : w1.dir.setSlot n Slot.empty = { w.dir with pool := w1.dir.pool } :=
      calc w1.dir.setSlot n Slot.empty
          = { w1.dir with slots := (w1.dir.setSlot n Slot.empty).slots } := rfl
        _ = { w0.dir with slots := w.dir.slots, pool := w1.dir.pool } := by
          simp only [hslots, ← hqueue, ← hgrace]
        _ = { w.dir with pool := w1.dir.pool } := by rw [← hw0]; rfl
    unfold Work.Sound dropSighting
    dsimp only
    rw [hdir, hsheds.cells, ← hw0]
    exact hshed w1 hsheds

/-- Taking entries leaves the states of the cells. -/
theorem keeps_state {c : CellRef} (h : w.keeps c u) (k : CellRef) : (look u.cells k).state = (look w.cells k).state := by
  obtain ⟨others, ⟨rf, ro, own⟩, -⟩ := h
  by_cases hk : k = c
  · rw [hk, own]
  · rw [others k hk]

theorem takeEntry_sound (h : w.Sound r.cell)
    (on : (look w.cells r.cell).state.scored = true ∨ (look w.cells r.cell).state = .unseen) :
    (takeEntry g r w e).Sound r.cell := by
  unfold takeEntry
  split
  · next n hf =>
    obtain ⟨huse, -⟩ := find_inUse hf
    split
    · exact confirmEntry_sound h huse
    · next hh => exact createFor_sound h huse (Bool.eq_false_iff.mpr hh) on
  · next hf =>
    split
    · next n hl => exact createService_sound h (lowestFree_free hl) (find_none_iff.mp hf) on
    · exact h.of_cells (u := dropEntry r w) (fun k => keeps_state (addRefused_keeps r.cell 1 w) k) rfl rfl rfl

end

/-! ## A roster (R84 to R87) -/

section
variable {g : Settings} {r : Reading} {w : Work}

theorem storeRoster_sound {c : CellRef} (h : w.Sound c) : (storeRoster r w).Sound c := by
  refine h.of_cells (u := storeRoster r w) (fun k => ?_) rfl rfl rfl
  simp only [storeRoster, look_put]
  split
  · next hk => rw [hk]
  · rfl

/-- Work that may go on to take entries on its cell. -/
def Work.Receives (c : CellRef) (w : Work) : Prop :=
  w.Sound c ∧ ((look w.cells c).state.scored = true ∨ (look w.cells c).state = .unseen)

theorem Work.Receives.of_keeps {c : CellRef} {u : Work} (h : w.Receives c) (hs : u.Sound c) (hk : w.keeps c u) :
    u.Receives c := ⟨hs, by rw [keeps_state hk]; exact h.2⟩

theorem takeEntries_receives {es : List Entry} (h : w.Receives r.cell) : (es.foldl (takeEntry g r) w).Receives r.cell :=
  takeEntries_induct (Work.Receives r.cell)
    (fun v e hv => hv.of_keeps (takeEntry_sound hv.1 hv.2) (takeEntry_keeps g r v e)) h es

theorem processEntries_sound {complete : Bool} {es : List Entry} (h : w.Receives r.cell) :
    (processEntries g r complete es w).Sound r.cell := by
  have begun := addRefused_keeps r.cell (admitEntries g.admission r.net [] es).2 w
  have counted := h.of_keeps (h.1.of_cells (keeps_state begun) rfl rfl rfl) begun
  unfold processEntries
  dsimp only
  refine storeRoster_sound (takeEntries_receives ?_).1
  split
  · exact counted.of_keeps (removeOnCell_sound _ _ counted.1) (removeOnCell_keeps _ _ _ _)
  · exact counted

theorem processUnchanged_sound {c : CellRef} {now : Time} (h : w.Sound c) : (processUnchanged c now w).Sound c := by
  have hjoin : (processUnchanged c now w).dir.pool.map Sighting.join = w.dir.pool.map Sighting.join := by
    simp only [processUnchanged, List.map_map]
    refine List.map_congr_left fun x _ => ?_
    simp only [Function.comp_apply]
    split <;> rfl
  have hmarks : (fun m => m ∈ (processUnchanged c now w).marked ∨ (processUnchanged c now w).dir.heldBy m c)
      = fun m => m ∈ w.marked ∨ w.dir.heldBy m c := funext fun m => by rw [heldBy_of_join_eq hjoin]; rfl
  unfold Work.Sound
  rw [hmarks]
  exact Dir.Working.confirm h (fun m => ⟨rfl, rfl, rfl, rfl, rfl, rfl, rfl, rfl⟩) hjoin rfl fun _ _ => rfl

/-- Processing a roster leaves the laws of the directory waiting only for the services marked, and those with a sighting on
the visited cell. -/
theorem processRoster_sound {c : CellRef} {now : Time} {rr : RosterResult} (h : w.Sound c)
    (on : rr ≠ .none → (look w.cells c).state.scored = true ∨ (look w.cells c).state = .unseen) :
    (processRoster g now c rr w).Sound c := by
  cases rr with
  | none => exact h
  | complete i es => exact processEntries_sound (r := readingOf c now i) ⟨h, on nofun⟩
  | part i es => exact processEntries_sound (r := readingOf c now i) ⟨h, on nofun⟩
  | unchanged => exact processUnchanged_sound h

end

end Sys2Proof.Machine
end


section
/-! SUPPORT. The end of a visit keeps the laws of the directory (R33, R64, R68). -/

namespace Sys2Proof.Machine

/-- The laws of the directory read of the cells only their states. -/
theorem DirectoryRight.of_states {cells cells' : Vector Cell 576} {d : Dir} (h : DirectoryRight cells d)
    (states : ∀ k, (look cells' k).state = (look cells k).state) : DirectoryRight cells' d :=
  directoryRight_iff.mpr ((directoryRight_iff.mp h).of_states states)

section
variable {p : Plant} {c : CellRef} {new : Cell}

/-- The visited cell's new state, while it leaves the sightings there, is one that its services' evaluations wait for. -/
theorem start_sound (h : DirectoryRight p.cells p.dir) (on : new.state.scored = true ∨ new.state = .unseen) :
    (Work.start (p.setCell c new)).Sound c := by
  have hd := directoryRight_iff.mp h
  obtain ⟨-, -, -, hon⟩ := hd.pool
  refine hd.shed rfl rfl (List.Sublist.refl _) (fun g hg => ?_) (fun g hg hx => ?_) (fun g hg hn => absurd hg hn)
    (fun g hg hn => absurd hg hn) (fun _ => False.elim) fun _ => False.elim
  · simp only [Work.start, Plant.setCell, look_put]
    split
    · exact on
    · exact (hon g hg).2
  · have hgc : g.cell ≠ c := fun hgc => hx (.inr (heldBy_iff.mpr ⟨g, hg, rfl, hgc⟩))
    simp only [Work.start, Plant.setCell, rankableIn, look_put_ne _ _ hgc]

/-- The sightings on a cell that has become EMPTY are removed before anything reads them (R64). -/
theorem emptied_sound (h : DirectoryRight p.cells p.dir) :
    (removeOnCell c (fun _ => true) (Work.start (p.setCell c new))).Sound c := by
  have hd := directoryRight_iff.mp h
  obtain ⟨-, -, -, hon⟩ := hd.pool
  obtain ⟨cells, -, dir, marked, -, release⟩ := removeOnCell_spec c (fun _ => true) (Work.start (p.setCell c new))
  generalize removeOnCell c (fun _ => true) (Work.start (p.setCell c new)) = u at cells dir marked release
  have hmem : ∀ g, g ∈ u.dir.pool ↔ g ∈ p.dir.pool ∧ g.cell ≠ c := fun g => by rw [dir]; simp [Work.start, Plant.setCell]
  have hheld : ∀ g ∈ p.dir.pool, g.cell = c → (Work.start (p.setCell c new)).dir.holds g.slot c = true := fun g hg hgc =>
    heldBy_iff.mpr ⟨g, hg, rfl, hgc⟩
  have hsame : ∀ k, k ≠ c → look u.cells k = look p.cells k := fun k hk => by rw [cells]; exact look_put_ne _ _ hk
  have hgone : ∀ g ∈ p.dir.pool, g ∉ u.dir.pool → g.cell = c := fun g hg hn => by
    by_contra hgc
    exact hn ((hmem g).mpr ⟨hg, hgc⟩)
  refine hd.shed (by rw [dir]; rfl) (by rw [dir]; rfl) (by rw [dir]; exact List.filter_sublist) (fun g hg => ?_)
    (fun g hg _ => ?_) (fun g hg hn => ?_) (fun g hg hn hs hc => ?_) (fun _ => False.elim) fun _ => False.elim
  · obtain ⟨hg, hgc⟩ := (hmem g).mp hg
    rw [hsame _ hgc]
    exact (hon g hg).2
  · obtain ⟨-, hgc⟩ := (hmem g).mp hg
    rw [rankableIn, hsame _ hgc]
    rfl
  · exact .inl ((marked _).mpr (.inr ⟨rfl, hheld g hg (hgone g hg hn)⟩))
  · obtain rfl := hgone g hg hn
    exact (release _).mpr (.inr ⟨rfl, hheld g hg rfl, hs, hc⟩)

end

/-- The evaluations after a scored or no-lock visit end take in every service with a sighting on the cell (R68). -/
theorem markVisited_finish {g : Settings} {now : Time} {c : CellRef} {moved : Bool} {w : Work} (hconf : g.policy.confirm ≤ 8)
    (h : w.Sound c) : DirectoryRight w.cells ((markVisited c moved w).finish g now).dir := by
  refine Dir.Working.finish (v := (markVisited c moved w).view g now) (b := { dir := w.dir, raised := w.raised }) hconf
    (h.mono (fun n hn => ?_) fun n hn => List.mem_append_right _ hn)
  rcases hn with hn | hn
  · exact List.mem_append_right _ hn
  · exact List.mem_append_left _ (mem_holdersOf.mpr hn)

/-- A scored visit leaves its cell scored, a no-lock one scored or EMPTY (R63 to R65). -/
theorem cellEnd_state {g : Settings} {t : Treatment} {r : Record} {x : Cell} (ht : t ≠ .unscored) :
    (cellEnd g t r x).1.state.scored = true ∨ t = .noLock ∧ (cellEnd g t r x).1.state = .empty := by
  cases t with
  | unscored => exact absurd rfl ht
  | scored =>
    refine .inl ?_
    show (scoredState r.outcome).scored = true
    unfold scoredState
    split <;> rfl
  | noLock =>
    cases hq : x.q with
    | none => exact .inr ⟨rfl, by simp only [cellEnd, afterNoLock, hq]⟩
    | some q =>
      refine .inl ?_
      simp only [cellEnd, afterNoLock, hq]
      split <;> rfl

/-- The directory's work of a visit end, whatever the outcome leaves of the cell. -/
theorem visitWork_sound {g : Settings} {now : Time} {c : CellRef} {t : Treatment} {rr : RosterResult} {new : Cell} {p : Plant}
    (h : DirectoryRight p.cells p.dir) (hr : rr ≠ .none → t = .scored)
    (hs : new.state.scored = true ∨ t = .noLock ∧ new.state = .empty) : (visitWork g now c t rr new p).Sound c := by
  unfold visitWork
  rcases hs with hs | ⟨ht, he⟩
  · rw [if_neg (fun hn => by rw [hn.2] at hs; cases hs)]
    refine processRoster_sound (start_sound h (.inl hs)) fun _ => .inl ?_
    simpa [Work.start, Plant.setCell] using hs
  · rw [if_pos ⟨ht, he⟩]
    exact processRoster_sound (emptied_sound h) fun hn => absurd (hr hn) (by rw [ht]; decide)

/-- The end of a visit keeps the laws of the directory, where only a scored one hands on a roster. -/
theorem visitEnd_right {g : Settings} {now : Time} {l : Lane} {e : Ending} {p : Plant} (hconf : g.policy.confirm ≤ 8)
    (h : DirectoryRight p.cells p.dir)
    (he : e.roster ≠ .none → treatment e.outcome ((look p.lanes l).state == .reading) = .scored) :
    DirectoryRight (visitEnd g now l e p).cells (visitEnd g now l e p).dir := by
  cases hc : (look p.lanes l).cell with
  | none => rw [visitEnd_none hc]; exact h
  | some c =>
    by_cases ht : treatment e.outcome ((look p.lanes l).state == .reading) = .unscored
    · rw [visitEnd_unscored_dir ht (by by_contra hn; rw [he hn] at ht; cases ht)]
      obtain ⟨others, -, -, -, ⟨rf, ro, own, -⟩, -⟩ := visitEnd_spec (g := g) (now := now) (e := e) hc
      refine h.of_states fun k => ?_
      by_cases hk : k = c
      · rw [hk, own, ht]
        rfl
      · rw [others k hk]
    · obtain ⟨due, engaged, -, cells, dir, -⟩ := visitEnd_books (g := g) (now := now) (e := e) hc ht
      rw [cells, dir]
      refine (markVisited_finish hconf (visitWork_sound h he (cellEnd_state ht))).of_states fun k => ?_
      rw [look_put]
      split
      · next hk => rw [hk]
      · rfl

end Sys2Proof.Machine
end


section
/-! SUPPORT. Set Feed and Write Raster Page keep the laws of the directory (R4, R5, R15, R16). -/

namespace Sys2Proof.Machine

/-- A run over many cells removes the sightings on those that it bares; where it leaves the state of the others, but of BARRED
ones, the laws of the directory hold after its evaluations. -/
theorem Swept.directoryRight {g : Settings} {now : Time} {p : Plant} {ended dropped bared : CellRef → Bool}
    {cell : CellRef → Cell} {given : List SpotResult} {r : Reshape} (h : Swept now p ended dropped bared cell given r)
    (hconf : g.policy.confirm ≤ 8) (hd : DirectoryRight p.cells p.dir)
    (same : ∀ c, bared c = false → (look p.cells c).state ≠ .barred → (cell c).state = (look p.cells c).state) :
    DirectoryRight (r.finish g now).cells (r.finish g now).dir := by
  have hw := directoryRight_iff.mp hd
  obtain ⟨-, -, -, hon⟩ := hw.pool
  have hmem : ∀ s, s ∈ r.plant.dir.pool ↔ s ∈ p.dir.pool ∧ bared s.cell = false := fun s => by rw [h.dir]; simp
  have hstate : ∀ s ∈ r.plant.dir.pool, (look r.plant.cells s.cell).state = (look p.cells s.cell).state := fun s hs => by
    obtain ⟨hs, hb⟩ := (hmem s).mp hs
    rw [h.cells]
    exact same _ hb fun hbarred => by
      have hscored := (hon s hs).2
      rw [hbarred] at hscored
      rcases hscored with hk | hk <;> cases hk
  have hgone : ∀ s ∈ p.dir.pool, s ∉ r.plant.dir.pool → bared s.cell = true ∧ p.dir.holds s.slot s.cell = true := fun s hs hn => by
    rw [hmem, not_and, Bool.not_eq_false] at hn
    exact ⟨hn hs, heldBy_iff.mpr ⟨s, hs, rfl, rfl⟩⟩
  rw [finish_cells, finish_dir]
  refine Dir.Working.finish (b := { dir := r.plant.dir, raised := 0 }) hconf (hw.shed (by rw [h.dir]) (by rw [h.dir])
    (by rw [h.dir]; exact List.filter_sublist) (fun s hs => ?_) (fun s hs _ => ?_) (fun s hs hn => ?_)
    (fun s hs hn hp hc => ?_) (fun _ => False.elim) fun _ => False.elim)
  · rw [hstate s hs]
    exact (hon s ((hmem s).mp hs).1).2
  · rw [rankableIn, hstate s hs]
    rfl
  · obtain ⟨hb, hh⟩ := hgone s hs hn
    exact (h.marked _).mpr ⟨s.cell, hb, hh⟩
  · obtain ⟨hb, hh⟩ := hgone s hs hn
    exact (h.release _).mpr ⟨s.cell, hb, hh, hp, hc⟩

theorem among_of_mem {done : List CellRef} {hit : CellRef → Bool} {c : CellRef} (hc : c ∈ done) : among done hit c = hit c := by
  simp [among, hc]

theorem SweptBy.directoryRight {g : Settings} {now : Time} {p : Plant} {hit drop : CellRef → Bool} {new : CellRef → Cell}
    {done : List CellRef} {r : Reshape} (h : SweptBy now p hit drop new done r) (hconf : g.policy.confirm ≤ 8)
    (hd : DirectoryRight p.cells p.dir)
    (same : ∀ c, hit c = false → (look p.cells c).state ≠ .barred → (new c).state = (look p.cells c).state) :
    DirectoryRight (r.finish g now).cells (r.finish g now).dir :=
  Swept.directoryRight h hconf hd fun c hm hb => by
    unfold cellsOver
    split
    · next hc => exact same c ((among_of_mem hc).symm.trans hm) hb
    · rfl

theorem changeFeed_right {g : Settings} {now : Time} {before after : FeedRec} {f : Feed} {p : Plant}
    (he : EngagementRight p) (hl : ∀ l, LaneRight (look p.lanes l)) (hconf : g.policy.confirm ≤ 8)
    (hd : DirectoryRight p.cells p.dir) :
    DirectoryRight (changeFeed g now before after f p).cells (changeFeed g now before after f p).dir := by
  obtain ⟨r, hr, hswept⟩ := changeFeed_swept g now before after f he hl
  rw [hr]
  refine hswept.directoryRight hconf hd fun c hm hb => ?_
  unfold rejudged
  dsimp only
  rw [if_neg (by rw [hm]; exact Bool.false_ne_true), if_neg fun hs => hb hs.1]

theorem writePage_right {g : Settings} {now : Time} {page : List (CellRef × CellDef)} {p : Plant}
    (hn : (page.map Prod.fst).Nodup) (he : EngagementRight p) (hl : ∀ l, LaneRight (look p.lanes l))
    (hconf : g.policy.confirm ≤ 8) (hd : DirectoryRight p.cells p.dir) :
    DirectoryRight (writePage g now page p).cells (writePage g now page p).dir := by
  obtain ⟨r, hr, hswept⟩ := writePage_swept g now hn he hl
  rw [hr]
  refine hswept.directoryRight hconf hd fun c hm _ => ?_
  rw [rewritten, if_neg (by rw [hm]; exact Bool.false_ne_true)]

end Sys2Proof.Machine
end


section
/-! SUPPORT. The events of the lanes and of the arbiter keep the laws of the directory, whatever they do to lanes and survey. -/

namespace Sys2Proof.Machine

/-- The laws of the directory on the survey's part of the machine. -/
def Plant.Directed (p : Plant) : Prop := DirectoryRight p.cells p.dir

/-- A change of the survey's part of the machine that touches neither the directory nor any cell's state. -/
structure Plant.Quiet (p q : Plant) : Prop where
  dir : q.dir = p.dir
  states : ∀ k, (look q.cells k).state = (look p.cells k).state

theorem Plant.Quiet.directed {p q : Plant} (h : p.Quiet q) (hp : p.Directed) : q.Directed := by
  unfold Plant.Directed
  rw [h.dir]
  exact DirectoryRight.of_states hp h.states

/-- The directory and the cells are the same. -/
theorem Plant.Quiet.of_eq {p q : Plant} (dir : q.dir = p.dir) (cells : q.cells = p.cells) : p.Quiet q :=
  ⟨dir, fun k => by rw [cells]⟩

theorem Plant.Quiet.trans {p q r : Plant} (h : p.Quiet q) (h' : q.Quiet r) : p.Quiet r :=
  ⟨h'.dir.trans h.dir, fun k => (h'.states k).trans (h.states k)⟩

/-- One cell's record replaced by one in the same state. -/
theorem quiet_setCell {p : Plant} {c : CellRef} {x : Cell} (h : x.state = (look p.cells c).state) : p.Quiet (p.setCell c x) := by
  refine ⟨rfl, fun k => ?_⟩
  simp only [Plant.setCell, look_put]
  split
  · next hk => rw [hk, h]
  · rfl

theorem quiet_holdEnd (g : Settings) (now : Time) (l : Lane) (next : LaneState) (setDue : Bool) (p : Plant) :
    p.Quiet (holdEnd g now l next setDue p) := by
  unfold holdEnd
  dsimp only
  split
  · exact .of_eq rfl rfl
  · exact Plant.Quiet.trans (q := p.setLane l ((look p.lanes l).leave next)) (.of_eq rfl rfl) (quiet_setCell (by rfl))

theorem quiet_startVisit (g : Settings) (now : Time) (l : Lane) (c : CellRef) (k : VisitClass) (t : Option SpotTerms)
    (p : Plant) : p.Quiet (startVisit g now l c k t p) :=
  Plant.Quiet.trans (q := p.setLane l ((look p.lanes l).granted g now c k t)) (.of_eq rfl rfl) (quiet_setCell (by rfl))

theorem quiet_dropSpots (now : Time) (gone : SpotEntry → Bool) (p : Plant) : p.Quiet (dropSpots now gone p) := .of_eq rfl rfl

/-! ## Ends of visits -/

/-- Only an end that scores the visit hands on a roster (R76 to R79). -/
def Ending.Scores (e : Ending) (reading : Bool) : Prop := e.roster ≠ .none → treatment e.outcome reading = .scored

section
variable {g : Settings} {now : Time} {l : Lane} {p : Plant} (hconf : g.policy.confirm ≤ 8) (hp : p.Directed)
include hconf hp

theorem visitEnd_directed {e : Ending} (he : e.Scores ((look p.lanes l).state == .reading)) :
    (visitEnd g now l e p).Directed := visitEnd_right hconf hp he

theorem plainEnd_directed {e : Ending} (he : e.roster = .none) : (visitEnd g now l e p).Directed :=
  visitEnd_directed hconf hp fun hn => absurd he hn

theorem lockTimeout_directed : (lockTimeout l g now p).Directed := by
  unfold lockTimeout
  dsimp only
  split
  · exact plainEnd_directed hconf hp rfl
  · exact hp

theorem lockLost_directed : (lockLost l g now p).Directed := by
  unfold lockLost
  dsimp only
  split
  · exact plainEnd_directed hconf hp rfl
  · exact plainEnd_directed hconf hp rfl
  · exact visitEnd_directed hconf hp fun _ => rfl
  · exact Plant.Quiet.directed (.of_eq rfl rfl) hp
  all_goals exact hp

theorem sectionArrives_directed (sec : Section) : (sectionArrives l sec g now p).Directed := by
  unfold sectionArrives
  dsimp only
  split
  · exact hp
  · split
    · unfold sectionTaken
      split
      · exact Plant.Quiet.directed (.of_eq rfl rfl) hp
      · exact visitEnd_directed hconf hp fun _ => rfl
      · exact visitEnd_directed hconf hp fun _ => rfl
      · exact plainEnd_directed hconf hp rfl
    · exact hp

theorem gapTimeout_directed : (gapTimeout l g now p).Directed := by
  unfold gapTimeout
  dsimp only
  split
  · exact visitEnd_directed hconf hp fun _ => rfl
  · exact hp

theorem dwellTimeout_directed : (dwellTimeout l g now p).Directed := by
  unfold dwellTimeout
  dsimp only
  split
  · refine visitEnd_directed hconf hp fun hn => ?_
    unfold cutEnd at hn ⊢
    split at hn
    · next hr => rw [if_pos hr, hr]; rfl
    · exact absurd rfl hn
  · exact hp

theorem faultArrives_directed (cause : LaneFaultCause) : (faultArrives l cause g now p).Directed := by
  have hends : (faultEnds l g now p).Directed := by
    unfold faultEnds
    dsimp only
    split
    · split
      · exact plainEnd_directed hconf hp rfl
      · exact Plant.Quiet.directed (.of_eq rfl rfl) hp
    · split
      · exact (quiet_holdEnd _ _ _ _ _ _).directed hp
      · exact Plant.Quiet.directed (.of_eq rfl rfl) hp
  unfold faultArrives
  dsimp only
  split
  · exact hp
  · exact Plant.Quiet.directed (.of_eq rfl rfl) hends

theorem parkLane_directed : (parkLane g now l p).Directed := by
  unfold parkLane abandon
  dsimp only
  split
  · split
    · exact plainEnd_directed hconf hp rfl
    · exact Plant.Quiet.directed (.of_eq rfl rfl) hp
  · split
    · exact (quiet_holdEnd _ _ _ _ _ _).directed hp
    · exact Plant.Quiet.directed (.of_eq rfl rfl) hp

/-! ## Cells re-judged and rewritten -/

theorem changeFeed_directed {before after : FeedRec} {f : Feed} (he : EngagementRight p)
    (hl : ∀ l, LaneRight (look p.lanes l)) : (changeFeed g now before after f p).Directed := changeFeed_right he hl hconf hp

theorem writePage_directed {page : List (CellRef × CellDef)} (hn : (page.map Prod.fst).Nodup) (he : EngagementRight p)
    (hl : ∀ l, LaneRight (look p.lanes l)) : (writePage g now page p).Directed := writePage_right hn he hl hconf hp

/-! ## Grants, holds, the other reports -/

theorem completePass_directed : (completePass g now p).Directed :=
  endGrace_right (v := { cells := p.cells, feeds := g.feeds, policy := g.policy, now := now })
    (b := { dir := p.dir, raised := Condition.sweepDone.bit }) hconf hp

theorem grantSweep_directed (k : Nat) : (grantSweep g now l k p).Directed := by
  have hstart := (quiet_startVisit g now l (ahead p.survey.cursor k) .sweep none
    { p with survey := stepGrant l { p.survey with share := 0, cursor := ahead p.survey.cursor (k + 1) } }).directed hp
  unfold grantSweep
  dsimp only
  split
  · exact completePass_directed hconf hstart
  · exact hstart

theorem grantOne_directed : (grantOne g now p).Directed := by
  have watch : ∀ l c, (grantWatch g now l c p).Directed := fun l c =>
    (quiet_startVisit g now l c .watch none
      { p with survey := stepGrant l { p.survey with share := satAdd 15 p.survey.share 1 } }).directed hp
  unfold grantOne
  split
  · exact hp
  · next l _ =>
    split
    · next e _ =>
      exact (quiet_startVisit g now l e.cell .spot (some { trim := e.trim, hold := e.hold, ticket := e.ticket })
        { p with survey := { p.survey with spots := p.survey.spots.erase e } }).directed hp
    · split
      · unfold grantSurvey
        split
        · split
          · exact grantSweep_directed hconf hp _
          · exact watch l _
        · exact watch l _
        · exact grantSweep_directed hconf hp _
        · exact hp
      · exact hp

end

section
variable (g : Settings) (now : Time) (l : Lane) (p : Plant)

theorem quiet_holdTimeout : p.Quiet (holdTimeout l g now p) := by
  unfold holdTimeout
  split
  · exact (quiet_holdEnd g now l .idle true p).trans (.of_eq rfl rfl)
  · exact .of_eq rfl rfl

theorem quiet_lockArrives : p.Quiet (lockArrives l p) := by
  unfold lockArrives
  dsimp only
  split <;> exact .of_eq rfl rfl

theorem quiet_probeExpires (errors : Nat) : p.Quiet (probeExpires l errors p) := by
  unfold probeExpires
  dsimp only
  split
  · split <;> exact .of_eq rfl rfl
  · exact .of_eq rfl rfl

theorem quiet_readingArrives (mer level : Int) (load : Fin 1001) (blocks : Nat) :
    p.Quiet (readingArrives l mer level load blocks p) := by
  unfold readingArrives
  dsimp only
  split <;> exact .of_eq rfl rfl

theorem quiet_afterWatchPolicy (w : WatchPolicy) : p.Quiet (afterWatchPolicy w now p) := by
  unfold afterWatchPolicy
  split
  · exact quiet_dropSpots _ _ _
  · exact .of_eq rfl rfl

end

end Sys2Proof.Machine
end


section
/-! SUPPORT. Snapshots and restarts: the image of a directory that keeps the laws is one from which start-up recalls such a
directory (R108, R176, R184). -/

namespace Sys2Proof.Machine

/-! ## An empty directory -/

/-- A directory whose slots are all FREE, without sightings and records, keeps the laws. -/
theorem directoryRight_empty {cells : Vector Cell 576} {d : Dir} (slots : ∀ n, look d.slots n = Slot.empty)
    (pool : d.pool = []) (queue : d.queue = []) : DirectoryRight cells d := by
  refine directoryRight_iff.mpr ⟨?_, fun n => by rw [slots]; exact formed_empty, fun n m hn => ?_, ?_, fun n _ => by
    rw [slots]; exact settled_empty _ _⟩
  · simp [PoolRight, Dir.sightings, pool]
  · rw [slots] at hn
    exact absurd rfl hn
  · refine ⟨by simp [queue], by simp [queue], fun n => ?_, by simp [queue], by simp [queue], fun n _ => ?_⟩ <;>
      simp [slots, queue, Slot.empty]

theorem plantAtRestart_directed : Plant.atRestart.Directed :=
  directoryRight_empty (fun n => look_replicate _ n) rfl rfl

theorem clearSurvey_directed (now : Time) (p : Plant) : (clearSurvey now p).Directed :=
  directoryRight_empty (fun n => look_replicate _ n) rfl rfl

/-! ## The image of a directory (R176) -/

/-- A cell that is neither VACANT nor BARRED is rebuilt as UNSEEN from its own definition (R16, R184). -/
theorem rebuiltCell_unseen {r : FeedRec} {x : Cell} (h : CellRight r x) (ho : x.state.open = true) :
    (rebuiltCell r x.defn).state = .unseen := by
  have hadm := h.admitted ho
  have hfreq : x.defn.freq ≠ 0 := fun hf => by
    rw [h.vacant.mpr hf] at ho
    cases ho
  show r.judge x.defn = .unseen
  rw [FeedRec.judge, if_neg hfreq, if_pos hadm]

theorem open_of_sighted {k : CellState} (h : k.scored = true ∨ k = .unseen) : k.open = true := by
  cases k <;> simp_all [CellState.scored, CellState.rankable, CellState.open]

/-- The saved entry of a sighting, when `ns` are the slots in use, in order (R176 part 4). -/
def savedAt (ns : List SlotNo) (g : Sighting) : SavedSighting :=
  { service := ns.idxOf g.slot, cell := g.cell, stream := g.stream }

section
variable {ns : List SlotNo} {pool : List Sighting} (hsaved : ∀ g ∈ pool, g.slot ∈ ns)
include hsaved

/-- The service that a saved sighting names is its slot's. -/
theorem savedAt_slot {g k : Sighting} (hk : k ∈ pool) (h : ns.idxOf g.slot = ns.idxOf k.slot) : g.slot = k.slot :=
  ((List.idxOf_inj (hsaved k hk)).mp h.symm).symm

theorem savedAt_nodup (nodup : (pool.map Sighting.join).Nodup) :
    ((pool.map (savedAt ns)).map fun x => (x.service, x.cell)).Nodup := by
  rw [List.map_map]
  refine (List.Nodup.of_map _ nodup).map_on fun g hg k hk he => ?_
  obtain ⟨hslot, hcell⟩ := Prod.mk.inj he
  exact List.inj_on_of_nodup_map nodup hg hk (Prod.ext (savedAt_slot hsaved hk hslot) hcell)

theorem savedAt_each (each : ∀ n, (pool.filter (fun g => g.slot == n)).length ≤ 8) (k : Nat) :
    ((pool.map (savedAt ns)).filter fun x => x.service == k).length ≤ 8 := by
  rw [List.filter_map, List.length_map, ← List.countP_eq_length_filter]
  by_cases hk : ∃ g ∈ pool, ns.idxOf g.slot = k
  · obtain ⟨g, hg, rfl⟩ := hk
    refine (List.countP_mono_left fun m _ hm => ?_).trans (List.countP_eq_length_filter.trans_le (each g.slot))
    exact beq_iff_eq.mpr (savedAt_slot hsaved hg (beq_iff_eq.mp hm))
  · have hnone : pool.countP ((fun x => x.service == k) ∘ savedAt ns) = 0 :=
      List.countP_eq_zero.mpr fun g hg hgk => hk ⟨g, hg, beq_iff_eq.mp hgk⟩
    rw [hnone]
    exact Nat.zero_le _

end

/-- An image that holds the services and the sightings of a directory that keeps the laws, and in whose raster the cells with
sightings are UNSEEN. -/
theorem imageRight_of {im : Image} {cells : Vector Cell 576} {d : Dir} {ns : List SlotNo} (hd : DirectoryRight cells d)
    (mem : ∀ n, n ∈ ns ↔ (look d.slots n).state ≠ .free) (nodup : ns.Nodup) (length : ns.length ≤ 512)
    (services : im.services = ns.map (fun n => savedService (look d.slots n)))
    (sightings : im.sightings = d.pool.map (savedAt ns))
    (unseen : ∀ c, (look cells c).state.open = true →
      (rebuiltCell (look im.settings.feeds (feedOf c)) (look im.raster c)).state = .unseen) : ImageRight im := by
  obtain ⟨⟨count, each, joins, on⟩, formed, keys, -, settled⟩ := directoryRight_iff.mp hd
  have hsaved : ∀ g ∈ d.pool, g.slot ∈ ns := fun g hg => (mem _).mpr fun hf => by
    have hkeeps := (on g hg).1
    rw [hf] at hkeeps
    cases hkeeps
  have hlen : im.services.length = ns.length := by rw [services, List.length_map]
  refine ⟨hlen.trans_le length, fun v hv => ?_, ?_, ?_, ?_, fun k => ?_, fun x hx => ?_, fun k v hv c hc => ?_⟩
  · rw [services] at hv
    obtain ⟨n, hn, rfl⟩ := List.mem_map.mp hv
    exact (formed n).key ((mem n).mp hn)
  · rw [services, List.map_map]
    exact nodup.map_on fun n hn m hm he => keys n m ((mem n).mp hn) ((mem m).mp hm) he
  · rw [sightings, List.length_map]
    exact count
  · rw [sightings]
    exact savedAt_nodup hsaved joins
  · rw [sightings]
    exact savedAt_each hsaved each k
  · rw [sightings] at hx
    obtain ⟨g, hg, rfl⟩ := List.mem_map.mp hx
    exact ⟨hlen ▸ List.idxOf_lt_length_iff.mpr (hsaved g hg), unseen g.cell (open_of_sighted (on g hg).2)⟩
  · rw [services, List.getElem?_map] at hv
    obtain ⟨n, hn, rfl⟩ := Option.map_eq_some_iff.mp hv
    obtain ⟨g, hg, rfl, rfl⟩ := heldBy_iff.mp ((settled n (not_awaits_noSlot _ n)).pin c hc)
    obtain ⟨hk, hget⟩ := List.getElem?_eq_some_iff.mp hn
    refine ⟨savedAt ns g, by rw [sightings]; exact List.mem_map_of_mem hg, ?_, rfl⟩
    show ns.idxOf g.slot = k
    rw [← hget]
    exact nodup.idxOf_getElem k hk

theorem imageOf_sightings (s : State) : (imageOf s).sightings = s.plant.dir.pool.map (savedAt (savedSlots s.plant.dir)) := rfl

/-- The image of a state that keeps the laws (R176). -/
theorem imageOf_right {s : State} (hs : SurveyRight s.settings s.plant) (hd : s.plant.Directed) : ImageRight (imageOf s) :=
  imageRight_of hd (fun _ => mem_savedSlots) ((List.nodup_finRange 512).filter _)
    ((List.length_filter_le _ _).trans (by simp)) (imageOf_services s) (imageOf_sightings s) fun c ho => by
      show (rebuiltCell (look s.settings.feeds (feedOf c)) (look (table fun c => (look s.plant.cells c).defn) c)).state = _
      rw [look_table]
      exact rebuiltCell_unseen (hs.cells c) ho

/-! ## The directory that start-up recalls (R108, R184) -/

section
variable {im : Image} {now : Time}

/-- A saved sighting as the slot and cell that its recalled sighting joins. -/
def SavedSighting.join (x : SavedSighting) : Nat × CellRef := (x.service, x.cell)

/-- The slot as a number, and the cell, that a sighting joins. -/
def Sighting.place (g : Sighting) : Nat × CellRef := (g.slot.val, g.cell)

theorem recalled_places {xs : List SavedSighting} (h : ∀ x ∈ xs, x.service < 512) :
    (xs.filterMap (recalledSighting now)).map Sighting.place = xs.map SavedSighting.join := by
  induction xs with
  | nil => rfl
  | cons x xs ih =>
    have hx := h x List.mem_cons_self
    have hsome : recalledSighting now x = some _ := dif_pos hx
    rw [List.filterMap_cons_some hsome, List.map_cons, List.map_cons, ih fun y hy => h y (List.mem_cons_of_mem _ hy)]
    rfl

theorem recalled_heldBy {n : SlotNo} {c : CellRef} :
    (recallDir now im).heldBy n c ↔ im.sightings.any (fun x => x.service == n.val && x.cell == c) = true := by
  rw [heldBy_iff]
  simp only [mem_recalled, List.any_eq_true, Bool.and_eq_true, beq_iff_eq]
  constructor
  · rintro ⟨g, ⟨x, hx, hservice, hg⟩, rfl, rfl⟩
    exact ⟨x, hx, hservice, by rw [hg]⟩
  · rintro ⟨x, hx, hservice, rfl⟩
    exact ⟨{ slot := n, cell := x.cell, stream := x.stream, scrambled := false, version := none, created := now
             confirmed := now }, ⟨x, hx, hservice, rfl⟩, rfl, rfl⟩

theorem recalledChosen_on {sv : SavedService} {on : CellRef → Bool} {c : CellRef} (h : recalledChosen sv on = some c) :
    on c = true := by
  unfold recalledChosen at h
  split at h
  · next k hk =>
    obtain rfl := Option.some.inj h
    exact (Option.filter_eq_some_iff.mp hk).2
  · exact (Option.filter_eq_some_iff.mp h).2

theorem recalledSlot_formed {sv : SavedService} {on : CellRef → Bool} (hk : sv.key.isSome = true) :
    (recalledSlot now sv on).Formed :=
  ⟨fun h => (by cases h), fun _ => hk, ⟨fun h => (by cases h), fun h => (by cases h)⟩⟩

/-- A recalled service keeps the laws: its pin, and its chosen source, are its own sightings (R184). -/
theorem recalledSlot_settled {held rankable : CellRef → Prop} {sv : SavedService} {on : CellRef → Bool}
    (hon : ∀ c, on c = true → held c) (hpin : ∀ c ∈ sv.pin, on c = true) :
    (recalledSlot now sv on).Settled held rankable where
  chosen := fun c hc => hon c (recalledChosen_on hc)
  pin := fun c hc => hon c (hpin c hc)
  challenger := fun t ht => by cases ht
  live := fun h => by cases h
  orphan := fun h => by cases h
  standing := fun h => by rcases h with h | h <;> cases h
  told := fun h => by rcases h with h | h <;> cases h
  retiring := fun h => by cases h
  provisional := fun _ => ⟨rfl, rfl, fun c hc => recalledChosen_pin hc (hpin c hc)⟩

/-- The slots in use of a recalled directory hold the saved services, in their order. -/
theorem recalledSlot_inUse {n : SlotNo} (h : (look (recallDir now im).slots n).state ≠ .free) :
    ∃ sv, im.services[n.val]? = some sv ∧ (look (recallDir now im).slots n).key = sv.key := by
  cases hsv : im.services[n.val]? with
  | none =>
    rw [recalledSlot_absent hsv] at h
    exact absurd rfl h
  | some sv =>
    rw [recalledSlot_present hsv]
    exact ⟨sv, rfl, rfl⟩

theorem restoredPlant_directed (h : ImageRight im) : (restoredPlant im).Directed := by
  obtain ⟨services, keyed, keys, count, nodup, each, on, pins⟩ := h
  have hlt : ∀ x ∈ im.sightings, x.service < 512 := fun x hx => (on x hx).1.trans_le services
  have hplaces : (recallDir 0 im).pool.map Sighting.place = im.sightings.map SavedSighting.join := recalled_places hlt
  have hadvice : ∀ n, (look (recallDir 0 im).slots n).advice = .none := fun n => by
    cases hsv : im.services[n.val]? with
    | none => rw [recalledSlot_absent hsv]; rfl
    | some sv => rw [recalledSlot_present hsv]; rfl
  refine directoryRight_iff.mpr ⟨⟨?_, fun n => ?_, ?_, fun g hg => ?_⟩, fun n => ?_, fun n m hn hm he => ?_, ?_, fun n _ => ?_⟩
  · have hlen : (recallDir 0 im).pool.length = im.sightings.length := by simpa using congrArg List.length hplaces
    exact hlen.trans_le count
  · have hcount : ((recallDir 0 im).sightings n).length
        = ((recallDir 0 im).pool.map Sighting.place).countP (fun j => j.1 == n.val) := by
      rw [List.countP_map, Dir.sightings, List.countP_eq_length_filter]
      refine congrArg List.length (List.filter_congr fun g _ => ?_)
      simp [Sighting.place, Fin.ext_iff]
    show ((recallDir 0 im).sightings n).length ≤ 8
    rw [hcount, hplaces, List.countP_map, List.countP_eq_length_filter]
    exact each n.val
  · have hnodup : ((recallDir 0 im).pool.map Sighting.place).Nodup := hplaces ▸ nodup
    have hjoin : (recallDir 0 im).pool.map Sighting.place
        = ((recallDir 0 im).pool.map Sighting.join).map (fun j => (j.1.val, j.2)) := by
      rw [List.map_map]; rfl
    exact List.Nodup.of_map _ (hjoin ▸ hnodup)
  · obtain ⟨x, hx, hservice, hg⟩ := mem_recalled.mp hg
    obtain ⟨hserved, hcell⟩ := on x hx
    refine ⟨?_, .inr ?_⟩
    · show (look (recallDir 0 im).slots g.slot).state.keeps = true
      rw [recalledSlot_present (List.getElem?_eq_getElem (hservice ▸ hserved))]
      rfl
    · have hgc : g.cell = x.cell := by rw [hg]
      show (look (restoredCells im) g.cell).state = .unseen
      rw [hgc, restoredCells, look_table]
      exact hcell
  · show (look (recallDir 0 im).slots n).Formed
    cases hsv : im.services[n.val]? with
    | none => rw [recalledSlot_absent hsv]; exact formed_empty
    | some sv => rw [recalledSlot_present hsv]; exact recalledSlot_formed (keyed sv (List.mem_of_getElem? hsv))
  · obtain ⟨sv, hsv, hkn⟩ := recalledSlot_inUse hn
    obtain ⟨sv', hsv', hkm⟩ := recalledSlot_inUse hm
    obtain ⟨hnl, hng⟩ := List.getElem?_eq_some_iff.mp hsv
    obtain ⟨hml, hmg⟩ := List.getElem?_eq_some_iff.mp hsv'
    refine Fin.ext ((keys.getElem_inj_iff (hi := by simpa using hnl) (hj := by simpa using hml)).mp ?_)
    rw [List.getElem_map, List.getElem_map, hng, hmg, ← hkn, ← hkm]
    exact he
  · refine ⟨Nat.zero_le _, List.nodup_nil, fun n => ?_, fun a ha => (by cases ha), fun a ha => (by cases ha), fun n _ ho => ?_⟩
    · exact ⟨fun hq => (by rw [show (look (restoredPlant im).dir.slots n).advice = _ from hadvice n] at hq; cases hq),
        fun hq => (by cases hq)⟩
    · rw [show (look (restoredPlant im).dir.slots n).advice = _ from hadvice n] at ho
      cases ho
  · show (look (recallDir 0 im).slots n).Settled ((recallDir 0 im).heldBy n) _
    cases hsv : im.services[n.val]? with
    | none => rw [recalledSlot_absent hsv]; exact settled_empty _ _
    | some sv =>
      rw [recalledSlot_present hsv]
      refine recalledSlot_settled (fun c hc => recalled_heldBy.mpr hc) fun c hc => ?_
      obtain ⟨x, hx, hservice, hcell⟩ := pins n.val sv hsv c hc
      exact List.any_eq_true.mpr ⟨x, hx, by simp [hservice, hcell]⟩

end

end Sys2Proof.Machine
end


section
/-! SUPPORT. Every command keeps the laws of the service directory and the advice queue. -/

namespace Sys2Proof.Machine

/-! ## The machine -/

/-- The laws of the directory, and of the images that a restart may bring back. -/
def State.Directed (s : State) : Prop := s.plant.Directed ∧ ∀ im ∈ s.store.images, ImageRight im

theorem DirectoryLaw.directed {s : State} (h : DirectoryLaw s) : s.Directed := h.2

theorem DirectoryLaw.confirm {s : State} (h : DirectoryLaw s) : s.settings.policy.confirm ≤ 8 := by
  obtain ⟨⟨⟨⟨-, -, -, -, -, -, hconfirm, -⟩, -⟩, -⟩, -⟩ := h
  exact hconfirm

/-- A change that touches neither the directory, nor any cell's state, nor the images but to forget one. -/
structure State.Quiet (s t : State) : Prop where
  plant : s.plant.Quiet t.plant
  images : ∀ im ∈ t.store.images, im ∈ s.store.images

theorem State.Quiet.directed {s t : State} (h : s.Quiet t) (hs : s.Directed) : t.Directed :=
  ⟨h.plant.directed hs.1, fun im him => hs.2 im (h.images im him)⟩

theorem State.Quiet.trans {s t u : State} (h : s.Quiet t) (h' : t.Quiet u) : s.Quiet u :=
  ⟨h.plant.trans h'.plant, fun im him => h.images im (h'.images im him)⟩

/-- Directory, cells and images are the same. -/
theorem State.Quiet.same {s t : State} (dir : t.plant.dir = s.plant.dir)
    (cells : t.plant.cells = s.plant.cells) (images : t.store.images = s.store.images) : s.Quiet t :=
  ⟨.of_eq dir cells, fun _ him => images ▸ him⟩

/-- Work on the survey's part of the machine. -/
theorem State.Quiet.of_plant {s : State} {q : Plant} (h : s.plant.Quiet q) : s.Quiet { s with plant := q } :=
  ⟨h, fun _ => id⟩

/-- The survey's part of the machine replaced by one that keeps the laws of the directory. -/
theorem State.Directed.replace {s : State} {q : Plant} (hs : s.Directed) (hq : q.Directed) (g : Settings) (k : Staging) :
    ({ s with settings := g, plant := q, staging := k } : State).Directed := ⟨hq, hs.2⟩

/-- Books that keep the laws of the directory, entered. -/
theorem enter_directed {s : State} {b : Books} (hs : s.Directed) (hb : DirectoryRight s.plant.cells b.dir) :
    (s.enter b).Directed := ⟨hb, hs.2⟩

theorem work_directed {s : State} {k : Settings → Time → Plant → Plant} (hs : s.Directed)
    (hk : (k s.settings s.clock s.plant).Directed) : (s.work k).Directed := ⟨hk, hs.2⟩

/-! ## The requests that leave the directory alone -/

section
variable (p : List Byte) (s : State)

theorem quiet_runSetAcceptSet : s.Quiet (runSetAcceptSet p s).state := by
  unfold runSetAcceptSet; split <;> exact .same rfl rfl rfl

theorem quiet_runSetLinkMode : s.Quiet (runSetLinkMode p s).state := by
  unfold runSetLinkMode; split <;> exact .same rfl rfl rfl

theorem quiet_runSetNoticeMask : s.Quiet (runSetNoticeMask p s).state := by
  unfold runSetNoticeMask; split <;> exact .same rfl rfl rfl

theorem quiet_runReadFeed : s.Quiet (runReadFeed p s).state := by
  unfold runReadFeed; split <;> exact .same rfl rfl rfl

theorem quiet_runSetProfile : s.Quiet (runSetProfile p s).state := by
  unfold runSetProfile
  split
  · split <;> exact .same rfl rfl rfl
  · exact .same rfl rfl rfl

theorem quiet_runOpenRasterPage : s.Quiet (runOpenRasterPage p s).state := by
  unfold runOpenRasterPage
  split
  · split <;> exact .same rfl rfl rfl
  · exact .same rfl rfl rfl

theorem quiet_runPutCells : s.Quiet (runPutCells p s).state := by
  unfold runPutCells
  split
  · exact .same rfl rfl rfl
  · split <;> exact .same rfl rfl rfl

theorem quiet_runCloseRasterPage : s.Quiet (runCloseRasterPage p s).state := by
  show s.Quiet (if s.staging.page = none then s else { s with staging := Staging.atRestart })
  split <;> exact .same rfl rfl rfl

theorem quiet_runReadCell : s.Quiet (runReadCell p s).state := by
  unfold runReadCell; split <;> exact .same rfl rfl rfl

theorem quiet_runSetAdmission : s.Quiet (runSetAdmission p s).state := by
  unfold runSetAdmission; split <;> exact .same rfl rfl rfl

theorem quiet_runUnparkLane : s.Quiet (runUnparkLane p s).state := by
  unfold runUnparkLane
  split
  · dsimp only
    split <;> exact .same rfl rfl rfl
  · exact .same rfl rfl rfl

theorem quiet_runSetLaneOptions : s.Quiet (runSetLaneOptions p s).state := by
  unfold runSetLaneOptions; split <;> exact .same rfl rfl rfl

theorem quiet_runSetTimers : s.Quiet (runSetTimers p s).state := by
  unfold runSetTimers; split <;> exact .same rfl rfl rfl

theorem quiet_runReadLane : s.Quiet (runReadLane p s).state := by
  unfold runReadLane; split <;> exact .same rfl rfl rfl

theorem quiet_runSetSurveyMode : s.Quiet (runSetSurveyMode p s).state := by
  unfold runSetSurveyMode; split <;> exact .same rfl rfl rfl

theorem quiet_runContinue : s.Quiet (runContinue p s).state := by
  unfold runContinue; split <;> exact .same rfl rfl rfl

theorem quiet_runSetWatchPolicy : s.Quiet (runSetWatchPolicy p s).state := by
  unfold runSetWatchPolicy
  split
  · next w _ => exact ⟨quiet_afterWatchPolicy s.clock s.plant w, fun _ => id⟩
  · exact .same rfl rfl rfl

theorem quiet_runSpotMeasure : s.Quiet (runSpotMeasure p s).state := by
  unfold runSpotMeasure
  split
  · dsimp only
    split
    · exact .same rfl rfl rfl
    · split
      · exact .same rfl rfl rfl
      · split
        · exact .same rfl rfl rfl
        · split <;> exact .same rfl rfl rfl
  · exact .same rfl rfl rfl

theorem quiet_runRenewHold : s.Quiet (runRenewHold p s).state := by
  unfold runRenewHold
  split
  · exact .same rfl rfl rfl
  · split
    · dsimp only
      split <;> exact .same rfl rfl rfl
    · exact .same rfl rfl rfl

theorem quiet_runReleaseHold : s.Quiet (runReleaseHold p s).state := by
  unfold runReleaseHold
  split
  · exact .same rfl rfl rfl
  · split
    · exact .of_plant (quiet_holdEnd _ _ _ _ _ _)
    · exact .same rfl rfl rfl

theorem quiet_runListServices : s.Quiet (runListServices p s).state := by
  unfold runListServices; split <;> exact .same rfl rfl rfl

theorem quiet_runReadService : s.Quiet (runReadService p s).state := by
  unfold runReadService; split <;> exact .same rfl rfl rfl

theorem quiet_runSetRankingPolicy : s.Quiet (runSetRankingPolicy p s).state := by
  unfold runSetRankingPolicy; split <;> exact .same rfl rfl rfl

theorem quiet_runEraseStore : s.Quiet (runEraseStore p s).state := by
  unfold runEraseStore; split <;> exact .same rfl rfl rfl

end

/-! ## The requests that reach the directory -/

section
variable (p : List Byte) {s : State} (h : DirectoryLaw s)
include h

theorem runSetFeed_directed : (runSetFeed p s).state.Directed := by
  have hsurvey := h.1.2
  unfold runSetFeed
  split
  · next f r _ _ =>
    exact h.directed.replace (changeFeed_directed (g := s.settings.setFeed f r) h.confirm h.directed.1 hsurvey.engagement
      hsurvey.lanes) _ _
  · exact h.directed

theorem runWriteRasterPage_directed : (runWriteRasterPage p s).state.Directed := by
  have hsurvey := h.1.2
  unfold runWriteRasterPage
  split
  · exact h.directed
  · next f k _ =>
    dsimp only
    split
    · obtain ⟨hnodup, -⟩ := resultingPage_keys f k s.staging.staged
      exact h.directed.replace (writePage_directed h.confirm h.directed.1 hnodup hsurvey.engagement hsurvey.lanes) _ _
    · exact h.directed

theorem runParkLane_directed : (runParkLane p s).state.Directed := by
  unfold runParkLane
  split
  · exact h.directed.replace (parkLane_directed h.confirm h.directed.1) _ _
  · exact h.directed

theorem runForgetService_directed : (runForgetService p s).state.Directed := by
  unfold runForgetService
  split
  · exact h.directed
  · next n _ =>
    have forget : (look s.plant.dir.slots n).state ≠ .free → (s.enter (removeService s.view n s.books)).Directed := fun hn =>
      enter_directed h.directed (removeService_right (b := s.books) h.directed.1 hn)
    split
    · exact h.directed
    · exact h.directed
    all_goals next hs => exact forget (by rw [hs]; decide)

theorem runPinSource_directed : (runPinSource p s).state.Directed := by
  unfold runPinSource
  split
  · next n c _ _ =>
    split
    · next hh =>
      split
      · obtain ⟨g, hg, rfl, -⟩ := heldBy_iff.mp hh
        have hkeeps := ((directoryRight_iff.mp h.directed.1).pool.2.2.2 g hg).1
        exact enter_directed h.directed (repin_right (v := s.view) (some c) h.confirm h.directed.1 hkeeps)
      · exact h.directed
    · exact h.directed
  · exact h.directed

theorem runUnpin_directed : (runUnpin p s).state.Directed := by
  unfold runUnpin
  split
  · exact h.directed
  · next n _ =>
    have unpin : (look s.plant.dir.slots n).state.keeps = true → (s.enter (repin s.view n none s.plant.dir)).Directed :=
      fun hn => enter_directed h.directed (repin_right (v := s.view) none h.confirm h.directed.1 hn)
    split
    · exact h.directed
    · exact h.directed
    all_goals next hs => exact unpin (by rw [hs]; rfl)

theorem runTakeAdvice_directed : (runTakeAdvice p s).state.Directed := by
  unfold runTakeAdvice
  split
  · exact enter_directed h.directed (takeAdvice_right h.directed.1)
  · exact h.directed

theorem runSaveSnapshot_directed : (runSaveSnapshot p s).state.Directed := by
  unfold runSaveSnapshot
  split
  · refine ⟨h.directed.1, fun im him => ?_⟩
    have him' : im ∈ [s.store.image, imageOf s] := him
    rcases List.mem_cons.mp him' with rfl | him'
    · exact h.directed.2 _ List.mem_cons_self
    · obtain rfl := List.mem_singleton.mp him'
      exact imageOf_right h.1.2 h.directed.1
  · exact h.directed

/-- Every request of Table 11.5 keeps the laws of the directory. -/
theorem run_directed {v : Service} (hv : v ∈ catalogue) : (v.run p s).state.Directed := by
  have quiet : ∀ {t}, s.Quiet t → t.Directed := fun hq => hq.directed h.directed
  simp only [catalogue, List.mem_append, List.mem_cons, List.not_mem_nil, or_false] at hv
  rcases hv with ((rfl | rfl | rfl | rfl | rfl | rfl | rfl | rfl | rfl | rfl | rfl | rfl | rfl | rfl | rfl | rfl) |
    (rfl | rfl | rfl | rfl | rfl | rfl | rfl | rfl | rfl | rfl | rfl | rfl | rfl | rfl | rfl | rfl)) |
    (rfl | rfl | rfl | rfl | rfl | rfl | rfl | rfl | rfl | rfl | rfl | rfl | rfl | rfl | rfl | rfl)
  · exact quiet (.same rfl rfl rfl)
  · exact quiet (.same rfl rfl rfl)
  · exact quiet (quiet_runSetAcceptSet p s)
  · exact quiet (quiet_runSetLinkMode p s)
  · exact quiet (.same rfl rfl rfl)
  · exact quiet (.same rfl rfl rfl)
  · exact quiet (.same rfl rfl rfl)
  · exact quiet (quiet_runSetNoticeMask p s)
  · exact runSetFeed_directed p h
  · exact quiet (quiet_runReadFeed p s)
  · exact quiet (quiet_runSetProfile p s)
  · exact quiet (.same rfl rfl rfl)
  · exact quiet (quiet_runOpenRasterPage p s)
  · exact quiet (quiet_runPutCells p s)
  · exact runWriteRasterPage_directed p h
  · exact quiet (quiet_runCloseRasterPage p s)
  · exact quiet (quiet_runReadCell p s)
  · exact quiet (quiet_runSetAdmission p s)
  · exact quiet (.same rfl rfl rfl)
  · exact runParkLane_directed p h
  · exact quiet (quiet_runUnparkLane p s)
  · exact quiet (quiet_runSetLaneOptions p s)
  · exact quiet (quiet_runSetTimers p s)
  · exact quiet (.same rfl rfl rfl)
  · exact quiet (quiet_runReadLane p s)
  · exact quiet (.same rfl rfl rfl)
  · exact quiet (.same rfl rfl rfl)
  · exact quiet (quiet_runSetSurveyMode p s)
  · exact quiet (quiet_runContinue p s)
  · exact h.directed.replace (clearSurvey_directed s.clock s.plant) _ _
  · exact quiet (.same rfl rfl rfl)
  · exact quiet (quiet_runSetWatchPolicy p s)
  · exact quiet (.same rfl rfl rfl)
  · exact quiet (quiet_runSpotMeasure p s)
  · exact quiet (quiet_runRenewHold p s)
  · exact quiet (quiet_runReleaseHold p s)
  · exact quiet (.same rfl rfl rfl)
  · exact quiet (quiet_runListServices p s)
  · exact quiet (quiet_runReadService p s)
  · exact runForgetService_directed p h
  · exact quiet (quiet_runSetRankingPolicy p s)
  · exact quiet (.same rfl rfl rfl)
  · exact runPinSource_directed p h
  · exact runUnpin_directed p h
  · exact runTakeAdvice_directed p h
  · exact runSaveSnapshot_directed p h
  · exact quiet (quiet_runEraseStore p s)
  · exact quiet (.same rfl rfl rfl)

end

end Sys2Proof.Machine
end


section
/-! SUPPORT. The link, the page writer and the restarts keep the laws of the directory; the statement that every step does. -/

namespace Sys2Proof.Machine

/-! ## Restarts (R183, R184) -/

/-- A restart brings back the restart values or what an image holds. -/
theorem restart_directed {r : RestartIn} {s : State} (hs : s.Directed) : (restart r s).Directed := by
  obtain ⟨-, himages, hplant⟩ := restart_spec r s
  refine ⟨?_, fun im him => hs.2 im (himages im him)⟩
  rcases hplant with ⟨-, hplant, -⟩ | ⟨im, him, -, hplant, -⟩ <;> rw [hplant]
  · exact plantAtRestart_directed
  · exact restoredPlant_directed (hs.2 im him)

theorem owedRestart_directed {s : State} (hs : s.Directed) : (owedRestart s).Directed :=
  restart_directed (s := { s with draws := s.draws + 1 }) hs

/-! ## The link (chapter 11) -/

theorem quiet_takeFault {s t : State} (h : s.Quiet t) (r : LinkFault) (rx : Receiver) : s.Quiet (takeFault r rx t) :=
  h.trans (.same rfl rfl rfl)

theorem overrunNow_directed {s : State} (hs : s.Directed) : (overrunNow s).Directed := by
  rcases overrunNow_cases s with h | ⟨-, -, h⟩ | ⟨a, -, -, h⟩ <;> rw [h]
  · exact hs
  · exact owedRestart_directed hs
  · exact (quiet_takeFault (.same rfl rfl rfl) _ _).directed hs

theorem whenHunting_directed {k : State → State} {s : State} (hs : s.Directed) (hk : (k s).Directed) :
    (whenHunting k s).Directed := by
  rcases whenHunting_cases k s with e | e | ⟨-, e⟩ <;> rw [e]
  · exact hs
  · exact overrunNow_directed hs
  · exact hk

section
variable (s : State)

theorem quiet_lengthFault (a n : Byte) : s.Quiet (lengthFault a n s) := by
  rcases lengthFault_cases a n s with h | ⟨r, h⟩ <;> rw [h]
  · exact .same rfl rfl rfl
  · exact quiet_takeFault (.same rfl rfl rfl) _ _

theorem quiet_gapFault (a : Byte) (got : List Byte) : s.Quiet (gapFault a got s) := by
  unfold gapFault
  split
  · exact .same rfl rfl rfl
  all_goals exact quiet_takeFault (.same rfl rfl rfl) _ _

theorem quiet_badCheck (k : Byte) (f : Req) : s.Quiet (badCheck k f s) := by
  unfold badCheck
  split
  · exact .same rfl rfl rfl
  all_goals exact quiet_takeFault (.same rfl rfl rfl) _ _

theorem quiet_quietEnds : s.Quiet (quietEnds s) := by
  unfold quietEnds
  split <;> exact .same rfl rfl rfl

end

theorem replySent_directed {s : State} (hs : s.Directed) : (replySent s).Directed := by
  unfold replySent
  split
  · exact hs
  · split
    · exact owedRestart_directed hs
    · exact State.Quiet.directed (.same rfl rfl rfl) hs

section
variable {s : State} (h : DirectoryLaw s)
include h

/-- A frame whose request keeps the laws, if it is executed. -/
theorem frame_directed {v : Service} (run : ∀ p, (v.run p s).state.Directed) (f : Req) : (v.frame f s).Directed := by
  have answered : ∀ (k : Frame) {r : Served}, r.state.Directed → (answer k r).Directed := fun k r hr =>
    State.Quiet.directed (.same rfl rfl rfl) hr
  unfold Service.frame
  split
  · exact h.directed
  · split
    · exact run _
    · exact h.directed
  · refine answered _ ?_
    rcases Service.respond_cases v f.payload s with e | e | ⟨-, -, e⟩ <;> rw [e]
    · exact h.directed
    · exact h.directed
    · exact run _

theorem serve_directed {v : Service} (hv : v ∈ catalogue) (f : Req) : (serve v f s).Directed := by
  refine whenHunting_directed h.directed ?_
  split
  · exact (quiet_lengthFault s _ _).directed h.directed
  · exact frame_directed h (fun p => run_directed p h hv) f

theorem frameByKind_directed (kind : Byte) (f : Req) : (frameByKind catalogue kind f s).Directed := by
  unfold frameByKind
  split
  · exact h.directed
  · split
    · next v hv => exact frame_directed h (fun p => run_directed p h (List.mem_of_find?_eq_some hv)) f
    · exact frame_directed h (v := unknownService kind) (fun _ => h.directed) f

theorem frameArrives_directed (kind : Byte) (f : Req) : (frameArrives kind f s).Directed := by
  unfold frameArrives deliver
  refine whenHunting_directed h.directed ?_
  split
  · exact (quiet_lengthFault s _ _).directed h.directed
  · exact frameByKind_directed h kind f

theorem lengthArrives_directed (a n : Byte) : (lengthArrives a n s).Directed := by
  refine whenHunting_directed h.directed ?_
  split
  · exact (quiet_lengthFault s _ _).directed h.directed
  · exact h.directed

theorem bytesStop_directed (a : Byte) (got : List Byte) : (bytesStop a got s).Directed := by
  refine whenHunting_directed h.directed ?_
  split
  · exact (quiet_gapFault s _ _).directed h.directed
  · exact h.directed

theorem checkFault_directed (kind check : Byte) (f : Req) {t : State} (ht : exec (.checkFault kind check f) s = .next t) :
    t.Directed := by
  refine Host.Outcome.next.inj ht ▸ whenHunting_directed h.directed ?_
  split
  · exact (quiet_lengthFault s _ _).directed h.directed
  · split
    · exact frameByKind_directed h kind f
    · exact (quiet_badCheck s kind f).directed h.directed

theorem foreignFrame_directed (kind : Byte) (f : Req) (e : FrameEnd) {t : State}
    (ht : exec (.foreignFrame kind f e) s = .next t) : t.Directed := by
  cases e with
  | whole => exact Host.Outcome.next.inj ht ▸ frameArrives_directed h kind f
  | badLength n => exact Host.Outcome.next.inj ht ▸ lengthArrives_directed h f.addr n
  | stopped got => exact Host.Outcome.next.inj ht ▸ bytesStop_directed h f.addr got

end

/-! ## The page writer, timers and start-up -/

section
variable (s : State)

theorem quiet_failSave {t : State} (h : s.Quiet t) : s.Quiet (failSave t) := h.trans (.same rfl rfl rfl)

theorem quiet_eraseComplete : s.Quiet (eraseComplete s) := by
  unfold eraseComplete
  dsimp only
  split
  · exact .same rfl rfl rfl
  · exact .same rfl rfl rfl
  · exact .same rfl rfl rfl
  · exact .same rfl rfl rfl
  · exact .same rfl rfl rfl
  · exact quiet_failSave s (.same rfl rfl rfl)
  · exact .same rfl rfl rfl
  · exact .same rfl rfl rfl

theorem quiet_writePageDone (c : Capture) (k : Fin 256) (again : Bool) (flaws : Flaws) :
    s.Quiet (writePageDone s c k again flaws) := by
  unfold writePageDone
  dsimp only
  split
  · exact .same rfl rfl rfl
  · split
    · exact quiet_failSave s (.same rfl rfl rfl)
    · exact .same rfl rfl rfl

/-- The image of a completed save was the captured one (R179). -/
theorem quiet_writeHeaderDone {c : Capture} (hc : s.store.capture = some c) (again : Bool) (flaws : Flaws) :
    s.Quiet (writeHeaderDone s c again flaws) := by
  have himages : ∀ im ∈ c.image :: (s.store.capture.map Capture.image).toList, im ∈ s.store.images := fun im him => by
    have himage : im = c.image := by simpa [hc] using him
    simp [Store.images, hc, himage]
  unfold writeHeaderDone
  dsimp only
  split <;> exact ⟨.of_eq rfl rfl, himages⟩

theorem quiet_writeComplete (flaws : Flaws) : s.Quiet (writeComplete flaws s) := by
  unfold writeComplete
  split
  · exact .same rfl rfl rfl
  · next c hc =>
    split
    · exact quiet_writePageDone s c _ _ flaws
    · exact quiet_writeHeaderDone s hc _ flaws
    all_goals exact .same rfl rfl rfl

theorem quiet_measureTimeout (l : Lane) : s.Quiet (measureTimeout l s) := by
  unfold measureTimeout
  dsimp only
  split <;> exact .same rfl rfl rfl

theorem quiet_refreshTimeout (l : Lane) : s.Quiet (refreshTimeout l s) := by
  unfold refreshTimeout
  dsimp only
  split <;> exact .same rfl rfl rfl

theorem quiet_endStartUp : s.Quiet (endStartUp s) := .same rfl rfl rfl

end

/-! ## Every command, every step -/

theorem exec_directed (i : Instr) {s t : State} (h : DirectoryLaw s) (he : exec i s = .next t) : t.Directed := by
  cases hr : requestOf i with
  | some kf =>
    obtain ⟨v, hv, hserve⟩ := exec_request hr s
    rw [hserve] at he
    exact Host.Outcome.next.inj he ▸ serve_directed h hv kf.2
  | none =>
    have hinj : ∀ {u : State}, (.next u : Result) = .next t → u = t := fun h => Host.Outcome.next.inj h
    have work : ∀ {k : Settings → Time → Plant → Plant}, (k s.settings s.clock s.plant).Directed → (s.work k).Directed :=
      work_directed h.directed
    have calm : ∀ {q : Plant}, s.plant.Quiet q → q.Directed := fun hq => hq.directed h.directed.1
    cases i <;> simp only [requestOf, reduceCtorEq] at hr
    case restartReplySent r =>
      refine hinj he ▸ ?_
      split
      · exact restart_directed h.directed
      · exact h.directed
    case unknownKind k f => exact hinj he ▸ frameArrives_directed h k f
    case replyKindDiscarded k f => exact hinj he ▸ frameArrives_directed h k f
    case broadcastDiscarded k f => exact hinj he ▸ frameArrives_directed h k f
    case foreignFrame k f e => exact foreignFrame_directed h k f e he
    case checkFault k c f => exact checkFault_directed h k c f he
    case framingLengthFault a n => exact hinj he ▸ lengthArrives_directed h a n
    case framingGapTimeout a got => exact hinj he ▸ bytesStop_directed h a got
    case addressWaitTimeout => exact hinj he ▸ whenHunting_directed h.directed h.directed
    case quietSilenceEnd => exact hinj he ▸ (quiet_quietEnds s).directed h.directed
    case overrun => exact hinj he ▸ overrunNow_directed h.directed
    case grant => exact hinj he ▸ work (grantOne_directed h.confirm h.directed.1)
    case watchDue c => exact hinj he ▸ h.directed
    case lockArrival l => exact hinj he ▸ work (calm (quiet_lockArrives l s.plant))
    case lockTimerExpiry l => exact hinj he ▸ work (lockTimeout_directed h.confirm h.directed.1)
    case probeWindowExpiry l e => exact hinj he ▸ work (calm (quiet_probeExpires l s.plant e))
    case frontEndReading l m v d b => exact hinj he ▸ work (calm (quiet_readingArrives l s.plant m v d b))
    case measureTimerExpiry l => exact hinj he ▸ (quiet_measureTimeout s l).directed h.directed
    case lockLoss l => exact hinj he ▸ work (lockLost_directed h.confirm h.directed.1)
    case rosterSection l sec => exact hinj he ▸ work (sectionArrives_directed h.confirm h.directed.1 sec)
    case gapTimerExpiry l => exact hinj he ▸ work (gapTimeout_directed h.confirm h.directed.1)
    case dwellLimitExpiry l => exact hinj he ▸ work (dwellTimeout_directed h.confirm h.directed.1)
    case frontEndFault l c => exact hinj he ▸ work (faultArrives_directed h.confirm h.directed.1 c)
    case holdRefreshExpiry l => exact hinj he ▸ (quiet_refreshTimeout s l).directed h.directed
    case holdExpiry l => exact hinj he ▸ work (calm (quiet_holdTimeout s.settings s.clock l s.plant))
    case forgetCheck => exact hinj he ▸ enter_directed h.directed (forgetCheck_right (b := s.books) h.directed.1)
    case pageEraseComplete => exact hinj he ▸ (quiet_eraseComplete s).directed h.directed
    case pageWriteComplete flaws => exact hinj he ▸ (quiet_writeComplete s flaws).directed h.directed
    case powerOn r => exact hinj he ▸ restart_directed h.directed
    case restartLine r => exact hinj he ▸ restart_directed h.directed
    case startUpEnd =>
      refine hinj he ▸ ?_
      split
      · exact (quiet_endStartUp s).directed h.directed
      · exact h.directed
    case replySent => exact hinj he ▸ replySent_directed h.directed

/-- The laws speak of no clock, no draws and no waiting commands. -/
theorem DirectoryLaw.withPending {s : State} (h : DirectoryLaw s) (rest : List Instr) : DirectoryLaw (s.withPending rest) := h

theorem step_directed {s t : State} (h : DirectoryLaw s) (hstep : step s = .next t) : t.Directed := by
  unfold step at hstep
  split at hstep
  · exact Host.Outcome.next.inj hstep ▸ h.directed
  · next rest _ => exact exec_directed _ (h.withPending rest) hstep

/-- Settles O60: the laws of the survey are kept by each change that a step is made of, those of the directory by each
command. -/
theorem directoryStaysRight : Obligations.DirectoryStaysRight := by
  unfold Obligations.DirectoryStaysRight
  exact fun s t hs h => ⟨(step_effect h).surveyLaw hs.1, step_directed hs h⟩

end Sys2Proof.Machine
end

section
/-! SUPPORT. Rank order key by key (R112); the requests on pins (R121, R122): what repinning makes of a service, and what
each request answers. -/

namespace Sys2Proof.Machine

/-! ## Rank order -/

/-- The first key in which two cells differ decides between them, and strictly (R112). -/
theorem rankLe_strict {v : View} {a b : CellRef}
    (h : (rankKey v a).1 < (rankKey v b).1 ∨ (rankKey v a).1 = (rankKey v b).1 ∧
      ((rankKey v a).2.1 < (rankKey v b).2.1 ∨ (rankKey v a).2.1 = (rankKey v b).2.1 ∧
        ((rankKey v a).2.2.1 < (rankKey v b).2.2.1 ∨ (rankKey v a).2.2.1 = (rankKey v b).2.2.1 ∧ a.val < b.val))) :
    rankLe v a b = true ∧ rankLe v b a = false := by
  rw [← Bool.not_eq_true, rankLe_iff, rankLe_iff]
  omega

/-- Settles O37: each clause names the first key that differs. -/
theorem rankOrderFollowsItsKeys : Obligations.RankOrderFollowsItsKeys := by
  unfold Obligations.RankOrderFollowsItsKeys
  refine fun v gs => ⟨ranked_perm v gs, ranked_sorted v gs, fun a b => ⟨fun ha hb => ?_, fun p q hr hp hq hlt => ?_,
    fun p hr hp hq => ?_, fun hr hq hlt => ?_, fun hr hq hf hlt => ?_⟩⟩
  · exact rankLe_strict (.inl (by simp [rankKey, ha, hb]))
  · exact rankLe_strict (.inr ⟨by simp [rankKey, hr], .inl (by simp [rankKey, qRank, hp, hq]; omega)⟩)
  · exact rankLe_strict (.inr ⟨by simp [rankKey, hr], .inl (by simp [rankKey, qRank, hp, hq]; omega)⟩)
  · exact rankLe_strict (.inr ⟨by simp [rankKey, hr], .inr ⟨by simp [rankKey, hq], .inl hlt⟩⟩)
  · exact rankLe_strict (.inr ⟨by simp [rankKey, hr], .inr ⟨by simp [rankKey, hq], .inr ⟨hf, hlt⟩⟩⟩)

/-! ## A service with another pin -/

/-- A slot with its pin replaced and its flag cleared, as it goes into its evaluation (R121, R122). -/
def Slot.repinned (x : Slot) (pin : Option CellRef) : Slot := { x with pin := pin, suspended := false }

@[simp] theorem Slot.repinned_pin (x : Slot) (pin : Option CellRef) : (x.repinned pin).pin = pin := rfl
@[simp] theorem Slot.repinned_reason (x : Slot) (pin : Option CellRef) : (x.repinned pin).reason = x.reason := rfl
@[simp] theorem Slot.repinned_challenger (x : Slot) (pin : Option CellRef) :
    (x.repinned pin).challenger = x.challenger := rfl

section
variable {v : View} {n : SlotNo} {d : Dir}

/-- Only services that can hold sightings are repinned, and each of them is evaluated, a PROVISIONAL one too (R120). -/
theorem repin_spec (pin : Option CellRef) (hk : (look d.slots n).state.keeps = true) :
    (repin v n pin d).dir.pool = d.pool
      ∧ (∀ k, k ≠ n → look (repin v n pin d).dir.slots k = look d.slots k)
      ∧ ∃ a, look (repin v n pin d).dir.slots n =
          { evaluated v d n ((look d.slots n).repinned pin) with advice := a } := by
  obtain ⟨hpool, -, hother, hslot, -⟩ :=
    evaluate_spec v true n { dir := d.setSlot n ((look d.slots n).repinned pin), raised := 0 }
  have hset : look (d.setSlot n ((look d.slots n).repinned pin)).slots n = (look d.slots n).repinned pin :=
    look_put_self _ _ _
  have hev : evaluates ((look d.slots n).repinned pin) true = true := evaluates_keeps.symm.trans hk
  rw [hset] at hslot
  exact ⟨hpool, fun k hk => (hother k hk).trans (look_put_ne _ _ hk), hslot hev⟩

/-- R121: a pin on a rankable sighting is the chosen source. -/
theorem repin_pins {c : CellRef} (hk : (look d.slots n).state.keeps = true) (hh : d.holds n c = true)
    (hr : v.rankable c = true) :
    let y := look (repin v n (some c) d).dir.slots n
    y.pin = some c ∧ y.suspended = false ∧ y.chosen = some c ∧ y.challenger = none ∧ y.state = .live
      ∧ ((look d.slots n).chosen ≠ some c → y.reason = some .pinApplied) := by
  obtain ⟨-, -, a, hy⟩ := repin_spec (v := v) (some c) hk
  obtain ⟨-, hstate, hpin, -, -, -⟩ := evaluated_spec v d n ((look d.slots n).repinned (some c))
  obtain ⟨hchosen, hchallenger, hsus, hreason, -⟩ :=
    evaluated_of_pin (x := (look d.slots n).repinned (some c)) rfl hh hr
  dsimp only
  rw [hy]
  exact ⟨hpin.trans (by simp [hh]), hsus, hchosen, hchallenger,
    hstate.trans (if_pos (hasRankable_of_holds hh hr)), fun hne => hreason (.inl hne)⟩

/-- R122: without its pin a service is LIVE or ORPHAN. -/
theorem repin_unpins (hk : (look d.slots n).state.keeps = true) :
    let y := look (repin v n none d).dir.slots n
    y.pin = none ∧ y.suspended = false ∧ (y.state = .live ∨ y.state = .orphan) := by
  obtain ⟨-, -, a, hy⟩ := repin_spec (v := v) none hk
  obtain ⟨-, hstate, hpin, -, -, -⟩ := evaluated_spec v d n ((look d.slots n).repinned none)
  have hsus := evaluated_suspended_of_unpinned (v := v) (d := d) (n := n) (x := (look d.slots n).repinned none) nofun
  dsimp only
  rw [hy]
  refine ⟨hpin, hsus, ?_⟩
  by_cases h : hasRankable v d n = true
  · exact .inl (hstate.trans (if_pos h))
  · exact .inr (hstate.trans (if_neg h))

/-- R117, R122: unpinning moves a chosen source that stands only by the improvement step, which counts from this
evaluation. -/
theorem repin_stands {c top : CellRef} (hk : (look d.slots n).state.keeps = true)
    (hc : (look d.slots n).chosen = some c) (hh : d.holds n c = true) (hr : v.rankable c = true)
    (ht : topRankable v d n = some top) :
    let x := look d.slots n
    let y := look (repin v n none d).dir.slots n
    (top = c ∨ (v.q top).getD 0 < (v.q c).getD 0 + v.policy.margin →
        y.chosen = some c ∧ y.challenger = none ∧ y.reason = x.reason)
      ∧ (top ≠ c → (v.q c).getD 0 + v.policy.margin ≤ (v.q top).getD 0 → x.challenger = none →
          (v.policy.confirm ≤ 1 → y.chosen = some top ∧ y.reason = some .improvement ∧ y.challenger = none)
          ∧ (1 < v.policy.confirm → y.chosen = some c ∧ y.reason = x.reason ∧ y.challenger = some (top, 1))) := by
  obtain ⟨-, -, a, hy⟩ := repin_spec (v := v) none hk
  obtain ⟨top', ht', hstay, hmove⟩ :=
    evaluated_of_standing (x := (look d.slots n).repinned none) nofun (fun _ => rfl) hc hh hr
  obtain rfl : top' = top := Option.some.inj (ht'.symm.trans ht)
  dsimp only
  rw [hy]
  refine ⟨fun hm => ?_, fun hne hm hnone => ?_⟩
  · obtain ⟨hchosen, hreason, hchallenger⟩ := hstay hm
    exact ⟨hchosen, hchallenger, hreason⟩
  · simpa only [Slot.repinned_challenger, Slot.repinned_reason, hnone] using hmove hne hm

end

/-! ## The requests -/

/-- The chosen source in a reply (log 17): its presence, then the reference. -/
theorem bChosen_eq (c : Option CellRef) : bChosen c = [if c.isSome then 1#8 else 0#8] ++ bCell? c := by
  cases c with
  | none => rw [bChosen, Option.isSome_none, flagBytes_false]; rfl
  | some c => rw [bChosen, Option.isSome_some, flagBytes_true]; rfl

/-- The payload of Pin Source, laid out and read back: its slot number. -/
theorem slotAt_pin (n : SlotNo) (c : CellRef) : slotAt (b2 n.val ++ bCell c) 0 = some n := by
  refine slotAt_eq ?_
  show (BitVec.ofNat 8 n.val).toNat + 256 * (BitVec.ofNat 8 (n.val / 256)).toNat = n.val
  simp only [BitVec.toNat_ofNat]
  omega

/-- The payload of Pin Source, laid out and read back: its cell reference. -/
theorem cellRefAt_pin (n : SlotNo) (c : CellRef) : cellRefAt (b2 n.val ++ bCell c) 2 = some c :=
  cellRefAt_eq ((BitVec.toNat_ofNat _ _).trans (Nat.mod_eq_of_lt (by omega)))
    ((BitVec.toNat_ofNat _ _).trans (Nat.mod_eq_of_lt (by omega)))

section
variable {p : List Byte} {n : SlotNo} {c : CellRef} {s : State}

theorem runPinSource_outOfRange (s : State) (h : 512 ≤ halfAt p 0 ∨ 6 ≤ byteAt p 2 ∨ 96 ≤ byteAt p 3) :
    runPinSource p s = refuse s .badValue := by
  unfold runPinSource
  rcases h with h | h
  · rw [slotAt_refused h]
  · rw [cellRefAt_refused h]
    cases slotAt p 0 <;> rfl

theorem runPinSource_unheld (hn : slotAt p 0 = some n) (hc : cellRefAt p 2 = some c)
    (hh : s.plant.dir.holds n c = false) : runPinSource p s = refuse s .badValue := by
  simp [runPinSource, hn, hc, hh]

theorem runPinSource_unrankable (hn : slotAt p 0 = some n) (hc : cellRefAt p 2 = some c)
    (hh : s.plant.dir.holds n c = true) (hr : s.view.rankable c = false) :
    runPinSource p s = refuse s .wrongState := by
  simp [runPinSource, hn, hc, hh, hr]

theorem runPinSource_ok (hn : slotAt p 0 = some n) (hc : cellRefAt p 2 = some c)
    (hk : (look s.plant.dir.slots n).state.keeps = true) (hh : s.plant.dir.holds n c = true)
    (hr : s.view.rankable c = true) :
    runPinSource p s = ok (s.enter (repin s.view n (some c) s.plant.dir))
      ([1#8] ++ bCell c ++ [if (look s.plant.dir.slots n).chosen = some c then 0#8 else 1#8]) := by
  obtain ⟨-, -, hchosen, -⟩ := repin_pins hk hh hr
  have hchanged : bYes (some c != (look s.plant.dir.slots n).chosen)
      = [if (look s.plant.dir.slots n).chosen = some c then 0#8 else 1#8] := by
    by_cases h : (look s.plant.dir.slots n).chosen = some c
    · simp [bYes, h]
    · simp [bYes, h, Ne.symm h]
  simp only [runPinSource, hn, hc, if_pos hh, if_pos hr, hchosen, hchanged, bChosen_eq]
  rfl

theorem runUnpin_outOfRange (s : State) (h : 512 ≤ halfAt p 0) : runUnpin p s = refuse s .badValue := by
  rw [runUnpin, slotAt_refused h]

theorem runUnpin_wrongState (hn : slotAt p 0 = some n)
    (hx : (look s.plant.dir.slots n).state = .free ∨ (look s.plant.dir.slots n).state = .retiring) :
    runUnpin p s = refuse s .wrongState := by
  simp only [runUnpin, hn]
  rcases hx with hx | hx <;> rw [hx]

theorem runUnpin_ok (hn : slotAt p 0 = some n) (hk : (look s.plant.dir.slots n).state.keeps = true) :
    let b := repin s.view n none s.plant.dir
    runUnpin p s = ok (s.enter b)
      ([if (look b.dir.slots n).chosen.isSome then 1#8 else 0#8] ++ bCell? (look b.dir.slots n).chosen) := by
  simp only [runUnpin, hn, ← bChosen_eq]
  cases hx : (look s.plant.dir.slots n).state with
  | free => rw [hx] at hk; cases hk
  | retiring => rw [hx] at hk; cases hk
  | provisional => rfl
  | live => rfl
  | orphan => rfl

end

/-- A service that is neither FREE nor RETIRING can hold sightings (Table 6.2). -/
theorem keeps_of_ne {k : SlotState} (hfree : k ≠ .free) (hret : k ≠ .retiring) : k.keeps = true := by
  cases k with
  | free => exact absurd rfl hfree
  | retiring => exact absurd rfl hret
  | provisional => rfl
  | live => rfl
  | orphan => rfl

/-- A service that holds a sighting is one that can (R91). -/
theorem DirectoryRight.keeps_of_holds {cells : Vector Cell 576} {d : Dir} {n : SlotNo} {c : CellRef}
    (h : DirectoryRight cells d) (hh : d.holds n c = true) : (look d.slots n).state.keeps = true := by
  obtain ⟨⟨-, -, -, on⟩, -⟩ := h
  obtain ⟨g, hg, rfl, -⟩ := heldBy_iff.mp hh
  exact (on g hg).1

/-- Settles O39: each request is the evaluation of the service with its pin replaced. -/
theorem pinsAreSetAndRemoved : Obligations.PinsAreSetAndRemoved := by
  unfold Obligations.PinsAreSetAndRemoved
  refine ⟨fun f s hs => ⟨fun hlen hbad => ?_, fun hlen hbad => ?_⟩,
    fun f n c s hd hs hp => ⟨fun hh => ?_, fun hh hr => ?_, fun hh hr => ?_⟩,
    fun f lo hi n s hs hp (hn : halfAt [lo, hi] 0 = n.val) => ⟨fun hx => ?_, fun hfree hret => ?_⟩⟩
  · exact next_served (v := svcPinSource) hs (by omega) (by rw [hlen]; rfl) (runPinSource_outOfRange s hbad)
  · exact next_served (v := svcUnpin) hs (by omega) (by rw [hlen]; rfl) (runUnpin_outOfRange s hbad)
  · exact next_served_at (v := svcPinSource) hs hp rfl (by simp [b2, bCell, b1])
      (runPinSource_unheld (slotAt_pin n c) (cellRefAt_pin n c) hh)
  · exact next_served_at (v := svcPinSource) hs hp rfl (by simp [b2, bCell, b1])
      (runPinSource_unrankable (slotAt_pin n c) (cellRefAt_pin n c) hh hr)
  · have hk := hd.keeps_of_holds hh
    obtain ⟨hpool, hother, -⟩ := repin_spec (v := s.view) (some c) hk
    obtain ⟨hout, hcells, hlanes, -⟩ := enter_keeps s (repin s.view n (some c) s.plant.dir)
    exact ⟨_, next_served_at (v := svcPinSource) hs hp rfl (by simp [b2, bCell, b1])
        (runPinSource_ok (slotAt_pin n c) (cellRefAt_pin n c) hk hh hr),
      hout, hcells, hlanes, hpool, hother, repin_pins hk hh hr⟩
  · exact next_served_at (v := svcUnpin) hs hp rfl (by simp) (runUnpin_wrongState (slotAt_eq hn) hx)
  · have hk := keeps_of_ne hfree hret
    obtain ⟨hpool, hother, -⟩ := repin_spec (v := s.view) none hk
    obtain ⟨hout, hcells, hlanes, -⟩ := enter_keeps s (repin s.view n none s.plant.dir)
    obtain ⟨hpin, hsus, hstate⟩ := repin_unpins (v := s.view) hk
    refine ⟨_, next_served_at (v := svcUnpin) hs hp rfl (by simp) (runUnpin_ok (slotAt_eq hn) hk),
      hout, hcells, hlanes, hpool, hother, hpin, hsus, hstate, fun c hc hh hr => ⟨fun ht => ?_, fun top ht hne => ?_⟩⟩
    · obtain ⟨hstay, -⟩ := repin_stands (v := s.view) hk hc hh hr ht
      obtain ⟨hchosen, hchallenger, -⟩ := hstay (.inl rfl)
      exact ⟨hchosen, hchallenger⟩
    · obtain ⟨hstay, hmove⟩ := repin_stands (v := s.view) hk hc hh hr ht
      exact ⟨fun hm => hstay (.inr hm), fun hm hnone => hmove hne hm hnone⟩

end Sys2Proof.Machine
end

section
/-! SUPPORT. The advice queue: the rule of divergence in its three cases (R127 to R130); Take Advice as two runs, one that
reports the records taken to their slots (R133) and one that fills the places from the OWED slots (R134). -/

namespace Sys2Proof.Machine

/-! ## The rule of divergence, where there is nothing to tell -/

section
variable {v : View} {n : SlotNo} {b : Books} {x : Slot}

theorem diverge_agrees (hx : look b.dir.slots n = x) (ha : x.advice = .none) (hd : x.chosen = x.reported) :
    diverge v n b = b := by
  simp only [diverge, hx, ha, divergeNone, if_pos hd]

theorem diverge_repays (hx : look b.dir.slots n = x) (ha : x.advice = .owed) (hd : x.chosen = x.reported) :
    diverge v n b = { b with dir := b.dir.setSlot n (settled x) } := by
  simp only [diverge, hx, ha, divergeOwed, if_pos hd]

end

/-- What becomes of a slot that comes to NONE, by its state (R105). -/
theorem settled_cases (x : Slot) :
    (x.state = .retiring → settled x = Slot.empty) ∧ (x.state ≠ .retiring → settled x = { x with advice := .none }) :=
  ⟨fun h => if_pos h, fun h => if_neg h⟩

/-- Settles O40: the advice state, the comparison with the reported source and the room in the queue choose the case. -/
theorem divergenceRule : Obligations.DivergenceRule := by
  unfold Obligations.DivergenceRule
  intro v n b
  refine ⟨fun hd ha => diverge_agrees rfl ha hd, fun hd ha hl => ?_, fun hd ha hl => ?_, fun ha ho hrec => ?_, fun ha => ?_,
    diverge_pool v n b, fun k hk => diverge_other v b hk⟩
  · rw [diverge_appends rfl ha hd hl]
    exact ⟨look_put_self _ _ _, rfl, by simp [Condition.bit]⟩
  · rw [diverge_owes rfl ha hd hl]
    exact ⟨look_put_self _ _ _, rfl, rfl⟩
  · by_cases hd : (look b.dir.slots n).chosen = (look b.dir.slots n).reported
    · obtain ⟨a, hmem, hslot⟩ := hrec
      rw [diverge_returns rfl ha ⟨a, hmem, hslot, (ho a hmem hslot).trans hd.symm⟩]
      refine ⟨rfl, fun _ => ⟨rfl, ?_⟩, fun hne => absurd hd hne⟩
      simpa using settled_cases (look b.dir.slots n)
    · rw [diverge_updates rfl ha fun a hmem hslot he => hd (he.symm.trans (ho a hmem hslot))]
      exact ⟨rfl, fun he => absurd he hd, fun _ => ⟨rfl, rfl⟩⟩
  · by_cases hd : (look b.dir.slots n).chosen = (look b.dir.slots n).reported
    · rw [diverge_repays rfl ha hd]
      refine ⟨rfl, rfl, fun hne => absurd hd hne, fun _ => ?_⟩
      simpa using settled_cases (look b.dir.slots n)
    · rw [diverge_waits rfl ha hd]
      exact ⟨rfl, rfl, fun _ => rfl, fun he => absurd he hd⟩

/-! ## The records taken (R133) -/

/-- A slot whose record the host has taken. -/
def Slot.told (a : Advice) (x : Slot) : Slot :=
  if x.state = .retiring then Slot.empty else { x with reported := a.target, advice := .none }

theorem Slot.told_advice (a : Advice) (x : Slot) : (x.told a).advice = .none := by
  unfold Slot.told
  split <;> rfl

theorem Slot.told_cases (a : Advice) (x : Slot) :
    x.state = .retiring ∧ x.told a = Slot.empty
      ∨ x.state ≠ .retiring ∧ x.told a = { x with reported := a.target, advice := .none } := by
  unfold Slot.told
  split
  · next h => exact .inl ⟨h, rfl⟩
  · next h => exact .inr ⟨h, rfl⟩

/-- Records reported to their slots, in order. -/
def reportAll (as : List Advice) (d : Dir) : Dir := as.foldl (fun d a => reportTaken a d) d

theorem look_reportTaken (a : Advice) (d : Dir) (m : SlotNo) :
    look (reportTaken a d).slots m = if m = a.slot then (look d.slots m).told a else look d.slots m := by
  rw [show (reportTaken a d).slots = put d.slots a.slot ((look d.slots a.slot).told a) from rfl, look_put]
  split
  · next h => rw [h]
  · rfl

theorem reportAll_frame (as : List Advice) (d : Dir) :
    (reportAll as d).pool = d.pool ∧ (reportAll as d).queue = d.queue :=
  List.foldlRecOn (motive := fun e : Dir => e.pool = d.pool ∧ e.queue = d.queue) as (fun d a => reportTaken a d) ⟨rfl, rfl⟩
    fun _ he _ _ => he

theorem look_reportAll_of_notMem {as : List Advice} {d : Dir} {m : SlotNo} (h : m ∉ as.map Advice.slot) :
    look (reportAll as d).slots m = look d.slots m := by
  induction as generalizing d with
  | nil => rfl
  | cons a as ih =>
    rw [List.map_cons, List.mem_cons, not_or] at h
    obtain ⟨hne, hrest⟩ := h
    exact (ih hrest).trans ((look_reportTaken a d m).trans (if_neg hne))

/-- Each slot with a record among them hears of its own. -/
theorem look_reportAll_of_mem {as : List Advice} {d : Dir} {a : Advice} (hnodup : (as.map Advice.slot).Nodup) (ha : a ∈ as) :
    look (reportAll as d).slots a.slot = (look d.slots a.slot).told a := by
  induction as generalizing d with
  | nil => cases ha
  | cons c as ih =>
    obtain ⟨hout, hrest⟩ := List.nodup_cons.mp hnodup
    show look (reportAll as (reportTaken c d)).slots a.slot = _
    rcases List.mem_cons.mp ha with rfl | ha
    · rw [look_reportAll_of_notMem hout, look_reportTaken, if_pos rfl]
    · have hne : a.slot ≠ c.slot := fun e => hout (e ▸ List.mem_map_of_mem ha)
      rw [ih hrest ha, look_reportTaken, if_neg hne]

/-! ## The places filled (R134) -/

/-- The books `r` are `b` with the slots of `ns` appended to the queue, in that order. -/
structure Books.Filled (v : View) (b : Books) (ns : List SlotNo) (r : Books) : Prop where
  pool : r.dir.pool = b.dir.pool
  queue : r.dir.queue = b.dir.queue ++ ns.map (fun n => adviceFor v n (look b.dir.slots n))
  slots : ∀ m, look r.dir.slots m = if m ∈ ns then { look b.dir.slots m with advice := .queued } else look b.dir.slots m
  raised : r.raised = if b.dir.queue = [] ∧ ns ≠ [] then b.raised ||| Condition.adviceReady.bit else b.raised

/-- The OWED slots in slot order (R134). -/
def Dir.owing (d : Dir) : List SlotNo := (List.finRange 512).filter (fun n => (look d.slots n).advice == .owed)

theorem mem_owing {d : Dir} {n : SlotNo} : n ∈ d.owing ↔ (look d.slots n).advice = .owed := by
  simp [Dir.owing]

/-- One slot of the filling. -/
def refillOne (v : View) (b : Books) (n : SlotNo) : Books :=
  if (look b.dir.slots n).advice = .owed ∧ b.dir.queue.length < 64 then divergeNone v n b else b

section
variable {v : View} {b r : Books} {n : SlotNo} {ns : List SlotNo}

theorem Books.Filled.nil : b.Filled v [] b where
  pool := rfl
  queue := (List.append_nil _).symm
  slots := fun _ => (if_neg List.not_mem_nil).symm
  raised := (if_neg fun h => h.2 rfl).symm

/-- An OWED slot is appended where there is room (R128, R132, R134). -/
theorem refillOne_appends (ho : (look b.dir.slots n).advice = .owed) (hl : b.dir.queue.length < 64)
    (hd : (look b.dir.slots n).chosen ≠ (look b.dir.slots n).reported) : b.Filled v [n] (refillOne v b n) := by
  have heq : refillOne v b n =
      { dir := { b.dir.setSlot n { look b.dir.slots n with advice := .queued } with
          queue := b.dir.queue ++ [adviceFor v n (look b.dir.slots n)] }
        raised := if b.dir.queue.isEmpty then b.raised ||| Condition.adviceReady.bit else b.raised } := by
    simp only [refillOne, if_pos (And.intro ho hl), divergeNone, if_neg hd, if_pos hl]
  rw [heq]
  refine ⟨rfl, rfl, fun m => ?_, by simp⟩
  simp only [Dir.setSlot_slots, look_put, List.mem_singleton]
  split
  · next h => rw [h]
  · rfl

/-- A filling that begins with one slot and goes on with others. -/
theorem Books.Filled.cons {c : Books} (hone : b.Filled v [n] c) (hrest : c.Filled v ns r) (hout : n ∉ ns) :
    b.Filled v (n :: ns) r := by
  have hsame : ∀ m, m ≠ n → look c.dir.slots m = look b.dir.slots m := fun m hm => by
    rw [hone.slots, if_neg (by simpa using hm)]
  refine ⟨hrest.pool.trans hone.pool, ?_, fun m => ?_, ?_⟩
  · have hmap : ns.map (fun k => adviceFor v k (look c.dir.slots k)) = ns.map (fun k => adviceFor v k (look b.dir.slots k)) :=
      List.map_congr_left fun k hk => by rw [hsame k fun e => hout (e ▸ hk)]
    rw [hrest.queue, hone.queue, hmap]
    simp
  · rw [hrest.slots]
    by_cases hm : m = n
    · subst hm
      rw [if_neg hout, hone.slots, if_pos List.mem_cons_self, if_pos List.mem_cons_self]
    · simp [hsame m hm, hm]
  · rw [hrest.raised, if_neg (by simp [hone.queue]), hone.raised]
    simp

end

/-- The filling goes through the OWED slots in order, as far as there is room (R134). -/
theorem foldl_refillOne_filled (v : View) {ns : List SlotNo} {b : Books} (hnodup : ns.Nodup)
    (hne : ∀ n ∈ ns, (look b.dir.slots n).advice = .owed →
      (look b.dir.slots n).chosen ≠ (look b.dir.slots n).reported) :
    b.Filled v ((ns.filter (fun n => (look b.dir.slots n).advice == .owed)).take (64 - b.dir.queue.length))
      (ns.foldl (refillOne v) b) := by
  induction ns generalizing b with
  | nil => simpa using Books.Filled.nil
  | cons n ns ih =>
    obtain ⟨hout, hrest⟩ := List.nodup_cons.mp hnodup
    have hlater := fun m hm => hne m (List.mem_cons_of_mem n hm)
    rw [List.foldl_cons]
    by_cases ho : (look b.dir.slots n).advice = .owed
    · rw [List.filter_cons_of_pos (by simp [ho])]
      by_cases hl : b.dir.queue.length < 64
      · have hone := refillOne_appends (v := v) ho hl (hne n List.mem_cons_self ho)
        have hsame : ∀ m ∈ ns, look (refillOne v b n).dir.slots m = look b.dir.slots m := fun m hm => by
          rw [hone.slots, if_neg (by rintro h; exact hout (List.mem_singleton.mp h ▸ hm))]
        have hgo := ih (b := refillOne v b n) hrest fun m hm => by rw [hsame m hm]; exact hlater m hm
        rw [List.filter_congr fun m hm => by rw [hsame m hm], hone.queue, List.length_append] at hgo
        rw [show 64 - b.dir.queue.length = (64 - (b.dir.queue.length + 1)) + 1 by omega, List.take_succ_cons]
        exact hone.cons hgo fun hm => hout (List.mem_of_mem_filter (List.mem_of_mem_take hm))
      · have hskip : refillOne v b n = b := if_neg fun h => hl h.2
        have hfull : 64 - b.dir.queue.length = 0 := by omega
        have hgo := ih hrest hlater
        rw [hfull, List.take_zero] at hgo ⊢
        rwa [hskip]
    · have hskip : refillOne v b n = b := if_neg fun h => ho h.1
      rw [List.filter_cons_of_neg (by simp [ho]), hskip]
      exact ih hrest hlater

theorem refill_filled (v : View) {b : Books}
    (hne : ∀ n, (look b.dir.slots n).advice = .owed → (look b.dir.slots n).chosen ≠ (look b.dir.slots n).reported) :
    b.Filled v (b.dir.owing.take (64 - b.dir.queue.length)) (refill v b) :=
  foldl_refillOne_filled v (List.nodup_finRange 512) fun n _ => hne n

/-! ## Take Advice (R133, R134) -/

/-- The directory once the oldest k records are taken and reported, before places are filled (R133). -/
def Dir.take (k : Nat) (d : Dir) : Dir := reportAll (d.queue.take k) { d with queue := d.queue.drop k }

/-- The slots that fill the places of k records: the first OWED ones, as many as there is room for (R134). -/
def Dir.fillers (k : Nat) (d : Dir) : List SlotNo := d.owing.take (64 - (d.queue.drop k).length)

theorem Dir.take_queue (k : Nat) (d : Dir) : (d.take k).queue = d.queue.drop k := (reportAll_frame _ _).2

theorem mem_fillers {k : Nat} {d : Dir} {n : SlotNo} (hn : n ∈ d.fillers k) : (look d.slots n).advice = .owed :=
  mem_owing.mp (List.mem_of_mem_take hn)

theorem adviceFor_slots (v : View) (d : Dir) (ns : List SlotNo) :
    (ns.map (fun n => adviceFor v n (look d.slots n))).map Advice.slot = ns := by
  simp [Function.comp_def, adviceFor]

theorem takeAdvice_eq (v : View) (k : Nat) (d : Dir) :
    takeAdvice v k d = (refill v { dir := d.take k, raised := 0 }, d.queue.take k) := rfl

/-- The roles of a RETIRING slot are vacant (R104, R113). -/
theorem DirectoryRight.vacant_of_retiring {cells : Vector Cell 576} {d : Dir} {n : SlotNo} (h : DirectoryRight cells d)
    (hr : (look d.slots n).state = .retiring) : (look d.slots n).chosen = none ∧ (look d.slots n).pin = none := by
  have hn := (directoryRight_iff.mp h).settled n (not_awaits_noSlot d n)
  refine ⟨(hn.retiring hr).1, Option.eq_none_iff_forall_not_mem.mpr fun c hc => ?_⟩
  have hkeeps := h.keeps_of_holds (hn.pin c hc)
  rw [hr] at hkeeps
  cases hkeeps

section
variable {cells : Vector Cell 576} {d : Dir} {k : Nat} {n : SlotNo} (h : DirectoryRight cells d)
include h

/-- A record taken is that of a QUEUED slot (R126). -/
theorem queued_of_mem_take {a : Advice} (ha : a ∈ d.queue.take k) : (look d.slots a.slot).advice = .queued :=
  ((directoryRight_iff.mp h).queue.queued a.slot).mpr (List.mem_map_of_mem (List.mem_of_mem_take ha))

theorem look_take_of_mem {a : Advice} (ha : a ∈ d.queue.take k) :
    look (d.take k).slots a.slot = (look d.slots a.slot).told a :=
  look_reportAll_of_mem ((directoryRight_iff.mp h).queue.nodup.sublist ((List.take_sublist _ _).map _)) ha

/-- A slot whose record is taken is told; every other one stays. -/
theorem look_take_cases (k : Nat) (n : SlotNo) :
    look (d.take k).slots n = look d.slots n
      ∨ (look d.slots n).advice = .queued ∧ ∃ a, look (d.take k).slots n = (look d.slots n).told a := by
  by_cases hn : n ∈ (d.queue.take k).map Advice.slot
  · obtain ⟨a, ha, rfl⟩ := List.mem_map.mp hn
    exact .inr ⟨queued_of_mem_take h ha, a, look_take_of_mem h ha⟩
  · exact .inl (look_reportAll_of_notMem hn)

theorem look_take_of_owed (ho : (look d.slots n).advice = .owed) : look (d.take k).slots n = look d.slots n := by
  rcases look_take_cases h k n with hn | ⟨hq, -⟩
  · exact hn
  · rw [ho] at hq
    cases hq

/-- Taking records makes no slot OWED, nor ends it (R133). -/
theorem take_owed_iff : (look (d.take k).slots n).advice = .owed ↔ (look d.slots n).advice = .owed := by
  rcases look_take_cases h k n with hn | ⟨hq, a, ha⟩
  · rw [hn]
  · rw [ha, Slot.told_advice, hq]
    decide

theorem look_take_roles (k : Nat) (n : SlotNo) :
    (look (d.take k).slots n).chosen = (look d.slots n).chosen ∧ (look (d.take k).slots n).pin = (look d.slots n).pin := by
  rcases look_take_cases h k n with hn | ⟨-, a, ha⟩
  · rw [hn]
    exact ⟨rfl, rfl⟩
  · rw [ha]
    rcases Slot.told_cases a (look d.slots n) with ⟨hr, ht⟩ | ⟨-, ht⟩
    · obtain ⟨hchosen, hpin⟩ := h.vacant_of_retiring hr
      rw [ht, hchosen, hpin]
      exact ⟨rfl, rfl⟩
    · rw [ht]
      exact ⟨rfl, rfl⟩

/-- The books `r` are the directory with k records taken and reported, and with the places filled (R133, R134). -/
def Dir.Taken (v : View) (k : Nat) (d : Dir) (r : Books) : Prop :=
  ({ dir := d.take k, raised := 0 } : Books).Filled v (d.fillers k) r

theorem takeAdvice_taken (v : View) (k : Nat) : d.Taken v k (takeAdvice v k d).1 := by
  have howed : ∀ n, (look (d.take k).slots n).advice = .owed →
      (look (d.take k).slots n).chosen ≠ (look (d.take k).slots n).reported := fun n ho => by
    have ho' := (take_owed_iff h).mp ho
    rw [look_take_of_owed h ho']
    exact (directoryRight_iff.mp h).queue.owed n (not_noSlot n) ho'
  have howing : (d.take k).owing = d.owing :=
    List.filter_congr fun n _ => by rw [Bool.eq_iff_iff, beq_iff_eq, beq_iff_eq, take_owed_iff h]
  simpa only [Dir.Taken, takeAdvice_eq, Dir.fillers, howing, Dir.take_queue] using
    refill_filled v (b := { dir := d.take k, raised := 0 }) howed

variable {v : View} {r : Books} (hr : d.Taken v k r)
include hr

/-- The slots after the filling: the fillers QUEUED, the others as the report left them. -/
theorem Dir.Taken.look_slot (n : SlotNo) :
    look r.dir.slots n =
      if n ∈ d.fillers k then { look d.slots n with advice := .queued } else look (d.take k).slots n := by
  rw [hr.slots]
  split
  · next hn => rw [look_take_of_owed h (mem_fillers hn)]
  · rfl

theorem Dir.Taken.queue_eq :
    r.dir.queue = d.queue.drop k ++ (d.fillers k).map (fun n => adviceFor v n (look d.slots n)) := by
  have hrecords : (d.fillers k).map (fun n => adviceFor v n (look (d.take k).slots n))
      = (d.fillers k).map (fun n => adviceFor v n (look d.slots n)) :=
    List.map_congr_left fun n hn => by rw [look_take_of_owed h (mem_fillers hn)]
  rw [hr.queue, hrecords, Dir.take_queue]

/-- Only a full queue leaves a slot OWED (R134). -/
theorem Dir.Taken.not_owed (hroom : r.dir.queue.length < 64) (n : SlotNo) : (look r.dir.slots n).advice ≠ .owed := by
  rw [hr.queue_eq h, List.length_append, List.length_map, Dir.fillers, List.length_take] at hroom
  have hall : d.fillers k = d.owing := List.take_of_length_le (by omega)
  rw [hr.look_slot h, hall]
  split
  · simp
  · next hn => exact fun ho => hn (mem_owing.mpr ((take_owed_iff h).mp ho))

/-- An OWED slot is QUEUED when it fills a place, and waits otherwise (R134). -/
theorem Dir.Taken.look_owed (ho : (look d.slots n).advice = .owed) :
    look r.dir.slots n = if n ∈ d.fillers k then { look d.slots n with advice := .queued } else look d.slots n := by
  rw [hr.look_slot h, look_take_of_owed h ho]

/-- A slot whose record was taken fills no place. -/
theorem Dir.Taken.look_told {a : Advice} (ha : a ∈ d.queue.take k) :
    look r.dir.slots a.slot = (look d.slots a.slot).told a := by
  have hqueued := queued_of_mem_take h ha
  have hout : a.slot ∉ d.fillers k := fun hn => by
    rw [mem_fillers hn] at hqueued
    cases hqueued
  rw [hr.look_slot h, if_neg hout, look_take_of_mem h ha]

theorem Dir.Taken.roles (n : SlotNo) :
    (look r.dir.slots n).chosen = (look d.slots n).chosen ∧ (look r.dir.slots n).pin = (look d.slots n).pin := by
  rw [hr.look_slot h]
  split
  · exact ⟨rfl, rfl⟩
  · exact look_take_roles h k n

end

theorem Dir.Taken.pool_eq {v : View} {k : Nat} {d : Dir} {r : Books} (hr : d.Taken v k r) : r.dir.pool = d.pool :=
  hr.pool.trans (reportAll_frame _ _).1

/-- ADVICE_READY is set by an append to the emptied queue (R132). -/
theorem Dir.Taken.raised_eq {v : View} {k : Nat} {d : Dir} {r : Books} (hr : d.Taken v k r) :
    r.raised = if d.queue.drop k = [] ∧ d.fillers k ≠ [] then 0x001#12 else 0 := by
  rw [hr.raised, Dir.take_queue]
  simp [Condition.bit]

theorem runTakeAdvice_refused {p : List Byte} (s : State) (h : byteAt p 0 = 0 ∨ 8 < byteAt p 0) :
    runTakeAdvice p s = refuse s .badValue := if_neg (by omega)

theorem runTakeAdvice_ok {p : List Byte} {k : Nat} {s : State} {r : Books} (hk : byteAt p 0 = k) (h1 : 1 ≤ k) (h8 : k ≤ 8)
    (hr : (takeAdvice s.view k s.plant.dir).1 = r) :
    runTakeAdvice p s = ok (s.enter r) (bTaken (s.plant.dir.queue.take k) r.dir) := by
  subst hk hr
  exact if_pos ⟨h1, h8⟩

/-- Settles O41: the books are those of `Dir.Taken`, and its lemmas say what the report and the filling leave. -/
theorem takeAdviceReportsTheOldest : Obligations.TakeAdviceReportsTheOldest := by
  unfold Obligations.TakeAdviceReportsTheOldest
  intro f b s hd hs hp
  refine ⟨fun hbad => next_served_at (v := svcTakeAdvice) hs hp rfl (by simp)
    (runTakeAdvice_refused (p := [b]) s hbad), fun h1 h8 => ?_⟩
  -- The books by a name, so that no comparison of terms runs the filling.
  obtain ⟨r, hbooks, hr⟩ : ∃ r, (takeAdvice s.view b.toNat s.plant.dir).1 = r ∧ s.plant.dir.Taken s.view b.toNat r :=
    ⟨_, rfl, takeAdvice_taken hd s.view b.toNat⟩
  obtain ⟨hout, hcells, hlanes, -⟩ := enter_keeps s r
  refine ⟨s.enter r, _,
    next_served_at (v := svcTakeAdvice) hs hp rfl (by simp) (runTakeAdvice_ok (p := [b]) rfl h1 h8 hbooks),
    hout, hcells, hlanes, hr.pool_eq, hr.queue_eq hd, rfl, fun n ho => ?_, ?_, hr.not_owed hd, fun a ha => ?_, hr.roles hd⟩
  · rw [adviceFor_slots]
    exact hr.look_owed hd ho
  · rw [State.enter_plant, hr.raised_eq]
    simp only [ne_eq, List.map_eq_nil_iff]
  · rw [State.enter_plant, hr.look_told hd ha]
    exact Slot.told_cases a _

end Sys2Proof.Machine
end

section
/-! SUPPORT. The watch schedule and the survey engine's requests: the cell offered to the arbiter, the moves of the survey
state, Spot Measure and Clear Survey; the statement of each. -/

namespace Sys2Proof.Machine

/-! ## The watch cell offered (R145, R149) -/

theorem dueAndFree_eq_some {now : Time} {p : Plant} {c : CellRef} {t : Time} :
    dueAndFree now p c = some t ↔
      (look p.cells c).engaged = none ∧ (look p.cells c).due = some t ∧ t.toNat ≤ now.toNat := by
  unfold dueAndFree
  dsimp only
  split
  · next h => simp [h, Option.filter_eq_some_iff]
  · next h => simp [h]

theorem mem_filterMap_dueAndFree {now : Time} {p : Plant} {x : CellRef × Time} :
    x ∈ (List.finRange 576).filterMap (fun c => (dueAndFree now p c).map (fun t => (c, t)))
      ↔ dueAndFree now p x.1 = some x.2 := by
  obtain ⟨c, t⟩ := x
  simp [List.mem_filterMap, Option.map_eq_some_iff]

theorem dueBefore_iff {a b : CellRef × Time} :
    dueBefore a b = true ↔ a.2.toNat < b.2.toNat ∨ (a.2.toNat = b.2.toNat ∧ a.1.val < b.1.val) := by
  simp only [dueBefore, Bool.or_eq_true, Bool.and_eq_true, decide_eq_true_eq, beq_iff_eq, BitVec.toNat_inj, Fin.lt_def]

theorem dueBefore_eq_false_iff {a b : CellRef × Time} :
    dueBefore a b = false ↔ b.2.toNat < a.2.toNat ∨ (b.2.toNat = a.2.toNat ∧ b.1.val ≤ a.1.val) := by
  rw [← Bool.not_eq_true, dueBefore_iff]
  omega

/-- The best by due time, then position, is the element that no other comes before. -/
theorem best_dueBefore_iff {xs : List (CellRef × Time)} {x : CellRef × Time} :
    best dueBefore xs = some x ↔ x ∈ xs ∧ ∀ y ∈ xs, dueBefore y x = false := by
  refine ⟨fun h => ⟨best_mem h, best_le (fun a b c => ?_) (fun a => ?_) (fun a b => ?_) h⟩,
    fun ⟨hx, hle⟩ => best_eq hx fun y hy hne => ⟨?_, hle y hy⟩⟩
  · simp only [dueBefore_eq_false_iff]; omega
  · rw [dueBefore_eq_false_iff]; omega
  · rw [dueBefore_iff, dueBefore_eq_false_iff]; omega
  · have hne' : ¬ (y.1.val = x.1.val ∧ y.2.toNat = x.2.toNat) := fun ⟨hc, ht⟩ =>
      hne (Prod.ext (Fin.ext hc) (BitVec.eq_of_toNat_eq ht))
    have hyx := hle y hy
    rw [dueBefore_eq_false_iff] at hyx
    rw [dueBefore_iff]
    omega

theorem watchOffer_eq_some {now : Time} {p : Plant} {c : CellRef} :
    watchOffer now p = some c ↔
      ∃ t, dueAndFree now p c = some t ∧ ∀ k u, dueAndFree now p k = some u → dueBefore (k, u) (c, t) = false := by
  simp only [watchOffer, Option.map_eq_some_iff, best_dueBefore_iff, mem_filterMap_dueAndFree, Prod.exists, Prod.forall]
  exact ⟨fun ⟨_, t, h, hc⟩ => ⟨t, hc ▸ h⟩, fun ⟨t, h⟩ => ⟨c, t, h, rfl⟩⟩

theorem watchOffer_eq_none {now : Time} {p : Plant} :
    watchOffer now p = none ↔ ∀ c t, dueAndFree now p c ≠ some t := by
  rw [watchOffer, Option.map_eq_none_iff, best_none, List.eq_nil_iff_forall_not_mem]
  simp only [mem_filterMap_dueAndFree, Prod.forall, ne_eq]

/-- Settles O47: the offer is the best of the due cells under the order of due time, then position. -/
theorem watchOfferIsTheEarliestDue : Obligations.WatchOfferIsTheEarliestDue := by
  unfold Obligations.WatchOfferIsTheEarliestDue
  intro now p isDue
  have hdue : ∀ c t, isDue c t ↔ dueAndFree now p c = some t := fun _ _ => dueAndFree_eq_some.symm
  refine ⟨fun c => ?_, ?_⟩
  · simp only [watchOffer_eq_some, hdue, dueBefore_eq_false_iff, BitVec.toNat_inj, Fin.le_def]
  · simp only [watchOffer_eq_none, hdue, ne_eq]

/-! ## Yes and no in a payload -/

theorem yesNoAt_eq {p : List Byte} {i : Nat} {b : Bool} (h : p.getD i 0 = if b then 1 else 0) :
    yesNoAt p i = some b := by
  unfold yesNoAt byteAt
  rw [h]
  cases b <;> rfl

theorem yesNoAt_refused {p : List Byte} {i : Nat} (h : 2 ≤ byteAt p i) : yesNoAt p i = none := by
  rw [yesNoAt, if_neg (by omega), if_neg (by omega)]

/-! ## Start, Halt, Continue and Set Survey Mode (R138 to R141) -/

theorem haltedState_busy {p : Plant} (h : p.survey.state = .running ∨ p.survey.state = .paused)
    (hb : p.lanes.toList.any LaneRec.surveying = true) : haltedState p = .draining := by
  unfold haltedState
  rcases h with h | h <;> simp only [h, hb, if_true]

theorem haltedState_calm {p : Plant} (h : p.survey.state = .running ∨ p.survey.state = .paused)
    (hb : p.lanes.toList.any LaneRec.surveying = false) : haltedState p = .stopped := by
  unfold haltedState
  rcases h with h | h <;> simp only [h, hb, Bool.false_eq_true, if_false]

theorem haltedState_same {p : Plant} (h : p.survey.state = .stopped ∨ p.survey.state = .draining) :
    haltedState p = p.survey.state := by
  unfold haltedState
  rcases h with h | h <;> simp only [h]

theorem runHaltSurvey_eq (p : List Byte) {s : State} {k : SurveyState} (h : haltedState s.plant = k) :
    runHaltSurvey p s = ok (s.setSurvey { s.plant.survey with state := k }) (b1 k.code) := by
  rw [runHaltSurvey, h]

theorem runContinue_paused (p : List Byte) {s : State} (h : s.plant.survey.state = .paused) :
    runContinue p s = ok (s.setSurvey { s.plant.survey with state := .running }) [] := if_pos h

theorem runContinue_refused (p : List Byte) {s : State} (h : s.plant.survey.state ≠ .paused) :
    runContinue p s = refuse s .wrongState := if_neg h

theorem runSetSurveyMode_ok {p : List Byte} {st au : Bool} (s : State) (hst : yesNoAt p 0 = some st)
    (hau : yesNoAt p 1 = some au) :
    runSetSurveyMode p s = ok (s.setSurvey { s.plant.survey with stepMode := st, autoResume := au }) [] := by
  simp only [runSetSurveyMode, hst, hau]

theorem runSetSurveyMode_refused {p : List Byte} (s : State) (h : 2 ≤ byteAt p 0 ∨ 2 ≤ byteAt p 1) :
    runSetSurveyMode p s = refuse s .badValue := by
  unfold runSetSurveyMode
  rcases h with h | h
  · rw [yesNoAt_refused h]
  · rw [yesNoAt_refused h]
    cases yesNoAt p 0 <;> rfl

/-- Settles O42: request by request; Halt Survey by the survey state and the lanes in a survey visit. -/
theorem surveyStateRequests : Obligations.SurveyStateRequests := by
  unfold Obligations.SurveyStateRequests
  intro f s hs v busy
  refine ⟨fun hp => ⟨?_, fun h hb => ?_, fun h hb => ?_, fun h => ?_, fun h => ?_, fun h => ?_⟩,
    fun a b hp => ⟨fun st au ha hb => ?_, fun h => ?_⟩⟩
  · exact next_served_at (v := svcStartSurvey) hs hp rfl (by simp) rfl
  · exact next_served_at (v := svcHaltSurvey) hs hp rfl (by simp) (runHaltSurvey_eq [] (haltedState_busy h hb))
  · exact next_served_at (v := svcHaltSurvey) hs hp rfl (by simp) (runHaltSurvey_eq [] (haltedState_calm h hb))
  · exact next_served_at (v := svcHaltSurvey) hs hp rfl (by simp) (runHaltSurvey_eq [] (haltedState_same h))
  · exact next_served_at (v := svcContinue) hs hp rfl (by simp) (runContinue_paused [] h)
  · exact next_served_at (v := svcContinue) hs hp rfl (by simp) (runContinue_refused [] h)
  · exact next_served_at (v := svcSetSurveyMode) hs hp rfl (by simp)
      (runSetSurveyMode_ok s (yesNoAt_eq ha) (yesNoAt_eq hb))
  · exact next_served_at (v := svcSetSurveyMode) hs hp rfl (by simp) (runSetSurveyMode_refused s h)

/-! ## Spot Measure (R142) -/

/-- A cell reference laid out at the front of a payload, read back. -/
theorem cellRefAt_bCell (c : CellRef) (rest : List Byte) : cellRefAt (bCell c ++ rest) 0 = some c :=
  cellRefAt_eq ((BitVec.toNat_ofNat _ _).trans (Nat.mod_eq_of_lt (by omega)))
    ((BitVec.toNat_ofNat _ _).trans (Nat.mod_eq_of_lt (by omega)))

theorem runSpotMeasure_outOfRange {p : List Byte} (s : State)
    (h : 6 ≤ byteAt p 0 ∨ 96 ≤ byteAt p 1 ∨ 2 ≤ byteAt p 2 ∨ 600 < halfAt p 3) :
    runSpotMeasure p s = refuse s .badValue := by
  unfold runSpotMeasure
  split
  · next c trim hc htrim =>
    have hhold : 600 < halfAt p 3 := by
      rcases h with h | h | h | h
      · rw [cellRefAt_refused (.inl h)] at hc; cases hc
      · rw [cellRefAt_refused (.inr h)] at hc; cases hc
      · rw [yesNoAt_refused h] at htrim; cases htrim
      · exact h
    exact if_pos hhold
  · rfl

section
variable {p : List Byte} {s : State} {c : CellRef} {trim : Bool}
  (hc : cellRefAt p 0 = some c) (htrim : yesNoAt p 2 = some trim)
include hc htrim

theorem runSpotMeasure_closed (hk : (look s.plant.cells c).state = .vacant ∨ (look s.plant.cells c).state = .barred) :
    runSpotMeasure p s = refuse s .badValue := by
  simp only [runSpotMeasure, hc, htrim, if_pos hk, ite_self]

variable (hhold : ¬ 600 < halfAt p 3)
  (hopen : ¬ ((look s.plant.cells c).state = .vacant ∨ (look s.plant.cells c).state = .barred))
include hhold hopen

theorem runSpotMeasure_noHolds (hasks : 0 < halfAt p 3 ∧ s.settings.watch.holdLimit = 0) :
    runSpotMeasure p s = refuse s .wrongState := by
  simp only [runSpotMeasure, hc, htrim, if_neg hhold, if_neg hopen, if_pos hasks]

theorem runSpotMeasure_full (hmay : ¬ (0 < halfAt p 3 ∧ s.settings.watch.holdLimit = 0))
    (hfull : 4 ≤ s.plant.survey.spots.length) : runSpotMeasure p s = refuse s .full := by
  simp only [runSpotMeasure, hc, htrim, if_neg hhold, if_neg hopen, if_neg hmay, if_pos hfull]

theorem runSpotMeasure_ok (hmay : ¬ (0 < halfAt p 3 ∧ s.settings.watch.holdLimit = 0))
    (hroom : ¬ 4 ≤ s.plant.survey.spots.length) :
    runSpotMeasure p s = ok (s.setSurvey (addSpot c trim (halfAt p 3) s.plant.survey))
      ([s.plant.survey.ticket] ++ b1 (s.plant.survey.spots.length + 1)) := by
  simp only [runSpotMeasure, hc, htrim, if_neg hhold, if_neg hopen, if_neg hmay, if_neg hroom]

end

/-- Settles O44: one lemma per answer, in the order of the checks. -/
theorem spotMeasureQueuesASpot : Obligations.SpotMeasureQueuesASpot := by
  unfold Obligations.SpotMeasureQueuesASpot
  refine ⟨fun f s hs hlen h => next_served (v := svcSpotMeasure) hs (by omega) (by rw [hlen]; rfl)
    (runSpotMeasure_outOfRange s h), fun f c tr lo hi s hs hp => ?_⟩
  have hc := cellRefAt_bCell c [if tr then 1 else 0, lo, hi]
  have htrim : yesNoAt (bCell c ++ [if tr then 1 else 0, lo, hi]) 2 = some tr := yesNoAt_eq rfl
  intro hold v k
  have hmay : hold = 0 ∨ 0 < s.settings.watch.holdLimit → ¬ (0 < hold ∧ s.settings.watch.holdLimit = 0) := by omega
  refine ⟨fun h => ?_, fun hh hv hb hasks hlimit => ?_, fun hh hv hb h hfull => ?_, fun hh hv hb h hroom => ?_⟩
  · refine next_served_at (v := svcSpotMeasure) hs hp rfl (by simp [bCell, b1]) ?_
    rcases h with h | h
    · exact runSpotMeasure_outOfRange s (.inr (.inr (.inr h)))
    · exact runSpotMeasure_closed hc htrim h
  · exact next_served_at (v := svcSpotMeasure) hs hp rfl (by simp [bCell, b1])
      (runSpotMeasure_noHolds hc htrim (not_lt.mpr hh) (not_or.mpr ⟨hv, hb⟩) ⟨hasks, hlimit⟩)
  · exact next_served_at (v := svcSpotMeasure) hs hp rfl (by simp [bCell, b1])
      (runSpotMeasure_full hc htrim (not_lt.mpr hh) (not_or.mpr ⟨hv, hb⟩) (hmay h) hfull)
  · exact next_served_at (v := svcSpotMeasure) hs hp rfl (by simp [bCell, b1])
      (runSpotMeasure_ok hc htrim (not_lt.mpr hh) (not_or.mpr ⟨hv, hb⟩) (hmay h) (not_le.mpr hroom))

/-! ## Clear Survey (R156) -/

/-- The lane is in a visit to the cell. -/
def LaneRec.visits (x : LaneRec) (c : CellRef) : Bool := x.inVisit && x.cell == some c

theorem visits_iff {x : LaneRec} {c : CellRef} : x.visits c = true ↔ x.inVisit = true ∧ x.cell = some c := by
  simp [LaneRec.visits]

/-- A cell whose visit was ended ABANDONED by Clear Survey. -/
def Cell.abandonedAt (now : Time) (x : Cell) : Cell := { x with lastOutcome := some .abandoned, lastTime := now }

theorem abandonedAt_abandonedAt (now : Time) (x : Cell) : (x.abandonedAt now).abandonedAt now = x.abandonedAt now := rfl

/-- What clearing a lane leaves of it depends on the lane alone. -/
theorem clearLane_own_congr (now : Time) {p q : Plant} {l : Lane} (h : look q.lanes l = look p.lanes l) :
    look (clearLane now q l).lanes l = look (clearLane now p l).lanes l := by
  rw [clearLane_lane, clearLane_lane, h]

theorem clearLane_other (now : Time) (p : Plant) {l k : Lane} (h : k ≠ l) :
    look (clearLane now p l).lanes k = look p.lanes k := by
  rw [clearLane_lane, if_neg h]

/-- One lane cleared: its visit's cell is marked, no other changes. -/
theorem clearLane_look_cell (now : Time) (p : Plant) (l : Lane) (c : CellRef) :
    look (clearLane now p l).cells c =
      if (look p.lanes l).visits c then (look p.cells c).abandonedAt now else look p.cells c := by
  simp only [visits_iff]
  unfold clearLane
  dsimp only
  split
  · next d hv hd =>
    rw [Plant.setCell_cells]
    by_cases h : c = d
    · subst h
      rw [if_pos ⟨hv, hd⟩, look_put_self]
      rfl
    · rw [if_neg fun hx => h (Option.some.inj (hx.2.symm.trans hd)), look_put_ne _ _ h]
      rfl
  · next hv hd =>
    rw [if_neg fun hx => Option.some_ne_none c (hx.2.symm.trans hd)]
    rfl
  · next hv =>
    have hno : ¬ ((look p.lanes l).inVisit = true ∧ (look p.lanes l).cell = some c) := by simp [hv]
    rw [if_neg hno]
    split <;> rfl

/-- A run over lanes clears each as it stood before the run. -/
theorem foldl_clearLane_lane (now : Time) {ls : List Lane} (hls : ls.Nodup) (p : Plant) (k : Lane) :
    look (ls.foldl (clearLane now) p).lanes k =
      if k ∈ ls then look (clearLane now p k).lanes k else look p.lanes k := by
  induction ls generalizing p with
  | nil => simp
  | cons l ls ih =>
    obtain ⟨hl, hls⟩ := List.nodup_cons.mp hls
    rw [List.foldl_cons, ih hls]
    by_cases hk : k = l
    · subst hk
      rw [if_neg hl, if_pos List.mem_cons_self]
    · have hother := clearLane_other now p hk
      simp only [List.mem_cons, hk, false_or, hother, clearLane_own_congr now hother]

/-- A run over lanes marks the cells that their visits were to. -/
theorem foldl_clearLane_cell (now : Time) {ls : List Lane} (hls : ls.Nodup) (p : Plant) (c : CellRef) :
    look (ls.foldl (clearLane now) p).cells c =
      if ∃ l ∈ ls, (look p.lanes l).visits c then (look p.cells c).abandonedAt now else look p.cells c := by
  induction ls generalizing p with
  | nil => simp
  | cons l ls ih =>
    obtain ⟨hl, hls⟩ := List.nodup_cons.mp hls
    have hrest : (∃ k ∈ ls, (look (clearLane now p l).lanes k).visits c) ↔ ∃ k ∈ ls, (look p.lanes k).visits c :=
      exists_congr fun k => and_congr_right fun hk => by
        rw [clearLane_other now p (fun e : k = l => hl (e ▸ hk))]
    rw [List.foldl_cons, ih hls, clearLane_look_cell]
    simp only [hrest, List.exists_mem_cons_iff]
    by_cases hv : (look p.lanes l).visits c = true
    · simp only [hv, if_true, true_or, abandonedAt_abandonedAt, ite_self]
    · simp only [hv, if_false, false_or, Bool.false_eq_true]

theorem clearSurvey_lane (now : Time) (p : Plant) (l : Lane) :
    look (clearSurvey now p).lanes l = look (clearLane now p l).lanes l := by
  unfold clearSurvey
  dsimp only
  rw [foldl_clearLane_lane now (List.nodup_finRange 8), if_pos (List.mem_finRange l)]

theorem clearSurvey_cell (now : Time) (p : Plant) (c : CellRef) :
    look (clearSurvey now p).cells c =
      (if ∃ l, (look p.lanes l).visits c then (look p.cells c).abandonedAt now else look p.cells c).cleared := by
  rw [clearSurvey, look_table, foldl_clearLane_cell now (List.nodup_finRange 8)]
  simp only [List.mem_finRange, true_and]

theorem clearSurvey_survey (now : Time) (p : Plant) :
    (clearSurvey now p).survey =
      { p.survey with
        state := .stopped, stepped := 0, passes := 0, share := 0, cursor := 0, spots := [], results := [] } := by
  have hsame : ((List.finRange 8).foldl (clearLane now) p).survey = p.survey :=
    foldl_clearLane (R := fun p q => q.survey = p.survey) (fun _ => rfl) (fun h h' => h'.trans h)
      (clearLane_survey now) _ p
  rw [clearSurvey, hsame]

theorem clearLane_notice (now : Time) (p : Plant) (l : Lane) : (clearLane now p l).notice = p.notice := by
  unfold clearLane
  dsimp only
  split
  · rfl
  · rfl
  · split <;> rfl

theorem clearSurvey_notice (now : Time) (p : Plant) : (clearSurvey now p).notice = p.notice := by
  have hsame : ((List.finRange 8).foldl (clearLane now) p).notice = p.notice :=
    foldl_clearLane (R := fun p q => q.notice = p.notice) (fun _ => rfl) (fun h h' => h'.trans h)
      (clearLane_notice now) _ p
  rw [clearSurvey, hsame]

theorem clearLane_engaged (now : Time) {p : Plant} {l : Lane}
    (h : (look p.lanes l).inVisit = true ∨ (look p.lanes l).state = .held) :
    (look (clearLane now p l).lanes l).state = .idle ∧ (look (clearLane now p l).lanes l).cell = none := by
  rw [clearLane_lane, if_pos rfl]
  cases hv : (look p.lanes l).inVisit with
  | true => cases (look p.lanes l).cell <;> exact ⟨rfl, rfl⟩
  | false =>
    have hh : (look p.lanes l).state = .held := h.resolve_left (by simp [hv])
    dsimp only
    rw [if_pos hh]
    exact ⟨rfl, rfl⟩

theorem clearLane_calm (now : Time) {p : Plant} {l : Lane} (hv : (look p.lanes l).inVisit = false)
    (hh : (look p.lanes l).state ≠ .held) : look (clearLane now p l).lanes l = look p.lanes l := by
  rw [clearLane_lane, if_pos rfl, hv]
  exact if_neg hh

theorem clearLane_record (now : Time) {p : Plant} {l : Lane} {c : CellRef} (h : (look p.lanes l).visits c) :
    (look (clearLane now p l).lanes l).record = some (clearedRecord now l c (look p.lanes l)) := by
  obtain ⟨hv, hc⟩ := visits_iff.mp h
  rw [clearLane_lane, if_pos rfl, hv, hc]

/-- Step 2 of R156 on a cell, by its state; its last outcome and last time stay, whatever step 1 made of them. -/
theorem cleared_marked (x : Cell) (o : Option VisitOutcome) (t : Time) :
    let y := Cell.cleared { x with lastOutcome := o, lastTime := t }
    (y.defn = x.defn ∧ y.lastScore = x.lastScore ∧ y.margin = x.margin ∧ y.refused = x.refused)
      ∧ (x.state ≠ .vacant → x.state ≠ .barred →
          y.state = .unseen ∧ y.q = none ∧ y.fails = 0 ∧ y.roster = none ∧ y.due = none ∧ y.engaged = none)
      ∧ (x.state = .vacant ∨ x.state = .barred → y.state = x.state ∧ y.q = x.q ∧ y.engaged = x.engaged)
      ∧ y.lastOutcome = o ∧ y.lastTime = t := by
  intro y
  by_cases h : x.state = .vacant ∨ x.state = .barred
  · have hy : y = { x with lastOutcome := o, lastTime := t } := if_pos h
    rw [hy]
    exact ⟨⟨rfl, rfl, rfl, rfl⟩, fun hv hb => absurd h (not_or.mpr ⟨hv, hb⟩), fun _ => ⟨rfl, rfl, rfl⟩, rfl, rfl⟩
  · have hy : y = { x with
        state := .unseen, q := none, lastOutcome := o, lastTime := t, fails := 0, roster := none, due := none
        engaged := none } := if_neg h
    rw [hy]
    exact ⟨⟨rfl, rfl, rfl, rfl⟩, fun _ _ => ⟨rfl, rfl, rfl, rfl, rfl, rfl⟩, fun h' => absurd h' h, rfl, rfl⟩

/-- Settles O43: the lanes one by one, the cells by whether a visit to them was ended. -/
theorem clearSurveyStartsOver : Obligations.ClearSurveyStartsOver := by
  unfold Obligations.ClearSurveyStartsOver
  intro f s hs hp
  refine ⟨{ s with plant := clearSurvey s.clock s.plant }, next_served_at (v := svcClearSurvey) hs hp rfl (by simp) rfl,
    ⟨rfl, rfl, rfl, rfl, rfl, rfl, rfl⟩, clearSurvey_notice _ _, rfl, clearSurvey_survey _ _, fun l => ?_, fun c => ?_⟩
  · simp only [clearSurvey_lane]
    exact ⟨clearLane_engaged s.clock, clearLane_calm s.clock,
      fun c hv hc => ⟨_, clearLane_record s.clock (visits_iff.mpr ⟨hv, hc⟩), rfl, rfl, rfl, rfl⟩⟩
  · simp only [clearSurvey_cell]
    by_cases hv : ∃ l, (look s.plant.lanes l).visits c = true
    · rw [if_pos hv]
      obtain ⟨kept, isOpen, closed, last⟩ := cleared_marked (look s.plant.cells c) (some .abandoned) s.clock
      obtain ⟨l, hl⟩ := hv
      obtain ⟨hl, hc⟩ := visits_iff.mp hl
      exact ⟨kept, isOpen, closed, fun _ => last, fun h => absurd hc (h l hl)⟩
    · rw [if_neg hv]
      obtain ⟨kept, isOpen, closed, last⟩ := cleared_marked (look s.plant.cells c) (look s.plant.cells c).lastOutcome
        (look s.plant.cells c).lastTime
      exact ⟨kept, isOpen, closed, fun ⟨l, h⟩ => absurd ⟨l, visits_iff.mpr h⟩ hv, fun _ => last⟩

end Sys2Proof.Machine
end

section
/-! SUPPORT. Holds: the refresh of the live reading, the loss of lock, the renewal and the two ends; their statement. -/

namespace Sys2Proof.Machine

/-! ## The refresh (R151) -/

theorem means_of_read {g : Gathered} (draw : Nat) (h : 1 ≤ g.n) :
    g.means draw = { level := g.level / g.n, mer := g.mer / g.n, load := g.load / g.n, blocks := g.blocks } :=
  if_neg (Nat.one_le_iff_ne_zero.mp h)

theorem drawsAfter_of_read {g : Gathered} (draw : Nat) (h : 1 ≤ g.n) : g.drawsAfter draw = draw :=
  if_neg (Nat.one_le_iff_ne_zero.mp h)

theorem refreshed_eq {x : LaneRec} {v : LiveReading} (m : Measurement) (h : x.live = some v) :
    x.refreshed m =
      if x.lockHeld then
        { lock := true, level := some m.level, mer := some m.mer, load := some m.load
          blocks := min 65535 (v.blocks + m.blocks) }
      else { lock := false, level := none, mer := none, load := none, blocks := v.blocks } := by
  rw [LaneRec.refreshed, h]
  rfl

theorem refreshTimeout_held {l : Lane} {s : State} (hs : (look s.plant.lanes l).state = .held)
    (ht : (look s.plant.lanes l).refreshTimer.isSome = true) :
    refreshTimeout l s =
      { s with
        plant := s.plant.setLane l ((look s.plant.lanes l).refreshStep ((look s.plant.lanes l).gathered.means s.draws))
        draws := (look s.plant.lanes l).gathered.drawsAfter s.draws } :=
  if_pos ⟨hs, ht⟩

/-! ## Loss of lock and the expiry (R151, R153) -/

theorem lockLost_held {g : Settings} {now : Time} {l : Lane} {p : Plant} (h : (look p.lanes l).state = .held) :
    lockLost l g now p = p.setLane l (look p.lanes l).heldLoss := by
  simp only [lockLost, h]

theorem holdOver_iff {x : LaneRec} {e now : Time} (hs : x.state = .held) (he : x.holdExpiry = some e) :
    x.holdOver now = true ↔ e.toNat ≤ now.toNat := by
  simp [LaneRec.holdOver, he, hs]

theorem holdTimeout_early {g : Settings} {now e : Time} {l : Lane} {p : Plant} (hs : (look p.lanes l).state = .held)
    (he : (look p.lanes l).holdExpiry = some e) (h : now.toNat < e.toNat) : holdTimeout l g now p = p :=
  if_neg fun hover => absurd ((holdOver_iff hs he).mp hover) (not_le.mpr h)

theorem holdTimeout_over {g : Settings} {now e : Time} {l : Lane} {p : Plant} (hs : (look p.lanes l).state = .held)
    (he : (look p.lanes l).holdExpiry = some e) (h : e.toNat ≤ now.toNat) :
    holdTimeout l g now p = (holdEnd g now l .idle true p).raise 0x008#12 :=
  if_pos ((holdOver_iff hs he).mpr h)

/-! ## Renew Hold and Release Hold (R152) -/

section
variable {p : List Byte} {s : State} {l : Lane}

theorem runRenewHold_outOfRange (s : State) (h : 8 ≤ byteAt p 0 ∨ halfAt p 1 = 0 ∨ 600 < halfAt p 1) :
    runRenewHold p s = refuse s .badValue := by
  unfold runRenewHold
  split
  · rfl
  · next l hl =>
    refine if_neg fun hsec => ?_
    rcases h with h | h
    · rw [laneAt_refused h] at hl; cases hl
    · omega

theorem runRenewHold_wrongState (hl : laneAt p 0 = some l) (h1 : 1 ≤ halfAt p 1) (h600 : halfAt p 1 ≤ 600)
    (hs : (look s.plant.lanes l).state ≠ .held) : runRenewHold p s = refuse s .wrongState := by
  simp only [runRenewHold, hl, if_pos (And.intro h1 h600), if_neg hs]

theorem runRenewHold_ok (hl : laneAt p 0 = some l) (h1 : 1 ≤ halfAt p 1) (h600 : halfAt p 1 ≤ 600)
    (hs : (look s.plant.lanes l).state = .held) :
    runRenewHold p s = ok
      { s with plant := s.plant.setLane l { look s.plant.lanes l with
          holdExpiry := some (s.clock + BitVec.ofNat 32 (halfAt p 1)) } }
      (bTime (s.clock + BitVec.ofNat 32 (halfAt p 1))) := by
  simp only [runRenewHold, hl, if_pos (And.intro h1 h600), if_pos hs]

theorem runReleaseHold_outOfRange (s : State) (h : 8 ≤ byteAt p 0) : runReleaseHold p s = refuse s .badValue := by
  rw [runReleaseHold, laneAt_refused h]

theorem runReleaseHold_wrongState (hl : laneAt p 0 = some l) (hs : (look s.plant.lanes l).state ≠ .held) :
    runReleaseHold p s = refuse s .wrongState := by
  simp only [runReleaseHold, hl, if_neg hs]

theorem runReleaseHold_ok (hl : laneAt p 0 = some l) (hs : (look s.plant.lanes l).state = .held) :
    runReleaseHold p s = ok { s with plant := holdEnd s.settings s.clock l .idle true s.plant } [] := by
  simp only [runReleaseHold, hl, if_pos hs]

end

/-! ## The statement -/

/-- Settles O31: event by event and request by request; both ends of a hold are `holdEnd`. -/
theorem holdsAreRefreshedRenewedAndEnded : Obligations.HoldsAreRefreshedRenewedAndEnded := by
  unfold Obligations.HoldsAreRefreshedRenewedAndEnded
  refine ⟨fun l v s hs ht hv hn => ?_, fun l v s hs ht hv hlost =>
      ⟨(look s.plant.lanes l).gathered.drawsAfter s.draws, ?_⟩,
    fun f b s hserves => ⟨fun lo hi hp => ⟨fun h => ?_, fun l hb h1 h600 hs => ?_⟩,
      fun hp => ⟨fun h => ?_, fun l hb hs => ?_⟩⟩,
    fun l s hs => ?_, fun l c e s hs hc he => ⟨fun h => ?_, fun f b lo hi hserves hp hb h1 h600 => ⟨_, rfl, ?_⟩,
      _, rfl, fun h => ?_, fun f b hserves hp hb => ?_⟩⟩
  · refine congrArg Host.Outcome.next ((refreshTimeout_held hs ht).trans ?_)
    rw [LaneRec.refreshStep, refreshed_eq _ hv, means_of_read _ hn, drawsAfter_of_read _ hn]
  · refine congrArg Host.Outcome.next ((refreshTimeout_held hs ht).trans ?_)
    rw [LaneRec.refreshStep, refreshed_eq _ hv, if_neg (by rw [hlost]; exact Bool.false_ne_true)]
  · exact next_served_at (v := svcRenewHold) hserves hp rfl (by simp) (runRenewHold_outOfRange (p := [b, lo, hi]) s h)
  · exact next_served_at (v := svcRenewHold) hserves hp rfl (by simp)
      (runRenewHold_wrongState (p := [b, lo, hi]) (laneAt_eq hb) h1 h600 hs)
  · exact next_served_at (v := svcReleaseHold) hserves hp rfl (by simp) (runReleaseHold_outOfRange (p := [b]) s h)
  · exact next_served_at (v := svcReleaseHold) hserves hp rfl (by simp)
      (runReleaseHold_wrongState (p := [b]) (laneAt_eq hb) hs)
  · exact congrArg (fun q => Host.Outcome.next { s with plant := q }) (lockLost_held hs)
  · exact next_work_same (holdTimeout_early hs he h)
  · exact next_served_at (v := svcRenewHold) hserves hp rfl (by simp)
      (runRenewHold_ok (p := [b, lo, hi]) (laneAt_eq hb) h1 h600 hs)
  · refine congrArg (fun q => Host.Outcome.next { s with plant := q }) ((holdTimeout_over hs he h).trans ?_)
    rw [holdEnd_some hc]
    rfl
  · refine next_served_at (v := svcReleaseHold) hserves hp rfl (by simp)
      ((runReleaseHold_ok (p := [b]) (laneAt_eq hb) hs).trans ?_)
    rw [holdEnd_some hc]
    rfl

end Sys2Proof.Machine
end

section
/-! SUPPORT. The conditions on the link (R158 to R160), restarts without a valid store (R181, R183) and the end of start-up:
their statements. -/

namespace Sys2Proof.Machine

/-! ## Read Conditions and Set Notice Mask (R158 to R160) -/

/-- With no condition set the output is released (R160). -/
theorem Notice.clear_eq (n : Notice) : n.clear = { n with conds := 0, attention := false } := by
  simp [Notice.clear, Notice.judge, Notice.due]

theorem Notice.due_iff (n : Notice) : n.due = true ↔ n.startUp = false ∧ n.conds &&& n.mask ≠ 0 := by
  simp [Notice.due]

theorem halfAt_pair (lo hi : Byte) : halfAt [lo, hi] 0 = lo.toNat + 256 * hi.toNat := rfl

theorem runSetNoticeMask_ok {lo hi : Byte} (s : State) (h : hi.toNat < 16) :
    runSetNoticeMask [lo, hi] s =
      ok { s with plant := { s.plant with
            notice := s.plant.notice.setMask (BitVec.ofNat 12 (lo.toNat + 256 * hi.toNat)) } }
        (bYes (s.plant.notice.setMask (BitVec.ofNat 12 (lo.toNat + 256 * hi.toNat))).due) := by
  have hlo := lo.isLt
  unfold runSetNoticeMask
  rw [halfAt_pair, if_neg (by omega)]
  rfl

theorem runSetNoticeMask_refused {lo hi : Byte} (s : State) (h : 16 ≤ hi.toNat) :
    runSetNoticeMask [lo, hi] s = refuse s .badValue := by
  unfold runSetNoticeMask
  rw [halfAt_pair, if_pos (by omega)]

/-- Settles O11: Read Conditions reaches its execution even while a fault is held; the mask is taken by its high byte. -/
theorem conditionsAreReadAndMasked : Obligations.ConditionsAreReadAndMasked := by
  unfold Obligations.ConditionsAreReadAndMasked
  refine ⟨fun f s hs hp => ?_, fun f lo hi s hs hp => ⟨fun h => ?_, fun h => ?_⟩⟩
  · rw [← Notice.clear_eq]
    exact congrArg Host.Outcome.next
      (serve_executed (v := svcReadConditions) hs (.inr rfl) (by simp [hp]) (by simp [hp, svcReadConditions]) rfl)
  · have hlo := lo.isLt
    refine ⟨BitVec.ofNat 12 (lo.toNat + 256 * hi.toNat), _, ?_, Notice.due_iff _,
      next_served_at (v := svcSetNoticeMask) hs hp rfl (by simp) (runSetNoticeMask_ok s h)⟩
    rw [BitVec.toNat_ofNat]
    omega
  · exact next_served_at (v := svcSetNoticeMask) hs hp rfl (by simp) (runSetNoticeMask_refused s h)

/-! ## The end of start-up (R161, R183 step 6) -/

theorem resumedState_eq (p : Plant) : ∃ run : Bool, resumedState p = (if run then .running else .stopped)
    ∧ (run = true ↔ p.survey.autoResume = true ∧ ∃ c, (look p.cells c).defn.freq ≠ 0) :=
  ⟨_, rfl, by simp only [Bool.and_eq_true, any_toList_iff, bne_iff_ne]⟩

theorem startUpFlags_eq (failNoted : Bool) : startUpFlags failNoted = if failNoted then 0xC00#12 else 0x800#12 := by
  cases failNoted <;> rfl

/-- Settles O52: start-up ends with the line judged on the conditions just set. -/
theorem startUpEndOpensTheLink : Obligations.StartUpEndOpensTheLink := by
  unfold Obligations.StartUpEndOpensTheLink
  intro s hs
  obtain ⟨run, hrun, hiff⟩ := resumedState_eq s.plant
  refine ⟨run, (s.plant.notice.endStartUp (startUpFlags s.store.failNoted)).due, _, rfl, ?_, hiff, ?_⟩
  · rw [Notice.due_iff, ← startUpFlags_eq]
    exact and_iff_right rfl
  · rw [← hrun, ← startUpFlags_eq]
    exact congrArg Host.Outcome.next (if_pos hs)

/-! ## A restart without a valid store (R181, R183) -/

/-- Steps 1 to 4 of R183 where no header vouches for an image: the restart values, and STORE_FAIL noted of an invalid
store. -/
theorem restart_without_image {r : RestartIn} {s : State} (h : judgeHeader (settledMemory r s.store) ≠ .valid) :
    restart r s =
      { freshState r s with store :=
          { (freshState r s).store with failNoted := judgeHeader (settledMemory r s.store) == .invalid } } := by
  unfold restart judgeStore
  rw [show (freshState r s).store.mem = settledMemory r s.store from rfl]
  cases hj : judgeHeader (settledMemory r s.store) with
  | blank => rfl
  | invalid => rfl
  | valid => exact absurd hj h

/-- A restart that cuts a save or an erase finds the format word erased, unless the header write is past it (R181). -/
theorem settledMemory_blank {r : RestartIn} {s : State} (h : HeaderLaw s) (hw : s.store.writer ≠ .idle)
    (hplaced : ∀ again, s.store.writer = .saving (.writeHeader again) → r.placed < 8) :
    headerFormat (settledMemory r s.store) = 0xFFFF := by
  obtain ⟨⟨hwf, -, -, -, hcap, hpages, hpage⟩, -, hstage⟩ := h
  cases hwriter : s.store.writer with
  | idle => exact absurd hwriter hw
  | erasing => rw [settledMemory, hwriter]; exact headerFormat_erasePage hwf
  | saving stage =>
    obtain ⟨c, hc⟩ := Option.isSome_iff_exists.mp (hcap (by rw [hwriter]; rfl))
    have hstage := hstage c hc
    rw [hwriter] at hstage
    rw [settledMemory, hwriter, hc]
    cases stage with
    | eraseHeader | eraseHeaderAgain | eraseAfterFail => exact headerFormat_erasePage hwf
    | erasePage k again =>
      obtain ⟨hk, -⟩ := hpage k c (by rw [hwriter]; rfl) hc
      exact (headerFormat_erasePage_ne hwf k hk).trans hstage.1
    | writePage k again =>
      obtain ⟨hk, -⟩ := hpage k c (by rw [hwriter]; rfl) hc
      have hlen : ((takenBytes (c.page k) r.flaws).take r.placed).length ≤ 256 := by
        rw [List.length_take, takenBytes_length, Capture.page, List.length_take]
        omega
      exact (headerFormat_writePage hwf k _ hlen hk).trans hstage.1
    | writeHeader again => exact (headerFormat_cut hwf _ (hplaced again hwriter)).trans hstage.1

/-- Settles O50: by how start-up judges the header; a cut save or erase leaves it erased. -/
theorem restartWithoutAnImageTakesTheDefaults : Obligations.RestartWithoutAnImageTakesTheDefaults := by
  unfold Obligations.RestartWithoutAnImageTakesTheDefaults
  refine ⟨fun i r s hi hj => (exec_restart hi).trans (congrArg Host.Outcome.next (restart_without_image hj)),
    fun i r s hi hlaw hw hplaced => ?_⟩
  have hblank := judgeHeader_erased (settledMemory_blank hlaw hw hplaced)
  refine ⟨_, (exec_restart hi).trans (congrArg Host.Outcome.next (restart_without_image (by rw [hblank]; decide))),
    rfl, ?_, rfl⟩
  show (judgeHeader (settledMemory r s.store) == .invalid) = false
  rw [hblank]
  rfl

end Sys2Proof.Machine
end

section
/-! SUPPORT. What work of the survey does to the condition set: `Notice.Grows`, kept by the ends of visits and holds, the
events of the lanes, the grants, and the barring and rebuilding of cells. -/

namespace Sys2Proof.Machine

/-! ## Conditions set, masks replaced -/

/-- From n to m no condition is cleared, start-up stays as it is, and an output that stands right stays right. -/
structure Notice.Grows (n m : Notice) : Prop where
  conds : n.conds &&& m.conds = n.conds
  startUp : m.startUp = n.startUp
  right : n.attention = n.due → m.attention = m.due

namespace Notice.Grows

theorem refl (n : Notice) : n.Grows n := ⟨BitVec.and_self, rfl, id⟩

theorem of_eq {n m : Notice} (h : m = n) : n.Grows m := h ▸ .refl n

theorem trans {n m k : Notice} (h : n.Grows m) (h' : m.Grows k) : n.Grows k :=
  ⟨flags_trans h.conds h'.conds, h'.startUp.trans h.startUp, fun hn => h'.right (h.right hn)⟩

theorem raise (n : Notice) (m : Flags12) : n.Grows (n.raise m) :=
  ⟨by rw [Notice.raise_conds]; ext i; simp; tauto, rfl, fun _ => Notice.raise_right n m⟩

theorem setMask (n : Notice) (m : Flags12) : n.Grows (n.setMask m) :=
  ⟨BitVec.and_self, rfl, fun _ => Notice.setMask_right n m⟩

end Notice.Grows

/-! ## Ends of visits and holds, spot entries, grants -/

section
variable (g : Settings) (now : Time) (l : Lane) (p : Plant)

theorem visitEnd_grows (e : Ending) : p.notice.Grows (visitEnd g now l e p).notice := by
  cases hc : (look p.lanes l).cell with
  | none => rw [visitEnd_none hc]; exact .refl _
  | some c =>
    obtain ⟨-, -, -, -, -, -, ⟨m, hm, -⟩, -⟩ := visitEnd_spec (g := g) (now := now) (e := e) hc
    rw [hm]
    exact .raise _ _

theorem holdEnd_notice (next : LaneState) (setDue : Bool) : (holdEnd g now l next setDue p).notice = p.notice := by
  unfold holdEnd
  dsimp only
  split <;> rfl

theorem dropSpots_grows (gone : SpotEntry → Bool) : p.notice.Grows (dropSpots now gone p).notice := .raise _ _

theorem completePass_grows : p.notice.Grows (completePass g now p).notice := .raise _ _

/-- A grant starts a visit, and the survey engine counts it. -/
theorem startVisit_grows (c : CellRef) (k : VisitClass) (t : Option SpotTerms) (v : Survey) :
    p.notice.Grows (startVisit g now l c k t { p with survey := v }).notice := .refl _

theorem grantSweep_grows (k : Nat) : p.notice.Grows (grantSweep g now l k p).notice := by
  unfold grantSweep
  dsimp only
  split
  · exact (startVisit_grows g now l p _ _ _ _).trans (completePass_grows g now _)
  · exact startVisit_grows g now l p _ _ _ _

theorem grantOne_grows : p.notice.Grows (grantOne g now p).notice := by
  unfold grantOne
  split
  · exact .refl _
  · split
    · exact startVisit_grows g now _ p _ _ _ _
    · split
      · unfold grantSurvey
        split
        · split
          · exact grantSweep_grows g now _ p _
          · exact startVisit_grows g now _ p _ _ _ _
        · exact startVisit_grows g now _ p _ _ _ _
        · exact grantSweep_grows g now _ p _
        · exact .refl _
      · exact .refl _

/-! ## The events of the lanes -/

theorem lockArrives_notice : (lockArrives l p).notice = p.notice := by
  unfold lockArrives
  dsimp only
  split <;> rfl

theorem probeExpires_notice (errors : Nat) : (probeExpires l errors p).notice = p.notice := by
  unfold probeExpires
  dsimp only
  split
  · split <;> rfl
  · rfl

theorem readingArrives_notice (mer level : Int) (load : Fin 1001) (blocks : Nat) :
    (readingArrives l mer level load blocks p).notice = p.notice := by
  unfold readingArrives
  dsimp only
  split <;> rfl

theorem lockTimeout_grows : p.notice.Grows (lockTimeout l g now p).notice := by
  unfold lockTimeout
  dsimp only
  split
  · exact visitEnd_grows _ _ _ _ _
  · exact .refl _

theorem lockLost_grows : p.notice.Grows (lockLost l g now p).notice := by
  unfold lockLost
  dsimp only
  split
  · exact visitEnd_grows _ _ _ _ _
  · exact visitEnd_grows _ _ _ _ _
  · exact visitEnd_grows _ _ _ _ _
  all_goals exact .refl _

theorem sectionArrives_grows (sec : Section) : p.notice.Grows (sectionArrives l sec g now p).notice := by
  unfold sectionArrives
  dsimp only
  split
  · exact .refl _
  · split
    · unfold sectionTaken
      split
      · exact .refl _
      all_goals exact visitEnd_grows _ _ _ _ _
    · exact .refl _

theorem gapTimeout_grows : p.notice.Grows (gapTimeout l g now p).notice := by
  unfold gapTimeout
  dsimp only
  split
  · exact visitEnd_grows _ _ _ _ _
  · exact .refl _

theorem dwellTimeout_grows : p.notice.Grows (dwellTimeout l g now p).notice := by
  unfold dwellTimeout
  dsimp only
  split
  · exact visitEnd_grows _ _ _ _ _
  · exact .refl _

theorem faultEnds_grows : p.notice.Grows (faultEnds l g now p).notice := by
  unfold faultEnds
  dsimp only
  split
  · split
    · exact visitEnd_grows _ _ _ _ _
    · exact .refl _
  · split
    · exact .of_eq (holdEnd_notice _ _ _ _ _ _)
    · exact .refl _

theorem faultArrives_grows (cause : LaneFaultCause) : p.notice.Grows (faultArrives l cause g now p).notice := by
  unfold faultArrives
  dsimp only
  split
  · exact .refl _
  · exact (faultEnds_grows g now l p).trans (.raise _ _)

theorem parkLane_grows : p.notice.Grows (parkLane g now l p).notice := by
  unfold parkLane
  dsimp only
  split
  · split
    · exact visitEnd_grows _ _ _ _ _
    · exact .refl _
  · split
    · exact .of_eq (holdEnd_notice _ _ _ _ _ _)
    · exact .refl _

theorem holdTimeout_grows : p.notice.Grows (holdTimeout l g now p).notice := by
  unfold holdTimeout
  split
  · exact (Notice.Grows.of_eq (holdEnd_notice g now l p .idle true)).trans (.raise _ _)
  · exact .refl _

theorem afterWatchPolicy_grows (w : WatchPolicy) : p.notice.Grows (afterWatchPolicy w now p).notice := by
  unfold afterWatchPolicy
  split
  · exact dropSpots_grows _ _ _
  · exact .refl _

/-! ## Cells barred and rebuilt (R4, R5, R15, R16) -/

theorem endEngagement_grows (c : CellRef) : p.notice.Grows (endEngagement g now c p).notice := by
  unfold endEngagement
  split
  · exact .refl _
  · dsimp only
    split
    · exact visitEnd_grows _ _ _ _ _
    · split
      · exact .of_eq (holdEnd_notice _ _ _ _ _ _)
      · exact .refl _

theorem disengage_grows (c : CellRef) : p.notice.Grows (disengage g now c p).notice := by
  unfold disengage
  split
  · exact .refl _
  · exact endEngagement_grows g now p c

theorem rejudgeCell_grows (before after : FeedRec) (r : Reshape) (c : CellRef) :
    r.plant.notice.Grows (rejudgeCell g now before after r c).plant.notice := by
  unfold rejudgeCell
  dsimp only
  split
  · exact (disengage_grows g now r.plant c).trans (dropSpots_grows now _ _)
  · split <;> exact .refl _

theorem writeCell_grows (r : Reshape) (e : CellRef × CellDef) :
    r.plant.notice.Grows (writeCell g now r e).plant.notice := by
  unfold writeCell
  split
  · exact .refl _
  · have hend := endEngagement_grows g now r.plant e.1
    show r.plant.notice.Grows (if _ then _ else dropSpots _ _ _ : Plant).notice
    split
    · exact hend
    · exact hend.trans (dropSpots_grows now _ _)

theorem finish_grows (r : Reshape) : r.plant.notice.Grows (r.finish g now).notice := .raise _ _

/-- A run over many cells clears no condition. -/
theorem foldl_grows {α : Type} {f : Reshape → α → Reshape}
    (step : ∀ (r : Reshape) (a : α), r.plant.notice.Grows (f r a).plant.notice) (as : List α) (r : Reshape) : r.plant.notice.Grows (as.foldl f r).plant.notice :=
  foldl_plant (R := fun p q => p.notice.Grows q.notice) (fun _ => .refl _) .trans step as r

theorem changeFeed_grows (before after : FeedRec) (f : Feed) :
    p.notice.Grows (changeFeed g now before after f p).notice :=
  (foldl_grows (rejudgeCell_grows g now before after) (feedCells f) { plant := p, marked := [], release := [] }).trans
    (finish_grows _ _ _)

theorem writePage_grows (page : List (CellRef × CellDef)) : p.notice.Grows (writePage g now page p).notice :=
  (foldl_grows (writeCell_grows g now) page { plant := p, marked := [], release := [] }).trans (finish_grows _ _ _)

end

end Sys2Proof.Machine
end

section
/-! SUPPORT. What the requests of Table 11.5 do to the condition set and to the link: `State.Works` for those that leave the
link alone, `Service.Runs` for them all. -/

namespace Sys2Proof.Machine

/-- From s to t no condition is cleared, and the link is as it was. -/
structure State.Works (s t : State) : Prop where
  notice : s.plant.notice.Grows t.plant.notice
  link : t.link = s.link

namespace State.Works

theorem refl (s : State) : s.Works s := ⟨.refl _, rfl⟩

/-- The condition set and the link are the same. -/
theorem same {s t : State} (notice : t.plant.notice = s.plant.notice := by rfl) (link : t.link = s.link := by rfl) :
    s.Works t := ⟨.of_eq notice, link⟩

theorem raised {s t : State} (h : s.Works t) (m : Flags12) : s.Works (t.raise m) :=
  ⟨h.notice.trans (.raise _ _), h.link⟩

theorem enter (s : State) (b : Books) : s.Works (s.enter b) := ⟨.raise _ _, rfl⟩

/-- Work on the survey's part of the machine. -/
theorem replace {s : State} {q : Plant} (h : s.plant.notice.Grows q.notice) (g : Settings) (k : Staging) :
    s.Works { s with settings := g, plant := q, staging := k } := ⟨h, rfl⟩

end State.Works

/-! ## The requests that leave the link alone -/

section
variable (p : List Byte) (s : State)

theorem works_runSetNoticeMask : s.Works (runSetNoticeMask p s).state := by
  unfold runSetNoticeMask
  split
  · exact .refl s
  · exact .replace (.setMask _ _) _ _

theorem works_runSetFeed : s.Works (runSetFeed p s).state := by
  unfold runSetFeed
  split
  · exact .replace (changeFeed_grows _ _ _ _ _ _) _ _
  · exact .refl s

theorem works_runReadFeed : s.Works (runReadFeed p s).state := by
  unfold runReadFeed; split <;> exact .refl s

theorem works_runSetProfile : s.Works (runSetProfile p s).state := by
  unfold runSetProfile
  split
  · split <;> exact .same
  · exact .refl s

theorem works_runOpenRasterPage : s.Works (runOpenRasterPage p s).state := by
  unfold runOpenRasterPage
  split
  · split <;> exact .same
  · exact .refl s

theorem works_runPutCells : s.Works (runPutCells p s).state := by
  unfold runPutCells
  split
  · exact .refl s
  · split <;> exact .same

theorem works_runWriteRasterPage : s.Works (runWriteRasterPage p s).state := by
  unfold runWriteRasterPage
  split
  · exact .refl s
  · dsimp only
    split
    · exact .replace (writePage_grows _ _ _ _) _ _
    · exact .refl s

theorem works_runCloseRasterPage : s.Works (runCloseRasterPage p s).state := by
  show s.Works (if s.staging.page = none then s else { s with staging := Staging.atRestart })
  split <;> exact .same

theorem works_runReadCell : s.Works (runReadCell p s).state := by
  unfold runReadCell; split <;> exact .refl s

theorem works_runSetAdmission : s.Works (runSetAdmission p s).state := by
  unfold runSetAdmission; split <;> exact .same

theorem works_runParkLane : s.Works (runParkLane p s).state := by
  unfold runParkLane
  split
  · exact .replace (parkLane_grows _ _ _ _) _ _
  · exact .refl s

theorem works_runUnparkLane : s.Works (runUnparkLane p s).state := by
  unfold runUnparkLane
  split
  · dsimp only
    split <;> exact .same
  · exact .refl s

theorem works_runSetLaneOptions : s.Works (runSetLaneOptions p s).state := by
  unfold runSetLaneOptions; split <;> exact .same

theorem works_runSetTimers : s.Works (runSetTimers p s).state := by
  unfold runSetTimers; split <;> exact .same

theorem works_runReadLane : s.Works (runReadLane p s).state := by
  unfold runReadLane; split <;> exact .refl s

theorem works_runSetSurveyMode : s.Works (runSetSurveyMode p s).state := by
  unfold runSetSurveyMode; split <;> exact .same

theorem works_runContinue : s.Works (runContinue p s).state := by
  unfold runContinue; split <;> exact .same

theorem works_runClearSurvey : s.Works (runClearSurvey p s).state :=
  .replace (.of_eq (clearSurvey_notice s.clock s.plant)) _ _

theorem works_runSetWatchPolicy : s.Works (runSetWatchPolicy p s).state := by
  unfold runSetWatchPolicy
  split
  · exact .replace (afterWatchPolicy_grows _ _ _) _ _
  · exact .refl s

theorem works_runSpotMeasure : s.Works (runSpotMeasure p s).state := by
  unfold runSpotMeasure
  split
  · dsimp only
    split
    · exact .refl s
    · split
      · exact .refl s
      · split
        · exact .refl s
        · split <;> exact .same
  · exact .refl s

theorem works_runRenewHold : s.Works (runRenewHold p s).state := by
  unfold runRenewHold
  split
  · exact .refl s
  · split
    · dsimp only
      split <;> exact .same
    · exact .refl s

theorem works_runReleaseHold : s.Works (runReleaseHold p s).state := by
  unfold runReleaseHold
  split
  · exact .refl s
  · split
    · exact .replace (.of_eq (holdEnd_notice _ _ _ _ _ _)) _ _
    · exact .refl s

theorem works_runListServices : s.Works (runListServices p s).state := by
  unfold runListServices; split <;> exact .refl s

theorem works_runReadService : s.Works (runReadService p s).state := by
  unfold runReadService; split <;> exact .refl s

theorem works_runForgetService : s.Works (runForgetService p s).state := by
  unfold runForgetService
  split
  · exact .refl s
  · split
    · exact .refl s
    · exact .refl s
    all_goals exact .enter s _

theorem works_runSetRankingPolicy : s.Works (runSetRankingPolicy p s).state := by
  unfold runSetRankingPolicy; split <;> exact .same

theorem works_runPinSource : s.Works (runPinSource p s).state := by
  unfold runPinSource
  split
  · split
    · split
      · exact .enter s _
      · exact .refl s
    · exact .refl s
  · exact .refl s

theorem works_runUnpin : s.Works (runUnpin p s).state := by
  unfold runUnpin
  split
  · exact .refl s
  · split
    · exact .refl s
    · exact .refl s
    all_goals exact .enter s _

theorem works_runTakeAdvice : s.Works (runTakeAdvice p s).state := by
  unfold runTakeAdvice
  split
  · exact .enter s _
  · exact .refl s

theorem works_runSaveSnapshot : s.Works (runSaveSnapshot p s).state := by
  unfold runSaveSnapshot; split <;> exact .same

theorem works_runEraseStore : s.Works (runEraseStore p s).state := by
  unfold runEraseStore; split <;> exact .same

end

/-! ## Every request -/

/-- What the execution of a request can do to the condition set and to the link: only Read Conditions clears a condition,
and a restart comes to be owed only by a request that is discarded when broadcast (R158, R167, R174). -/
structure Service.Runs (v : Service) (s t : State) : Prop where
  conds : v.kind ≠ 0x07 → s.plant.notice.conds &&& t.plant.notice.conds = s.plant.notice.conds
  startUp : t.plant.notice.startUp = s.plant.notice.startUp
  right : AttentionRight s → AttentionRight t
  rx : t.link.rx = s.link.rx
  answering : t.link.answering = s.link.answering
  driver : t.link.driver = s.link.driver
  owed : v.bcast = true → t.link.restartOwed = s.link.restartOwed

namespace Service.Runs

variable {v : Service} {s t : State}

theorem of_works (h : s.Works t) : v.Runs s t where
  conds := fun _ => h.notice.conds
  startUp := h.notice.startUp
  right := h.notice.right
  rx := by rw [h.link]
  answering := by rw [h.link]
  driver := by rw [h.link]
  owed := fun _ => by rw [h.link]

/-- A change of the link's accept set, its mode or its log. -/
theorem of_link {k : Link} (rx : k.rx = s.link.rx := by rfl) (answering : k.answering = s.link.answering := by rfl)
    (driver : k.driver = s.link.driver := by rfl) (owed : k.restartOwed = s.link.restartOwed := by rfl) :
    v.Runs s { s with link := k } :=
  ⟨fun _ => BitVec.and_self, rfl, id, rx, answering, driver, fun _ => owed⟩

end Service.Runs

theorem runs_readConditions (p : List Byte) (s : State) : svcReadConditions.Runs s (runReadConditions p s).state :=
  ⟨fun h => absurd rfl h, rfl, fun _ => rfl, rfl, rfl, rfl, fun _ => rfl⟩

theorem runs_restart (p : List Byte) (s : State) : svcRestart.Runs s (runRestart p s).state :=
  ⟨fun _ => BitVec.and_self, rfl, id, rfl, rfl, rfl, fun h => Bool.noConfusion h⟩

theorem runs_setAcceptSet (p : List Byte) (s : State) : svcSetAcceptSet.Runs s (runSetAcceptSet p s).state := by
  unfold runSetAcceptSet
  split
  · exact .of_works (.refl s)
  · exact .of_link

theorem runs_setLinkMode (p : List Byte) (s : State) : svcSetLinkMode.Runs s (runSetLinkMode p s).state := by
  unfold runSetLinkMode
  split
  · exact .of_link
  · exact .of_works (.refl s)

/-- Every request of Table 11.5. -/
theorem run_runs {v : Service} (hv : v ∈ catalogue) (p : List Byte) (s : State) : v.Runs s (v.run p s).state := by
  simp only [catalogue, List.mem_append, List.mem_cons, List.not_mem_nil, or_false] at hv
  rcases hv with ((rfl | rfl | rfl | rfl | rfl | rfl | rfl | rfl | rfl | rfl | rfl | rfl | rfl | rfl | rfl | rfl) |
    (rfl | rfl | rfl | rfl | rfl | rfl | rfl | rfl | rfl | rfl | rfl | rfl | rfl | rfl | rfl | rfl)) |
    (rfl | rfl | rfl | rfl | rfl | rfl | rfl | rfl | rfl | rfl | rfl | rfl | rfl | rfl | rfl | rfl)
  · exact .of_works .same
  · exact runs_restart p s
  · exact runs_setAcceptSet p s
  · exact runs_setLinkMode p s
  · exact .of_works .same
  · exact .of_link
  · exact runs_readConditions p s
  · exact .of_works (works_runSetNoticeMask p s)
  · exact .of_works (works_runSetFeed p s)
  · exact .of_works (works_runReadFeed p s)
  · exact .of_works (works_runSetProfile p s)
  · exact .of_works .same
  · exact .of_works (works_runOpenRasterPage p s)
  · exact .of_works (works_runPutCells p s)
  · exact .of_works (works_runWriteRasterPage p s)
  · exact .of_works (works_runCloseRasterPage p s)
  · exact .of_works (works_runReadCell p s)
  · exact .of_works (works_runSetAdmission p s)
  · exact .of_works .same
  · exact .of_works (works_runParkLane p s)
  · exact .of_works (works_runUnparkLane p s)
  · exact .of_works (works_runSetLaneOptions p s)
  · exact .of_works (works_runSetTimers p s)
  · exact .of_works .same
  · exact .of_works (works_runReadLane p s)
  · exact .of_works .same
  · exact .of_works .same
  · exact .of_works (works_runSetSurveyMode p s)
  · exact .of_works (works_runContinue p s)
  · exact .of_works (works_runClearSurvey p s)
  · exact .of_works .same
  · exact .of_works (works_runSetWatchPolicy p s)
  · exact .of_works .same
  · exact .of_works (works_runSpotMeasure p s)
  · exact .of_works (works_runRenewHold p s)
  · exact .of_works (works_runReleaseHold p s)
  · exact .of_works .same
  · exact .of_works (works_runListServices p s)
  · exact .of_works (works_runReadService p s)
  · exact .of_works (works_runForgetService p s)
  · exact .of_works (works_runSetRankingPolicy p s)
  · exact .of_works .same
  · exact .of_works (works_runPinSource p s)
  · exact .of_works (works_runUnpin p s)
  · exact .of_works (works_runTakeAdvice p s)
  · exact .of_works (works_runSaveSnapshot p s)
  · exact .of_works (works_runEraseStore p s)
  · exact .of_works .same

end Sys2Proof.Machine
end

section
/-! SUPPORT. What every command does to the condition set, the attention output and the link, said once: `exec_attends`. The
statements that rest on it. -/

namespace Sys2Proof.Machine

/-! ## The law of the link, receiver state by receiver state -/

/-- No reply is pending. -/
def Link.Silent (k : Link) : Prop := k.answering = none ∧ k.driver = false ∧ k.restartOwed = false

/-- The receiver listens for frames or waits for silence. -/
def Receiver.free : Receiver → Bool
  | .hunt | .quiet => true
  | .deaf | .frame => false

theorem linkRight_deaf {s : State} (h : s.link.rx = .deaf) :
    LinkRight s ↔ s.plant.notice.startUp = true ∧ s.link.Silent := by
  cases ha : s.link.answering with
  | none => simp [LinkRight, Link.Silent, h, ha, and_left_comm]
  | some a => simp [LinkRight, Link.Silent, h, ha]

theorem linkRight_free {s : State} (h : s.link.rx.free = true) :
    LinkRight s ↔ s.plant.notice.startUp = false ∧ s.link.Silent := by
  have hrx : s.link.rx ≠ .frame ∧ s.link.rx ≠ .deaf :=
    ⟨fun e => (by rw [e] at h; cases h), fun e => (by rw [e] at h; cases h)⟩
  cases ha : s.link.answering with
  | none => simp [LinkRight, Link.Silent, hrx, ha]; tauto
  | some a => simp [LinkRight, Link.Silent, hrx, ha]

theorem linkRight_frame {s : State} (h : s.link.rx = .frame) :
    LinkRight s ↔ s.plant.notice.startUp = false ∧ s.link.answering.isSome = true ∧ s.link.driver = true := by
  cases ha : s.link.answering with
  | none => simp [LinkRight, h, ha]
  | some a => simp [LinkRight, h, ha, and_comm]

/-- A pending reply keeps the receiver with its frame (R172). -/
theorem LinkRight.frame {s : State} (h : LinkRight s) (ha : s.link.answering.isSome = true) : s.link.rx = .frame :=
  h.1.mpr ha

/-- Through start-up the receiver is deaf (R183). -/
theorem LinkRight.deaf {s : State} (h : LinkRight s) (hup : s.plant.notice.startUp = true) : s.link.rx = .deaf := by
  obtain ⟨-, -, hdeaf, -⟩ := h
  exact hdeaf.mpr hup

/-! ## Restarts -/

theorem restart_link (r : RestartIn) (s : State) : (restart r s).link.rx = .deaf ∧ (restart r s).link.Silent := by
  unfold restart judgeStore
  split <;> exact ⟨rfl, rfl, rfl, rfl⟩

/-- A restart begins start-up with the output released (R161). -/
theorem restart_notice (r : RestartIn) (s : State) :
    (restart r s).plant.notice.startUp = true ∧ (restart r s).plant.notice.attention = false := by
  obtain ⟨-, -, ⟨-, hplant, -⟩ | ⟨im, -, -, hplant, -⟩⟩ := restart_spec r s <;> rw [hplant] <;> exact ⟨rfl, rfl⟩

theorem restart_attentionRight (r : RestartIn) (s : State) : AttentionRight (restart r s) := by
  obtain ⟨hup, hout⟩ := restart_notice r s
  rw [AttentionRight, hout, Notice.due, hup]
  rfl

theorem restart_linkRight (r : RestartIn) (s : State) : LinkRight (restart r s) :=
  (linkRight_deaf (restart_link r s).1).mpr ⟨(restart_notice r s).1, (restart_link r s).2⟩

/-! ## What a command does short of a restart -/

/-- From s to t, by a command whose frame has kind k, if it brings one: only Read Conditions clears a condition (R157,
R158), and the laws of the attention output and of the link are kept. -/
structure State.Attends (k : Option Byte) (s t : State) : Prop where
  conds : k ≠ some 0x07 → s.plant.notice.conds &&& t.plant.notice.conds = s.plant.notice.conds
  output : AttentionRight s → AttentionRight t
  link : LinkRight s → LinkRight t

/-- The restart that the end of the reply to a Restart request brings (R174). -/
def State.TakesOwed (s t : State) : Prop :=
  s.link.restartOwed = true ∧ s.link.answering.isSome = true ∧ t = owedRestart s

/-- What may come of a command that is no restart of its own. -/
def State.Goes (k : Option Byte) (s t : State) : Prop := State.Attends k s t ∨ s.TakesOwed t

namespace State.Attends

variable {k : Option Byte} {s t : State}

theorem of_grows (h : s.plant.notice.Grows t.plant.notice) (link : LinkRight s → LinkRight t) : State.Attends k s t :=
  ⟨fun _ => h.conds, h.right, link⟩

theorem refl (s : State) : State.Attends k s s := of_grows (.refl _) id

theorem of_works (h : s.Works t) : State.Attends k s t :=
  of_grows h.notice fun hs => by
    unfold LinkRight at hs ⊢
    rw [h.link, h.notice.startUp]
    exact hs

end State.Attends

theorem goes_works {k : Option Byte} {s t : State} (h : s.Works t) : State.Goes k s t := .inl (.of_works h)

/-- Work on the survey's part of the machine that clears no condition. -/
theorem goes_plant {k : Option Byte} {s : State} {q : Plant} (h : s.plant.notice.Grows q.notice) :
    State.Goes k s { s with plant := q } := goes_works (.replace h _ _)

/-! ## The link -/

section
variable {k : Option Byte} {s : State}

/-- A receiver with no reply pending goes on with none, listening or waiting for silence. -/
theorem attends_free {t : State} (hs : s.link.rx.free = true) (ht : t.link.rx.free = true)
    (notice : s.plant.notice.Grows t.plant.notice) (answering : t.link.answering = s.link.answering := by rfl)
    (driver : t.link.driver = s.link.driver := by rfl) (owed : t.link.restartOwed = s.link.restartOwed := by rfl) :
    State.Attends k s t :=
  .of_grows notice fun h => by
    obtain ⟨hup, hsilent⟩ := (linkRight_free hs).mp h
    refine (linkRight_free ht).mpr ⟨notice.startUp.trans hup, ?_⟩
    rwa [Link.Silent, answering, driver, owed]

theorem attends_takeFault (hs : s.link.rx.free = true) (r : LinkFault) {rx : Receiver} (hrx : rx.free = true) :
    State.Attends k s (takeFault r rx s) := attends_free hs hrx (.raise _ _)

/-- The end of a reply that owes no restart: the driver is released, and the receiver goes on (R163, R164, R168). -/
theorem attends_replyEnd {t : State} (ha : s.link.answering.isSome = true) (ho : s.link.restartOwed = false)
    (notice : s.plant.notice.Grows t.plant.notice) (ht : t.link.rx.free = true)
    (answering : t.link.answering = none := by rfl) (driver : t.link.driver = false := by rfl)
    (owed : t.link.restartOwed = s.link.restartOwed := by rfl) : State.Attends k s t :=
  .of_grows notice fun h => by
    obtain ⟨hup, -⟩ := (linkRight_frame (h.frame ha)).mp h
    exact (linkRight_free ht).mpr ⟨notice.startUp.trans hup, answering, driver, owed.trans ho⟩

theorem goes_overrunNow : State.Goes k s (overrunNow s) := by
  rcases overrunNow_cases s with h | ⟨ho, ha, h⟩ | ⟨a, ha, ho, h⟩ <;> rw [h]
  · exact .inl (.refl s)
  · exact .inr ⟨ho, ha, rfl⟩
  · exact .inl (attends_replyEnd (by rw [ha]; rfl) ho (.raise _ _) rfl)

theorem goes_replySent : State.Goes k s (replySent s) := by
  cases ha : s.link.answering with
  | none => rw [replySent, ha]; exact .inl (.refl s)
  | some a =>
    cases ho : s.link.restartOwed with
    | true => exact .inr ⟨ho, by rw [ha]; rfl, replySent_owed ha ho⟩
    | false => rw [replySent_some ha ho]; exact .inl (attends_replyEnd (by rw [ha]; rfl) ho (.refl _) rfl)

theorem goes_whenHunting {f : State → State} (h : s.link.rx = .hunt → State.Attends k s (f s)) :
    State.Goes k s (whenHunting f s) := by
  rcases whenHunting_cases f s with e | e | ⟨hx, e⟩ <;> rw [e]
  · exact .inl (.refl s)
  · exact goes_overrunNow
  · exact .inl (h hx)

theorem attends_quietEnds : State.Attends k s (quietEnds s) := by
  unfold quietEnds
  split
  · next h => exact attends_free (by rw [h]; rfl) rfl (.refl _)
  · exact .refl s

section
variable (hs : s.link.rx = .hunt)
include hs

theorem attends_lengthFault (a n : Byte) : State.Attends k s (lengthFault a n s) := by
  rcases lengthFault_cases a n s with h | ⟨r, h⟩ <;> rw [h]
  · exact attends_free (by rw [hs]; rfl) rfl (.refl _)
  · exact attends_takeFault (by rw [hs]; rfl) r rfl

theorem attends_gapFault (a : Byte) (got : List Byte) : State.Attends k s (gapFault a got s) := by
  unfold gapFault
  split
  · exact attends_free (by rw [hs]; rfl) rfl (.refl _)
  all_goals exact attends_takeFault (by rw [hs]; rfl) _ rfl

theorem attends_badCheck (kind : Byte) (f : Req) : State.Attends k s (badCheck kind f s) := by
  unfold badCheck
  split
  · exact .refl s
  all_goals exact attends_takeFault (by rw [hs]; rfl) _ rfl

/-- A request executed and answered: the receiver stays with the frame (R164, R172). -/
theorem attends_answer {v : Service} {r : Served} (f : Frame) (h : v.Runs s r.state) :
    State.Attends (some v.kind) s (answer f r) where
  conds := fun hk => h.conds fun e => hk (congrArg some e)
  output := h.right
  link := fun hlink => by
    obtain ⟨hup, -⟩ := (linkRight_free (by rw [hs]; rfl)).mp hlink
    exact (linkRight_frame rfl).mpr ⟨h.startUp.trans hup, rfl, rfl⟩

/-- A request executed as a broadcast, without a reply (R167). -/
theorem attends_broadcast {v : Service} {t : State} (hb : v.bcast = true) (h : v.Runs s t) :
    State.Attends (some v.kind) s t where
  conds := fun hk => h.conds fun e => hk (congrArg some e)
  output := h.right
  link := fun hlink => by
    have hfree : s.link.rx.free = true := by rw [hs]; rfl
    obtain ⟨hup, hsilent⟩ := (linkRight_free hfree).mp hlink
    refine (linkRight_free (h.rx ▸ hfree)).mpr ⟨h.startUp.trans hup, ?_⟩
    rwa [Link.Silent, h.answering, h.driver, h.owed hb]

theorem attends_frame {v : Service} (runs : ∀ p, v.Runs s (v.run p s).state) (f : Req) :
    State.Attends (some v.kind) s (v.frame f s) := by
  unfold Service.frame
  split
  · exact .refl s
  · split
    · next h =>
      rw [Bool.and_eq_true, Bool.and_eq_true] at h
      obtain ⟨⟨hb, -⟩, -⟩ := h
      exact attends_broadcast hs hb (runs _)
    · exact .refl s
  · refine attends_answer hs _ ?_
    rcases Service.respond_cases v f.payload s with h | h | ⟨-, -, h⟩ <;> rw [h]
    · exact .of_works (.refl s)
    · exact .of_works (.refl s)
    · exact runs _

theorem attends_frameByKind (kind : Byte) (f : Req) : State.Attends (some kind) s (frameByKind catalogue kind f s) := by
  unfold frameByKind
  split
  · exact .refl s
  · split
    · next v hv =>
      obtain rfl : v.kind = kind := by simpa using List.find?_some hv
      exact attends_frame hs (fun p => run_runs (List.mem_of_find?_eq_some hv) p s) f
    · exact attends_frame hs (v := unknownService kind) (fun _ => .of_works (.refl s)) f

end

theorem goes_serve {v : Service} (hv : v ∈ catalogue) (f : Req) : State.Goes (some v.kind) s (serve v f s) := by
  refine goes_whenHunting fun hs => ?_
  split
  · exact attends_lengthFault hs _ _
  · exact attends_frame hs (fun p => run_runs hv p s) f

theorem goes_frameArrives (kind : Byte) (f : Req) : State.Goes (some kind) s (frameArrives kind f s) := by
  unfold frameArrives deliver
  refine goes_whenHunting fun hs => ?_
  split
  · exact attends_lengthFault hs _ _
  · exact attends_frameByKind hs kind f

theorem goes_lengthArrives (a n : Byte) : State.Goes k s (lengthArrives a n s) := by
  refine goes_whenHunting fun hs => ?_
  split
  · exact attends_lengthFault hs _ _
  · exact .refl s

theorem goes_bytesStop (a : Byte) (got : List Byte) : State.Goes k s (bytesStop a got s) := by
  refine goes_whenHunting fun hs => ?_
  split
  · exact attends_gapFault hs _ _
  · exact .refl s

theorem goes_checkFault (kind check : Byte) (f : Req) {t : State} (h : exec (.checkFault kind check f) s = .next t) :
    State.Goes (some kind) s t := by
  refine Host.Outcome.next.inj h ▸ goes_whenHunting fun hs => ?_
  split
  · exact attends_lengthFault hs _ _
  · split
    · exact attends_frameByKind hs kind f
    · exact attends_badCheck hs kind f

theorem goes_foreignFrame (kind : Byte) (f : Req) (e : FrameEnd) {t : State}
    (h : exec (.foreignFrame kind f e) s = .next t) : State.Goes (some kind) s t := by
  cases e with
  | whole => exact Host.Outcome.next.inj h ▸ goes_frameArrives kind f
  | badLength n => exact Host.Outcome.next.inj h ▸ goes_lengthArrives f.addr n
  | stopped got => exact Host.Outcome.next.inj h ▸ goes_bytesStop f.addr got

end

/-! ## The page writer, timers and start-up -/

section
variable (s : State)

theorem works_failSave {t : State} (h : s.Works t) : s.Works (failSave t) :=
  State.Works.raised (t := t.setStore { t.store with status := .blank, writer := .idle }) ⟨h.notice, h.link⟩ _

theorem works_eraseComplete : s.Works (eraseComplete s) := by
  unfold eraseComplete
  dsimp only
  split
  · exact .refl s
  · exact .raised .same _
  · exact .same
  · exact .same
  · exact .same
  · exact works_failSave s .same
  · exact .refl s
  · exact .refl s

theorem works_writePageDone (c : Capture) (k : Fin 256) (again : Bool) (flaws : Flaws) :
    s.Works (writePageDone s c k again flaws) := by
  unfold writePageDone
  dsimp only
  split
  · exact .same
  · split
    · exact works_failSave s .same
    · exact .same

theorem works_writeHeaderDone (c : Capture) (again : Bool) (flaws : Flaws) :
    s.Works (writeHeaderDone s c again flaws) := by
  unfold writeHeaderDone
  dsimp only
  split
  · exact .raised .same _
  · exact .same

theorem works_writeComplete (flaws : Flaws) : s.Works (writeComplete flaws s) := by
  unfold writeComplete
  split
  · exact .refl s
  · split
    · exact works_writePageDone s _ _ _ flaws
    · exact works_writeHeaderDone s _ _ flaws
    all_goals exact .refl s

theorem works_measureTimeout (l : Lane) : s.Works (measureTimeout l s) := by
  unfold measureTimeout
  dsimp only
  split <;> exact .same

theorem works_refreshTimeout (l : Lane) : s.Works (refreshTimeout l s) := by
  unfold refreshTimeout
  dsimp only
  split <;> exact .same

/-- The end of start-up opens the link with no reply pending (R183 step 6). -/
theorem attends_endStartUp {k : Option Byte} (h : s.plant.notice.startUp = true) : State.Attends k s (endStartUp s) where
  conds := fun _ => (Notice.Grows.raise s.plant.notice (startUpFlags s.store.failNoted)).conds
  output := fun _ => Notice.endStartUp_right _ _
  link := fun hs => by
    obtain ⟨-, hsilent⟩ := (linkRight_deaf (hs.deaf h)).mp hs
    exact (linkRight_free rfl).mpr ⟨rfl, hsilent⟩

end

/-! ## Every command, every step -/

/-- A request row brings a frame of its kind to the service of that kind. -/
theorem exec_service {i : Instr} {k : Byte} {f : Req} (h : requestOf i = some (k, f)) (s : State) :
    ∃ v ∈ catalogue, v.kind = k ∧ exec i s = .next (serve v f s) := by
  cases i <;> simp only [requestOf, reduceCtorEq, Option.some.injEq, Prod.mk.injEq] at h <;> obtain ⟨rfl, rfl⟩ := h <;>
    refine ⟨_, ?_, rfl, rfl⟩ <;> simp only [catalogue, List.mem_append, List.mem_cons, true_or, or_true]

theorem frameKind_of_request {i : Instr} {k : Byte} {f : Req} (h : requestOf i = some (k, f)) :
    frameKind i = some k := by
  cases i <;> simp only [requestOf, reduceCtorEq] at h <;> exact congrArg (Option.map Prod.fst) h

/-- Everything a command can do to the conditions, the output and the link: what `State.Attends` says, the restart that a
pending reply owes, or the restart that the row itself brings. -/
theorem exec_attends (i : Instr) {s t : State} (h : exec i s = .next t) :
    State.Goes (frameKind i) s t
      ∨ ∃ r, (i = .powerOn r ∨ i = .restartLine r ∨ i = .restartReplySent r) ∧ t = restart r s := by
  have hinj : ∀ {u : State}, exec i s = .next u → t = u := fun hu => Host.Outcome.next.inj (h.symm.trans hu)
  cases hr : requestOf i with
  | some kf =>
    obtain ⟨v, hv, hkind, hserve⟩ := exec_service hr s
    rw [hinj hserve, frameKind_of_request hr, ← hkind]
    exact .inl (goes_serve hv kf.2)
  | none =>
    cases i <;> simp only [requestOf, reduceCtorEq] at hr
    case restartReplySent r =>
      rw [hinj rfl]
      split
      · exact .inr ⟨r, .inr (.inr rfl), rfl⟩
      · exact .inl (.inl (.refl s))
    case unknownKind k f => exact .inl (hinj rfl ▸ goes_frameArrives k f)
    case replyKindDiscarded k f => exact .inl (hinj rfl ▸ goes_frameArrives k f)
    case broadcastDiscarded k f => exact .inl (hinj rfl ▸ goes_frameArrives k f)
    case foreignFrame k f e => exact .inl (goes_foreignFrame k f e h)
    case checkFault k c f => exact .inl (goes_checkFault k c f h)
    case framingLengthFault a n => exact .inl (hinj rfl ▸ goes_lengthArrives a n)
    case framingGapTimeout a got => exact .inl (hinj rfl ▸ goes_bytesStop a got)
    case addressWaitTimeout => exact .inl (hinj rfl ▸ goes_whenHunting fun _ => .refl s)
    case quietSilenceEnd => exact .inl (.inl (hinj rfl ▸ attends_quietEnds))
    case overrun => exact .inl (hinj rfl ▸ goes_overrunNow)
    case grant => exact .inl (hinj rfl ▸ goes_plant (grantOne_grows _ _ _))
    case watchDue c => exact .inl (goes_works (hinj rfl ▸ .refl s))
    case lockArrival l => exact .inl (hinj rfl ▸ goes_plant (.of_eq (lockArrives_notice l _)))
    case lockTimerExpiry l => exact .inl (hinj rfl ▸ goes_plant (lockTimeout_grows _ _ l _))
    case probeWindowExpiry l e => exact .inl (hinj rfl ▸ goes_plant (.of_eq (probeExpires_notice l _ e)))
    case frontEndReading l m v d b => exact .inl (hinj rfl ▸ goes_plant (.of_eq (readingArrives_notice l _ m v d b)))
    case measureTimerExpiry l => exact .inl (hinj rfl ▸ goes_works (works_measureTimeout s l))
    case lockLoss l => exact .inl (hinj rfl ▸ goes_plant (lockLost_grows _ _ l _))
    case rosterSection l sec => exact .inl (hinj rfl ▸ goes_plant (sectionArrives_grows _ _ l _ sec))
    case gapTimerExpiry l => exact .inl (hinj rfl ▸ goes_plant (gapTimeout_grows _ _ l _))
    case dwellLimitExpiry l => exact .inl (hinj rfl ▸ goes_plant (dwellTimeout_grows _ _ l _))
    case frontEndFault l c => exact .inl (hinj rfl ▸ goes_plant (faultArrives_grows _ _ l _ c))
    case holdRefreshExpiry l => exact .inl (hinj rfl ▸ goes_works (works_refreshTimeout s l))
    case holdExpiry l => exact .inl (hinj rfl ▸ goes_plant (holdTimeout_grows _ _ l _))
    case forgetCheck => exact .inl (hinj rfl ▸ goes_works (.enter s _))
    case pageEraseComplete => exact .inl (hinj rfl ▸ goes_works (works_eraseComplete s))
    case pageWriteComplete flaws => exact .inl (hinj rfl ▸ goes_works (works_writeComplete s flaws))
    case powerOn r => exact .inr ⟨r, .inl rfl, hinj rfl⟩
    case restartLine r => exact .inr ⟨r, .inr (.inl rfl), hinj rfl⟩
    case startUpEnd =>
      rw [hinj rfl]
      split
      · next hup => exact .inl (.inl (attends_endStartUp s hup))
      · exact .inl (.inl (.refl s))
    case replySent => exact .inl (hinj rfl ▸ goes_replySent)

/-- Settles O12: a command either clears nothing or brings a restart. -/
theorem conditionsStaySetUntilRead : Obligations.ConditionsStaySetUntilRead := by
  unfold Obligations.ConditionsStaySetUntilRead
  intro i s t h hkind hrow
  rcases exec_attends i h with (hkept | ⟨howed, hpending, rfl⟩) | ⟨r, hi, -⟩
  · exact .inl (hkept.conds hkind)
  · exact .inr ⟨howed, hpending, drawnRestart s.draws, h.trans (owedRestart_eq s)⟩
  · obtain ⟨hpower, hline, hreply⟩ := hrow r
    rcases hi with hi | hi | hi
    · exact absurd hi hpower
    · exact absurd hi hline
    · exact absurd hi hreply

/-- A law that holds of every machine just restarted, and that what other commands do keeps, is kept by every command. -/
theorem exec_keeps {P : State → Prop} (restarted : ∀ r s, P (restart r s))
    (attends : ∀ {k s t}, State.Attends k s t → P s → P t) {i : Instr} {s t : State} (hs : P s)
    (h : exec i s = .next t) : P t := by
  rcases exec_attends i h with (h | ⟨-, -, rfl⟩) | ⟨r, -, rfl⟩
  · exact attends h hs
  · exact restarted _ _
  · exact restarted r s

/-- Such a law is kept by every step, when it speaks of no clock and of no waiting command. -/
theorem step_keeps {P : State → Prop} (restarted : ∀ r s, P (restart r s))
    (attends : ∀ {k s t}, State.Attends k s t → P s → P t) (withPending : ∀ s q, P s → P (s.withPending q))
    (tick : ∀ s, P s → P s.tick) {s t : State} (hs : P s) (h : step s = .next t) : P t := by
  unfold step at h
  split at h
  · exact Host.Outcome.next.inj h ▸ tick s hs
  · next rest _ => exact exec_keeps restarted attends (withPending s rest hs) h

/-- Settles O55: both laws hold of a machine just restarted and are kept by what every other command does. -/
theorem attentionAndLinkStayRight : Obligations.AttentionAndLinkStayRight := by
  unfold Obligations.AttentionAndLinkStayRight
  exact ⟨fun _ _ => step_keeps restart_attentionRight State.Attends.output (fun _ _ => id) (fun _ => id),
    fun _ _ => step_keeps restart_linkRight State.Attends.link (fun _ _ => id) (fun _ => id)⟩

end Sys2Proof.Machine
end

section
/-! SUPPORT. The catalogue as a table: the kinds are distinct, and each service is marked as Table 11.5 says. -/

namespace Sys2Proof.Machine

/-- What holds of each of the 48 services, in their order, holds of every service of the catalogue. -/
theorem forall_catalogue {P : Service → Prop} (h : List.Forall P catalogue) {v : Service} (hv : v ∈ catalogue) : P v :=
  List.forall_iff_forall_mem.mp h v hv

theorem catalogue_kind_inj {v w : Service} (hv : v ∈ catalogue) (hw : w ∈ catalogue) (h : v.kind = w.kind) : v = w :=
  List.inj_on_of_nodup_map (by decide : (catalogue.map Service.kind).Nodup) hv hw h

/-- Every kind of the catalogue is one of Table 11.5, executed when broadcast (R167) and served while a fault is held (R170)
as the rules say. -/
theorem catalogue_marks : ∀ v ∈ catalogue, catalogued v.kind = true ∧ v.bcast = broadcastKind v.kind
    ∧ v.always = servedWhileHeld v.kind := by
  decide

theorem catalogue_lengthOk {v : Service} (hv : v ∈ catalogue) : ∀ n, v.lengthOk n = lengthAllowed v.kind n := by
  refine forall_catalogue (P := fun v => ∀ n, v.lengthOk n = lengthAllowed v.kind n) ?_ hv
  simp only [catalogue, List.cons_append, List.nil_append, List.Forall]
  and_intros <;> exact fun _ => rfl

end Sys2Proof.Machine
end

section
/-! SUPPORT. The queue of waiting commands, which no command touches. -/

namespace Sys2Proof.Machine

/-! ## The requests -/

@[simp] theorem ok_state (s : State) (vs : List Byte) : (ok s vs).state = s := rfl
@[simp] theorem refuse_state (s : State) (st : Status) : (refuse s st).state = s := rfl
theorem beginSave_pending (s : State) : (beginSave s).pending = s.pending := by
  obtain ⟨settings, plant, staging, link, store, clock, draws, pending⟩ := s
  exact (rfl : _ = pending)

section
variable (p : List Byte) (s : State)

theorem runSetAcceptSet_pending : (runSetAcceptSet p s).state.pending = s.pending := by
  unfold runSetAcceptSet; split <;> simp

theorem runSetLinkMode_pending : (runSetLinkMode p s).state.pending = s.pending := by
  unfold runSetLinkMode; split <;> simp

theorem runSetNoticeMask_pending : (runSetNoticeMask p s).state.pending = s.pending := by
  unfold runSetNoticeMask; split <;> simp

theorem runSetFeed_pending : (runSetFeed p s).state.pending = s.pending := by
  unfold runSetFeed; split <;> simp

theorem runReadFeed_pending : (runReadFeed p s).state.pending = s.pending := by
  unfold runReadFeed; split <;> simp

theorem runSetProfile_pending : (runSetProfile p s).state.pending = s.pending := by
  unfold runSetProfile; split; split
  all_goals simp

theorem runOpenRasterPage_pending : (runOpenRasterPage p s).state.pending = s.pending := by
  unfold runOpenRasterPage; split; split
  all_goals simp

theorem runPutCells_pending : (runPutCells p s).state.pending = s.pending := by
  unfold runPutCells; split
  · simp
  · split <;> simp

theorem runWriteRasterPage_pending : (runWriteRasterPage p s).state.pending = s.pending := by
  unfold runWriteRasterPage; split
  · simp
  · dsimp only
    split <;> simp

theorem runCloseRasterPage_pending : (runCloseRasterPage p s).state.pending = s.pending := by
  show (if s.staging.page = none then s else { s with staging := Staging.atRestart }).pending = s.pending
  split <;> simp

theorem runReadCell_pending : (runReadCell p s).state.pending = s.pending := by
  unfold runReadCell; split <;> simp

theorem runSetAdmission_pending : (runSetAdmission p s).state.pending = s.pending := by
  unfold runSetAdmission; split <;> simp

theorem runParkLane_pending : (runParkLane p s).state.pending = s.pending := by
  unfold runParkLane; split <;> simp

theorem runUnparkLane_pending : (runUnparkLane p s).state.pending = s.pending := by
  unfold runUnparkLane; split
  · dsimp only
    split <;> simp
  · simp

theorem runSetLaneOptions_pending : (runSetLaneOptions p s).state.pending = s.pending := by
  unfold runSetLaneOptions; split <;> simp

theorem runSetTimers_pending : (runSetTimers p s).state.pending = s.pending := by
  unfold runSetTimers; split <;> simp

theorem runReadLane_pending : (runReadLane p s).state.pending = s.pending := by
  unfold runReadLane; split <;> simp

theorem runSetSurveyMode_pending : (runSetSurveyMode p s).state.pending = s.pending := by
  unfold runSetSurveyMode; split <;> simp

theorem runContinue_pending : (runContinue p s).state.pending = s.pending := by
  unfold runContinue; split <;> simp

theorem runClearSurvey_pending : (runClearSurvey p s).state.pending = s.pending :=
  State.work_pending s (fun _ => clearSurvey)

theorem runSetWatchPolicy_pending : (runSetWatchPolicy p s).state.pending = s.pending := by
  unfold runSetWatchPolicy; split <;> simp

theorem runSpotMeasure_pending : (runSpotMeasure p s).state.pending = s.pending := by
  unfold runSpotMeasure; split
  · dsimp only
    repeat' split
    all_goals simp
  · simp

theorem runRenewHold_pending : (runRenewHold p s).state.pending = s.pending := by
  unfold runRenewHold; split
  · simp
  · dsimp only
    repeat' split
    all_goals simp

theorem runReleaseHold_pending : (runReleaseHold p s).state.pending = s.pending := by
  unfold runReleaseHold; split
  · simp
  · split <;> simp

theorem runListServices_pending : (runListServices p s).state.pending = s.pending := by
  unfold runListServices; split <;> simp

theorem runReadService_pending : (runReadService p s).state.pending = s.pending := by
  unfold runReadService; split <;> simp

theorem runForgetService_pending : (runForgetService p s).state.pending = s.pending := by
  unfold runForgetService; split
  · simp
  · split <;> simp

theorem runSetRankingPolicy_pending : (runSetRankingPolicy p s).state.pending = s.pending := by
  unfold runSetRankingPolicy; split <;> simp

theorem runPinSource_pending : (runPinSource p s).state.pending = s.pending := by
  unfold runPinSource; split
  · split
    · split <;> simp
    · simp
  · simp

theorem runUnpin_pending : (runUnpin p s).state.pending = s.pending := by
  unfold runUnpin; split
  · simp
  · split <;> simp

theorem runTakeAdvice_pending : (runTakeAdvice p s).state.pending = s.pending := by
  unfold runTakeAdvice; split
  · exact State.enter_pending s _
  · rfl

theorem runSaveSnapshot_pending : (runSaveSnapshot p s).state.pending = s.pending := by
  unfold runSaveSnapshot; split
  · exact beginSave_pending s
  · rfl

theorem runEraseStore_pending : (runEraseStore p s).state.pending = s.pending := by
  unfold runEraseStore; split <;> simp

end

/-- Every request of Table 11.5. -/
theorem run_pending {v : Service} (hv : v ∈ catalogue) (p : List Byte) (s : State) :
    (v.run p s).state.pending = s.pending :=
  forall_catalogue (P := fun v => ∀ p s, (v.run p s).state.pending = s.pending)
    ⟨fun _ _ => rfl, fun _ _ => rfl, runSetAcceptSet_pending, runSetLinkMode_pending, fun _ _ => rfl, fun _ _ => rfl,
      fun _ _ => rfl, runSetNoticeMask_pending, runSetFeed_pending, runReadFeed_pending, runSetProfile_pending,
      fun _ _ => rfl, runOpenRasterPage_pending, runPutCells_pending, runWriteRasterPage_pending,
      runCloseRasterPage_pending, runReadCell_pending, runSetAdmission_pending, fun _ _ => rfl, runParkLane_pending,
      runUnparkLane_pending, runSetLaneOptions_pending, runSetTimers_pending, fun _ _ => rfl, runReadLane_pending,
      fun _ _ => rfl, fun _ _ => rfl, runSetSurveyMode_pending, runContinue_pending, runClearSurvey_pending, fun _ _ => rfl,
      runSetWatchPolicy_pending, fun _ _ => rfl, runSpotMeasure_pending, runRenewHold_pending, runReleaseHold_pending,
      fun _ _ => rfl, runListServices_pending, runReadService_pending, runForgetService_pending,
      runSetRankingPolicy_pending, fun _ _ => rfl, runPinSource_pending, runUnpin_pending, runTakeAdvice_pending,
      runSaveSnapshot_pending, runEraseStore_pending, fun _ _ => rfl⟩ hv p s

/-! ## The link -/

section
variable (s : State)

theorem restart_pending (r : RestartIn) : (restart r s).pending = s.pending := by
  unfold restart judgeStore; split <;> rfl

theorem overrunNow_pending : (overrunNow s).pending = s.pending := by
  rcases overrunNow_cases s with h | ⟨-, -, h⟩ | ⟨a, -, -, h⟩ <;> rw [h]
  · exact restart_pending _ _
  · rfl

theorem replySent_pending : (replySent s).pending = s.pending := by
  unfold replySent; split
  · rfl
  · split
    · exact restart_pending _ _
    · rfl

theorem lengthFault_pending (a n : Byte) : (lengthFault a n s).pending = s.pending := by
  rcases lengthFault_cases a n s with h | ⟨r, h⟩ <;> simp [h]

theorem gapFault_pending (a : Byte) (got : List Byte) : (gapFault a got s).pending = s.pending := by
  unfold gapFault; split <;> rfl

theorem badCheck_pending (k : Byte) (f : Req) : (badCheck k f s).pending = s.pending := by
  unfold badCheck; split <;> rfl

theorem quietEnds_pending : (quietEnds s).pending = s.pending := by
  unfold quietEnds; split <;> rfl

variable {s}

theorem whenHunting_pending {k : State → State} (h : (k s).pending = s.pending) :
    (whenHunting k s).pending = s.pending := by
  rcases whenHunting_cases k s with e | e | ⟨-, e⟩ <;> rw [e]
  · exact overrunNow_pending s
  · exact h

theorem frame_pending {v : Service} (run : ∀ p, (v.run p s).state.pending = s.pending) (f : Req) :
    (v.frame f s).pending = s.pending := by
  unfold Service.frame; split
  · rfl
  · split
    · exact run _
    · rfl
  · show (v.respond f.payload s).state.pending = s.pending
    rcases Service.respond_cases v f.payload s with h | h | ⟨-, -, h⟩ <;> rw [h]
    · rfl
    · rfl
    · exact run _

variable (s)

theorem serve_pending {v : Service} (hv : v ∈ catalogue) (f : Req) : (serve v f s).pending = s.pending := by
  refine whenHunting_pending ?_
  split
  · exact lengthFault_pending s _ _
  · exact frame_pending (fun p => run_pending hv p s) f

theorem frameByKind_pending (k : Byte) (f : Req) : (frameByKind catalogue k f s).pending = s.pending := by
  unfold frameByKind; split
  · rfl
  · split
    · next h => exact frame_pending (fun p => run_pending (List.mem_of_find?_eq_some h) p s) f
    · exact frame_pending (fun _ => rfl) f

theorem frameArrives_pending (k : Byte) (f : Req) : (frameArrives k f s).pending = s.pending := by
  refine whenHunting_pending ?_
  split
  · exact lengthFault_pending s _ _
  · exact frameByKind_pending s k f

theorem lengthArrives_pending (a n : Byte) : (lengthArrives a n s).pending = s.pending := by
  refine whenHunting_pending ?_
  split
  · exact lengthFault_pending s a n
  · rfl

theorem bytesStop_pending (a : Byte) (got : List Byte) : (bytesStop a got s).pending = s.pending := by
  refine whenHunting_pending ?_
  split
  · exact gapFault_pending s a got
  · rfl

/-! ## The timers and the page writer -/

theorem measureTimeout_pending (l : Lane) : (measureTimeout l s).pending = s.pending := by
  unfold measureTimeout; dsimp only
  split <;> rfl

theorem refreshTimeout_pending (l : Lane) : (refreshTimeout l s).pending = s.pending := by
  unfold refreshTimeout; dsimp only
  split <;> rfl

theorem eraseComplete_pending : (eraseComplete s).pending = s.pending := by
  unfold eraseComplete; dsimp only
  split <;> rfl

theorem writePageDone_pending (c : Capture) (k : Fin 256) (again : Bool) (flaws : Flaws) :
    (writePageDone s c k again flaws).pending = s.pending := by
  unfold writePageDone; dsimp only
  split
  · rfl
  · split <;> rfl

theorem writeHeaderDone_pending (c : Capture) (again : Bool) (flaws : Flaws) :
    (writeHeaderDone s c again flaws).pending = s.pending := by
  unfold writeHeaderDone; dsimp only
  split <;> rfl

theorem writeComplete_pending (flaws : Flaws) : (writeComplete flaws s).pending = s.pending := by
  unfold writeComplete; split
  · rfl
  · split
    · exact writePageDone_pending s _ _ _ flaws
    · exact writeHeaderDone_pending s _ _ flaws
    all_goals rfl

end

/-- Settles O3: a request row goes through its service, and each other row has a queue lemma of its own. -/
theorem everyCommandCompletes : Obligations.EveryCommandCompletes := by
  unfold Obligations.EveryCommandCompletes
  intro i s
  cases hr : requestOf i with
  | some kf =>
    obtain ⟨v, hv, -, hserve⟩ := exec_service hr s
    exact ⟨_, hserve, serve_pending s hv kf.2⟩
  | none =>
    cases i <;> simp only [requestOf, reduceCtorEq] at hr
    case restartReplySent r =>
      refine ⟨_, rfl, ?_⟩
      split
      · exact restart_pending s r
      · rfl
    case unknownKind k f => exact ⟨_, rfl, frameArrives_pending s k f⟩
    case replyKindDiscarded k f => exact ⟨_, rfl, frameArrives_pending s k f⟩
    case broadcastDiscarded k f => exact ⟨_, rfl, frameArrives_pending s k f⟩
    case foreignFrame k f e =>
      cases e with
      | whole => exact ⟨_, rfl, frameArrives_pending s k f⟩
      | badLength n => exact ⟨_, rfl, lengthArrives_pending s f.addr n⟩
      | stopped got => exact ⟨_, rfl, bytesStop_pending s f.addr got⟩
    case checkFault k c f =>
      refine ⟨_, rfl, whenHunting_pending ?_⟩
      split
      · exact lengthFault_pending s _ _
      · split
        · exact frameByKind_pending s k f
        · exact badCheck_pending s k f
    case framingLengthFault a n => exact ⟨_, rfl, lengthArrives_pending s a n⟩
    case framingGapTimeout a got => exact ⟨_, rfl, bytesStop_pending s a got⟩
    case addressWaitTimeout => exact ⟨_, rfl, whenHunting_pending rfl⟩
    case quietSilenceEnd => exact ⟨_, rfl, quietEnds_pending s⟩
    case overrun => exact ⟨_, rfl, overrunNow_pending s⟩
    case measureTimerExpiry l => exact ⟨_, rfl, measureTimeout_pending s l⟩
    case holdRefreshExpiry l => exact ⟨_, rfl, refreshTimeout_pending s l⟩
    case pageEraseComplete => exact ⟨_, rfl, eraseComplete_pending s⟩
    case pageWriteComplete flaws => exact ⟨_, rfl, writeComplete_pending s flaws⟩
    case powerOn r => exact ⟨_, rfl, restart_pending s r⟩
    case restartLine r => exact ⟨_, rfl, restart_pending s r⟩
    case startUpEnd =>
      refine ⟨_, rfl, ?_⟩
      split <;> rfl
    case replySent => exact ⟨_, rfl, replySent_pending s⟩
    case watchDue c => exact ⟨_, rfl, rfl⟩
    case forgetCheck => exact ⟨_, rfl, State.enter_pending s _⟩
    all_goals exact ⟨_, rfl, State.work_pending s _⟩

end Sys2Proof.Machine
end

section
/-! SUPPORT. What a frame does in each state of the receiver, whatever brings it, and the statements of chapter 11 that rest
on it. -/

namespace Sys2Proof.Machine

/-- Settles O1. -/
theorem stepExecutesTheFrontCommand : Obligations.StepExecutesTheFrontCommand := by
  unfold Obligations.StepExecutesTheFrontCommand
  intro s c rest h
  rw [step, h]

/-! ## The gate of R166 -/

/-- A request row goes to the service of its kind, which Table 11.5 marks. -/
theorem exec_marked_service {i : Instr} {k : Byte} {f : Req} (h : requestOf i = some (k, f)) (s : State) :
    ∃ v ∈ catalogue, v.kind = k ∧ v.bcast = broadcastKind k ∧ v.always = servedWhileHeld k
      ∧ (∀ n, v.lengthOk n = lengthAllowed k n) ∧ exec i s = .next (serve v f s) := by
  obtain ⟨v, hv, rfl, hexec⟩ := exec_service h s
  obtain ⟨-, hbcast, halways⟩ := catalogue_marks _ hv
  exact ⟨v, hv, rfl, hbcast, halways, catalogue_lengthOk hv, hexec⟩

/-- A whole frame of a kind below 0x80 goes to the service of its kind, or is one of an unknown kind. -/
theorem frameArrives_below {k : Byte} (hk : k.toNat < 0x80) (f : Req) (s : State) :
    (∃ v ∈ catalogue, v.kind = k ∧ frameArrives k f s = serve v f s)
      ∨ ((∀ v ∈ catalogue, v.kind ≠ k) ∧ frameArrives k f s = serve (unknownService k) f s) := by
  have hlow : ¬ 0x80 ≤ k.toNat := by omega
  cases hfind : catalogue.find? (fun v => v.kind == k) with
  | some v =>
    refine .inl ⟨v, List.mem_of_find?_eq_some hfind, by simpa using List.find?_some hfind, ?_⟩
    simp only [frameArrives, deliver, serve, frameByKind, if_neg hlow, hfind]
  | none =>
    refine .inr ⟨by simpa using hfind, ?_⟩
    simp only [frameArrives, deliver, serve, frameByKind, if_neg hlow, hfind]

/-- A frame of a reply kind that arrives whole is discarded, whoever it is addressed to (R166). -/
theorem frameArrives_replyKind {k : Byte} {f : Req} {s : State} (hx : s.link.rx = .hunt) (h240 : f.payload.length ≤ 240)
    (hk : 0x80 ≤ k.toNat) : frameArrives k f s = s := by
  rw [frameArrives, deliver, whenHunting_hunt hx, if_neg (by omega)]
  exact if_pos hk

/-- Settles O4: by the first two outcomes of R166, for a kind of the table and for an unknown one. -/
theorem requestsAreGatedInOrder : Obligations.RequestsAreGatedInOrder := by
  unfold Obligations.RequestsAreGatedInOrder
  refine ⟨fun i k f s hi hs h240 => ?_, fun k f s hs h240 hk hcat => ?_⟩
  · obtain ⟨v, -, rfl, -, halways, hlength, hexec⟩ := exec_marked_service hi s
    rw [hexec, ← halways, ← hlength]
    exact ⟨fun hh ha => congrArg _ (serve_halted hs hh ha h240), fun hg hl => congrArg _ (serve_badLength hs hg h240 hl)⟩
  · refine congrArg Host.Outcome.next ?_
    rcases frameArrives_below hk f s with ⟨v, hv, rfl, -⟩ | ⟨-, hserve⟩
    · obtain ⟨hin, -⟩ := catalogue_marks _ hv
      exact absurd hin (by rw [hcat]; decide)
    · rw [hserve]
      cases hh : s.held with
      | true => exact serve_halted (v := unknownService k) hs hh rfl h240
      | false => exact serve_executed (v := unknownService k) hs (.inl hh) h240 rfl rfl

/-! ## Broadcasts (R167) -/

/-- A request that is executed when broadcast is executed on an empty payload. -/
theorem lengthAllowed_broadcast {k : Byte} (h : broadcastKind k = true) : lengthAllowed k 0 = true := by
  simp only [broadcastKind, Bool.or_eq_true, beq_iff_eq] at h
  rcases h with ((rfl | rfl) | rfl) | rfl <;> rfl

/-- Settles O5: both frames reach the same service, which the broadcast runs without an answer. -/
theorem broadcastsActAsAddressedRequests : Obligations.BroadcastsActAsAddressedRequests := by
  unfold Obligations.BroadcastsActAsAddressedRequests
  intro i j k f g s hi hj hb hf hfp hgp hg hheld
  obtain ⟨v, hv, rfl, hbcast, halways, hlength, hexec⟩ := exec_marked_service hi s
  obtain ⟨w, hw, hkind, -, -, -, hexec'⟩ := exec_marked_service hj s
  obtain rfl := catalogue_kind_inj hw hv hkind
  have hgate : s.held = false ∨ w.always = true := hheld.imp_right fun h => by rw [halways, h]; rfl
  have hlen : w.lengthOk 0 = true := (hlength 0).trans (lengthAllowed_broadcast hb)
  have hruns := run_runs hw [] s
  refine ⟨(w.run [] s).state, (w.run [] s).status, (w.run [] s).body, ?_, ?_, hruns.rx.trans hg.1, hruns.driver,
    hruns.answering⟩
  · rw [hexec, serve_broadcast hg.1 hf (hbcast.trans hb) hgate (by simp [hfp]) (by rwa [hfp]), hfp]
  · rw [hexec', serve_executed hg hgate (by simp [hgp]) (by rwa [hgp]) (by rw [hgp])]

/-! ## Frames that are not for the unit (R164, R166 to R168) -/

/-- A broadcast that is not executed (R167): of another kind, of a bad length, or gated while a fault is held. -/
def Discarded (k : Byte) (f : Req) (s : State) : Prop :=
  broadcastKind k = false ∨ lengthAllowed k f.payload.length = false ∨ (s.held = true ∧ k ≠ 0x06)

theorem serve_discarded {v : Service} {f : Req} {s : State} (hv : v ∈ catalogue) (hx : s.link.rx = .hunt)
    (hf : f.addr = 255) (h240 : f.payload.length ≤ 240) (h : Discarded v.kind f s) : serve v f s = s := by
  obtain ⟨-, hbcast, halways⟩ := catalogue_marks _ hv
  refine serve_broadcast_discarded hx hf h240 ?_
  rcases h with h | h | ⟨hh, hk⟩
  · exact .inl (hbcast.trans h)
  · exact .inr (.inr ((catalogue_lengthOk hv _).trans h))
  · have hgated : ∀ v ∈ catalogue, v.kind ≠ 0x06 → v.bcast = false ∨ v.always = false := by decide
    exact (hgated v hv hk).imp_right fun ha => .inl (by rw [Service.halted_eq, hh, ha]; rfl)

theorem frameArrives_discarded {k : Byte} {f : Req} {s : State} (hx : s.link.rx = .hunt)
    (hf : f.addr = 255) (h240 : f.payload.length ≤ 240) (h : Discarded k f s) : frameArrives k f s = s := by
  by_cases hk : 0x80 ≤ k.toNat
  · exact frameArrives_replyKind hx h240 hk
  · rcases frameArrives_below (Nat.lt_of_not_le hk) f s with ⟨v, hv, rfl, hserve⟩ | ⟨-, hserve⟩ <;> rw [hserve]
    · exact serve_discarded hv hx hf h240 h
    · exact serve_broadcast_discarded hx hf h240 (.inl rfl)

theorem frameArrives_foreign {k : Byte} {f : Req} {s : State} (hx : s.link.rx = .hunt)
    (hj : s.link.judge f.addr = .foreign) (h240 : f.payload.length ≤ 240) : frameArrives k f s = s := by
  by_cases hk : 0x80 ≤ k.toNat
  · exact frameArrives_replyKind hx h240 hk
  · rcases frameArrives_below (Nat.lt_of_not_le hk) f s with ⟨v, -, -, hserve⟩ | ⟨-, hserve⟩ <;> rw [hserve]
    all_goals exact serve_foreign hx hj h240

theorem lengthFault_foreign {a n : Byte} {s : State} (hj : s.link.judge a = .foreign) :
    lengthFault a n s = { s with link := { s.link with rx := .quiet } } := by
  rw [lengthFault, hj]

theorem gapFault_foreign {a : Byte} {got : List Byte} {s : State} (hj : s.link.judge a = .foreign) :
    gapFault a got s = { s with link := { s.link with rx := .quiet } } := by
  rw [gapFault, hj]

theorem lengthArrives_hunt {a n : Byte} {s : State} (hx : s.link.rx = .hunt) (hn : 240 < n.toNat) :
    lengthArrives a n s = lengthFault a n s := by
  rw [lengthArrives, whenHunting_hunt hx, if_pos hn]

theorem bytesStop_hunt {a : Byte} {got : List Byte} {s : State} (hx : s.link.rx = .hunt) (hc : cutShort got = true) :
    bytesStop a got s = gapFault a got s := by
  rw [bytesStop, whenHunting_hunt hx, if_pos hc]

/-- Settles O6: by where the frame comes from, and by what ends it. -/
theorem framesThatAreNotForTheUnit : Obligations.FramesThatAreNotForTheUnit := by
  unfold Obligations.FramesThatAreNotForTheUnit
  refine ⟨fun i k f s hi => ?_, fun s hx => ⟨fun k f h240 _ hk => ?_, fun k f h240 hf h => ?_, ?_⟩,
    fun k f s hx hj => ⟨fun h240 => ?_, fun n hn => ?_, fun got hc => ?_⟩, fun s => ⟨fun hx => ?_, fun hx => ?_⟩⟩
  · obtain ⟨v, hv, rfl, hexec⟩ := exec_service hi s
    rw [hexec]
    refine ⟨?_, fun hx h240 => ⟨fun hj => ?_, fun hf h => ?_⟩⟩
    · rintro (hx | hx)
      · exact congrArg _ (whenHunting_deaf hx)
      · exact congrArg _ (whenHunting_quiet hx)
    · exact congrArg _ (serve_foreign hx hj h240)
    · exact congrArg _ (serve_discarded hv hx hf h240 h)
  · exact congrArg _ (frameArrives_replyKind hx h240 hk)
  · exact congrArg _ (frameArrives_discarded hx hf h240 h)
  · exact congrArg _ (whenHunting_hunt hx)
  · exact congrArg _ (frameArrives_foreign hx hj h240)
  · exact congrArg _ ((lengthArrives_hunt hx hn).trans (lengthFault_foreign hj))
  · exact congrArg _ ((bytesStop_hunt hx hc).trans (gapFault_foreign hj))
  · exact congrArg _ (if_pos hx)
  · exact congrArg _ (if_neg hx)

/-! ## Link faults (R168, R169) -/

theorem lengthFault_heard {a n : Byte} {s : State} (hj : s.link.judge a ≠ .foreign) :
    lengthFault a n s =
      takeFault { cause := .framing, addr := a, length := some n, kind := none, tag := none, time := s.clock } .quiet s := by
  unfold lengthFault
  split
  · next h => exact absurd h hj
  all_goals rfl

theorem gapFault_heard {a : Byte} {got : List Byte} {s : State} (hj : s.link.judge a ≠ .foreign) :
    gapFault a got s =
      takeFault
        { cause := .framing, addr := a, length := got[0]?, kind := got[1]?, tag := got[2]?, time := s.clock } .hunt s := by
  unfold gapFault
  split
  · next h => exact absurd h hj
  all_goals rfl

theorem badCheck_heard {k : Byte} {f : Req} {s : State} (hj : s.link.judge f.addr ≠ .foreign) :
    badCheck k f s =
      takeFault
        { cause := .check, addr := f.addr, length := some (BitVec.ofNat 8 f.payload.length), kind := some k
          tag := some f.tag, time := s.clock } .hunt s := by
  unfold badCheck
  split
  · next h => exact absurd h hj
  all_goals rfl

theorem exec_checkFault_bad {k c : Byte} {f : Req} {s : State} (hx : s.link.rx = .hunt) (h240 : f.payload.length ≤ 240)
    (hc : checkSum k c f ≠ 0) : exec (.checkFault k c f) s = .next (badCheck k f s) := by
  refine congrArg Host.Outcome.next ((whenHunting_hunt hx).trans ?_)
  rw [if_neg (by omega), if_neg hc]

/-- Settles O7: each fault is taken by `takeFault`, with its own record and the receiver's next state. -/
theorem linkFaultsAreLogged : Obligations.LinkFaultsAreLogged := by
  unfold Obligations.LinkFaultsAreLogged
  refine ⟨fun k c f s hx hj h240 hc => ?_, fun a s hx hj => ⟨fun n hn => ?_, fun got hc => ?_⟩⟩
  · exact (exec_checkFault_bad hx h240 hc).trans (congrArg _ (badCheck_heard hj))
  · exact congrArg _ ((lengthArrives_hunt hx hn).trans (lengthFault_heard hj))
  · exact congrArg _ ((bytesStop_hunt hx hc).trans (gapFault_heard hj))

/-! ## The end of a reply (R163, R164, R168, R174) -/

/-- Settles O8: by whether an answer is pending and whether it owes a restart. -/
theorem repliesEndOrAreOverrun : Obligations.RepliesEndOrAreOverrun := by
  unfold Obligations.RepliesEndOrAreOverrun
  refine ⟨fun s a ha ho => ⟨congrArg _ (replySent_some ha ho), congrArg _ (overrunNow_some ha ho)⟩,
    fun s a ha ho => ⟨drawnRestart s.draws, ?_, ?_⟩, fun s r => ⟨fun ho => congrArg _ (if_pos ho), fun ho => ?_⟩,
    fun s => ⟨fun ha => ⟨congrArg _ (overrunNow_none ha), ?_⟩, fun i k f hi hx => ?_⟩⟩
  · exact (congrArg _ (replySent_owed ha ho)).trans (owedRestart_eq s)
  · exact (congrArg _ (overrunNow_owed ha ho)).trans (owedRestart_eq s)
  · exact congrArg _ (if_neg (by rw [ho]; decide))
  · refine congrArg Host.Outcome.next ?_
    rw [replySent, ha]
  · obtain ⟨v, -, -, hexec⟩ := exec_service hi s
    rw [hexec]
    exact congrArg _ (whenHunting_frame hx)

end Sys2Proof.Machine
end

section
/-! SUPPORT. The requests of the link itself: Identify, Restart, the accept set, the link mode and the fault log. -/

namespace Sys2Proof.Machine

/-- A request of the four that STRICT mode serves while a fault is held, on a payload that stands written out (R170). -/
theorem next_heard_at {v : Service} {f : Req} {p : List Byte} {s t : State} {st : Status} {vs : List Byte}
    (hs : s.hears f) (ha : v.always = true) (hp : f.payload = p) (hl : v.lengthOk p.length = true) (h240 : p.length ≤ 240)
    (hr : v.run p s = { state := t, status := st, body := vs }) :
    (.next (serve v f s) : Result) = .next (replied v.kind f st vs t) := by
  subst hp
  exact congrArg Host.Outcome.next (serve_executed hs (.inr ha) h240 hl hr)

/-- Settles O9. -/
theorem identifyAndRestartAreAnswered : Obligations.IdentifyAndRestartAreAnswered := by
  unfold Obligations.IdentifyAndRestartAreAnswered
  exact ⟨fun f s hs hp => next_heard_at (v := svcIdentify) hs rfl hp rfl (by simp) rfl,
    fun f s hs hp => next_served_at (v := svcRestart) hs hp rfl (by simp) rfl⟩

/-! ## The accept set (R165) -/

theorem heldOnce_sublist (seen as : List Byte) : (heldOnce seen as).Sublist as := by
  induction as generalizing seen with
  | nil => exact .slnil
  | cons a as ih =>
    rw [heldOnce]
    split
    · exact (ih seen).cons a
    · exact (ih (a :: seen)).cons_cons a

theorem mem_heldOnce {seen as : List Byte} {b : Byte} : b ∈ heldOnce seen as ↔ b ∈ as ∧ b ∉ seen := by
  induction as generalizing seen with
  | nil => simp [heldOnce]
  | cons a as ih =>
    rw [heldOnce]
    split
    · next ha =>
      have ha : a ∈ seen := by simpa using ha
      rw [ih, List.mem_cons]
      exact and_congr_left fun hb => (or_iff_right fun e : b = a => hb (e ▸ ha)).symm
    · next ha =>
      have ha : a ∉ seen := by simpa using ha
      rw [List.mem_cons, ih, List.mem_cons, List.mem_cons]
      by_cases hb : b = a
      · simp [hb, ha]
      · simp [hb]

theorem nodup_heldOnce (seen as : List Byte) : (heldOnce seen as).Nodup := by
  induction as generalizing seen with
  | nil => exact List.nodup_nil
  | cons a as ih =>
    rw [heldOnce]
    split
    · exact ih seen
    · exact List.nodup_cons.mpr ⟨fun h => (mem_heldOnce.mp h).2 List.mem_cons_self, ih (a :: seen)⟩

theorem runSetAcceptSet_refused {p : List Byte} (s : State) (h : ∃ a ∈ p, a = 0 ∨ a = 255) :
    runSetAcceptSet p s = refuse s .badValue := if_pos (by simpa using h)

theorem runSetAcceptSet_ok {p : List Byte} (s : State) (h : ∀ a ∈ p, a ≠ 0 ∧ a ≠ 255) :
    runSetAcceptSet p s = ok { s with link := { s.link with added := heldOnce [s.link.strap.setWidth 8] p } } [] :=
  if_neg (by simpa using h)

/-! ## The link mode (R170) -/

theorem linkModeAt_bad {m : Byte} (h0 : m ≠ 0) (h1 : m ≠ 1) : linkModeAt [m] 0 = none := by
  have hbyte : byteAt [m] 0 = m.toNat := rfl
  have h0' : m.toNat ≠ 0 := fun h => h0 (BitVec.eq_of_toNat_eq h)
  have h1' : m.toNat ≠ 1 := fun h => h1 (BitVec.eq_of_toNat_eq h)
  rw [linkModeAt, hbyte, if_neg h0', if_neg h1']

theorem runSetLinkMode_bad {m : Byte} (s : State) (h0 : m ≠ 0) (h1 : m ≠ 1) :
    runSetLinkMode [m] s = refuse s .badValue := by
  rw [runSetLinkMode, linkModeAt_bad h0 h1]

/-! ## The fault log (R169) -/

theorem flagBytes_record (x y z : Bool) :
    flagBytes [true, x, y, z] = b1 (1 + 2 * x.toNat + 4 * y.toNat + 8 * z.toNat) := by
  revert x y z
  decide

theorem bOpt_byte (x : Option Byte) : bOpt 1 (fun a => [a]) x = [x.getD 0] := by
  cases x <;> rfl

theorem bLinkLog_empty {k : Link} (h : k.log = none) :
    bLinkLog k = [0#8] ++ List.replicate 9 0#8 ++ b1 k.mode.code ++ b1 k.strap.toNat ++ b1 k.added.length ++ k.added := by
  rw [bLinkLog, h]
  rfl

theorem bLinkLog_record {k : Link} {r : LinkFault} (h : k.log = some r) :
    bLinkLog k =
      b1 (1 + 2 * r.length.isSome.toNat + 4 * r.kind.isSome.toNat + 8 * r.tag.isSome.toNat)
        ++ b1 r.cause.code ++ [r.addr, r.length.getD 0, r.kind.getD 0, r.tag.getD 0] ++ bTime r.time
        ++ b1 k.mode.code ++ b1 k.strap.toNat ++ b1 k.added.length ++ k.added := by
  rw [bLinkLog, h]
  simp only [Option.isSome_some, Option.bind_some, flagBytes_record, bOpt_byte]
  simp [bOpt]

/-- Settles O10: by what each request runs; the log is read and cleared even while a fault is held. -/
theorem linkSettingsAndLog : Obligations.LinkSettingsAndLog := by
  unfold Obligations.LinkSettingsAndLog
  refine ⟨fun f s hs h3 => ?_, fun f m s hs hp => ⟨?_, ?_, fun h0 h1 => ?_⟩,
    fun f s hs hp => ⟨fun hlog => ?_, fun r hlog => ?_, ?_⟩⟩
  · have hserved {t st vs} := next_served (v := svcSetAcceptSet) (t := t) (st := st) (vs := vs) hs (by omega)
      (decide_eq_true h3)
    refine ⟨fun h => hserved (runSetAcceptSet_refused s h), fun h => ⟨heldOnce [s.link.strap.setWidth 8] f.payload,
      nodup_heldOnce _ _, (heldOnce_sublist _ _).length_le.trans h3, fun a => ?_, hserved (runSetAcceptSet_ok s h)⟩⟩
    rw [mem_heldOnce, List.mem_singleton]
  · rintro rfl
    exact next_served_at (v := svcSetLinkMode) hs hp rfl (by simp) rfl
  · rintro rfl
    exact next_served_at (v := svcSetLinkMode) hs hp rfl (by simp) rfl
  · exact next_served_at (v := svcSetLinkMode) hs hp rfl (by simp) (runSetLinkMode_bad s h0 h1)
  · rw [← bLinkLog_empty hlog]
    exact next_heard_at (v := svcReadLinkLog) hs rfl hp rfl (by simp) rfl
  · rw [← bLinkLog_record hlog]
    exact next_heard_at (v := svcReadLinkLog) hs rfl hp rfl (by simp) rfl
  · exact next_heard_at (v := svcClearLinkFault) hs rfl hp rfl (by simp) rfl

end Sys2Proof.Machine
end

section
/-! SUPPORT. The page writer stage by stage (R179): one equation for each stage and each outcome of the read-back, and what the
writer leaves of the memory outside its page; the statement of its stages. -/

namespace Sys2Proof.Machine

/-! ## One page of the memory

What a page's erase and a page's write leave outside the page holds of any list of entries, canonical or not. -/

theorem Memory.read_erased (m : List Host.Cell) (k : Fin 256) (a : Nat) :
    Memory.read (Memory.erasePage m k) a =
      if pageBase k ≤ a ∧ a < pageBase k + 256 then erasedByte else Memory.read m a := by
  induction m with
  | nil => simp [Memory.erasePage, Memory.read]
  | cons x rest ih =>
    obtain ⟨b, w⟩ := x
    rw [Memory.erasePage] at ih ⊢
    by_cases hin : pageBase k ≤ b ∧ b < pageBase k + 256
    · rw [List.filter_cons_of_neg (by simp [hin]), ih]
      by_cases hab : a = b
      · rw [if_pos (hab ▸ hin), if_pos (hab ▸ hin)]
      · rw [Memory.read, if_neg hab]
    · rw [List.filter_cons_of_pos (by simp; omega), Memory.read, Memory.read, ih]
      by_cases hab : a = b
      · rw [if_pos hab, if_pos hab, if_neg (hab ▸ hin)]
      · rw [if_neg hab, if_neg hab]

theorem Memory.read_write_ne (m : List Host.Cell) {a b : Nat} (v : Byte) (h : b ≠ a) :
    Memory.read (Memory.write m a v) b = Memory.read m b := by
  induction m with
  | nil => simp only [Memory.write]; split <;> simp [Memory.read, h]
  | cons x rest ih =>
    obtain ⟨c, w⟩ := x
    simp only [Memory.write]
    split
    · split <;> simp [Memory.read, h]
    · split
      · next hac =>
        subst hac
        split <;> simp [Memory.read, h]
      · simp only [Memory.read, ih]

theorem Memory.read_writeRun_outside (m : List Host.Cell) (a : Nat) (vs : List Byte) {b : Nat}
    (h : b < a ∨ a + vs.length ≤ b) : Memory.read (Memory.writeRun m a vs) b = Memory.read m b := by
  induction vs generalizing m a with
  | nil => rfl
  | cons v vs ih =>
    rw [List.length_cons] at h
    rw [Memory.writeRun, ih _ _ (by omega), Memory.read_write_ne m v (by omega)]

theorem Memory.read_writePage_outside (m : List Host.Cell) (k : Fin 256) (bs : List Byte) {a : Nat}
    (h : a < pageBase k ∨ pageBase k + 256 ≤ a) : Memory.read (Memory.writePage m k bs) a = Memory.read m a :=
  Memory.read_writeRun_outside m _ _ (by rw [List.length_take]; omega)

/-! ## The stages of the page writer (R179)

`pageMemory` and `headerMemory` name the memory after a write, as the operand lets it hold what was written. -/

/-- The memory after page k of the image was written. -/
def State.pageMemory (s : State) (c : Capture) (k : Fin 256) (flaws : Flaws) : List Host.Cell :=
  Memory.writePage s.store.mem k (takenBytes (c.page k) flaws)

/-- The memory after the header was written. -/
def State.headerMemory (s : State) (c : Capture) (flaws : Flaws) : List Host.Cell :=
  Memory.writePage s.store.mem 0 (takenBytes (savedHeader s.store c) flaws)

section
variable {s : State} {c : Capture} {k : Fin 256} {again : Bool} {flaws : Flaws}

theorem eraseComplete_eraseHeader (hw : s.store.writer = .saving .eraseHeader) :
    eraseComplete s = s.stage (Memory.erasePage s.store.mem 0) (.erasePage 1 false) := by
  rw [eraseComplete, hw]

theorem eraseComplete_erasePage (hw : s.store.writer = .saving (.erasePage k again)) :
    eraseComplete s = s.stage (Memory.erasePage s.store.mem k) (.writePage k again) := by
  rw [eraseComplete, hw]

theorem eraseComplete_eraseHeaderAgain (hw : s.store.writer = .saving .eraseHeaderAgain) :
    eraseComplete s = s.stage (Memory.erasePage s.store.mem 0) (.writeHeader true) := by
  rw [eraseComplete, hw]

theorem eraseComplete_eraseAfterFail (hw : s.store.writer = .saving .eraseAfterFail) :
    eraseComplete s = failSave (s.setStore { s.store with mem := Memory.erasePage s.store.mem 0 }) := by
  rw [eraseComplete, hw]

theorem writeComplete_writePage (hc : s.store.capture = some c) (hw : s.store.writer = .saving (.writePage k again)) :
    writeComplete flaws s = writePageDone s c k again flaws := by
  rw [writeComplete, hc, hw]

theorem writeComplete_writeHeader (hc : s.store.capture = some c) (hw : s.store.writer = .saving (.writeHeader again)) :
    writeComplete flaws s = writeHeaderDone s c again flaws := by
  rw [writeComplete, hc, hw]

/-- The page reads back as captured: it counts as verified, and the next page follows, or the header. -/
theorem writePageDone_verified (h : Memory.readPage (s.pageMemory c k flaws) k = c.page k) :
    writePageDone s c k again flaws =
      (s.setStore { s.store with verified := s.store.verified + 1 }).stage (s.pageMemory c k flaws)
        (if k.val = c.pages then .writeHeader false else .erasePage (k + 1) false) := by
  rw [writePageDone]
  exact if_pos h

/-- The first mismatch of a page: it is erased and written once more. -/
theorem writePageDone_retried (h : Memory.readPage (s.pageMemory c k flaws) k ≠ c.page k) :
    writePageDone s c k false flaws = s.stage (s.pageMemory c k flaws) (.erasePage k true) := by
  rw [writePageDone]
  exact if_neg h

/-- The second mismatch of a page fails the save. -/
theorem writePageDone_failed (h : Memory.readPage (s.pageMemory c k flaws) k ≠ c.page k) :
    writePageDone s c k true flaws = failSave (s.setStore { s.store with mem := s.pageMemory c k flaws }) := by
  rw [writePageDone]
  exact if_neg h

/-- The header reads back as written: the save has succeeded. -/
theorem writeHeaderDone_verified (h : Memory.readPage (s.headerMemory c flaws) 0 = savedHeader s.store c) :
    writeHeaderDone s c again flaws =
      finishSave (s.setStore { s.store with mem := s.headerMemory c flaws, image := c.image }) := by
  rw [writeHeaderDone]
  exact if_pos h

/-- A mismatch of the header: page 0 is erased, for the second write or because the save has failed. -/
theorem writeHeaderDone_mismatch (h : Memory.readPage (s.headerMemory c flaws) 0 ≠ savedHeader s.store c) :
    writeHeaderDone s c again flaws =
      (s.setStore { s.store with image := c.image }).stage (s.headerMemory c flaws)
        (if again then .eraseAfterFail else .eraseHeaderAgain) := by
  rw [writeHeaderDone]
  exact if_neg h

end

/-- Settles O49: stage by stage, by the equations above; outside its page a write leaves the memory as it was. -/
theorem pageWriterFollowsItsStages : Obligations.PageWriterFollowsItsStages := by
  unfold Obligations.PageWriterFollowsItsStages
  intro s cap flaws hc
  refine ⟨fun k a => Memory.read_erased s.store.mem k a, fun hw => ?_, fun k again hw => ?_, fun hw => ?_, fun hw => ?_,
    fun k again hw => ⟨s.pageMemory cap k flaws, fun a ha => Memory.read_writePage_outside _ k _ ha, fun h => ?_,
      fun h => ⟨?_, ?_⟩, ?_⟩,
    fun again hw => ⟨s.headerMemory cap flaws, savedHeader s.store cap, rfl,
      fun a ha => Memory.read_writePage_outside _ 0 _ (.inr ha), fun h => ?_, fun h => ?_, ?_⟩⟩
  · exact congrArg Host.Outcome.next (eraseComplete_eraseHeader hw)
  · exact congrArg Host.Outcome.next (eraseComplete_erasePage hw)
  · exact congrArg Host.Outcome.next (eraseComplete_eraseHeaderAgain hw)
  · exact congrArg Host.Outcome.next (eraseComplete_eraseAfterFail hw)
  · exact congrArg Host.Outcome.next ((writeComplete_writePage hc hw).trans (writePageDone_verified h))
  · rintro rfl
    exact congrArg Host.Outcome.next ((writeComplete_writePage hc hw).trans (writePageDone_retried h))
  · rintro rfl
    exact congrArg Host.Outcome.next ((writeComplete_writePage hc hw).trans (writePageDone_failed h))
  · rintro rfl hwf hlen
    exact Memory.readPage_writePage hwf k _ hlen
  · exact congrArg Host.Outcome.next ((writeComplete_writeHeader hc hw).trans (writeHeaderDone_verified h))
  · exact congrArg Host.Outcome.next ((writeComplete_writeHeader hc hw).trans (writeHeaderDone_mismatch h))
  · rintro rfl hwf
    exact Memory.readPage_writePage hwf 0 _ (headerPage_length _ _ _)

end Sys2Proof.Machine
end

section
/-! SUPPORT. What every command does to the retained store, said once: `exec_stores`. Only Save Snapshot, Erase Store, the page
writer, a restart and the end of start-up touch it. -/

namespace Sys2Proof.Machine

/-! ## The requests that leave the store alone -/

section
variable (p : List Byte) (s : State)

theorem runSetAcceptSet_store : (runSetAcceptSet p s).state.store = s.store := by
  unfold runSetAcceptSet; split <;> rfl

theorem runSetLinkMode_store : (runSetLinkMode p s).state.store = s.store := by
  unfold runSetLinkMode; split <;> rfl

theorem runSetNoticeMask_store : (runSetNoticeMask p s).state.store = s.store := by
  unfold runSetNoticeMask; split <;> rfl

theorem runSetFeed_store : (runSetFeed p s).state.store = s.store := by
  unfold runSetFeed; split <;> rfl

theorem runReadFeed_store : (runReadFeed p s).state.store = s.store := by
  unfold runReadFeed; split <;> rfl

theorem runSetProfile_store : (runSetProfile p s).state.store = s.store := by
  unfold runSetProfile; split
  · split <;> rfl
  · rfl

theorem runOpenRasterPage_store : (runOpenRasterPage p s).state.store = s.store := by
  unfold runOpenRasterPage; split
  · split <;> rfl
  · rfl

theorem runPutCells_store : (runPutCells p s).state.store = s.store := by
  unfold runPutCells; split
  · rfl
  · split <;> rfl

theorem runWriteRasterPage_store : (runWriteRasterPage p s).state.store = s.store := by
  unfold runWriteRasterPage; split
  · rfl
  · dsimp only
    split <;> simp

theorem runCloseRasterPage_store : (runCloseRasterPage p s).state.store = s.store := by
  show (if s.staging.page = none then s else { s with staging := Staging.atRestart }).store = s.store
  split <;> rfl

theorem runReadCell_store : (runReadCell p s).state.store = s.store := by
  unfold runReadCell; split <;> rfl

theorem runSetAdmission_store : (runSetAdmission p s).state.store = s.store := by
  unfold runSetAdmission; split <;> rfl

theorem runParkLane_store : (runParkLane p s).state.store = s.store := by
  unfold runParkLane; split <;> rfl

theorem runUnparkLane_store : (runUnparkLane p s).state.store = s.store := by
  unfold runUnparkLane; split
  · dsimp only
    split <;> rfl
  · rfl

theorem runSetLaneOptions_store : (runSetLaneOptions p s).state.store = s.store := by
  unfold runSetLaneOptions; split <;> rfl

theorem runSetTimers_store : (runSetTimers p s).state.store = s.store := by
  unfold runSetTimers; split <;> rfl

theorem runReadLane_store : (runReadLane p s).state.store = s.store := by
  unfold runReadLane; split <;> rfl

theorem runSetSurveyMode_store : (runSetSurveyMode p s).state.store = s.store := by
  unfold runSetSurveyMode; split <;> rfl

theorem runContinue_store : (runContinue p s).state.store = s.store := by
  unfold runContinue; split <;> rfl

theorem runClearSurvey_store : (runClearSurvey p s).state.store = s.store :=
  State.work_store s (fun _ => clearSurvey)

theorem runSetWatchPolicy_store : (runSetWatchPolicy p s).state.store = s.store := by
  unfold runSetWatchPolicy; split <;> rfl

theorem runSpotMeasure_store : (runSpotMeasure p s).state.store = s.store := by
  unfold runSpotMeasure; split
  · dsimp only
    (repeat' split) <;> rfl
  · rfl

theorem runRenewHold_store : (runRenewHold p s).state.store = s.store := by
  unfold runRenewHold; split
  · rfl
  · dsimp only
    (repeat' split) <;> rfl

theorem runReleaseHold_store : (runReleaseHold p s).state.store = s.store := by
  unfold runReleaseHold; split
  · rfl
  · split <;> rfl

theorem runListServices_store : (runListServices p s).state.store = s.store := by
  unfold runListServices; split <;> rfl

theorem runReadService_store : (runReadService p s).state.store = s.store := by
  unfold runReadService; split <;> rfl

theorem runForgetService_store : (runForgetService p s).state.store = s.store := by
  unfold runForgetService; split
  · rfl
  · split <;> rfl

theorem runSetRankingPolicy_store : (runSetRankingPolicy p s).state.store = s.store := by
  unfold runSetRankingPolicy; split <;> rfl

theorem runPinSource_store : (runPinSource p s).state.store = s.store := by
  unfold runPinSource; split
  · split
    · split <;> rfl
    · rfl
  · rfl

theorem runUnpin_store : (runUnpin p s).state.store = s.store := by
  unfold runUnpin; split
  · rfl
  · split <;> rfl

theorem runTakeAdvice_store : (runTakeAdvice p s).state.store = s.store := by
  unfold runTakeAdvice; split
  · exact State.enter_store s _
  · rfl

end

/-! ## Every change of the store -/

/-- What a command can make of the store: it is left alone, a save or an erase of it begins with the page writer idle, the page
writer goes on, a restart finds it, or the end of start-up has reported its failure. -/
inductive State.Stores (s : State) : Store → Prop where
  | kept : s.Stores s.store
  | saveBegun (idle : s.store.writer = .idle) : s.Stores (beginSave s).store
  | eraseBegun (idle : s.store.writer = .idle) : s.Stores { s.store with status := .blank, writer := .erasing }
  | pageErased : s.Stores (eraseComplete s).store
  | pageWritten (flaws : Flaws) : s.Stores (writeComplete flaws s).store
  | restarted (r : RestartIn) (u : State) (found : u.store = s.store) : s.Stores (restart r u).store
  | startedUp : s.Stores { s.store with failNoted := false }

theorem State.Stores.of_eq {s : State} {t : Store} (h : t = s.store) : s.Stores t := h ▸ .kept

theorem runSaveSnapshot_stores (p : List Byte) (s : State) : s.Stores (runSaveSnapshot p s).state.store := by
  unfold runSaveSnapshot; split
  · next idle => exact .saveBegun idle
  · exact .kept

theorem runEraseStore_stores (p : List Byte) (s : State) : s.Stores (runEraseStore p s).state.store := by
  unfold runEraseStore; split
  · next idle => exact .eraseBegun idle
  · exact .kept

/-- Every request of Table 11.5. -/
theorem run_stores {v : Service} (hv : v ∈ catalogue) (p : List Byte) (s : State) : s.Stores (v.run p s).state.store :=
  have kept {f : List Byte → State → Served} (h : ∀ p s, (f p s).state.store = s.store) (p : List Byte) (s : State) :
      s.Stores (f p s).state.store := .of_eq (h p s)
  forall_catalogue (P := fun v => ∀ p s, s.Stores (v.run p s).state.store)
    ⟨fun _ _ => .kept, fun _ _ => .kept, kept runSetAcceptSet_store, kept runSetLinkMode_store, fun _ _ => .kept,
      fun _ _ => .kept, fun _ _ => .kept, kept runSetNoticeMask_store, kept runSetFeed_store, kept runReadFeed_store,
      kept runSetProfile_store, fun _ _ => .kept, kept runOpenRasterPage_store, kept runPutCells_store,
      kept runWriteRasterPage_store, kept runCloseRasterPage_store, kept runReadCell_store, kept runSetAdmission_store,
      fun _ _ => .kept, kept runParkLane_store, kept runUnparkLane_store, kept runSetLaneOptions_store,
      kept runSetTimers_store, fun _ _ => .kept, kept runReadLane_store, fun _ _ => .kept, fun _ _ => .kept,
      kept runSetSurveyMode_store, kept runContinue_store, kept runClearSurvey_store, fun _ _ => .kept,
      kept runSetWatchPolicy_store, fun _ _ => .kept, kept runSpotMeasure_store, kept runRenewHold_store,
      kept runReleaseHold_store, fun _ _ => .kept, kept runListServices_store, kept runReadService_store,
      kept runForgetService_store, kept runSetRankingPolicy_store, fun _ _ => .kept, kept runPinSource_store,
      kept runUnpin_store, kept runTakeAdvice_store, runSaveSnapshot_stores, runEraseStore_stores, fun _ _ => .kept⟩ hv p s

/-! ## The link -/

section
variable (s : State)

theorem owedRestart_stores : s.Stores (owedRestart s).store := .restarted _ _ rfl

theorem overrunNow_stores : s.Stores (overrunNow s).store := by
  rcases overrunNow_cases s with h | ⟨-, -, h⟩ | ⟨a, -, -, h⟩ <;> rw [h]
  · exact .kept
  · exact owedRestart_stores s
  · exact .kept

theorem replySent_stores : s.Stores (replySent s).store := by
  unfold replySent; split
  · exact .kept
  · split
    · exact owedRestart_stores s
    · exact .kept

theorem lengthFault_store (a n : Byte) : (lengthFault a n s).store = s.store := by
  rcases lengthFault_cases a n s with h | ⟨r, h⟩ <;> simp [h]

theorem gapFault_store (a : Byte) (got : List Byte) : (gapFault a got s).store = s.store := by
  unfold gapFault; split <;> rfl

theorem badCheck_store (k : Byte) (f : Req) : (badCheck k f s).store = s.store := by
  unfold badCheck; split <;> rfl

theorem quietEnds_store : (quietEnds s).store = s.store := by
  unfold quietEnds; split <;> rfl

variable {s}

theorem whenHunting_stores {k : State → State} (h : s.Stores (k s).store) : s.Stores (whenHunting k s).store := by
  rcases whenHunting_cases k s with e | e | ⟨-, e⟩ <;> rw [e]
  · exact .kept
  · exact overrunNow_stores s
  · exact h

theorem frame_stores {v : Service} (run : ∀ p, s.Stores (v.run p s).state.store) (f : Req) :
    s.Stores (v.frame f s).store := by
  unfold Service.frame; split
  · exact .kept
  · split
    · exact run _
    · exact .kept
  · show s.Stores (v.respond f.payload s).state.store
    rcases Service.respond_cases v f.payload s with h | h | ⟨-, -, h⟩ <;> rw [h]
    · exact .kept
    · exact .kept
    · exact run _

variable (s)

theorem serve_stores {v : Service} (hv : v ∈ catalogue) (f : Req) : s.Stores (serve v f s).store := by
  refine whenHunting_stores ?_
  split
  · exact .of_eq (lengthFault_store s _ _)
  · exact frame_stores (fun p => run_stores hv p s) f

theorem frameByKind_stores (k : Byte) (f : Req) : s.Stores (frameByKind catalogue k f s).store := by
  unfold frameByKind; split
  · exact .kept
  · split
    · next h => exact frame_stores (fun p => run_stores (List.mem_of_find?_eq_some h) p s) f
    · exact frame_stores (fun _ => .kept) f

theorem frameArrives_stores (k : Byte) (f : Req) : s.Stores (frameArrives k f s).store := by
  refine whenHunting_stores ?_
  split
  · exact .of_eq (lengthFault_store s _ _)
  · exact frameByKind_stores s k f

theorem lengthArrives_stores (a n : Byte) : s.Stores (lengthArrives a n s).store := by
  refine whenHunting_stores ?_
  split
  · exact .of_eq (lengthFault_store s a n)
  · exact .kept

theorem bytesStop_stores (a : Byte) (got : List Byte) : s.Stores (bytesStop a got s).store := by
  refine whenHunting_stores ?_
  split
  · exact .of_eq (gapFault_store s a got)
  · exact .kept

/-! ## Every command -/

theorem measureTimeout_store (l : Lane) : (measureTimeout l s).store = s.store := by
  unfold measureTimeout; dsimp only
  split <;> rfl

theorem refreshTimeout_store (l : Lane) : (refreshTimeout l s).store = s.store := by
  unfold refreshTimeout; dsimp only
  split <;> rfl

end

/-- Every command makes one of these changes of the store, or none. -/
theorem exec_stores (i : Instr) {s t : State} (h : exec i s = .next t) : s.Stores t.store := by
  have of_next {u : State} (hu : exec i s = .next u) (hs : s.Stores u.store) : s.Stores t.store :=
    Host.Outcome.next.inj (hu.symm.trans h) ▸ hs
  cases hr : requestOf i with
  | some kf =>
    obtain ⟨v, hv, hserve⟩ := exec_request hr s
    exact of_next hserve (serve_stores s hv kf.2)
  | none =>
    cases i <;> simp only [requestOf, reduceCtorEq] at hr
    case restartReplySent r =>
      refine of_next rfl ?_
      split
      · exact .restarted r s rfl
      · exact .kept
    case unknownKind k f => exact of_next rfl (frameArrives_stores s k f)
    case replyKindDiscarded k f => exact of_next rfl (frameArrives_stores s k f)
    case broadcastDiscarded k f => exact of_next rfl (frameArrives_stores s k f)
    case foreignFrame k f e =>
      cases e with
      | whole => exact of_next rfl (frameArrives_stores s k f)
      | badLength n => exact of_next rfl (lengthArrives_stores s f.addr n)
      | stopped got => exact of_next rfl (bytesStop_stores s f.addr got)
    case checkFault k c f =>
      refine of_next rfl (whenHunting_stores ?_)
      split
      · exact .of_eq (lengthFault_store s _ _)
      · split
        · exact frameByKind_stores s k f
        · exact .of_eq (badCheck_store s k f)
    case framingLengthFault a n => exact of_next rfl (lengthArrives_stores s a n)
    case framingGapTimeout a got => exact of_next rfl (bytesStop_stores s a got)
    case addressWaitTimeout => exact of_next rfl (whenHunting_stores .kept)
    case quietSilenceEnd => exact of_next rfl (.of_eq (quietEnds_store s))
    case overrun => exact of_next rfl (overrunNow_stores s)
    case measureTimerExpiry l => exact of_next rfl (.of_eq (measureTimeout_store s l))
    case holdRefreshExpiry l => exact of_next rfl (.of_eq (refreshTimeout_store s l))
    case pageEraseComplete => exact of_next rfl .pageErased
    case pageWriteComplete flaws => exact of_next rfl (.pageWritten flaws)
    case powerOn r => exact of_next rfl (.restarted r s rfl)
    case restartLine r => exact of_next rfl (.restarted r s rfl)
    case startUpEnd =>
      refine of_next rfl ?_
      split
      · exact .startedUp
      · exact .kept
    case replySent => exact of_next rfl (replySent_stores s)
    case watchDue c => exact of_next rfl .kept
    case forgetCheck => exact of_next rfl (.of_eq (State.enter_store s _))
    all_goals exact of_next rfl (.of_eq (State.work_store s _))

end Sys2Proof.Machine
end

section
/-! SUPPORT. The law of the store's header (R175 to R177) under every change of the store: the memory, the stage of a save and
what it vouches for, the two ends of a save, a restart; the statement that every step keeps it. -/

namespace Sys2Proof.Machine

/-! ## The memory and the capture -/

/-- The memory is canonical and lies in 64 KiB (R175). -/
def Memory.Right (m : List Host.Cell) : Prop := Memory.wf m = true ∧ ∀ e ∈ m, e.1 < 65536

theorem Memory.Right.erasePage {m : List Host.Cell} (h : Memory.Right m) (k : Fin 256) :
    Memory.Right (Memory.erasePage m k) :=
  ⟨Memory.erasePage_wf h.1 k, fun e he => h.2 e (Memory.mem_erasePage he)⟩

theorem Memory.Right.writePage {m : List Host.Cell} (h : Memory.Right m) (k : Fin 256) (bs : List Byte) :
    Memory.Right (Memory.writePage m k bs) := by
  refine ⟨Memory.writePage_wf h.1 k bs, fun e he => ?_⟩
  rcases Memory.mem_writeRun he with ⟨-, hlt⟩ | he
  · rw [List.length_take, pageBase] at hlt
    omega
  · exact h.2 e he

/-- A restart leaves the memory canonical and in 64 KiB. -/
theorem settledMemory_right (r : RestartIn) {t : Store} (h : Memory.Right t.mem) : Memory.Right (settledMemory r t) := by
  unfold settledMemory
  split
  case h_1 | h_9 | h_10 => exact h
  case h_7 | h_8 => exact h.writePage _ _
  all_goals exact h.erasePage _

/-- A capture has a whole number of pages, 1 to 163 (R176). -/
def Capture.Right (c : Capture) : Prop := c.bytes.length = 256 * c.pages ∧ 1 ≤ c.pages ∧ c.pages ≤ 163

theorem Capture.page_length_le (c : Capture) (k : Fin 256) : (c.page k).length ≤ 256 := by
  rw [Capture.page, List.length_take]
  exact Nat.min_le_left _ _

/-! ## The pages that hold the capture -/

theorem Memory.readRun_add (m : List Host.Cell) (a n n' : Nat) :
    Memory.readRun m a (n + n') = Memory.readRun m a n ++ Memory.readRun m (a + n) n' := by
  simp only [Memory.readRun, List.range_add, List.map_append, List.map_map, Function.comp_def, Nat.add_assoc]

theorem pagesHold_zero (m : List Host.Cell) (c : Capture) : pagesHold m c 0 := rfl

/-- A page that reads back as captured joins the pages before it (R179). -/
theorem pagesHold_page {m : List Host.Cell} {c : Capture} {k : Fin 256} (hk : 1 ≤ k.val) (h : pagesHold m c (k.val - 1))
    (hread : Memory.readPage m k = c.page k) : pagesHold m c k.val := by
  obtain ⟨n, hn⟩ : ∃ n, k.val = n + 1 := ⟨k.val - 1, by omega⟩
  rw [Memory.readPage, Capture.page, pageBase, hn, Nat.add_sub_cancel] at hread
  rw [hn, Nat.add_sub_cancel] at h
  rw [pagesHold] at h ⊢
  rw [hn, Nat.mul_succ, Memory.readRun_add, List.take_add, h, ← hread, Nat.add_comm 256, Nat.mul_succ]

/-- The whole image is held, and so its sum (R177). -/
theorem byteSum_of_pagesHold {m : List Host.Cell} {c : Capture} (hc : c.Right) (h : pagesHold m c c.pages) :
    byteSum (Memory.readRun m 256 (256 * c.pages)) = byteSum c.bytes := by
  rw [show Memory.readRun m 256 (256 * c.pages) = _ from h, List.take_of_length_le hc.1.le]

/-- The header page lies below the pages of the image, and a page k above the pages before it. -/
theorem pagesHold_erasePage {m : List Host.Cell} {c : Capture} {k : Fin 256} {n : Nat} (hm : Memory.Right m)
    (hk : k.val = 0 ∨ n < k.val) (h : pagesHold m c n) : pagesHold (Memory.erasePage m k) c n :=
  (Memory.readRun_erasePage hm.1 k _ _ (by rw [pageBase]; omega)).trans h

theorem pagesHold_writePage {m : List Host.Cell} {c : Capture} {k : Fin 256} {n : Nat} {bs : List Byte}
    (hm : Memory.Right m) (hbs : bs.length ≤ 256) (hk : k.val = 0 ∨ n < k.val) (h : pagesHold m c n) :
    pagesHold (Memory.writePage m k bs) c n :=
  (Memory.readRun_writePage hm.1 k bs hbs _ _ (by rw [pageBase]; omega)).trans h

/-! ## The law, while a save is under way and while none is -/

/-- What a stage of a save vouches for: its page is one of the image; from the first page until the header is written page 0
reads erased in its format word, and the pages verified hold the captured bytes (R177, R179). -/
def SaveStage.Vouches (g : SaveStage) (m : List Host.Cell) (c : Capture) : Prop :=
  match g with
  | .erasePage k _ | .writePage k _ =>
    (1 ≤ k.val ∧ k.val ≤ c.pages) ∧ headerFormat m = 0xFFFF ∧ pagesHold m c (k.val - 1)
  | .writeHeader _ => headerFormat m = 0xFFFF ∧ pagesHold m c c.pages
  | .eraseHeaderAgain => pagesHold m c c.pages
  | .eraseHeader | .eraseAfterFail => True

theorem SaveStage.Vouches.page {g : SaveStage} {m : List Host.Cell} {c : Capture} {k : Fin 256} (h : g.Vouches m c)
    (hk : g.page? = some k) : 1 ≤ k.val ∧ k.val ≤ c.pages := by
  cases g with
  | erasePage j _ | writePage j _ =>
    obtain rfl : j = k := Option.some.inj hk
    exact h.1
  | eraseHeader | writeHeader _ | eraseHeaderAgain | eraseAfterFail => cases hk

/-- The law speaks of the store alone. -/
theorem HeaderLaw.of_store {s t : State} (h : HeaderLaw s) (hst : t.store = s.store) : HeaderLaw t := by
  rw [HeaderLaw, StoreLaw, hst]
  exact h

/-- The law while the save of a capture is under way. -/
theorem headerLaw_of_saving {s : State} {g : SaveStage} {c : Capture} (hw : s.store.writer = .saving g)
    (hc : s.store.capture = some c) :
    HeaderLaw s ↔ Memory.Right s.store.mem ∧ s.store.status = .saving ∧ c.Right ∧ g.Vouches s.store.mem c := by
  constructor
  · rintro ⟨⟨hwf, hbound, hsaving, -, -, hpages, hpage⟩, -, hstage⟩
    refine ⟨⟨hwf, hbound⟩, hsaving.mpr (by rw [hw]; rfl), hpages c hc, ?_⟩
    have hstage := hstage c hc
    rw [hw] at hstage hpage
    cases g with
    | erasePage k again | writePage k again => exact ⟨hpage k c rfl hc, hstage⟩
    | writeHeader again | eraseHeaderAgain => exact hstage
    | eraseHeader | eraseAfterFail => trivial
  · rintro ⟨⟨hwf, hbound⟩, hsaving, hright, hvouches⟩
    rw [HeaderLaw, StoreLaw, hw, hc, hsaving]
    refine ⟨⟨hwf, hbound, iff_of_true rfl rfl, nofun, fun _ => rfl, ?_, ?_⟩, nofun, ?_⟩
    · rintro _ ⟨⟩
      exact hright
    · rintro k _ hk ⟨⟩
      exact hvouches.page hk
    · rintro _ ⟨⟩
      cases g with
      | erasePage k again | writePage k again => exact hvouches.2
      | writeHeader again | eraseHeaderAgain => exact hvouches
      | eraseHeader | eraseAfterFail => trivial

/-- The law while no save is under way. -/
theorem headerLaw_of_not_saving {s : State} (hw : s.store.writer.isSaving = false) :
    HeaderLaw s ↔ Memory.Right s.store.mem ∧ s.store.status ≠ .saving
      ∧ (s.store.writer = .erasing → s.store.status = .blank) ∧ (∀ c, s.store.capture = some c → c.Right)
      ∧ (s.store.status = .valid → judgeHeader s.store.mem = .valid ∧ headerCount s.store.mem = s.store.saveCount) := by
  cases hwriter : s.store.writer with
  | saving g => rw [hwriter] at hw; cases hw
  | idle | erasing =>
    simp [HeaderLaw, StoreLaw, hwriter, Memory.Right, Capture.Right, Writer.isSaving, Writer.page?, and_assoc]

/-- A save under way has its capture (R178). -/
theorem HeaderLaw.capture {s : State} {g : SaveStage} (h : HeaderLaw s) (hw : s.store.writer = .saving g) :
    ∃ c, s.store.capture = some c := by
  obtain ⟨⟨-, -, -, -, hcapture, -⟩, -⟩ := h
  exact Option.isSome_iff_exists.mp (hcapture (by rw [hw]; rfl))

theorem HeaderLaw.mem_right {s : State} (h : HeaderLaw s) : Memory.Right s.store.mem := by
  obtain ⟨⟨hwf, hbound, -⟩, -⟩ := h
  exact ⟨hwf, hbound⟩

theorem HeaderLaw.capture_right {s : State} {c : Capture} (h : HeaderLaw s) (hc : s.store.capture = some c) : c.Right := by
  obtain ⟨⟨-, -, -, -, -, hpages, -⟩, -⟩ := h
  exact hpages c hc

/-! ## A save goes on, fails or succeeds -/

section
variable {s : State} (h : HeaderLaw s)
include h

/-- A save that goes on to another stage, with what that stage vouches for. -/
theorem stage_headerLaw {g g' : SaveStage} {c : Capture} {m : List Host.Cell} (hw : s.store.writer = .saving g)
    (hc : s.store.capture = some c) (hm : Memory.Right m) (hg : g'.Vouches m c) : HeaderLaw (s.stage m g') := by
  obtain ⟨-, hsaving, hright, -⟩ := (headerLaw_of_saving hw hc).mp h
  exact (headerLaw_of_saving (s := s.stage m g') rfl hc).mpr ⟨hm, hsaving, hright, hg⟩

/-- A save that fails leaves the store BLANK, whatever the memory. -/
theorem failSave_headerLaw {m : List Host.Cell} (hm : Memory.Right m) :
    HeaderLaw (failSave (s.setStore { s.store with mem := m })) :=
  (headerLaw_of_not_saving rfl).mpr
    ⟨hm, nofun, fun _ => rfl, fun _ hc => h.capture_right hc, nofun⟩

/-- The completion of an erase. -/
theorem eraseComplete_headerLaw : HeaderLaw (eraseComplete s) := by
  have hm := h.mem_right
  cases hw : s.store.writer with
  | idle => rw [eraseComplete, hw]; exact h
  | erasing =>
    obtain ⟨-, -, hblank, -⟩ := (headerLaw_of_not_saving (by rw [hw]; rfl)).mp h
    have hblank := hblank hw
    rw [eraseComplete_erasing hw]
    refine (headerLaw_of_not_saving rfl).mpr ⟨hm.erasePage 0, ?_, fun _ => hblank, fun _ hc => h.capture_right hc, ?_⟩
    all_goals simp [hblank]
  | saving g =>
    obtain ⟨c, hc⟩ := h.capture hw
    obtain ⟨-, -, ⟨-, hmin, -⟩, hvouches⟩ := (headerLaw_of_saving hw hc).mp h
    cases g with
    | eraseHeader =>
      rw [eraseComplete_eraseHeader hw]
      exact stage_headerLaw h hw hc (hm.erasePage 0) ⟨⟨le_rfl, hmin⟩, headerFormat_erasePage hm.1, pagesHold_zero _ _⟩
    | erasePage k again =>
      obtain ⟨hk, hformat, hpages⟩ := hvouches
      rw [eraseComplete_erasePage hw]
      exact stage_headerLaw h hw hc (hm.erasePage k)
        ⟨hk, (headerFormat_erasePage_ne hm.1 k hk.1).trans hformat, pagesHold_erasePage hm (by omega) hpages⟩
    | eraseHeaderAgain =>
      rw [eraseComplete_eraseHeaderAgain hw]
      exact stage_headerLaw h hw hc (hm.erasePage 0)
        ⟨headerFormat_erasePage hm.1, pagesHold_erasePage hm (.inl rfl) hvouches⟩
    | eraseAfterFail =>
      rw [eraseComplete_eraseAfterFail hw]
      exact failSave_headerLaw h (hm.erasePage 0)
    | writePage k again | writeHeader again => rw [eraseComplete, hw]; exact h

/-- A page of the image written and read back: the next page or the header, the second try, or the failed save. -/
theorem writePageDone_headerLaw {c : Capture} {k : Fin 256} {again : Bool} (flaws : Flaws)
    (hw : s.store.writer = .saving (.writePage k again)) (hc : s.store.capture = some c) :
    HeaderLaw (writePageDone s c k again flaws) := by
  obtain ⟨hm, -, ⟨-, -, hmax⟩, ⟨hmin, hlast⟩, hformat, hpages⟩ := (headerLaw_of_saving hw hc).mp h
  have hlen : (takenBytes (c.page k) flaws).length ≤ 256 := (takenBytes_length _ _).trans_le (c.page_length_le k)
  have hm' : Memory.Right (s.pageMemory c k flaws) := hm.writePage k _
  have hformat' : headerFormat (s.pageMemory c k flaws) = 0xFFFF := (headerFormat_writePage hm.1 k _ hlen hmin).trans hformat
  have hpages' : pagesHold (s.pageMemory c k flaws) c (k.val - 1) := pagesHold_writePage hm hlen (by omega) hpages
  by_cases hread : Memory.readPage (s.pageMemory c k flaws) k = c.page k
  · have hverified := pagesHold_page hmin hpages' hread
    have hnext {g : SaveStage} (hg : g.Vouches (s.pageMemory c k flaws) c) :
        HeaderLaw ((s.setStore { s.store with verified := s.store.verified + 1 }).stage (s.pageMemory c k flaws) g) :=
      stage_headerLaw h hw hc hm' hg
    rw [writePageDone_verified hread]
    refine hnext ?_
    split
    · next hk => exact ⟨hformat', hk ▸ hverified⟩
    · next hk =>
      have hsucc : (k + 1).val = k.val + 1 := by
        rw [Fin.val_add_one_of_lt' (by omega)]
      exact ⟨by omega, hformat', by rw [hsucc]; exact hverified⟩
  · cases again with
    | false =>
      rw [writePageDone_retried hread]
      exact stage_headerLaw h hw hc hm' ⟨⟨hmin, hlast⟩, hformat', hpages'⟩
    | true =>
      rw [writePageDone_failed hread]
      exact failSave_headerLaw h hm'

/-- The header written and read back: the store becomes VALID, or page 0 is erased once more. -/
theorem writeHeaderDone_headerLaw {c : Capture} {again : Bool} (flaws : Flaws)
    (hw : s.store.writer = .saving (.writeHeader again)) (hc : s.store.capture = some c) :
    HeaderLaw (writeHeaderDone s c again flaws) := by
  obtain ⟨hm, -, hright, -, hpages⟩ := (headerLaw_of_saving hw hc).mp h
  have ⟨_, hmin, hmax⟩ := hright
  have hlen : (takenBytes (savedHeader s.store c) flaws).length = 256 :=
    (takenBytes_length _ _).trans (headerPage_length _ _ _)
  have hm' : Memory.Right (s.headerMemory c flaws) := hm.writePage 0 _
  by_cases hread : Memory.readPage (s.headerMemory c flaws) 0 = savedHeader s.store c
  · have htaken : takenBytes (savedHeader s.store c) flaws = savedHeader s.store c :=
      (Memory.readPage_writePage hm.1 0 _ hlen).symm.trans hread
    have hwritten : s.headerMemory c flaws = Memory.writePage s.store.mem 0 (savedHeader s.store c) :=
      congrArg (Memory.writePage s.store.mem 0) htaken
    obtain ⟨-, hcount, -, -⟩ :=
      header_written hm.1 c.pages (s.store.saveCount + 1) (byteSum c.bytes) (by omega)
    rw [writeHeaderDone_verified hread]
    refine (headerLaw_of_not_saving rfl).mpr ⟨hm', nofun, nofun, fun _ hc' => h.capture_right hc', fun _ => ?_⟩
    show judgeHeader (s.headerMemory c flaws) = .valid ∧ headerCount (s.headerMemory c flaws) = s.store.saveCount + 1
    rw [hwritten]
    exact ⟨judgeHeader_written hm.1 _ _ _ hmin hmax (byteSum_of_pagesHold hright hpages), hcount⟩
  · have hpages' : pagesHold (s.headerMemory c flaws) c c.pages := pagesHold_writePage hm hlen.le (.inl rfl) hpages
    rw [writeHeaderDone_mismatch hread]
    cases again with
    | false => exact stage_headerLaw h hw hc hm' hpages'
    | true => exact stage_headerLaw h hw hc hm' trivial

/-- The completion of a write. -/
theorem writeComplete_headerLaw (flaws : Flaws) : HeaderLaw (writeComplete flaws s) := by
  cases hc : s.store.capture with
  | none => rw [writeComplete, hc]; exact h
  | some c =>
    cases hw : s.store.writer with
    | idle | erasing => rw [writeComplete, hc, hw]; exact h
    | saving g =>
      cases g with
      | writePage k again => rw [writeComplete_writePage hc hw]; exact writePageDone_headerLaw h flaws hw hc
      | writeHeader again => rw [writeComplete_writeHeader hc hw]; exact writeHeaderDone_headerLaw h flaws hw hc
      | eraseHeader | erasePage k again | eraseHeaderAgain | eraseAfterFail => rw [writeComplete, hc, hw]; exact h

/-! ## Requests, restarts, steps -/

/-- Save Snapshot begins with the erase of page 0, which vouches for nothing yet (R178). -/
theorem beginSave_headerLaw : HeaderLaw (beginSave s) := by
  obtain ⟨hmin, hmax, hlen⟩ := capture_pages (imageOf s) s.draws
  exact (headerLaw_of_saving (s := beginSave s) rfl rfl).mpr ⟨h.mem_right, rfl, ⟨hlen, hmin, hmax⟩, trivial⟩

/-- Erase Store makes the status BLANK at once (R180). -/
theorem beginErase_headerLaw : HeaderLaw (s.setStore { s.store with status := .blank, writer := .erasing }) :=
  (headerLaw_of_not_saving rfl).mpr ⟨h.mem_right, nofun, fun _ => rfl, fun _ hc => h.capture_right hc, nofun⟩

/-- A restart takes the store for VALID only by its header, and with the header's save count (R181, R183). -/
theorem restart_headerLaw (r : RestartIn) : HeaderLaw (restart r s) := by
  have hm := settledMemory_right r h.mem_right
  by_cases hvalid : judgeHeader (settledMemory r s.store) = .valid
  · rw [restart_valid hvalid]
    exact (headerLaw_of_not_saving rfl).mpr ⟨hm, nofun, nofun, nofun, fun _ => ⟨hvalid, rfl⟩⟩
  · rw [restart_without_image hvalid]
    exact (headerLaw_of_not_saving rfl).mpr ⟨hm, nofun, nofun, nofun, nofun⟩

/-- Every change that a command makes of the store keeps the law. -/
theorem stores_headerLaw {t : State} (ht : s.Stores t.store) : HeaderLaw t := by
  generalize hu : t.store = u at ht
  cases ht with
  | kept => exact h.of_store hu
  | saveBegun _ => exact (beginSave_headerLaw h).of_store hu
  | eraseBegun _ => exact (beginErase_headerLaw h).of_store hu
  | pageErased => exact (eraseComplete_headerLaw h).of_store hu
  | pageWritten flaws => exact (writeComplete_headerLaw h flaws).of_store hu
  | restarted r v found => exact (restart_headerLaw (h.of_store found) r).of_store hu
  | startedUp =>
    have hstarted : HeaderLaw (s.setStore { s.store with failNoted := false }) := h
    exact hstarted.of_store hu

end

/-- Settles O58: by the changes of the store that a command can make; the queue and the clock are no part of it. -/
theorem storeHeaderStaysRight : Obligations.StoreHeaderStaysRight := by
  unfold Obligations.StoreHeaderStaysRight
  intro s t h hstep
  unfold step at hstep
  split at hstep
  · exact Host.Outcome.next.inj hstep ▸ h.of_store s.tick_store
  · next rest _ => exact stores_headerLaw (h.of_store (s.withPending_store rest)) (exec_stores _ hstep)

end Sys2Proof.Machine
end
